-- ==== Sys2Proof/Word.lean ====
section
/-! DEFINITION. The word types of the part: a byte of the ring, of the local port or of block memory, a
two-byte field, and a four-byte check or digest (spec/00_scope.md, Conventions). -/

namespace Sys2Proof

/-- One byte. -/
abbrev Byte := BitVec 8

/-- A field of two bytes. -/
abbrev Word16 := BitVec 16

/-- A check value or a digest of four bytes. -/
abbrev Word32 := BitVec 32

end Sys2Proof
end

