-- ==== Sys2Proof/Config.lean ====
section
/-! DEFINITION. What the manual fixes for every part (times, capacities, code values of no other home), and
the one free value of the model. Times are counted in REFCLK periods of 20 ns (spec/00_scope.md). -/

namespace Sys2Proof
namespace Config

/-- FREE VALUE (log 8). Which of the records that may be posted next is posted, where one event makes two
blocks post and the manual lets their records interleave in any way that keeps each block's own order
(R126, R130, R165). It is applied to `State.freeNext`; nothing is known of its values. -/
opaque postChoice : Nat → Nat

/-- Bytes of block memory (R82). -/
def memoryBytes : Nat := 131072

/-- Answer timeout T_a of a timing class, in REFCLK periods: 0.25, 1, 4 and 16 ms (spec/00_scope.md). -/
def answerTime (timingClass : BitVec 2) : Nat := 12500 * 4 ^ timingClass.toNat

/-- Probe interval, 2 T_a. -/
def probeTime (timingClass : BitVec 2) : Nat := 2 * answerTime timingClass

/-- Pause limit, 64 T_a. -/
def pauseTime (timingClass : BitVec 2) : Nat := 64 * answerTime timingClass

/-- Port idle limit, 256 T_a. -/
def idleTime (timingClass : BitVec 2) : Nat := 256 * answerTime timingClass

/-- Beacon period, 8 T_a. -/
def beaconTime (timingClass : BitVec 2) : Nat := 8 * answerTime timingClass

/-- Line quiet time, 8 µs. -/
def quietTime : Nat := 400

/-- Transmitter start period, 64 µs. -/
def startTime : Nat := 3200

/-- Yield threshold, 100 µs. -/
def yieldThreshold : Nat := 5000

/-- Yield hold limit, 400 µs. -/
def yieldHoldLimit : Nat := 20000

/-- IDLE symbols in the alignment run (R135). -/
def alignmentRun : Nat := 32

/-- Invalid symbols within one span that bring the link down (R138). -/
def codeErrorLimit : Nat := 8

/-- Symbols in one count span (R138). -/
def spanLength : Nat := 1024

/-- Capacity of the pass FIFO in bytes (R96, R104). -/
def passCapacity : Nat := 1104

/-- Capacity of the control queue in frames (R106). -/
def controlCapacity : Nat := 16

/-- Capacity of the data queue in entries (R24). -/
def dataCapacity : Nat := 8

/-- Capacity of the command FIFO in commands (R148). -/
def commandCapacity : Nat := 8

/-- The log's last place for an ordinary record: a posting that meets this many records overflows (R166). -/
def logThreshold : Nat := 31

/-- The data byte at which a stripped frame that has not ended is abandoned (R100). -/
def stripLimit : Nat := 1041

/-- Attempts of an OPEN or a FINISH (R22, R37). -/
def attemptLimit : Nat := 4

/-- Consecutive answer-timer expiries that end a streaming run (R31). -/
def timeoutLimit : Nat := 8

/-- Unheard beacon periods after which a peer is lost, and unreturned beacons after which the ring is
reported open (R125, R128). -/
def missLimit : Nat := 3

end Config
end Sys2Proof
end

