-- ==== Sys2Proof/Syntax.lean ====
section
/-! DEFINITION. The commands of the part: one constructor for each row of spec/opcode_table.json, in the
table's order. The table gives a row no bits and no fields; a constructor's arguments are what the event
brings into the part from outside (a symbol, a strap, a byte of an SPI transaction) or which of several
timers expired. What an event finds inside the part (a frame handed over by the RAU, the record at the
head of the command FIFO) is in the state. -/

namespace Sys2Proof

/-- The six kinds of symbol a link carries (R132). -/
inductive Symbol where
  /-- a data byte: a byte of a frame's header, checks or payload -/
  | data (b : Byte)
  /-- fill between frames -/
  | idle
  /-- start of frame -/
  | sof
  /-- end of frame -/
  | eof
  /-- the frame in progress is cut -/
  | abort
  /-- a received code group that is none of the above; never sent -/
  | invalid
  deriving DecidableEq, Repr

/-- The commands and events of spec/opcode_table.json. -/
inductive Instr where
  /-- RESET_N_ASSERTED (R140): RESET_N goes low. -/
  | resetNAsserted
  /-- RESET_N_RELEASED (R140): RESET_N goes high; the strap pins STN, RSZ and TCL are latched; `csLow` says
  whether CS_N is low at that moment (R144). -/
  | resetNReleased (stn rsz : BitVec 4) (tcl : BitVec 2) (csLow : Bool)
  /-- START_PERIOD_EXPIRY (R141). -/
  | startPeriodExpiry
  /-- SYMBOL_IN_DOWN (R134): a symbol is taken in DOWN. -/
  | symbolInDown (sym : Symbol)
  /-- SYMBOL_IN_ALIGN (R135): a symbol is taken in ALIGN. -/
  | symbolInAlign (sym : Symbol)
  /-- SYMBOL_IN_UP (R136): a symbol is taken in UP. -/
  | symbolInUp (sym : Symbol)
  /-- QUIET_TIMER_EXPIRY (R137). -/
  | quietTimerExpiry
  /-- HEADER_DECISION (R98), at the twelfth data byte of the frame in reception. -/
  | headerDecision
  /-- OPEN (R53): the Port Engine takes a delivered OPEN. -/
  | openFrame
  /-- FINISH (R65): the Port Engine takes a delivered FINISH. -/
  | finishFrame
  /-- CANCEL (R68): the Port Engine takes a delivered CANCEL. -/
  | cancelFrame
  /-- BLOCK (R61): the Port Engine is told how a stripped BLOCK ended. -/
  | blockFrame
  /-- GRANT (R20): the Run Engine takes a delivered GRANT. -/
  | grantFrame
  /-- REFUSE (R21). -/
  | refuseFrame
  /-- TAKEN (R28). -/
  | takenFrame
  /-- RESUME (R29). -/
  | resumeFrame
  /-- BUSY (R30). -/
  | busyFrame
  /-- HALTED (R39). -/
  | haltedFrame
  /-- CLOSED (R36). -/
  | closedFrame
  /-- RETURNED_FRAME (R23): the Run Engine takes a frame that came back to its source. -/
  | returnedFrame
  /-- ROLL (R123): the Roll Call Unit takes a copied ROLL. -/
  | rollFrame
  /-- OWN_BEACON (R127): the Roll Call Unit takes a stripped ROLL that carries the own Src. -/
  | ownBeacon
  /-- BEACON_PERIOD_EXPIRY (R120). -/
  | beaconPeriodExpiry
  /-- ANSWER_EXPIRY_OPENING (R22) at a slot. -/
  | answerExpiryOpening (slot : Fin 8)
  /-- ANSWER_EXPIRY_STREAMING (R31) at a slot. -/
  | answerExpiryStreaming (slot : Fin 8)
  /-- ANSWER_EXPIRY_CLOSING (R37) at a slot. -/
  | answerExpiryClosing (slot : Fin 8)
  /-- PROBE_TIMER_EXPIRY (R32) at a slot. -/
  | probeTimerExpiry (slot : Fin 8)
  /-- PAUSE_TIMER_EXPIRY (R34) at a slot. -/
  | pauseTimerExpiry (slot : Fin 8)
  /-- IDLE_TIMER_EXPIRY (R71) at a port. -/
  | idleTimerExpiry (port : Fin 8)
  /-- DATA_QUEUE_GRANT (R24). -/
  | dataQueueGrant
  /-- FORWARD_START (R101). -/
  | forwardStart
  /-- FORWARD_END (R102). -/
  | forwardEnd
  /-- INSERTION_START (R109). -/
  | insertionStart
  /-- INSERTION_END (R111). -/
  | insertionEnd
  /-- YIELD_THRESHOLD_EXPIRY (R113). -/
  | yieldThresholdExpiry
  /-- YIELD_HOLD_EXPIRY (R115). -/
  | yieldHoldExpiry
  /-- COMMAND (R147): CS_N rises at the end of a COMMAND transaction in which these bytes were completed
  after the code byte. -/
  | command (bytes : List Byte)
  /-- START_RUN (R157): the Command Unit takes a START_RUN from the FIFO's head. -/
  | startRun
  /-- CANCEL_RUN (R158). -/
  | cancelRun
  /-- OPEN_PORT (R159). -/
  | openPort
  /-- RELEASE_BANK (R160). -/
  | releaseBank
  /-- HALT_PORT (R76). -/
  | haltPort
  /-- UNHALT_PORT (R77). -/
  | unhaltPort
  /-- CLOSE_PORT (R78). -/
  | closePort
  /-- SOFT_RESET (R162). -/
  | softReset
  /-- UNKNOWN_COMMAND (R156): the record at the FIFO's head names no command. -/
  | unknownCommand
  /-- LOG_READ (R149): the code byte of a LOG_READ completes. -/
  | logRead
  /-- LOG_READ_DONE (R168): the last bit of the copy has been shifted out. -/
  | logReadDone
  /-- MEM_WRITE (R88): the length field of a MEM_WRITE completes. -/
  | memWrite (addr : BitVec 24) (len : Word16)
  /-- MEM_WRITE_DATA (R89): a data byte of a MEM_WRITE completes. -/
  | memWriteData (b : Byte)
  /-- MEM_WRITE_CLOSE (R152): CS_N rises at the end of a MEM_WRITE. -/
  | memWriteClose
  /-- MEM_READ (R90): the length field of a MEM_READ completes. -/
  | memRead (addr : BitVec 24) (len : Word16)
  /-- MEM_READ_DATA (R86): the next data byte of a MEM_READ is due. -/
  | memReadData
  /-- INSPECT (R153): the index byte of an INSPECT completes. -/
  | inspect (target index : Byte)
  /-- TRANSACTION_IGNORED (R145): a code byte that names no transaction completes. -/
  | transactionIgnored (code : Byte)
  /-- TRANSACTION_END (R144): CS_N rises. -/
  | transactionEnd
  deriving DecidableEq, Repr

end Sys2Proof
end

