-- ==== Sys2Proof/Machine/State.lean ====
section
/-! DEFINITION. The state of the part, as plain data: every table, queue, timer, flag and pin that
spec/ names, and the queue of commands that wait. A field the manual calls absent in some states is either
an `Option` or stands inside the constructor of the states in which it is present. -/

namespace Sys2Proof.Machine

open Sys2Proof

/-- A timer: stopped, or running with that many REFCLK periods left. A running timer with 0 left is due
(log 2). -/
abbrev Timer := Option Nat

/-- Block memory: the bytes that are not 0, by address, addresses strictly rising. A byte that is not listed
is 0, as every byte is after a hardware reset (R82). -/
abbrev Memory := List Host.Cell

/-- The strap values in force (spec/00_scope.md, Strap Configuration). -/
structure Straps where
  /-- STN3..STN0, the station number -/
  stn : BitVec 4
  /-- RSZ3..RSZ0; value v gives a ring size of v + 1 -/
  rsz : BitVec 4
  /-- TCL1..TCL0, the timing class -/
  tcl : BitVec 2
  deriving DecidableEq, Repr

/-! ### The ring link (chapter 7) -/

/-- States of the Link Receiver (R133). -/
inductive RxState where
  | down
  | align
  | up
  deriving DecidableEq, Repr

/-- The Link Receiver (R133). -/
structure Receiver where
  state : RxState
  /-- alignment run: consecutive IDLE symbols taken in ALIGN -/
  run : Nat
  /-- span position: symbols taken in the current count span -/
  span : Nat
  /-- code-error count: invalid symbols taken in the current count span -/
  errors : Nat
  /-- quiet timer, 8 µs -/
  quiet : Timer
  deriving DecidableEq, Repr

/-- States of the Link Transmitter (R140); while RESET_N is low it is in neither START nor RUN. -/
inductive TxState where
  | held
  | start
  | run
  deriving DecidableEq, Repr

/-- The Link Transmitter (R140). -/
structure Transmitter where
  state : TxState
  /-- start-period timer, 64 µs -/
  startTimer : Timer
  deriving DecidableEq, Repr

/-- What RING_OUT carries: nothing (R140), or a symbol. -/
inductive Line where
  | quiet
  | carries (sym : Symbol)
  deriving DecidableEq, Repr

/-! ### Frames (chapter 1) -/

/-- The twelve frame kinds (R10). -/
inductive Kind where
  | block
  | open_
  | finish
  | cancel
  | grant
  | refuse
  | taken
  | resume
  | busy
  | halted
  | closed
  | roll
  deriving DecidableEq, Repr

/-- The header and header check of an arriving frame (R177). -/
structure Header where
  dest : Byte
  src : Byte
  kind : Byte
  flags : Byte
  hops : Byte
  port : Byte
  tag : Byte
  seq : Byte
  len : Word16
  check : Word16
  deriving DecidableEq, Repr

/-- A complete own frame as it is offered to the control queue (R106). -/
structure OwnFrame where
  dest : Byte
  kind : Kind
  port : Byte
  tag : Byte
  seq : Byte
  payload : List Byte
  deriving DecidableEq, Repr

/-- Reasons of a HALTED frame this station sends (R12). -/
inductive HaltReason where
  | localHalt
  | portClosed
  | notBound
  deriving DecidableEq, Repr

/-- Reasons of a REFUSE frame this station sends (R12). -/
inductive RefuseReason where
  | noPort
  | portBusy
  | halted
  | badParam
  deriving DecidableEq, Repr

/-! ### The Ring Access Unit (chapter 5) -/

/-- Where the payload of an expected BLOCK goes (R57): fixed at the header but for `written` and `trial`. -/
structure BankWrite where
  /-- address of the block position -/
  target : Nat
  /-- payload bytes to be written: the smaller of Len and the binding's block size -/
  limit : Nat
  /-- payload bytes written so far -/
  written : Nat
  /-- the trial value of the receiver digest -/
  trial : Word32
  deriving DecidableEq, Repr

/-- The class of a BLOCK, fixed at its header (R55, R56). -/
inductive BlockClass where
  /-- not of a bound run: HALTED with this reason at the frame's end (R55) -/
  | refused (reason : HaltReason)
  /-- expected, with a current bank (R57) -/
  | expected (w : BankWrite)
  /-- expected, with no current bank (R58) -/
  | expectedNoBank
  /-- ahead (R59) -/
  | ahead
  /-- behind (R60) -/
  | behind
  /-- past the end of the run, or behind with nothing accepted (R56): no reply -/
  | noReply
  deriving DecidableEq, Repr

/-- What becomes of a stripped frame (R98, R100). -/
inductive Strip where
  /-- row 1, any kind but BLOCK: delivered at its end if R15 finds it valid -/
  | control
  /-- row 1, a BLOCK handed to the Port Engine at its header -/
  | block (c : BlockClass)
  /-- row 1, a BLOCK discarded at its header (R15 tests 2 and 4, or SILENT) -/
  | discarded
  /-- row 2 -/
  | ownBeacon
  /-- row 4 -/
  | returned
  deriving DecidableEq, Repr

/-- The decision of R98 and R99. -/
inductive Decision where
  | drop
  | forward
  /-- copied; `forwarded` tells whether it is also forwarded (R99) -/
  | copy (forwarded : Bool)
  | strip (s : Strip)
  deriving DecidableEq, Repr

/-- The frame being received (R96). -/
structure Reception where
  /-- header and header-check bytes, at most twelve -/
  header : List Byte
  /-- the decision, once it is taken -/
  decision : Option Decision
  /-- data bytes since SOF -/
  count : Nat
  /-- data bytes after the twelfth, of a frame that is copied or stripped -/
  body : List Byte
  deriving DecidableEq, Repr

/-- How a frame ended. -/
inductive FrameEnd where
  | eof
  | abort
  deriving DecidableEq, Repr

/-- One frame in the pass FIFO: its bytes not yet emitted and the note of its end (R101). -/
structure PassFrame where
  bytes : List Byte
  ended : Option FrameEnd
  deriving DecidableEq, Repr

/-- How a BLOCK ended, as the Port Engine is told (R52). -/
inductive BlockEnd where
  | intact
  | damaged
  | abandoned
  deriving DecidableEq, Repr

/-- What the RAU has handed over and its engine has not yet taken (R52, R100; log 4). -/
inductive Handover where
  /-- a valid control frame addressed to this station -/
  | frame (k : Kind) (h : Header) (payload : List Byte)
  /-- the end of a BLOCK that was handed to the Port Engine at its header -/
  | block (h : Header) (c : BlockClass) (e : BlockEnd)
  /-- a unicast frame that came back to its source -/
  | returned (h : Header)
  /-- a valid ROLL copied from another station -/
  | roll (h : Header) (payload : List Byte)
  /-- a valid ROLL with the own Src -/
  | ownRoll (h : Header) (payload : List Byte)
  deriving DecidableEq, Repr

/-- What is being sent on RING_OUT (R96). -/
inductive Output where
  | free
  /-- the frame at the head of the pass FIFO; `lead` are the symbols still to go before its next byte -/
  | forwarding (lead : List Symbol)
  /-- an own frame: the slot and block index where it is a BLOCK, and its symbols still to go, but for EOF -/
  | inserting (block : Option (Fin 8 × Nat)) (left : List Symbol)
  deriving DecidableEq, Repr

/-- One data-queue entry (R96). -/
structure DataEntry where
  slot : Fin 8
  index : Nat
  deriving DecidableEq, Repr

/-- The Ring Access Unit (R96). -/
structure Rau where
  reception : Option Reception
  handover : Option Handover
  passFifo : List PassFrame
  output : Output
  /-- IDLE symbols sent since the last frame ended, counted to 2 (R101) -/
  gap : Nat
  controlQueue : List OwnFrame
  dataQueue : List DataEntry
  marking : Bool
  /-- yield threshold timer, 100 µs -/
  threshold : Timer
  inHold : Bool
  /-- yield hold timer, 400 µs -/
  holdTimer : Timer
  deriving DecidableEq, Repr

/-! ### The Run Engine (chapter 2) -/

/-- States of a slot that is not FREE (R16). -/
inductive Phase where
  | opening
  | streaming
  | paused
  | closing
  | ending
  deriving DecidableEq, Repr

/-- Results of a run (R47). -/
inductive RunResult where
  | done
  | digestMismatch
  | refused
  | noAnswer
  | closeUnconfirmed
  | stalled
  | haltedByPeer
  | cancelled
  | peerLost
  | undelivered
  | silenced
  deriving DecidableEq, Repr

/-- The record of a slot that is not FREE (R16). -/
structure Run where
  phase : Phase
  tag : Byte
  dest : Byte
  port : Byte
  base : Nat
  size : Nat
  count : Nat
  /-- requested window -/
  window : Nat
  granted : Option Nat
  taken : Nat
  sent : Nat
  digestIndex : Nat
  /-- the running digest, before its final inversion -/
  digest : Word32
  attempts : Nat
  timeouts : Nat
  /-- the pending result of a slot in ENDING, with its reason where it has one -/
  owed : Option (RunResult × Option Byte)
  answer : Timer
  probe : Timer
  pause : Timer
  deriving DecidableEq, Repr

/-- A slot: FREE, or a run (R16). -/
abbrev Slot := Option Run

/-! ### The Port Engine (chapter 3) -/

/-- The two banks of a port. -/
inductive BankId where
  | a
  | b
  deriving DecidableEq, Repr

/-- The run whose blocks a bank holds (R49). -/
structure Owner where
  source : Byte
  tag : Byte
  size : Nat
  deriving DecidableEq, Repr

/-- State, owner and fill of a bank (R49): a FREE bank has no owner and fill 0. -/
inductive BankContent where
  | free
  | filling (o : Owner) (fill : Nat)
  | full (o : Owner) (fill : Nat)
  deriving DecidableEq, Repr

/-- A bank of a port that is not CLOSED (R49). -/
structure Bank where
  base : Nat
  capacity : Nat
  content : BankContent
  deriving DecidableEq, Repr

/-- The binding of a BOUND port (R50). -/
structure Binding where
  source : Byte
  tag : Byte
  size : Nat
  count : Nat
  granted : Nat
  accepted : Nat
  /-- the receiver digest, before its final inversion -/
  digest : Word32
  busyOwed : Bool
  resumeSent : Bool
  deriving DecidableEq, Repr

/-- States of a port that is not CLOSED (R48). Only a BOUND port has a binding, a current bank and a running
idle timer. -/
inductive PortMode where
  | listening
  | bound (b : Binding) (current : Option BankId) (idle : Timer)
  | halted
  deriving DecidableEq, Repr

/-- The last-closed note (R50). -/
structure Note where
  source : Byte
  tag : Byte
  /-- MATCH, or MISMATCH -/
  matched : Bool
  accepted : Nat
  deriving DecidableEq, Repr

/-- The record of a port that is not CLOSED (R48). -/
structure OpenPort where
  maxSize : Nat
  maxWindow : Nat
  bankA : Bank
  bankB : Bank
  mode : PortMode
  note : Option Note
  deriving DecidableEq, Repr

/-- A port: CLOSED, with every field absent (R51, R78), or open. -/
abbrev Port := Option OpenPort

/-- Results of a binding (R81). -/
inductive PortResult where
  | matched
  | mismatched
  | cancelledByPeer
  | abandoned
  | peerLost
  | haltedLocally
  | closedLocally
  | silenced
  deriving DecidableEq, Repr

/-! ### The Roll Call Unit (chapter 6) -/

/-- What the station knows of one station number (R119). -/
inductive PeerState where
  | absent
  | present (misses : Nat) (beacon : Word16) (timingClass ringSize : Byte)
  | self
  deriving DecidableEq, Repr

/-- An entry of the Peer Table (R119). -/
structure Peer where
  state : PeerState
  heard : Bool
  deriving DecidableEq, Repr

/-- The beacon in flight (R118). -/
structure Beacon where
  number : Word16
  sent : Bool
  returned : Bool
  deriving DecidableEq, Repr

/-- The Roll Call Unit's state besides the Peer Table (R118). -/
structure RollCall where
  /-- beacon period timer, 8 T_a -/
  timer : Timer
  number : Word16
  stamp : Option Word16
  inFlight : Option Beacon
  misses : Nat
  ringOpen : Bool
  silent : Bool
  deriving DecidableEq, Repr

/-! ### The Completion Log (chapter 9) -/

/-- Reasons of a CMD_REJECTED record (R173). -/
inductive RejectReason where
  | fifoFull
  | badCommand
  | silent
  | badSlot
  | slotBusy
  | badPort
  | wrongState
  | badParam
  | noPeer
  | overlap
  | inUse
  deriving DecidableEq, Repr

/-- A record of the Completion Log (R172). -/
inductive Record where
  | runEnd (slot : Fin 8) (tag dest port : Byte) (taken : Nat) (result : RunResult) (reason : Option Byte)
  | portRunEnd (port : Fin 8) (source tag : Byte) (accepted : Nat) (result : PortResult)
  /-- `short` is the record's partial field: the bank was closed below its capacity -/
  | bankFull (port : Fin 8) (bank : BankId) (base blocks : Nat) (short : Bool) (source tag : Byte)
  | cmdRejected (code index : Byte) (reason : RejectReason)
  | peerFound (station : Fin 16)
  | peerLost (station : Fin 16)
  | classMismatch (station : Fin 16) (timingClass : Byte)
  | sizeMismatch (station : Fin 16) (ringSize : Byte)
  | ringOpen
  | ringClosed
  | duplicateStation
  | linkUp
  | linkDown
  | softResetDone
  | logOverflow (lost : Nat)
  deriving DecidableEq, Repr

/-! ### The Local Port (chapter 8) -/

/-- Phases of a transaction (R145). -/
inductive SpiPhase where
  /-- CS_N is high -/
  | none
  /-- byte 1 is arriving -/
  | code
  | body
  | ignore
  deriving DecidableEq, Repr

/-- Kinds of a transaction (R145). -/
inductive SpiKind where
  | command
  | logRead
  | memWrite
  | memRead
  | inspect
  deriving DecidableEq, Repr

/-- Verdicts on a window transaction (R88, R90). -/
inductive Verdict where
  | accepted
  | fenced
  | range
  deriving DecidableEq, Repr

/-- The levels that the local controller puts on CS_N, SCK and SDI for one REFCLK period (R144, log 21). -/
structure BusLevels where
  csLow : Bool
  sck : Bool
  sdi : Bool
  deriving DecidableEq, Repr

/-- The Local Port (R145) with the levels of its pins (R144). -/
structure LocalPort where
  /-- CS_N is low -/
  csLow : Bool
  /-- SCK is high -/
  sck : Bool
  /-- the level of SDO; none while it is high impedance -/
  sdo : Option Bool
  /-- CS_N was low at the release of RESET_N and has not risen since (R144) -/
  waitRise : Bool
  phase : SpiPhase
  /-- fixed when the code byte completes -/
  kind : Option SpiKind
  /-- bytes completed so far -/
  bytes : Nat
  /-- the bits of the byte that is arriving, in order, fewer than eight -/
  bits : List Bool
  /-- record bytes of a COMMAND, at most sixteen -/
  record : List Byte
  addr : BitVec 24
  len : Word16
  target : Byte
  index : Byte
  verdict : Option Verdict
  /-- data bytes of a window transaction moved so far -/
  moved : Nat
  /-- the bytes the part shifts out, from the status byte on, as far as they are fixed -/
  outgoing : List Byte
  deriving DecidableEq, Repr

/-! ### The whole part -/

/-- Why the machine stops. -/
inductive Fault where
  /-- Raised by a memory access at an address past 0x1FFFF, which block memory does not have (R82).
  Safe: the regions of runs, banks and accepted window transactions lie within the memory, so no run from
  reset raises it; the model stops instead of choosing a byte (log 7). -/
  | noSuchByte (addr : Nat)
  deriving DecidableEq, Repr

/-- Why a command has no meaning. -/
inductive Refusal where
  /-- Raised by `exec` for a command that has no meaning yet; no arm uses it. Safe: the model stops. -/
  | notModelled (mnemonic : String)
  deriving DecidableEq, Repr

/-- The state of the part. -/
structure State where
  /-- the commands that wait, first in, first out (log 1) -/
  pending : List Instr
  /-- RESET_N is low -/
  resetLow : Bool
  straps : Straps
  /-- the counter the origin stamp is taken from (R122) -/
  refclk : Word16
  rx : Receiver
  tx : Transmitter
  ringOut : Line
  rau : Rau
  slots : Vector Slot 8
  /-- the tag the next accepted START_RUN takes (R17) -/
  tagCounter : Byte
  /-- the slot the data-queue arbiter served last (R17) -/
  rrPointer : Fin 8
  ports : Vector Port 8
  peers : Vector Peer 16
  rollCall : RollCall
  mem : Memory
  /-- command FIFO, oldest first; a record is sixteen bytes (R148) -/
  commandFifo : List (List Byte)
  /-- Completion Log, oldest first (R164) -/
  log : List Record
  /-- the log's note of the record a LOG_READ copied (R168) -/
  logCopied : Option Record
  spi : LocalPort
  /-- what the local controller will put on its bus in the REFCLK periods to come (log 21) -/
  drive : List BusLevels
  /-- the model's own counter for the free value of log 8 -/
  freeNext : Nat
  deriving DecidableEq, Repr

/-- The Link Receiver after a hardware reset (R133). -/
def Receiver.reset : Receiver := { state := .down, run := 0, span := 0, errors := 0, quiet := none }

/-- The RAU after a hardware reset (R96). -/
def Rau.reset : Rau :=
  { reception := none, handover := none, passFifo := [], output := .free, gap := 2, controlQueue := [],
    dataQueue := [], marking := false, threshold := none, inHold := false, holdTimer := none }

/-- The Roll Call Unit after a hardware reset (R118). -/
def RollCall.reset : RollCall :=
  { timer := none, number := 0, stamp := none, inFlight := none, misses := 0, ringOpen := false, silent := false }

/-- The Local Port with no transaction: CS_N high, SCK low and SDO high impedance (R144, R145). -/
def LocalPort.reset : LocalPort :=
  { csLow := false, sck := false, sdo := none, waitRise := false, phase := .none, kind := none, bytes := 0, bits := [],
    record := [], addr := 0, len := 0, target := 0, index := 0, verdict := none, moved := 0, outgoing := [] }

/-- The part after a hardware reset: RESET_N is low and every item has its reset value. The straps are latched
at the release of RESET_N (logs 5, 6). -/
def State.reset : State :=
  { pending := [], resetLow := true, straps := { stn := 0, rsz := 0, tcl := 0 }, refclk := 0,
    rx := Receiver.reset, tx := { state := .held, startTimer := none }, ringOut := .quiet, rau := Rau.reset,
    slots := Vector.replicate 8 none, tagCounter := 0, rrPointer := 7, ports := Vector.replicate 8 none,
    peers := Vector.replicate 16 { state := .absent, heard := false }, rollCall := RollCall.reset, mem := [],
    commandFifo := [], log := [], logCopied := none, spi := LocalPort.reset, drive := [], freeNext := 0 }

end Sys2Proof.Machine
end

