-- ==== Sys2Proof/Machine/Ops.lean ====
section
/-! DEFINITION. The named operations over the state that the meanings share: block memory, regions and the
fence, timers, the Completion Log, the control queue and the data queue, and the writes of single table
entries. -/

namespace Sys2Proof.Machine

open Sys2Proof

/-! ### Block memory (chapter 4) -/

/-- The byte at an address: an unlisted address reads 0 (R82). -/
def Memory.read : Memory → Nat → Byte
  | [], _ => 0
  | (k, v) :: m, a => if a = k then v else Memory.read m a

/-- Write one byte; writing 0 removes the entry. -/
def Memory.write : Memory → Nat → Byte → Memory
  | [], a, b => if b = 0 then [] else [(a, b)]
  | (k, v) :: m, a, b =>
    if a < k then (if b = 0 then (k, v) :: m else (a, b) :: (k, v) :: m)
    else if a = k then (if b = 0 then m else (a, b) :: m)
    else (k, v) :: Memory.write m a b

/-- Every listed address is at least `lo`, the addresses rise strictly and lie in the memory, and no listed
byte is 0. -/
def Memory.wfFrom : Nat → Memory → Bool
  | _, [] => true
  | lo, (k, v) :: m => lo ≤ k && k < Config.memoryBytes && v != 0 && Memory.wfFrom (k + 1) m

/-- The canonical form: equal memories are equal lists. -/
def Memory.wf (m : Memory) : Bool := Memory.wfFrom 0 m

/-- Read one byte; an address the memory does not have is a fault (R82, log 7). -/
def readByte (a : Nat) (s : State) : Except Fault Byte :=
  if a < Config.memoryBytes then .ok (Memory.read s.mem a) else .error (.noSuchByte a)

/-- Write one byte; an address the memory does not have is a fault (R82, log 7). -/
def writeByte (a : Nat) (b : Byte) (s : State) : Except Fault State :=
  if a < Config.memoryBytes then .ok { s with mem := Memory.write s.mem a b } else .error (.noSuchByte a)

/-- The `n` bytes of memory from address `a` on, in address order. -/
def Memory.bytesFrom (m : Memory) (a : Nat) : Nat → List Byte
  | 0 => []
  | n + 1 => Memory.read m a :: Memory.bytesFrom m (a + 1) n

/-- The BLOCK reader's claims for `n` bytes from `a` on (R85). -/
def readBytes (a n : Nat) (s : State) : Except Fault (List Byte) :=
  if a + n ≤ Config.memoryBytes then .ok (Memory.bytesFrom s.mem a n) else .error (.noSuchByte (a + n - 1))

/-- A fault ends the step; otherwise the step answers the next state. -/
def outcome : Except Fault State → Host.Outcome State Fault Refusal
  | .ok s => .next s
  | .error f => .fault f

/-- An event that is due now is the next command. -/
def due (c : Instr) (s : State) : State := { s with pending := s.pending ++ [c] }

/-! ### Straps and times -/

/-- The own station number as it stands in frames (R3). -/
def State.own (s : State) : Byte := s.straps.stn.setWidth 8

/-- The strapped ring size, RSZ + 1, as it stands in frames (R5, R13). -/
def State.ringSize (s : State) : Byte := s.straps.rsz.setWidth 8 + 1

/-- The answer timer's time in the strapped class. -/
def State.answerTime (s : State) : Nat := Config.answerTime s.straps.tcl

/-- ATTN_N is driven low (R163): the log holds at least one record. -/
def State.attention (s : State) : Bool := !s.log.isEmpty

/-- A timer after one REFCLK period: it runs down to 0 and is then due (log 2). -/
def Timer.tick (t : Timer) : Timer := t.map (· - 1)

/-! ### Tables -/

/-- The slot numbers in order. -/
def slotNumbers : List (Fin 8) := [0, 1, 2, 3, 4, 5, 6, 7]

/-- The port numbers in order. -/
def portNumbers : List (Fin 8) := [0, 1, 2, 3, 4, 5, 6, 7]

/-- The station numbers in order. -/
def stationNumbers : List (Fin 16) := [0, 1, 2, 3, 4, 5, 6, 7, 8, 9, 10, 11, 12, 13, 14, 15]

/-- Apply a function to every entry of a table. -/
def mapTable {α β : Type} {n : Nat} (f : α → β) (v : Vector α n) : Vector β n :=
  ⟨⟨v.toList.map f⟩, by simp⟩

/-- Write one slot of the Run Table. -/
def setSlot (i : Fin 8) (r : Slot) (s : State) : State := { s with slots := s.slots.set i r }

/-- Write one port of the Port Table. -/
def setPort (i : Fin 8) (p : Port) (s : State) : State := { s with ports := s.ports.set i p }

/-- Write one entry of the Peer Table. -/
def setPeer (i : Fin 16) (p : Peer) (s : State) : State := { s with peers := s.peers.set i p }

/-- The port a frame's Port byte names, if it names one (R48). -/
def portNumber (b : Byte) : Option (Fin 8) :=
  if h : b.toNat < 8 then some ⟨b.toNat, h⟩ else none

/-- The slot an index byte names, if it names one. -/
def slotNumber (b : Byte) : Option (Fin 8) :=
  if h : b.toNat < 8 then some ⟨b.toNat, h⟩ else none

/-- The station a byte names, if it names one. -/
def stationNumber (b : Byte) : Option (Fin 16) :=
  if h : b.toNat < 16 then some ⟨b.toNat, h⟩ else none

/-- The distance from `a` to `b` in sequence arithmetic (spec/00_scope.md, Conventions). -/
def seqDistance (a b : Nat) : Nat := (b + 8 - a % 8) % 8

/-- A count as a sequence number: modulo 8 (R4). -/
def seqByte (n : Nat) : Byte := BitVec.ofNat 8 (n % 8)

/-! ### The Completion Log (chapter 9) -/

/-- The lost count after one more record is turned away (R167). -/
def bumpLost (n : Nat) : Nat := if n < 255 then n + 1 else n

/-- One posting, judged by R166. -/
def postTo (log : List Record) (r : Record) : List Record :=
  match log.getLast? with
  | some (.logOverflow n) => log.dropLast ++ [.logOverflow (bumpLost n)]
  | _ => if log.length < Config.logThreshold then log ++ [r] else log ++ [.logOverflow 1]

/-- Post a record. -/
def post (r : Record) (s : State) : State := { s with log := postTo s.log r }

/-- Post records in order. -/
def postAll (rs : List Record) (s : State) : State := { s with log := rs.foldl postTo s.log }

/-- Post the records an operation leaves to be posted. -/
def posting (e : State × List Record) : State := postAll e.2 e.1

/-- A record of the Roll Call Unit, with the records its report makes the Run Engine and the Port Engine post
(R126, R130). -/
structure Report where
  record : Record
  runs : List Record
  ports : List Record
  deriving DecidableEq, Repr

/-- Which block posts next. -/
inductive Turn where
  | rollCall
  | runEngine
  | portEngine
  deriving DecidableEq, Repr

/-- The blocks that have a record to post. -/
def turns (reports : List Report) (runs ports : List Record) : List Turn :=
  (if reports.isEmpty then [] else [.rollCall]) ++ (if runs.isEmpty then [] else [.runEngine]) ++
    (if ports.isEmpty then [] else [.portEngine])

/-- The records of one event in an order of posting: each block's own order is kept, a record caused by a report
follows that report's record, and where more than one block could post next the free value chooses (R126, R130,
R165; log 8). `n` is the free value's counter; `fuel` bounds the number of records. -/
def weave : Nat → Nat → List Report → List Record → List Record → List Record × Nat
  | 0, n, _, _, _ => ([], n)
  | fuel + 1, n, reports, runs, ports =>
    let ts := turns reports runs ports
    let n' := if ts.length ≤ 1 then n else n + 1
    let turn := if ts.length ≤ 1 then ts.headD .rollCall else ts.getD (Config.postChoice n % ts.length) .rollCall
    match turn with
    | .rollCall =>
      match reports with
      | [] => ([], n')
      | p :: rest =>
        let w := weave fuel n' rest (runs ++ p.runs) (ports ++ p.ports)
        (p.record :: w.1, w.2)
    | .runEngine =>
      match runs with
      | [] => ([], n')
      | r :: rest =>
        let w := weave fuel n' reports rest ports
        (r :: w.1, w.2)
    | .portEngine =>
      match ports with
      | [] => ([], n')
      | r :: rest =>
        let w := weave fuel n' reports runs rest
        (r :: w.1, w.2)

/-- How many records a list of reports stands for. -/
def Report.total (reports : List Report) : Nat :=
  (reports.map fun p => 1 + p.runs.length + p.ports.length).sum

/-- Post the records of reports to both engines, in an order the manual allows. -/
def postReports (reports : List Report) (s : State) : State :=
  let w := weave (Report.total reports) s.freeNext reports [] []
  { postAll w.1 s with freeNext := w.2 }

/-! ### Regions and the fence (chapter 4) -/

/-- The half-open range [lo, hi) of byte addresses (R82). -/
structure Region where
  lo : Nat
  hi : Nat
  deriving DecidableEq, Repr

/-- Two regions share a byte (R82). -/
def Region.overlaps (a b : Region) : Bool := a.lo < b.hi && b.lo < a.hi

/-- A region runs past the end of the memory (R82). -/
def Region.pastEnd (a : Region) : Bool := Config.memoryBytes < a.hi

/-- A region shares a byte with some region of a list. -/
def Region.overlapsAny (a : Region) (l : List Region) : Bool := l.any a.overlaps

/-- The source region of a run (R16). -/
def Run.region (r : Run) : Region := { lo := r.base, hi := r.base + r.count * r.size }

/-- The bank region of base, capacity and max block size (R49). -/
def bankRegion (maxSize base capacity : Nat) : Region := { lo := base, hi := base + capacity * maxSize }

/-- The region of a bank of a port. -/
def OpenPort.region (p : OpenPort) (b : Bank) : Region := bankRegion p.maxSize b.base b.capacity

/-- The named bank. -/
def OpenPort.bank (p : OpenPort) : BankId → Bank
  | .a => p.bankA
  | .b => p.bankB

/-- Write the named bank. -/
def OpenPort.setBank (p : OpenPort) (k : BankId) (b : Bank) : OpenPort :=
  match k with
  | .a => { p with bankA := b }
  | .b => { p with bankB := b }

/-- The other bank's name. -/
def BankId.other : BankId → BankId
  | .a => .b
  | .b => .a

/-- The bank is FULL. -/
def Bank.isFull (b : Bank) : Bool :=
  match b.content with
  | .full _ _ => true
  | _ => false

/-- The bank is FREE. -/
def Bank.isFree (b : Bank) : Bool :=
  match b.content with
  | .free => true
  | _ => false

/-- The source regions of the active slots: every slot that is not FREE (R87). -/
def sourceRegions (s : State) : List Region :=
  slotNumbers.filterMap fun i => (s.slots[i]).map Run.region

/-- The bank regions of one port, in any bank state. -/
def portRegions (p : Port) : List Region :=
  match p with
  | none => []
  | some q => [q.region q.bankA, q.region q.bankB]

/-- The regions of one port's FREE and FILLING banks. -/
def portFenced (p : Port) : List Region :=
  match p with
  | none => []
  | some q => ([q.bankA, q.bankB].filter fun b => !b.isFull).map q.region

/-- The bank regions of the ports that are not CLOSED, but for port `i` (R91, R94). -/
def otherBankRegions (i : Fin 8) (s : State) : List Region :=
  portNumbers.flatMap fun j => if j = i then [] else portRegions s.ports[j]

/-- The FREE and FILLING bank regions of every port that is not CLOSED (R87, R92). -/
def fencedBanks (s : State) : List Region :=
  portNumbers.flatMap fun j => portFenced s.ports[j]

/-- The fence, as the regions whose union it is (R87). -/
def fence (s : State) : List Region := fencedBanks s ++ sourceRegions s

/-! ### The queues of the RAU (chapter 5) -/

/-- Replace the RAU's state. -/
def setRau (r : Rau) (s : State) : State := { s with rau := r }

/-- The control queue takes an offer: the station is not SILENT and the queue has room (R106, R117). -/
def canOffer (s : State) : Bool := !s.rollCall.silent && s.rau.controlQueue.length < Config.controlCapacity

/-- Offer a complete frame to the control queue; a refused frame is discarded (R106). -/
def offer (f : OwnFrame) (s : State) : State :=
  if canOffer s then setRau { s.rau with controlQueue := s.rau.controlQueue ++ [f] } s else s

/-- Replace the data queue. The yield threshold timer starts when the queue becomes non-empty, and stops, with
marking turned off, when it becomes empty (R113). -/
def Rau.withData (r : Rau) (q : List DataEntry) : Rau :=
  if q.isEmpty then { r with dataQueue := q, threshold := none, marking := false }
  else if r.dataQueue.isEmpty then { r with dataQueue := q, threshold := some Config.yieldThreshold }
  else { r with dataQueue := q }

/-- Replace the data queue of the part. -/
def setData (q : List DataEntry) (s : State) : State := setRau (s.rau.withData q) s

/-- Remove every data-queue entry of a slot (R107, purge). -/
def purge (i : Fin 8) (s : State) : State := setData (s.rau.dataQueue.filter fun e => e.slot ≠ i) s

/-- Remove every data-queue entry of a slot whose index is below its new taken (R107). -/
def dropBelow (i : Fin 8) (taken : Nat) (s : State) : State :=
  setData (s.rau.dataQueue.filter fun e => ¬(e.slot = i ∧ e.index < taken)) s

/-- A BLOCK of the slot is being inserted (R26). -/
def beingInserted (i : Fin 8) (s : State) : Bool :=
  match s.rau.output with
  | .inserting (some (j, _)) _ => j = i
  | _ => false

/-- The bytes the pass FIFO holds (R96). -/
def Rau.passBytes (r : Rau) : Nat := (r.passFifo.map fun f => f.bytes.length).sum

/-- The pass path is idle (R102). -/
def Rau.passIdle (r : Rau) : Bool := r.passBytes = 0 && r.reception.isNone

/-- Forget what was handed over. -/
def clearHandover (s : State) : State := setRau { s.rau with handover := none } s

/-- An engine takes what the RAU handed over; while the station is SILENT the frame is discarded instead
(R52, R100, R131). -/
def delivered (f : State → State) (s : State) : State :=
  if s.rollCall.silent then clearHandover s else f (clearHandover s)

end Sys2Proof.Machine
end

