-- ==== Sys2Proof/Machine/Flags.lean ====
section
/-! DEFINITION. The Flags byte of a frame (the yield mark and its owner) and the status byte of the local
port. -/

namespace Sys2Proof.Machine

open Sys2Proof

/-- The yield mark of a Flags byte: bit 7 (R177). -/
def yieldMark (flags : Byte) : Bool := flags.msb

/-- The yield owner of a Flags byte: bits 3 to 0 (R177). -/
def yieldOwner (flags : Byte) : BitVec 4 := flags.extractLsb' 0 4

/-- A Flags byte with the yield mark set and an owner; the reserved bits 6 to 4 as they arrived (R114). -/
def markFlags (flags : Byte) (owner : BitVec 4) : Byte := (1 : BitVec 1) ++ flags.extractLsb' 4 3 ++ owner

/-- The Flags a forwarded frame leaves with (R114). An unmarked frame that is not marked leaves as it arrived
(log 16). -/
def forwardFlags (marking : Bool) (own : BitVec 4) (flags : Byte) : Byte :=
  if yieldMark flags then flags else if marking then markFlags flags own else flags

/-- The status byte (R146): bit 7 attention, 6 command FIFO full, 5 SILENT, 4 inbound link UP, 3 ring open, 2 to 0
zero. -/
def statusByte (s : State) : Byte :=
  BitVec.ofBool s.attention ++ BitVec.ofBool (s.commandFifo.length = Config.commandCapacity) ++
    BitVec.ofBool s.rollCall.silent ++ BitVec.ofBool (s.rx.state = .up) ++ BitVec.ofBool s.rollCall.ringOpen ++
    (0 : BitVec 3)

/-- The yield hold after a header decision for a frame with these Flags (R115). -/
def Rau.yieldOn (r : Rau) (own : BitVec 4) (flags : Byte) : Rau :=
  if yieldMark flags && yieldOwner flags ≠ own then
    if r.inHold then r else { r with inHold := true, holdTimer := some Config.yieldHoldLimit }
  else if r.inHold then { r with inHold := false, holdTimer := none } else r

end Sys2Proof.Machine
end

