-- ==== Sys2Proof/Machine/Checks.lean ====
section
/-! DEFINITION. The three check functions of chapter 1: the header check, the payload check and the run
digest. -/

namespace Sys2Proof.Machine

open Sys2Proof

/-- Apply a function `n` times. -/
def iterate {α : Type} (f : α → α) : Nat → α → α
  | 0, a => a
  | n + 1, a => iterate f n (f a)

/-- One bit of the header check: polynomial 0x1021, most significant bit first (R7). -/
def crc16Bit (c : Word16) : Word16 := if c.msb then (c <<< 1) ^^^ 0x1021 else c <<< 1

/-- One byte of the header check. -/
def crc16Byte (c : Word16) (b : Byte) : Word16 := iterate crc16Bit 8 (c ^^^ (b.setWidth 16 <<< 8))

/-- The header check function: initial value 0xFFFF, no final inversion (R7). -/
def crc16 (bs : List Byte) : Word16 := bs.foldl crc16Byte 0xFFFF

/-- One bit of the payload check: polynomial 0x04C11DB7 with input and output reflected, so its reflection
0xEDB88320, least significant bit first (R8). -/
def crc32Bit (c : Word32) : Word32 := if c.getLsbD 0 then (c >>> 1) ^^^ 0xEDB88320 else c >>> 1

/-- One byte of the payload check or the digest. -/
def crc32Byte (c : Word32) (b : Byte) : Word32 := iterate crc32Bit 8 (c ^^^ b.setWidth 32)

/-- Where every payload check and every run digest starts (R8, R9). -/
def digestStart : Word32 := 0xFFFFFFFF

/-- Fold bytes into a running digest, before the final inversion (R9). -/
def digestFold (c : Word32) (bs : List Byte) : Word32 := bs.foldl crc32Byte c

/-- The payload check function (R8). -/
def crc32 (bs : List Byte) : Word32 := ~~~(digestFold digestStart bs)

end Sys2Proof.Machine
end

