-- ==== Sys2Proof/Machine/Operands.lean ====
section
/-! DEFINITION. The byte layouts of chapter 11 that events read and write: byte order, frame headers and
payloads, the frames this station originates, and command records. -/

namespace Sys2Proof.Machine

open Sys2Proof

/-! ### Byte order: most significant byte first -/

/-- A two-byte field. -/
def bytes16 (w : Word16) : List Byte := [w.extractLsb' 8 8, w.extractLsb' 0 8]

/-- A two-byte field from a number. -/
def nat16 (n : Nat) : List Byte := bytes16 (BitVec.ofNat 16 n)

/-- A three-byte field from a number. -/
def nat24 (n : Nat) : List Byte :=
  let w := BitVec.ofNat 24 n
  [w.extractLsb' 16 8, w.extractLsb' 8 8, w.extractLsb' 0 8]

/-- A four-byte field. -/
def bytes32 (w : Word32) : List Byte :=
  [w.extractLsb' 24 8, w.extractLsb' 16 8, w.extractLsb' 8 8, w.extractLsb' 0 8]

/-- The byte at an offset of a layout; 0 past its end. -/
def byteAt (bs : List Byte) (i : Nat) : Byte := bs.getD i 0

/-- The two-byte field at an offset. -/
def word16At (bs : List Byte) (i : Nat) : Word16 := byteAt bs i ++ byteAt bs (i + 1)

/-- The three-byte field at an offset. -/
def word24At (bs : List Byte) (i : Nat) : BitVec 24 := byteAt bs i ++ byteAt bs (i + 1) ++ byteAt bs (i + 2)

/-- The four-byte field at an offset. -/
def word32At (bs : List Byte) (i : Nat) : Word32 :=
  byteAt bs i ++ byteAt bs (i + 1) ++ byteAt bs (i + 2) ++ byteAt bs (i + 3)

/-! ### Frames (R10, R177) -/

/-- The code of a frame kind (R10). -/
def Kind.code : Kind → Byte
  | .block => 0x10
  | .open_ => 0x21
  | .finish => 0x22
  | .cancel => 0x23
  | .grant => 0x31
  | .refuse => 0x32
  | .taken => 0x41
  | .resume => 0x42
  | .busy => 0x43
  | .halted => 0x44
  | .closed => 0x45
  | .roll => 0x70

/-- The twelve kinds. -/
def kinds : List Kind :=
  [.block, .open_, .finish, .cancel, .grant, .refuse, .taken, .resume, .busy, .halted, .closed, .roll]

/-- The kind a Kind byte names, if it names one (R10). -/
def kindOf (b : Byte) : Option Kind := kinds.find? fun k => k.code = b

/-- The required Len of a kind; a BLOCK's is known to its port only (R10). -/
def Kind.requiredLen : Kind → Option Nat
  | .block => none
  | .open_ => some 6
  | .finish => some 6
  | .cancel => some 0
  | .grant => some 1
  | .refuse => some 1
  | .taken => some 0
  | .resume => some 0
  | .busy => some 0
  | .halted => some 1
  | .closed => some 4
  | .roll => some 8

/-- The kinds whose Seq must be 0 to 7 (R15, test 4). -/
def Kind.readsSeq : Kind → Bool
  | .block | .taken | .resume | .busy => true
  | .open_ | .finish | .cancel | .grant | .refuse | .halted | .closed | .roll => false

/-- Read the twelve header and header-check bytes (R177). -/
def headerOf (bs : List Byte) : Header :=
  { dest := byteAt bs 0, src := byteAt bs 1, kind := byteAt bs 2, flags := byteAt bs 3, hops := byteAt bs 4,
    port := byteAt bs 5, tag := byteAt bs 6, seq := byteAt bs 7, len := word16At bs 8, check := word16At bs 10 }

/-- The header bytes the header check covers, in order (R7). -/
def Header.checked (h : Header) : List Byte := [h.dest, h.src, h.kind, h.port, h.tag, h.seq] ++ bytes16 h.len

/-- The twelve header and header-check bytes of a header. -/
def Header.bytes (h : Header) : List Byte :=
  [h.dest, h.src, h.kind, h.flags, h.hops, h.port, h.tag, h.seq] ++ bytes16 h.len ++ bytes16 h.check

/-- The header is intact and its Dest names a station or every station (R7, R14). -/
def Header.valid (h : Header) : Bool := h.check = crc16 h.checked && (h.dest.toNat < 16 || h.dest = 0xFF)

/-- The data-byte count agrees with Len (R1). -/
def consistent (len : Word16) (count : Nat) : Bool :=
  count = if len = 0 then 12 else 16 + len.toNat

/-- The payload check holds, where there is one (R15, test 7). `body` is what followed the twelfth byte. -/
def payloadIntact (len : Word16) (body : List Byte) : Bool :=
  len = 0 || word32At body len.toNat = crc32 (body.take len.toNat)

/-- The data bytes of a frame this station originates, from the header to the payload check (R110, R111). -/
def frameBytes (own ringSize : Byte) (dest : Byte) (k : Kind) (port tag seq : Byte) (payload : List Byte) : List Byte :=
  let len := BitVec.ofNat 16 payload.length
  let h : Header := { dest := dest, src := own, kind := k.code, flags := 0, hops := ringSize, port := port, tag := tag,
                      seq := seq, len := len, check := 0 }
  let h := { h with check := crc16 h.checked }
  h.bytes ++ payload ++ (if payload.isEmpty then [] else bytes32 (crc32 payload))

/-- The data bytes of an own control frame (R110). -/
def OwnFrame.bytes (f : OwnFrame) (s : State) : List Byte :=
  frameBytes s.own s.ringSize f.dest f.kind f.port f.tag f.seq f.payload

/-- The symbols of a frame with these data bytes, but for its EOF. -/
def frameSymbols (bs : List Byte) : List Symbol := .sof :: bs.map .data

/-- The reason byte of a HALTED (R12). -/
def HaltReason.code : HaltReason → Byte
  | .localHalt => 1
  | .portClosed => 2
  | .notBound => 3

/-- The reason byte of a REFUSE (R12). -/
def RefuseReason.code : RefuseReason → Byte
  | .noPort => 1
  | .portBusy => 2
  | .halted => 3
  | .badParam => 4

/-! ### Command records (R178) -/

/-- Command codes (R178). -/
def codeStartRun : Byte := 0x01
def codeCancelRun : Byte := 0x02
def codeOpenPort : Byte := 0x03
def codeReleaseBank : Byte := 0x04
def codeHaltPort : Byte := 0x05
def codeUnhaltPort : Byte := 0x06
def codeClosePort : Byte := 0x07
def codeSoftReset : Byte := 0x08

/-- The command codes that name a command. -/
def commandCodes : List Byte :=
  [codeStartRun, codeCancelRun, codeOpenPort, codeReleaseBank, codeHaltPort, codeUnhaltPort, codeClosePort,
    codeSoftReset]

/-- The parameters of a START_RUN (R178). -/
structure StartRunArgs where
  dest : Byte
  port : Byte
  base : Nat
  size : Nat
  count : Nat
  window : Nat
  deriving DecidableEq, Repr

/-- Read a START_RUN record. -/
def startRunArgs (r : List Byte) : StartRunArgs :=
  { dest := byteAt r 2, port := byteAt r 3, base := (word24At r 4).toNat, size := (word16At r 7).toNat,
    count := (word16At r 9).toNat, window := (byteAt r 11).toNat }

/-- The parameters of an OPEN_PORT (R178). -/
structure OpenPortArgs where
  maxSize : Nat
  maxWindow : Nat
  baseA : Nat
  capacityA : Nat
  baseB : Nat
  capacityB : Nat
  deriving DecidableEq, Repr

/-- Read an OPEN_PORT record. -/
def openPortArgs (r : List Byte) : OpenPortArgs :=
  { maxSize := (word16At r 2).toNat, maxWindow := (byteAt r 4).toNat, baseA := (word24At r 5).toNat,
    capacityA := (byteAt r 8).toNat, baseB := (word24At r 9).toNat, capacityB := (byteAt r 12).toNat }

/-- The bank a RELEASE_BANK names: bit 0 of byte 2 (R178). -/
def releaseBankId (r : List Byte) : BankId := if (byteAt r 2).getLsbD 0 then .b else .a

/-- The new base of a RELEASE_BANK: bytes 3 to 5 where bit 1 of byte 2 is set (R178). -/
def releaseNewBase (r : List Byte) : Option Nat :=
  if (byteAt r 2).getLsbD 1 then some (word24At r 3).toNat else none

end Sys2Proof.Machine
end

