-- ==== Sys2Proof/Machine/PortEngine.lean ====
section
/-! DEFINITION. The Port Engine (chapter 3): the receiving side of every run. The OPEN exchange, a BLOCK at its
header and at its end, FINISH and CANCEL, the endings of a binding, and the port commands once accepted. -/

namespace Sys2Proof.Machine

open Sys2Proof

/-! ### Frames out (R12) -/

/-- A reply: addressed to the Src of the frame it answers, with that frame's Port and Tag (R12). -/
def replyTo (h : Header) (k : Kind) (seq : Byte) (payload : List Byte) : OwnFrame :=
  { dest := h.src, kind := k, port := h.port, tag := h.tag, seq := seq, payload := payload }

/-- An unsolicited reply of port `i`: addressed to the binding's source, with the port's own number and the
binding's tag (R12). -/
def unsolicited (i : Fin 8) (b : Binding) (k : Kind) (seq : Byte) (payload : List Byte) : OwnFrame :=
  { dest := b.source, kind := k, port := BitVec.ofNat 8 i.val, tag := b.tag, seq := seq, payload := payload }

/-- A CLOSED payload: result, a reserved byte, accepted count (R12). -/
def closedPayload (matched : Bool) (accepted : Nat) : List Byte :=
  [if matched then 0 else 1, 0] ++ nat16 accepted

/-! ### Ports and banks -/

/-- The open port a frame's Port byte names; a port number of 8 or more is answered as a CLOSED port (R48). -/
def portOf (b : Byte) (s : State) : Option (Fin 8 × OpenPort) :=
  match portNumber b with
  | some i => (s.ports[i]).map fun p => (i, p)
  | none => none

/-- The binding is that of this run. -/
def Binding.isOf (b : Binding) (source tag : Byte) : Bool := b.source = source && b.tag = tag

/-- The expected sequence e (R50). -/
def Binding.expected (b : Binding) : Byte := seqByte b.accepted

/-- The owner a bank gets that this binding fills (R49). -/
def Binding.owner (b : Binding) : Owner := { source := b.source, tag := b.tag, size := b.size }

/-- The bank made FILLING with fill 0 for a binding. -/
def Bank.startFilling (k : Bank) (b : Binding) : Bank := { k with content := .filling b.owner 0 }

/-- The BANK_FULL record of a bank that has become FULL (R80). -/
def bankFullRecord (i : Fin 8) (k : BankId) (bank : Bank) (fill : Nat) (short : Bool) (o : Owner) : Record :=
  .bankFull i k bank.base fill short o.source o.tag

/-- Closing a bank (R70): FULL with a partial BANK_FULL if it holds a block, FREE if it holds none. -/
def closeBank (i : Fin 8) (k : BankId) (bank : Bank) : Bank × List Record :=
  match bank.content with
  | .filling o fill =>
    if fill = 0 then ({ bank with content := .free }, [])
    else ({ bank with content := .full o fill }, [bankFullRecord i k bank fill true o])
  | .free | .full _ _ => (bank, [])

/-- Closing the current bank of a port, if there is one (R70). -/
def closeCurrent (i : Fin 8) (current : Option BankId) (p : OpenPort) : OpenPort × List Record :=
  match current with
  | none => (p, [])
  | some k =>
    let c := closeBank i k (p.bank k)
    (p.setBank k c.1, c.2)

/-- The PORT_RUN_END record of a binding (R81). -/
def Binding.endRecord (i : Fin 8) (b : Binding) (result : PortResult) : Record :=
  .portRunEnd i b.source b.tag b.accepted result

/-- The end of a binding other than by CLOSE_PORT or soft reset (R69): the current bank is closed, the binding with
its current bank and idle timer is removed, and the port enters its new state. The records are left to be posted,
BANK_FULL before PORT_RUN_END. -/
def unbind (i : Fin 8) (p : OpenPort) (b : Binding) (current : Option BankId) (result : PortResult) (mode : PortMode) :
    OpenPort × List Record :=
  let c := closeCurrent i current p
  ({ c.1 with mode := mode }, c.2 ++ [b.endRecord i result])

/-- End the binding of port `i` with its records posted. -/
def unbindNow (i : Fin 8) (p : OpenPort) (b : Binding) (current : Option BankId) (result : PortResult) (mode : PortMode)
    (s : State) : State :=
  let u := unbind i p b current result mode
  posting (setPort i (some u.1) s, u.2)

/-- End the binding of port `i` if it has one and the test holds, adding its records to those before. -/
def unbindIf (test : Binding → Bool) (result : PortResult) (acc : State × List Record) (i : Fin 8) :
    State × List Record :=
  match acc.1.ports[i] with
  | some p =>
    match p.mode with
    | .bound b current _ =>
      if test b then
        let u := unbind i p b current result .listening
        (setPort i (some u.1) acc.1, acc.2 ++ u.2)
      else acc
    | .listening | .halted => acc
  | none => acc

/-- Every BOUND port whose binding passes the test ends its binding with the result and becomes LISTENING, in
port-number order (R72, R73). -/
def unbindWhere (test : Binding → Bool) (result : PortResult) (s : State) : State × List Record :=
  portNumbers.foldl (unbindIf test result) (s, [])

/-! ### OPEN (R53, R54) -/

/-- The parameters of an OPEN (R11). -/
structure OpenArgs where
  size : Nat
  count : Nat
  window : Nat
  deriving DecidableEq, Repr

/-- Read an OPEN's payload. -/
def openArgs (payload : List Byte) : OpenArgs :=
  { size := (word16At payload 0).toNat, count := (word16At payload 2).toNat, window := (byteAt payload 4).toNat }

/-- A parameter of an OPEN is bad (R53). -/
def openParamBad (a : OpenArgs) (p : OpenPort) : Bool :=
  a.size < 16 || p.maxSize < a.size || a.size % 16 ≠ 0 || a.count = 0 || a.window = 0 || 4 < a.window

/-- The port is BOUND to this run. -/
def boundTo (source tag : Byte) (p : Port) : Bool :=
  match p with
  | some q =>
    match q.mode with
    | .bound b _ _ => b.isOf source tag
    | .listening | .halted => false
  | none => false

/-- Another port of this station is BOUND to this run (R53, case 6). -/
def boundElsewhere (i : Fin 8) (source tag : Byte) (s : State) : Bool :=
  portNumbers.any fun j => j ≠ i && boundTo source tag s.ports[j]

/-- The bank chosen when a port binds: A if FREE, otherwise B if FREE, otherwise none (R54). -/
def firstFree (p : OpenPort) : Option BankId :=
  if p.bankA.isFree then some .a else if p.bankB.isFree then some .b else none

/-- The port made BOUND to a binding with a chosen current bank (R54). -/
def OpenPort.bind (p : OpenPort) (b : Binding) (current : Option BankId) (idle : Nat) : OpenPort :=
  let p' :=
    match current with
    | some k => p.setBank k ((p.bank k).startFilling b)
    | none => p
  { p' with mode := .bound b current (some idle) }

/-- REFUSE with a reason. -/
def refuse (h : Header) (reason : RefuseReason) (s : State) : State := offer (replyTo h .refuse 0 [reason.code]) s

/-- GRANT with a granted window. -/
def grant (h : Header) (granted : Nat) (s : State) : State :=
  offer (replyTo h .grant 0 [BitVec.ofNat 8 granted]) s

/-- An OPEN that reaches the Port Engine (R53, R54). -/
def openReaches (h : Header) (payload : List Byte) (s : State) : State :=
  match portOf h.port s with
  | none => refuse h .noPort s
  | some (i, p) =>
    match p.mode with
    | .halted => refuse h .halted s
    | .bound b _ _ => if b.isOf h.src h.tag then grant h b.granted s else refuse h .portBusy s
    | .listening =>
      let a := openArgs payload
      if openParamBad a p then refuse h .badParam s
      else if boundElsewhere i h.src h.tag s then refuse h .portBusy s
      else
        let b : Binding :=
          { source := h.src, tag := h.tag, size := a.size, count := a.count, granted := min a.window p.maxWindow,
            accepted := 0, digest := digestStart, busyOwed := false, resumeSent := false }
        grant h b.granted (setPort i (some (p.bind b (firstFree p) (Config.idleTime s.straps.tcl))) s)

/-! ### A BLOCK at its header (R55 to R58) -/

/-- The class of a BLOCK of the bound run (R56, R57, R58). -/
def classify (h : Header) (p : OpenPort) (b : Binding) (current : Option BankId) : BlockClass :=
  let d := seqDistance (b.accepted % 8) h.seq.toNat
  if 4 ≤ d then (if b.accepted = 0 then .noReply else .behind)
  else if b.accepted = b.count then .noReply
  else if d = 0 then
    match current with
    | none => .expectedNoBank
    | some k =>
      match (p.bank k).content with
      | .filling _ fill =>
        .expected { target := (p.bank k).base + fill * b.size, limit := min h.len.toNat b.size, written := 0,
                    trial := b.digest }
      | .free | .full _ _ => .expectedNoBank
  else .ahead

/-- A BLOCK reaches the Port Engine at its header: its class, and the state with the idle timer restarted where the
block belongs to the bound run (R55, R56). -/
def blockHeader (h : Header) (s : State) : BlockClass × State :=
  match portOf h.port s with
  | none => (.refused .portClosed, s)
  | some (i, p) =>
    match p.mode with
    | .halted => (.refused .localHalt, s)
    | .listening => (.refused .notBound, s)
    | .bound b current _ =>
      if b.isOf h.src h.tag then
        (classify h p b current,
          setPort i (some { p with mode := .bound b current (some (Config.idleTime s.straps.tcl)) }) s)
      else (.refused .notBound, s)

/-! ### A BLOCK at its end (R58 to R64) -/

/-- RESUME e, and resume-sent set, unless it was set already (R58, R59, R63). -/
def resumeUnlessSent (i : Fin 8) (p : OpenPort) (b : Binding) (current : Option BankId) (idle : Timer) (h : Header)
    (s : State) : State :=
  if b.resumeSent then s
  else
    offer (replyTo h .resume b.expected [])
      (setPort i (some { p with mode := .bound { b with resumeSent := true } current idle }) s)

/-- The port after its current bank has accepted one more block, and the BANK_FULL it leaves to be posted (R61,
R62). `b` is the binding with the acceptance counted. -/
def fillBank (i : Fin 8) (p : OpenPort) (b : Binding) (k : BankId) (o : Owner) (fill : Nat) (idle : Timer) :
    OpenPort × List Record :=
  let bank := p.bank k
  if fill + 1 < bank.capacity then
    ({ p.setBank k { bank with content := .filling o (fill + 1) } with mode := .bound b (some k) idle }, [])
  else
    let p1 := p.setBank k { bank with content := .full o (fill + 1) }
    let rs := [bankFullRecord i k bank (fill + 1) false o]
    let other := p1.bank k.other
    if other.isFree then
      ({ p1.setBank k.other (other.startFilling b) with mode := .bound b (some k.other) idle }, rs)
    else ({ p1 with mode := .bound b none idle }, rs)

/-- The acceptance of an expected block (R61, R62): the fill, the accepted count and the digest advance, resume-sent
is cleared, TAKEN is offered, and the bank's fill is compared with its capacity. -/
def accept (i : Fin 8) (p : OpenPort) (b : Binding) (current : Option BankId) (idle : Timer) (h : Header) (trial : Word32)
    (s : State) : State :=
  match current with
  | none => s
  | some k =>
    match (p.bank k).content with
    | .filling o fill =>
      let b' := { b with accepted := b.accepted + 1, digest := trial, resumeSent := false }
      let f := fillBank i p b' k o fill idle
      posting (offer (replyTo h .taken h.seq []) (setPort i (some f.1) s), f.2)
    | .free | .full _ _ => s

/-- The end of a BLOCK of the bound run (R58 to R61, R63), the port still BOUND to the run and the frame ended by
EOF. -/
def boundBlockEnds (i : Fin 8) (p : OpenPort) (b : Binding) (current : Option BankId) (idle : Timer) (h : Header)
    (c : BlockClass) (intact : Bool) (s : State) : State :=
  match c with
  | .expected w =>
    if intact && h.len.toNat = b.size then accept i p b current idle h w.trial s
    else resumeUnlessSent i p b current idle h s
  | .expectedNoBank =>
    if current.isNone then
      offer (replyTo h .busy b.expected [])
        (setPort i (some { p with mode := .bound { b with busyOwed := true } current idle }) s)
    else resumeUnlessSent i p b current idle h s
  | .ahead => resumeUnlessSent i p b current idle h s
  | .behind => offer (replyTo h .taken (seqByte (b.accepted - 1)) []) s
  | .noReply | .refused _ => s

/-- HALTED with a reason, in answer to a frame. -/
def haltedReply (h : Header) (reason : HaltReason) (s : State) : State := offer (replyTo h .halted 0 [reason.code]) s

/-- The end of a BLOCK that was handed over at its header (R55, R58 to R64). -/
def blockEnds (h : Header) (c : BlockClass) (e : BlockEnd) (s : State) : State :=
  match e with
  | .abandoned => s
  | .intact | .damaged =>
    match c with
    | .refused reason => haltedReply h reason s
    | .expected _ | .expectedNoBank | .ahead | .behind | .noReply =>
      match portOf h.port s with
      | none => s
      | some (i, p) =>
        match p.mode with
        | .bound b current idle =>
          if b.isOf h.src h.tag then boundBlockEnds i p b current idle h c (e = .intact) s else s
        | .listening | .halted => s

/-! ### FINISH and CANCEL (R65 to R68) -/

/-- The note of a port, if it is that of this run. -/
def OpenPort.noteOf (p : OpenPort) (source tag : Byte) : Option Note :=
  match p.note with
  | some n => if n.source = source ∧ n.tag = tag then some n else none
  | none => none

/-- The close of a run by its FINISH (R66). -/
def closeRun (i : Fin 8) (p : OpenPort) (b : Binding) (current : Option BankId) (h : Header) (payload : List Byte)
    (s : State) : State :=
  let matched : Bool := word32At payload 0 = ~~~b.digest ∧ (word16At payload 4).toNat = b.count
  let s1 := offer (replyTo h .closed 0 (closedPayload matched b.accepted)) s
  let note : Note := { source := b.source, tag := b.tag, matched := matched, accepted := b.accepted }
  let u := unbind i p b current (if matched then .matched else .mismatched) .listening
  posting (setPort i (some { u.1 with note := some note }) s1, u.2)

/-- A FINISH that reaches the Port Engine (R65). -/
def finishReaches (h : Header) (payload : List Byte) (s : State) : State :=
  match portOf h.port s with
  | none => haltedReply h .notBound s
  | some (i, p) =>
    match p.noteOf h.src h.tag with
    | some n => offer (replyTo h .closed 0 (closedPayload n.matched n.accepted)) s
    | none =>
      match p.mode with
      | .bound b current _ =>
        if b.isOf h.src h.tag then
          if b.accepted < b.count then offer (replyTo h .resume b.expected []) s
          else closeRun i p b current h payload s
        else haltedReply h .notBound s
      | .listening | .halted => haltedReply h .notBound s

/-- A CANCEL that reaches the Port Engine (R68). -/
def cancelReaches (h : Header) (s : State) : State :=
  match portOf h.port s with
  | none => s
  | some (i, p) =>
    match p.mode with
    | .bound b current _ =>
      if b.isOf h.src h.tag then unbindNow i p b current .cancelledByPeer .listening s else s
    | .listening | .halted => s

/-! ### The idle timer (R71) -/

/-- The idle timer of a port expires (R71). -/
def idleExpires (i : Fin 8) (s : State) : State :=
  match s.ports[i] with
  | some p =>
    match p.mode with
    | .bound b current idle => if idle.isSome then unbindNow i p b current .abandoned .listening s else s
    | .listening | .halted => s
  | none => s

/-! ### Port commands, once accepted (R74 to R79) -/

/-- An accepted OPEN_PORT (R74). -/
def beginPort (i : Fin 8) (a : OpenPortArgs) (s : State) : State :=
  setPort i (some
    { maxSize := a.maxSize, maxWindow := a.maxWindow,
      bankA := { base := a.baseA, capacity := a.capacityA, content := .free },
      bankB := { base := a.baseB, capacity := a.capacityB, content := .free }, mode := .listening, note := none }) s

/-- An accepted RELEASE_BANK (R75): the bank becomes FILLING and current at a BOUND port with no current bank, with
the RESUME it owes, and FREE otherwise. -/
def releaseTo (i : Fin 8) (p : OpenPort) (k : BankId) (base : Nat) (s : State) : State :=
  let bank := { p.bank k with base := base }
  match p.mode with
  | .bound b none idle =>
    let b' := if b.busyOwed then { b with busyOwed := false, resumeSent := true } else b
    let p' := { p.setBank k (bank.startFilling b) with mode := .bound b' (some k) idle }
    let s' := setPort i (some p') s
    if b.busyOwed then offer (unsolicited i b .resume b.expected []) s' else s'
  | .bound _ (some _) _ | .listening | .halted => setPort i (some (p.setBank k { bank with content := .free })) s

/-- An accepted HALT_PORT (R76). -/
def haltNow (i : Fin 8) (p : OpenPort) (s : State) : State :=
  match p.mode with
  | .bound b current _ =>
    unbindNow i p b current .haltedLocally .halted (offer (unsolicited i b .halted 0 [HaltReason.localHalt.code]) s)
  | .listening | .halted => setPort i (some { p with mode := .halted }) s

/-- An accepted UNHALT_PORT (R77). -/
def unhaltNow (i : Fin 8) (p : OpenPort) (s : State) : State := setPort i (some { p with mode := .listening }) s

/-- An accepted CLOSE_PORT (R78): the banks, the max values and the note are forgotten. -/
def closeNow (i : Fin 8) (p : OpenPort) (s : State) : State :=
  match p.mode with
  | .bound b _ _ =>
    let s1 := offer (unsolicited i b .halted 0 [HaltReason.portClosed.code]) s
    post (b.endRecord i .closedLocally) (setPort i none s1)
  | .listening | .halted => setPort i none s

/-- The Port Engine's part of a soft reset (R79): every port CLOSED, no frame, no record. -/
def softResetPorts (s : State) : State := { s with ports := Vector.replicate 8 none }

/-! ### Meanings -/

/-- OPEN. -/
def execOpenFrame (s : State) : Host.Outcome State Fault Refusal :=
  match s.rau.handover with
  | some (.frame .open_ h p) => .next (delivered (openReaches h p) s)
  | _ => .next s

/-- FINISH. -/
def execFinishFrame (s : State) : Host.Outcome State Fault Refusal :=
  match s.rau.handover with
  | some (.frame .finish h p) => .next (delivered (finishReaches h p) s)
  | _ => .next s

/-- CANCEL. -/
def execCancelFrame (s : State) : Host.Outcome State Fault Refusal :=
  match s.rau.handover with
  | some (.frame .cancel h _) => .next (delivered (cancelReaches h) s)
  | _ => .next s

/-- BLOCK. -/
def execBlockFrame (s : State) : Host.Outcome State Fault Refusal :=
  match s.rau.handover with
  | some (.block h c e) => .next (delivered (blockEnds h c e) s)
  | _ => .next s

/-- IDLE_TIMER_EXPIRY. -/
def execIdleTimerExpiry (i : Fin 8) (s : State) : Host.Outcome State Fault Refusal := .next (idleExpires i s)

end Sys2Proof.Machine
end

