-- ==== Sys2Proof/Machine/RunEngine.lean ====
section
/-! DEFINITION. The Run Engine (chapter 2): the sending side of every run. Replies and returned frames that the
RAU handed over, the timers of a slot, the data-queue arbiter, and the one ending procedure. -/

namespace Sys2Proof.Machine

open Sys2Proof

/-! ### Finding the slot (R19, R23) -/

/-- The lowest-numbered slot that is not FREE and whose dest station, dest port and tag are these (R19). -/
def findRun (station port tag : Byte) (s : State) : Option (Fin 8 × Run) :=
  slotNumbers.findSome? fun i =>
    match s.slots[i] with
    | some r => if r.dest = station ∧ r.port = port ∧ r.tag = tag then some (i, r) else none
    | none => none

/-- A reply acts on the slot it concerns; it is discarded where no slot matches, or the slot is ENDING (R19). -/
def replyReaches (f : Fin 8 → Run → State → State) (h : Header) (s : State) : State :=
  match findRun h.src h.port h.tag s with
  | some (i, r) => if r.phase = .ending then s else f i r s
  | none => s

/-! ### The frames of a run (R11) -/

/-- A control frame of a run. -/
def Run.frame (r : Run) (k : Kind) (payload : List Byte) : OwnFrame :=
  { dest := r.dest, kind := k, port := r.port, tag := r.tag, seq := 0, payload := payload }

/-- The OPEN of a run: block size, block count, requested window, a reserved byte (R11, R18). -/
def Run.openOffer (r : Run) : OwnFrame :=
  r.frame .open_ (nat16 r.size ++ nat16 r.count ++ [BitVec.ofNat 8 r.window, 0])

/-- The FINISH of a run: the digest with its final inversion, and the block count (R11, R35). -/
def Run.finishOffer (r : Run) : OwnFrame := r.frame .finish (bytes32 (~~~r.digest) ++ nat16 r.count)

/-- The CANCEL of a run (R11, R43). -/
def Run.cancelOffer (r : Run) : OwnFrame := r.frame .cancel []

/-! ### Ending a run (R41, R42, R47) -/

/-- The run with its three timers stopped. -/
def Run.stopped (r : Run) : Run := { r with answer := none, probe := none, pause := none }

/-- The RUN_END record of a run (R47). -/
def Run.endRecord (i : Fin 8) (r : Run) (result : RunResult) (reason : Option Byte) : Record :=
  .runEnd i r.tag r.dest r.port r.taken result reason

/-- A run ends with a result (R41): its queued entries are purged and its timers stopped; the slot waits in ENDING
for a BLOCK that is being inserted, and otherwise becomes FREE and leaves its RUN_END to be posted. -/
def endRun (i : Fin 8) (r : Run) (result : RunResult) (reason : Option Byte) (s : State) : State × List Record :=
  if beingInserted i s then
    (setSlot i (some { r.stopped with phase := .ending, owed := some (result, reason) }) (purge i s), [])
  else (setSlot i none (purge i s), [r.endRecord i result reason])

/-- A run ends and its record, if it is due now, is posted. -/
def endRunNow (i : Fin 8) (r : Run) (result : RunResult) (reason : Option Byte) (s : State) : State :=
  posting (endRun i r result reason s)

/-- End the run of slot `i` if it is active and the test holds, adding its record to those before it. -/
def endRunIf (test : Run → Bool) (result : RunResult) (acc : State × List Record) (i : Fin 8) : State × List Record :=
  match acc.1.slots[i] with
  | some r =>
    if r.phase ≠ .ending ∧ test r then
      let e := endRun i r result none acc.1
      (e.1, acc.2 ++ e.2)
    else acc
  | none => acc

/-- Every slot in OPENING, STREAMING, PAUSED or CLOSING for which the test holds ends with the result, in
slot-number order (R44, R45). -/
def endRunsWhere (test : Run → Bool) (result : RunResult) (s : State) : State × List Record :=
  slotNumbers.foldl (endRunIf test result) (s, [])

/-! ### Closing (R35) -/

/-- The slot enters CLOSING: entries purged, probe and pause timers stopped, attempts 1, a FINISH offered and the
answer timer started (R35). -/
def enterClosing (i : Fin 8) (r : Run) (s : State) : State :=
  let r' := { r with phase := .closing, probe := none, pause := none, attempts := 1, answer := some s.answerTime }
  offer r.finishOffer (setSlot i (some r') (purge i s))

/-! ### Replies (R20, R21, R27 to R30, R33, R36, R38 to R40) -/

/-- The granted window: clamped into 1 to the requested window (R20). -/
def clampWindow (requested value : Nat) : Nat := min (max value 1) requested

/-- The distance d of R27, from the oldest unacknowledged block to the sequence of a reply. -/
def Run.distance (r : Run) (seq : Byte) : Nat := seqDistance (r.taken % 8) seq.toNat

/-- The number u of outstanding blocks (R27). -/
def Run.outstanding (r : Run) : Nat := r.sent - r.taken

/-- The run with `d` more blocks acknowledged; progress clears consecutive timeouts (R28 to R30, R33). -/
def Run.acknowledge (r : Run) (d : Nat) : Run :=
  { r with taken := r.taken + d, timeouts := if 0 < d then 0 else r.timeouts }

/-- The run rewound: sent back to taken, the answer timer stopped (R29); its entries are purged beside it. -/
def Run.rewound (r : Run) : Run := { r with sent := r.taken, answer := none }

/-- A slot enters CLOSING where every block is acknowledged, and otherwise takes this record (R35). -/
def closeOr (i : Fin 8) (r : Run) (s : State) : State :=
  if r.taken = r.count then enterClosing i r s else setSlot i (some r) s

/-- GRANT (R20, R40). -/
def grantReaches (h : Header) (payload : List Byte) (s : State) : State :=
  replyReaches (fun i r s =>
    match r.phase with
    | .opening =>
      setSlot i (some { r with granted := some (clampWindow r.window (byteAt payload 0).toNat), answer := none,
                               phase := .streaming }) s
    | .streaming | .paused | .closing | .ending => s) h s

/-- REFUSE (R21, R40). -/
def refuseReaches (h : Header) (payload : List Byte) (s : State) : State :=
  replyReaches (fun i r s =>
    match r.phase with
    | .opening => endRunNow i r .refused (some (byteAt payload 0)) s
    | .streaming | .paused | .closing | .ending => s) h s

/-- TAKEN (R28, R33, R38, R40). -/
def takenReaches (h : Header) (s : State) : State :=
  replyReaches (fun i r s =>
    let d := r.distance h.seq
    let r1 := r.acknowledge (d + 1)
    match r.phase with
    | .streaming =>
      if d < r.outstanding then
        closeOr i { r1 with answer := if r1.taken < r1.sent then some s.answerTime else none } (dropBelow i r1.taken s)
      else s
    | .paused =>
      if d < r.outstanding then
        closeOr i { r1 with phase := .streaming, answer := none, probe := none, pause := none } (purge i s)
      else s
    | .opening | .closing | .ending => s) h s

/-- RESUME (R29, R33, R38, R40). -/
def resumeReaches (h : Header) (s : State) : State :=
  replyReaches (fun i r s =>
    let d := r.distance h.seq
    let r1 := (r.acknowledge d).rewound
    match r.phase with
    | .streaming => if d ≤ r.outstanding then closeOr i r1 (purge i s) else s
    | .paused =>
      if d ≤ r.outstanding then closeOr i { r1 with phase := .streaming, probe := none, pause := none } (purge i s)
      else s
    | .closing => if d = 0 then enterClosing i r.rewound s else s
    | .opening | .ending => s) h s

/-- BUSY (R30, R33, R38, R40). -/
def busyReaches (h : Header) (s : State) : State :=
  replyReaches (fun i r s =>
    let d := r.distance h.seq
    let r1 := (r.acknowledge d).rewound
    match r.phase with
    | .streaming =>
      if d ≤ r.outstanding then
        closeOr i { r1 with phase := .paused, probe := some (Config.probeTime s.straps.tcl),
                            pause := some (Config.pauseTime s.straps.tcl) } (purge i s)
      else s
    | .paused => if d ≤ r.outstanding then closeOr i r1 (purge i s) else s
    | .opening | .closing | .ending => s) h s

/-- HALTED (R39). -/
def haltedReaches (h : Header) (payload : List Byte) (s : State) : State :=
  replyReaches (fun i r s => endRunNow i r .haltedByPeer (some (byteAt payload 0)) s) h s

/-- CLOSED (R36, R40): DONE where the result byte is 0 and the accepted count is the block count. -/
def closedReaches (h : Header) (payload : List Byte) (s : State) : State :=
  replyReaches (fun i r s =>
    match r.phase with
    | .closing =>
      if byteAt payload 0 = 0 ∧ (word16At payload 2).toNat = r.count then endRunNow i r .done none s
      else endRunNow i r .digestMismatch none s
    | .opening | .streaming | .paused | .ending => s) h s

/-- A frame that came back to its source (R23): a returned OPEN ends its run, any other kind is discarded. -/
def returnedReaches (h : Header) (s : State) : State :=
  if kindOf h.kind = some .open_ then
    match findRun h.dest h.port h.tag s with
    | some (i, r) => if r.phase = .ending then s else endRunNow i r .undelivered none s
    | none => s
  else s

/-! ### Timers of a slot (R22, R31, R32, R34, R37) -/

/-- The answer timer expires in OPENING (R22). -/
def answerExpiresOpening (i : Fin 8) (s : State) : State :=
  match s.slots[i] with
  | some r =>
    if r.phase = .opening ∧ r.answer.isSome then
      if r.attempts < Config.attemptLimit then
        offer r.openOffer (setSlot i (some { r with attempts := r.attempts + 1, answer := some s.answerTime }) s)
      else endRunNow i r .noAnswer none s
    else s
  | none => s

/-- The answer timer expires in STREAMING (R31). At the eighth expiry the run ends with its consecutive timeouts left at
7: R16 bounds them to 0 to 7, and an INSPECT of the slot in ENDING sees them (log 22). -/
def answerExpiresStreaming (i : Fin 8) (s : State) : State :=
  match s.slots[i] with
  | some r =>
    if r.phase = .streaming ∧ r.answer.isSome then
      if r.timeouts + 1 < Config.timeoutLimit then
        setSlot i (some { r.rewound with timeouts := r.timeouts + 1 }) (purge i s)
      else endRunNow i r .noAnswer none s
    else s
  | none => s

/-- The answer timer expires in CLOSING (R37). -/
def answerExpiresClosing (i : Fin 8) (s : State) : State :=
  match s.slots[i] with
  | some r =>
    if r.phase = .closing ∧ r.answer.isSome then
      if r.attempts < Config.attemptLimit then
        offer r.finishOffer (setSlot i (some { r with attempts := r.attempts + 1, answer := some s.answerTime }) s)
      else endRunNow i r .closeUnconfirmed none s
    else s
  | none => s

/-- The probe timer expires in PAUSED (R32): the block at index taken is queued where it is not queued already and
the queue has room, outside the round-robin order; the probe timer is restarted. -/
def probeExpires (i : Fin 8) (s : State) : State :=
  match s.slots[i] with
  | some r =>
    if r.phase = .paused ∧ r.probe.isSome then
      let restarted := { r with probe := some (Config.probeTime s.straps.tcl) }
      let entry : DataEntry := { slot := i, index := r.taken }
      if ¬(entry ∈ s.rau.dataQueue) ∧ s.rau.dataQueue.length < Config.dataCapacity then
        setSlot i (some { restarted with sent := r.taken + 1 }) (setData (s.rau.dataQueue ++ [entry]) s)
      else setSlot i (some restarted) s
    else s
  | none => s

/-- The pause timer expires in PAUSED (R34). -/
def pauseExpires (i : Fin 8) (s : State) : State :=
  match s.slots[i] with
  | some r => if r.phase = .paused ∧ r.pause.isSome then endRunNow i r .stalled none s else s
  | none => s

/-! ### The data-queue arbiter (R24, R25) -/

/-- The run wants a data-queue place (R24). -/
def Run.wants (r : Run) : Bool :=
  r.phase = .streaming && r.sent < r.count && r.sent - r.taken < r.granted.getD 0

/-- The slots in the order the arbiter looks at them: upward from the one after the pointer (R24). -/
def arbiterOrder (pointer : Fin 8) : List (Fin 8) :=
  [pointer + 1, pointer + 2, pointer + 3, pointer + 4, pointer + 5, pointer + 6, pointer + 7, pointer]

/-- The first wanting slot in the arbiter's order. -/
def nextWanting (s : State) : Option (Fin 8 × Run) :=
  (arbiterOrder s.rrPointer).findSome? fun i =>
    match s.slots[i] with
    | some r => if r.wants then some (i, r) else none
    | none => none

/-- One grant of the data-queue arbiter (R24); the answer timer is started where it is stopped (R25). -/
def grantPlace (s : State) : State :=
  match nextWanting s with
  | some (i, r) =>
    if s.rau.dataQueue.length < Config.dataCapacity then
      let r' := { r with sent := r.sent + 1, answer := if r.answer.isSome then r.answer else some s.answerTime }
      { setSlot i (some r') (setData (s.rau.dataQueue ++ [{ slot := i, index := r.sent }]) s) with rrPointer := i }
    else s
  | none => s

/-! ### Insertion reports (R26, R42) -/

/-- The payload of a BLOCK is folded at its first insertion, where its index is the digest index (R26). -/
def Run.fold (r : Run) (index : Nat) (payload : List Byte) : Run :=
  if index = r.digestIndex then { r with digest := digestFold r.digest payload, digestIndex := r.digestIndex + 1 }
  else r

/-- The insertion of a BLOCK of the slot has ended: a slot in ENDING becomes FREE and its owed RUN_END is posted
(R42). -/
def blockInsertionEnds (i : Fin 8) (s : State) : State :=
  match s.slots[i] with
  | some r =>
    if r.phase = .ending then
      match r.owed with
      | some (result, reason) => post (r.endRecord i result reason) (setSlot i none s)
      | none => setSlot i none s
    else s
  | none => s

/-! ### Local commands, once accepted (R18, R43, R46) -/

/-- An accepted START_RUN takes the slot from FREE to OPENING with the tag counter's tag, and offers an OPEN
(R17, R18). -/
def beginRun (i : Fin 8) (a : StartRunArgs) (s : State) : State :=
  let r : Run :=
    { phase := .opening, tag := s.tagCounter, dest := a.dest, port := a.port, base := a.base, size := a.size,
      count := a.count, window := a.window, granted := none, taken := 0, sent := 0, digestIndex := 0,
      digest := digestStart, attempts := 1, timeouts := 0, owed := none, answer := some s.answerTime,
      probe := none, pause := none }
  offer r.openOffer { setSlot i (some r) s with tagCounter := s.tagCounter + 1 }

/-- What a soft reset leaves in a slot (R46). -/
def softResetSlot (inserting : Bool) (slot : Slot) : Slot :=
  match slot with
  | none => none
  | some r => if inserting then some { r.stopped with phase := .ending, owed := none } else none

/-- The Run Engine's part of a soft reset (R46): the tag counter is kept, the round-robin pointer returns to 7. -/
def softResetRuns (s : State) : State :=
  let one (acc : State) (i : Fin 8) : State := setSlot i (softResetSlot (beingInserted i acc) acc.slots[i]) acc
  { slotNumbers.foldl one s with rrPointer := 7 }

/-! ### Meanings -/

/-- GRANT. -/
def execGrantFrame (s : State) : Host.Outcome State Fault Refusal :=
  match s.rau.handover with
  | some (.frame .grant h p) => .next (delivered (grantReaches h p) s)
  | _ => .next s

/-- REFUSE. -/
def execRefuseFrame (s : State) : Host.Outcome State Fault Refusal :=
  match s.rau.handover with
  | some (.frame .refuse h p) => .next (delivered (refuseReaches h p) s)
  | _ => .next s

/-- TAKEN. -/
def execTakenFrame (s : State) : Host.Outcome State Fault Refusal :=
  match s.rau.handover with
  | some (.frame .taken h _) => .next (delivered (takenReaches h) s)
  | _ => .next s

/-- RESUME. -/
def execResumeFrame (s : State) : Host.Outcome State Fault Refusal :=
  match s.rau.handover with
  | some (.frame .resume h _) => .next (delivered (resumeReaches h) s)
  | _ => .next s

/-- BUSY. -/
def execBusyFrame (s : State) : Host.Outcome State Fault Refusal :=
  match s.rau.handover with
  | some (.frame .busy h _) => .next (delivered (busyReaches h) s)
  | _ => .next s

/-- HALTED. -/
def execHaltedFrame (s : State) : Host.Outcome State Fault Refusal :=
  match s.rau.handover with
  | some (.frame .halted h p) => .next (delivered (haltedReaches h p) s)
  | _ => .next s

/-- CLOSED. -/
def execClosedFrame (s : State) : Host.Outcome State Fault Refusal :=
  match s.rau.handover with
  | some (.frame .closed h p) => .next (delivered (closedReaches h p) s)
  | _ => .next s

/-- RETURNED_FRAME. -/
def execReturnedFrame (s : State) : Host.Outcome State Fault Refusal :=
  match s.rau.handover with
  | some (.returned h) => .next (delivered (returnedReaches h) s)
  | _ => .next s

/-- ANSWER_EXPIRY_OPENING. -/
def execAnswerExpiryOpening (i : Fin 8) (s : State) : Host.Outcome State Fault Refusal :=
  .next (answerExpiresOpening i s)

/-- ANSWER_EXPIRY_STREAMING. -/
def execAnswerExpiryStreaming (i : Fin 8) (s : State) : Host.Outcome State Fault Refusal :=
  .next (answerExpiresStreaming i s)

/-- ANSWER_EXPIRY_CLOSING. -/
def execAnswerExpiryClosing (i : Fin 8) (s : State) : Host.Outcome State Fault Refusal :=
  .next (answerExpiresClosing i s)

/-- PROBE_TIMER_EXPIRY. -/
def execProbeTimerExpiry (i : Fin 8) (s : State) : Host.Outcome State Fault Refusal := .next (probeExpires i s)

/-- PAUSE_TIMER_EXPIRY. -/
def execPauseTimerExpiry (i : Fin 8) (s : State) : Host.Outcome State Fault Refusal := .next (pauseExpires i s)

/-- DATA_QUEUE_GRANT. -/
def execDataQueueGrant (s : State) : Host.Outcome State Fault Refusal := .next (grantPlace s)

end Sys2Proof.Machine
end

