-- ==== Sys2Proof/Machine/RollCall.lean ====
section
/-! DEFINITION. The Roll Call Unit (chapter 6): beacons, the Peer Table, ring health and SILENT. -/

namespace Sys2Proof.Machine

open Sys2Proof

/-- Replace the Roll Call Unit's state. -/
def setRollCall (r : RollCall) (s : State) : State := { s with rollCall := r }

/-! ### Beacons (R120 to R122) -/

/-- The ROLL of the next beacon: ring size, timing class, beacon number, origin stamp, two reserved bytes (R13,
R121). -/
def beaconFrame (s : State) : OwnFrame :=
  { dest := 0xFF, kind := .roll, port := 0, tag := 0, seq := 0,
    payload := [s.ringSize, s.straps.tcl.setWidth 8] ++ bytes16 s.rollCall.number ++
      bytes16 (s.rollCall.stamp.getD 0) ++ [0, 0] }

/-- Offer a beacon (R121): the beacon in flight records whether it was enqueued, and the number advances either
way. -/
def offerBeacon (s : State) : State :=
  let s1 := offer (beaconFrame s) s
  setRollCall { s1.rollCall with
    inFlight := some { number := s.rollCall.number, sent := canOffer s, returned := false },
    number := s.rollCall.number + 1 } s1

/-- The first beacon (R120, R122): the origin stamp is captured and the beacon is offered. A station that went SILENT
in START offers none, and so takes no stamp (R131, log 23). -/
def firstBeacon (s : State) : State :=
  if s.rollCall.silent then s else offerBeacon (setRollCall { s.rollCall with stamp := some s.refclk } s)

/-- The transmitter has left START for RUN (R120): the first beacon, and the beacon period timer is started. -/
def beginBeacons (s : State) : State :=
  let s1 := firstBeacon s
  setRollCall { s1.rollCall with timer := some (Config.beaconTime s.straps.tcl) } s1

/-! ### Hearing peers (R123, R124) -/

/-- The records a copied ROLL posts: PEER_FOUND, CLASS_MISMATCH, SIZE_MISMATCH, in that order (R123, R124). -/
def rollRecords (i : Fin 16) (state : PeerState) (ownClass ownSize cls size : Byte) : List Record :=
  match state with
  | .absent =>
    [.peerFound i] ++ (if cls ≠ ownClass then [.classMismatch i cls] else []) ++
      (if size ≠ ownSize then [.sizeMismatch i size] else [])
  | .present _ _ oldCls oldSize =>
    (if cls ≠ ownClass ∧ cls ≠ oldCls then [.classMismatch i cls] else []) ++
      (if size ≠ ownSize ∧ size ≠ oldSize then [.sizeMismatch i size] else [])
  | .self => []

/-- A copied ROLL reaches the Roll Call Unit (R123, R124). -/
def rollReaches (h : Header) (payload : List Byte) (s : State) : State :=
  match stationNumber h.src with
  | none => s
  | some i =>
    let size := byteAt payload 0
    let cls := byteAt payload 1
    let old := s.peers[i].state
    match old with
    | .self => s
    | .absent | .present _ _ _ _ =>
      postAll (rollRecords i old (s.straps.tcl.setWidth 8) s.ringSize cls size)
        (setPeer i { state := .present 0 (word16At payload 2) cls size, heard := true } s)

/-! ### The presence check (R125, R126) -/

/-- The state of an entry after the presence check, and whether its peer is lost (R125). -/
def checkPeer (p : Peer) : PeerState × Bool :=
  match p.state with
  | .present misses beacon cls size =>
    if p.heard then (.present 0 beacon cls size, false)
    else if misses + 1 < Config.missLimit then (.present (misses + 1) beacon cls size, false)
    else (.absent, true)
  | .absent => (.absent, false)
  | .self => (.self, false)

/-- The loss of a peer (R126): PEER_LOST, with the records of the runs (R44) and bindings (R72) it ends. -/
def losePeer (i : Fin 16) (s : State) : State × Report :=
  let station : Byte := BitVec.ofNat 8 i.val
  let e := endRunsWhere (fun r => r.dest = station) .peerLost s
  let u := unbindWhere (fun b => b.source = station) .peerLost e.1
  (u.1, { record := .peerLost i, runs := e.2, ports := u.2 })

/-- The presence check at one entry. -/
def presenceAt (acc : State × List Report) (i : Fin 16) : State × List Report :=
  let c := checkPeer acc.1.peers[i]
  let s1 := setPeer i { state := c.1, heard := false } acc.1
  if c.2 then
    let l := losePeer i s1
    (l.1, acc.2 ++ [l.2])
  else (s1, acc.2)

/-- The presence check, in station-number order (R125). -/
def presenceCheck (s : State) : State × List Report := stationNumbers.foldl presenceAt (s, [])

/-! ### Ring health (R128, R129) -/

/-- The beacon in flight was sent and has not returned (R128). -/
def beaconMissed (r : RollCall) : Bool :=
  match r.inFlight with
  | some b => b.sent && !b.returned
  | none => false

/-- The ring-health check (R128), and the RING_OPEN it leaves to be posted. -/
def ringHealth (r : RollCall) : RollCall × List Report :=
  if beaconMissed r ∧ r.misses < Config.missLimit then
    if r.misses + 1 = Config.missLimit ∧ ¬r.ringOpen then
      ({ r with misses := r.misses + 1, ringOpen := true }, [{ record := .ringOpen, runs := [], ports := [] }])
    else ({ r with misses := r.misses + 1 }, [])
  else (r, [])

/-- The beacon period timer expires (R120): the presence check and, unless the station is SILENT, the ring-health
check and the next beacon; the timer is restarted. -/
def beaconPeriodExpires (s : State) : State :=
  if s.rollCall.timer.isSome then
    let c := presenceCheck s
    let restart (t : State) : State :=
      setRollCall { t.rollCall with timer := some (Config.beaconTime s.straps.tcl) } t
    if s.rollCall.silent then restart (postReports c.2 c.1)
    else
      let g := ringHealth c.1.rollCall
      restart (offerBeacon (postReports (c.2 ++ g.2) (setRollCall g.1 c.1)))
  else s

/-! ### The own beacon and SILENT (R127, R129, R130) -/

/-- The station enters SILENT (R130): DUPLICATE_STATION, the silent flag, the control queue emptied, every run and
every binding ended SILENCED. -/
def enterSilent (s : State) : State :=
  let s1 := setRollCall { s.rollCall with silent := true } s
  let s2 := setRau { s1.rau with controlQueue := [] } s1
  let e := endRunsWhere (fun _ => true) .silenced s2
  let u := unbindWhere (fun _ => true) .silenced e.1
  postReports [{ record := .duplicateStation, runs := e.2, ports := u.2 }] u.1

/-- The ROLL is the beacon in flight (R127). -/
def isBeaconInFlight (r : RollCall) (number stamp : Word16) : Bool :=
  match r.inFlight with
  | some b => b.sent && r.stamp = some stamp && b.number = number
  | none => false

/-- The own beacon has returned (R127, R129). -/
def beaconReturns (s : State) : State :=
  let r := s.rollCall
  let r' := { r with inFlight := r.inFlight.map fun b => { b with returned := true }, misses := 0, ringOpen := false }
  if r.ringOpen then post .ringClosed (setRollCall r' s) else setRollCall r' s

/-- The beacon in flight is marked returned already. -/
def alreadyReturned (r : RollCall) : Bool :=
  match r.inFlight with
  | some b => b.returned
  | none => false

/-- A stripped ROLL with the own Src reaches the Roll Call Unit (R127). -/
def ownRollReaches (payload : List Byte) (s : State) : State :=
  if s.rollCall.silent then s
  else if isBeaconInFlight s.rollCall (word16At payload 2) (word16At payload 4) then
    (if alreadyReturned s.rollCall then s else beaconReturns s)
  else enterSilent s

/-! ### Meanings -/

/-- ROLL. -/
def execRollFrame (s : State) : Host.Outcome State Fault Refusal :=
  match s.rau.handover with
  | some (.roll h p) => .next (rollReaches h p (clearHandover s))
  | _ => .next s

/-- OWN_BEACON. -/
def execOwnBeacon (s : State) : Host.Outcome State Fault Refusal :=
  match s.rau.handover with
  | some (.ownRoll _ p) => .next (ownRollReaches p (clearHandover s))
  | _ => .next s

/-- BEACON_PERIOD_EXPIRY. -/
def execBeaconPeriodExpiry (s : State) : Host.Outcome State Fault Refusal := .next (beaconPeriodExpires s)

end Sys2Proof.Machine
end

