-- ==== Sys2Proof/Machine/Rau.lean ====
section
/-! DEFINITION. The Ring Access Unit (chapter 5) and the classing of arriving frames (chapter 1): the header
decision, the symbols of a frame in reception, the hand-over to the engines, forwarding and insertion. -/

namespace Sys2Proof.Machine

open Sys2Proof

/-! ### Hand-over to the engines (R52, R100) -/

/-- A control frame reaches the block R10 names for its kind. BLOCKs and ROLLs are not handed over this way. -/
def frameReaches (k : Kind) (h : Header) (p : List Byte) (s : State) : State :=
  match k with
  | .open_ => openReaches h p s
  | .finish => finishReaches h p s
  | .cancel => cancelReaches h s
  | .grant => grantReaches h p s
  | .refuse => refuseReaches h p s
  | .taken => takenReaches h s
  | .resume => resumeReaches h s
  | .busy => busyReaches h s
  | .halted => haltedReaches h p s
  | .closed => closedReaches h p s
  | .block | .roll => s

/-- What was handed over and not yet taken is taken by its engine (log 4). -/
def deliverPending (s : State) : State :=
  match s.rau.handover with
  | none => s
  | some (.frame k h p) => delivered (frameReaches k h p) s
  | some (.block h c e) => delivered (blockEnds h c e) s
  | some (.returned h) => delivered (returnedReaches h) s
  | some (.roll h p) => rollReaches h p (clearHandover s)
  | some (.ownRoll _ p) => ownRollReaches p (clearHandover s)

/-! ### The header decision (R97 to R99, R114, R115) -/

/-- The tests of R15 that discard a BLOCK at its header: an unusable source, or a Seq of 8 or more (tests 2 and 4). -/
def blockUnusable (h : Header) (own : Byte) : Bool := 16 ≤ h.src.toNat || h.src = own || 8 ≤ h.seq.toNat

/-- Row 1 of R98: the frame is addressed to this station. A BLOCK reaches the Port Engine now, unless it is discarded
at its header (R15, R100). -/
def stripOwn (h : Header) (s : State) : Decision × State :=
  if kindOf h.kind = some .block then
    if blockUnusable h s.own || s.rollCall.silent then (.strip .discarded, s)
    else
      let c := blockHeader h s
      (.strip (.block c.1), c.2)
  else (.strip .control, s)

/-- The frame may be forwarded (R99). -/
def mayForward (h : Header) (s : State) : Bool := 2 ≤ h.hops.toNat && s.tx.state = .run

/-- The decision for a valid header (R98, R99), with the state after a BLOCK has reached the Port Engine. -/
def decide98 (h : Header) (s : State) : Decision × State :=
  if h.dest = s.own then stripOwn h s
  else if h.dest = 0xFF then
    if h.src = s.own then (.strip .ownBeacon, s) else (.copy (mayForward h s), s)
  else if h.src = s.own then (.strip .returned, s)
  else if mayForward h s then (.forward, s)
  else (.drop, s)

/-- The frame goes into the pass FIFO. -/
def Decision.forwards : Decision → Bool
  | .forward => true
  | .copy f => f
  | .drop | .strip _ => false

/-- The header a forwarded frame leaves with: Hops one lower, Flags as R114 states. -/
def forwardHeader (h : Header) (s : State) : Header :=
  { h with hops := h.hops - 1, flags := forwardFlags s.rau.marking s.straps.stn h.flags }

/-- Mark how the newest frame of the pass FIFO ended (R101). -/
def noteEnd (e : FrameEnd) : List PassFrame → List PassFrame
  | [] => []
  | [f] => [{ f with ended := some e }]
  | f :: g :: rest => f :: noteEnd e (g :: rest)

/-- Append a byte to the newest frame of the pass FIFO. -/
def appendByte (b : Byte) : List PassFrame → List PassFrame
  | [] => []
  | [f] => [{ f with bytes := f.bytes ++ [b] }]
  | f :: g :: rest => f :: appendByte b (g :: rest)

/-- The header bytes of a forwarded frame enter the pass FIFO as a new frame. Where fewer than twelve bytes of room
are left, those that fit are stored and the frame is abandoned at the first that does not (R104; log 15). -/
def enterPass (bs : List Byte) (r : Rau) : Rau :=
  let room := Config.passCapacity - r.passBytes
  if bs.length ≤ room then { r with passFifo := r.passFifo ++ [{ bytes := bs, ended := none }] }
  else
    { r with passFifo := r.passFifo ++ (if room = 0 then [] else [{ bytes := bs.take room, ended := some .abort }]),
             reception := none }

/-- The header decision for the twelve bytes of the frame in reception (R97, R98, R115). -/
def decideHeader (r : Reception) (s : State) : State :=
  let h := headerOf r.header
  if h.valid then
    let s1 := setRau (s.rau.yieldOn s.straps.stn h.flags) s
    let d := decide98 h s1
    let s2 := setRau { d.2.rau with reception := some { r with decision := some d.1 } } d.2
    if d.1.forwards then setRau (enterPass (forwardHeader h s1).bytes s2.rau) s2 else s2
  else setRau { s.rau with reception := some { r with decision := some .drop } } s

/-- The frame in reception has its twelve header bytes and waits for its decision. -/
def Reception.undecided (r : Reception) : Bool := r.header.length = 12 && r.decision.isNone

/-- The header decision, where one is due. -/
def decidePending (s : State) : State :=
  match s.rau.reception with
  | some r => if r.undecided then decideHeader r s else s
  | none => s

/-- Complete what the symbols so far have left to do: the delivery of what was handed over, and the header decision.
Both belong before the next symbol (R52, R97; log 4). -/
def settle (s : State) : State := decidePending (deliverPending s)

/-! ### The classing of a frame at its end (R15) -/

/-- The frame in reception is a control frame that passes tests 2 to 7 of R15 as a frame of kind `k`. -/
def controlValid (k : Kind) (h : Header) (r : Reception) : Bool :=
  (!k.readsSeq || h.seq.toNat < 8) && k.requiredLen = some h.len.toNat && consistent h.len r.count &&
    payloadIntact h.len r.body

/-- A frame of row 1 that is not a BLOCK: what it hands over at its EOF (R15, R100). -/
def controlHandover (own : Byte) (h : Header) (r : Reception) : Option Handover :=
  match kindOf h.kind with
  | some k =>
    if h.src.toNat < 16 && h.src ≠ own && k ≠ .roll && controlValid k h r then
      some (.frame k h (r.body.take h.len.toNat))
    else none
  | none => none

/-- A broadcast of row 2 or 3 is a valid ROLL (R15). -/
def rollValid (h : Header) (r : Reception) : Bool :=
  h.src.toNat < 16 && kindOf h.kind = some .roll && controlValid .roll h r

/-- How a BLOCK that ended by EOF ended (R15, tests 6 and 7; R52). -/
def blockEndOf (h : Header) (r : Reception) : BlockEnd :=
  if consistent h.len r.count && payloadIntact h.len r.body then .intact else .damaged

/-- What a decided frame hands over at its EOF (R100). -/
def handoverAtEof (own : Byte) (d : Decision) (h : Header) (r : Reception) : Option Handover :=
  match d with
  | .drop | .forward => none
  | .copy _ => if rollValid h r then some (.roll h (r.body.take h.len.toNat)) else none
  | .strip .control => controlHandover own h r
  | .strip (.block c) => some (.block h c (blockEndOf h r))
  | .strip .discarded => none
  | .strip .ownBeacon => if rollValid h r then some (.ownRoll h (r.body.take h.len.toNat)) else none
  | .strip .returned => some (.returned h)

/-- What an abandoned frame hands over: a BLOCK's end only (R103). -/
def handoverAtAbandon (d : Decision) (h : Header) : Option Handover :=
  match d with
  | .strip (.block c) => some (.block h c .abandoned)
  | .drop | .forward | .copy _ | .strip .control | .strip .discarded | .strip .ownBeacon | .strip .returned => none

/-- Put a hand-over beside what the RAU holds. -/
def Rau.handing (r : Rau) (h : Option Handover) : Rau := if h.isSome then { r with handover := h } else r

/-- The end of the frame in reception by EOF (R2, R100, R101). A runt goes nowhere. -/
def endFrame (own : Byte) (q : Reception) (r : Rau) : Rau :=
  let r1 := { r with reception := none }
  match q.decision with
  | none => r1
  | some d =>
    let r2 := if d.forwards then { r1 with passFifo := noteEnd .eof r1.passFifo } else r1
    r2.handing (handoverAtEof own d (headerOf q.header) q)

/-- The frame in reception is abandoned (R2, R103). -/
def abandon (r : Rau) : Rau :=
  match r.reception with
  | none => r
  | some q =>
    let r1 := { r with reception := none }
    match q.decision with
    | none => r1
    | some d =>
      let r2 := if d.forwards then { r1 with passFifo := noteEnd .abort r1.passFifo } else r1
      r2.handing (handoverAtAbandon d (headerOf q.header))

/-! ### Symbols handed over by the Link Receiver (R97, R100, R101, R104) -/

/-- A payload byte of an expected BLOCK goes to the bank writer and into the trial digest, until the limit (R57,
R84). -/
def bankWrite (b : Byte) (w : BankWrite) (s : State) : Except Fault (BankWrite × State) :=
  if w.written < w.limit then
    match writeByte (w.target + w.written) b s with
    | .ok s' => .ok ({ w with written := w.written + 1, trial := crc32Byte w.trial b }, s')
    | .error f => .error f
  else .ok (w, s)

/-- Put a frame in reception. -/
def setReception (q : Reception) (s : State) : State := setRau { s.rau with reception := some q } s

/-- A data byte of a forwarded frame enters the pass FIFO, or abandons the frame where the FIFO is full (R104). -/
def passByte (b : Byte) (q : Reception) (s : State) : State :=
  if s.rau.passBytes < Config.passCapacity then
    setRau { s.rau with passFifo := appendByte b s.rau.passFifo, reception := some q } s
  else setRau (abandon s.rau) s

/-- A data byte after the header of a frame whose decision is `d` (R100, R101, R104). -/
def bodyByte (b : Byte) (d : Decision) (q : Reception) (s : State) : Except Fault State :=
  let q1 := { q with count := q.count + 1 }
  let q2 := { q1 with body := q.body ++ [b] }
  match d with
  | .drop => .ok (setReception q1 s)
  | .forward => .ok (passByte b q1 s)
  | .copy forwarded => if forwarded then .ok (passByte b q2 s) else .ok (setReception q2 s)
  | .strip k =>
    if Config.stripLimit ≤ q1.count then .ok (setRau (abandon s.rau) s)
    else
      match k with
      | .block (.expected w) =>
        match bankWrite b w s with
        | .ok (w', s') => .ok (setReception { q2 with decision := some (.strip (.block (.expected w'))) } s')
        | .error f => .error f
      | .block (.refused _) | .block .expectedNoBank | .block .ahead | .block .behind | .block .noReply
      | .control | .discarded | .ownBeacon | .returned => .ok (setReception q2 s)

/-- A data byte (R97). Outside any frame it is discarded (R2). -/
def dataByte (b : Byte) (s : State) : Except Fault State :=
  match s.rau.reception with
  | none => .ok s
  | some q =>
    match q.decision with
    | some d => bodyByte b d q s
    | none =>
      if q.header.length < 12 then .ok (setReception { q with header := q.header ++ [b], count := q.count + 1 } s)
      else .ok s

/-- A frame begins (R97). -/
def newReception : Reception := { header := [], decision := none, count := 0, body := [] }

/-- One symbol handed to the RAU (R2, R97, R103). -/
def symbolToRau (sym : Symbol) (s : State) : Except Fault State :=
  match sym with
  | .data b => dataByte b s
  | .sof => .ok (setRau { abandon s.rau with reception := some newReception } s)
  | .eof =>
    match s.rau.reception with
    | some q => .ok (setRau (endFrame s.own q s.rau) s)
    | none => .ok s
  | .idle | .abort | .invalid => .ok (setRau (abandon s.rau) s)

/-! ### Forwarding (R101, R102) -/

/-- The symbols before a frame's first byte: the rest of the two-IDLE gap, and SOF (R101). -/
def leadSymbols (gap : Nat) : List Symbol := List.replicate (2 - gap) .idle ++ [.sof]

/-- The RAU starts the frame at the head of the pass FIFO (R101). -/
def startForward (s : State) : State :=
  match s.rau.passFifo with
  | [] => s
  | f :: _ =>
    if s.rau.output = .free ∧ s.tx.state = .run ∧ f.bytes ≠ [] then
      setRau { s.rau with output := .forwarding (leadSymbols s.rau.gap) } s
    else s

/-- The note of the forwarded frame is reached: its EOF or ABORT goes out (R101). With symbols of the frame still to go
the note is not reached (log 11). -/
def endForward (s : State) : State :=
  match s.rau.output, s.rau.passFifo with
  | .forwarding [], f :: rest =>
    match f.bytes, f.ended with
    | [], some e =>
      { setRau { s.rau with output := .free, passFifo := rest, gap := 0 } s with
        ringOut := .carries (match e with | .eof => .eof | .abort => .abort) }
    | _, _ => s
  | _, _ => s

/-! ### Insertion (R109 to R111) -/

/-- The conditions of R109 but for an eligible frame. -/
def insertionOpen (s : State) : Bool :=
  s.rau.passIdle && s.rau.output = .free && s.tx.state = .run && !s.rollCall.silent

/-- The data bytes of a BLOCK frame of a run (R111). -/
def blockBytes (r : Run) (index : Nat) (payload : List Byte) (s : State) : List Byte :=
  frameBytes s.own s.ringSize r.dest .block r.port r.tag (seqByte index) payload

/-- The data queue after its head is taken for insertion: marking is off, and the threshold timer is restarted
where an entry is left and stopped where none is (R113). -/
def Rau.afterDataInsertion (r : Rau) (rest : List DataEntry) : Rau :=
  { r with dataQueue := rest, marking := false,
           threshold := if rest.isEmpty then none else some Config.yieldThreshold }

/-- Start inserting the control queue's head (R110). -/
def insertControl (f : OwnFrame) (rest : List OwnFrame) (s : State) : State :=
  setRau { s.rau with controlQueue := rest,
                      output := .inserting none (leadSymbols s.rau.gap ++ (f.bytes s).map .data) } s

/-- Start inserting a BLOCK: its payload is read from memory (R85, R111; log 10) and folded into the digest where it
is a first copy (R26). -/
def insertBlock (e : DataEntry) (rest : List DataEntry) (r : Run) (s : State) : Except Fault State :=
  match readBytes (r.base + e.index * r.size) r.size s with
  | .error f => .error f
  | .ok payload =>
    let out := leadSymbols s.rau.gap ++ (blockBytes r e.index payload s).map .data
    let s1 := setRau { s.rau.afterDataInsertion rest with output := .inserting (some (e.slot, e.index)) out } s
    .ok (setSlot e.slot (some (r.fold e.index payload)) s1)

/-- The insertion arbiter (R109): the control queue's head first, else the data queue's head while the station is not
in yield hold. -/
def startInsertion (s : State) : Except Fault State :=
  if insertionOpen s then
    match s.rau.controlQueue with
    | f :: rest => .ok (insertControl f rest s)
    | [] =>
      match s.rau.dataQueue with
      | e :: rest =>
        if s.rau.inHold then .ok s
        else
          match s.slots[e.slot] with
          | some r => insertBlock e rest r s
          | none => .ok s
      | [] => .ok s
  else .ok s

/-- The EOF of the inserted frame goes out, its other symbols having gone out (R111, log 11); the end of a BLOCK is
reported (R26, R42). -/
def endInsertion (s : State) : State :=
  match s.rau.output with
  | .inserting block [] =>
    let s1 : State := { setRau { s.rau with output := .free, gap := 0 } s with ringOut := .carries .eof }
    match block with
    | some (i, _) => blockInsertionEnds i s1
    | none => s1
  | .inserting _ (_ :: _) | .free | .forwarding _ => s

/-! ### Yield timers (R113, R115) -/

/-- The yield threshold timer expires: marking turns on (R113). -/
def thresholdExpires (s : State) : State :=
  if s.rau.threshold.isSome then setRau { s.rau with threshold := none, marking := true } s else s

/-- The yield hold timer expires: the hold ends (R115). -/
def holdExpires (s : State) : State :=
  if s.rau.holdTimer.isSome then setRau { s.rau with holdTimer := none, inHold := false } s else s

/-! ### Meanings -/

/-- HEADER_DECISION. -/
def execHeaderDecision (s : State) : Host.Outcome State Fault Refusal := .next (decidePending s)

/-- FORWARD_START. -/
def execForwardStart (s : State) : Host.Outcome State Fault Refusal := .next (startForward s)

/-- FORWARD_END. -/
def execForwardEnd (s : State) : Host.Outcome State Fault Refusal := .next (endForward s)

/-- INSERTION_START. -/
def execInsertionStart (s : State) : Host.Outcome State Fault Refusal := outcome (startInsertion s)

/-- INSERTION_END. -/
def execInsertionEnd (s : State) : Host.Outcome State Fault Refusal := .next (endInsertion s)

/-- YIELD_THRESHOLD_EXPIRY. -/
def execYieldThresholdExpiry (s : State) : Host.Outcome State Fault Refusal := .next (thresholdExpires s)

/-- YIELD_HOLD_EXPIRY. -/
def execYieldHoldExpiry (s : State) : Host.Outcome State Fault Refusal := .next (holdExpires s)

end Sys2Proof.Machine
end

