-- ==== Sys2Proof/Machine/Link.lean ====
section
/-! DEFINITION. The ring link (chapter 7): the Link Receiver and its count spans, the quiet timer, and the Link
Transmitter's start period; and the two edges of RESET_N. -/

namespace Sys2Proof.Machine

open Sys2Proof

/-! ### The Link Receiver (R133 to R139) -/

/-- Replace the Link Receiver's state. -/
def setRx (r : Receiver) (s : State) : State := { s with rx := r }

/-- A symbol of the first five kinds of R132. -/
def Symbol.valid : Symbol → Bool
  | .invalid => false
  | .data _ | .idle | .sof | .eof | .abort => true

/-- A symbol counted toward the span, before the span's end is looked at: the position, the code errors, and the
quiet timer restarted at a valid symbol (R137, R138). -/
def Receiver.count (r : Receiver) (sym : Symbol) : Receiver :=
  { r with span := r.span + 1,
           errors := if Symbol.valid sym then r.errors else r.errors + 1,
           quiet := if Symbol.valid sym then some Config.quietTime else r.quiet }

/-- The end of a count span (R138). -/
def Receiver.endSpan (r : Receiver) : Receiver :=
  if Config.spanLength ≤ r.span then { r with span := 0, errors := 0 } else r

/-- The receiver leaves ALIGN or UP for DOWN (R139): the RAU is told of the end of the stream and LINK_DOWN is posted
where the receiver was UP. -/
def linkDown (s : State) : State :=
  let s1 := setRx Receiver.reset s
  if s.rx.state = .up then post .linkDown (setRau (abandon s1.rau) s1) else s1

/-- The alignment run after a symbol in ALIGN (R135). -/
def Receiver.align (r : Receiver) (sym : Symbol) : Receiver :=
  { r with run := if sym = .idle then r.run + 1 else 0 }

/-- A symbol taken in DOWN (R134). -/
def takeInDown (sym : Symbol) (s : State) : State :=
  if Symbol.valid sym then
    setRx { state := .align, run := if sym = .idle then 1 else 0, span := 1, errors := 0, quiet := some Config.quietTime } s
  else s

/-- A symbol taken in ALIGN (R135, R138). -/
def takeInAlign (sym : Symbol) (s : State) : State :=
  let r := (s.rx.count sym).align sym
  if Config.codeErrorLimit ≤ r.errors then linkDown s
  else if Config.alignmentRun ≤ r.run then post .linkUp (setRx { r.endSpan with state := .up, run := 0 } s)
  else setRx r.endSpan s

/-- The receiver's own part of a symbol taken in UP (R136, R138): counted, and at the code-error limit the loss of the
link follows. -/
def countInUp (sym : Symbol) (s : State) : State :=
  let r := s.rx.count sym
  if Config.codeErrorLimit ≤ r.errors then linkDown s else setRx r.endSpan s

/-- A symbol taken in UP (R136): handed to the RAU first, then counted. What the symbols before it left to do is done
before it (log 4). -/
def takeInUp (sym : Symbol) (s : State) : Except Fault State :=
  match symbolToRau sym (settle s) with
  | .ok s' => .ok (countInUp sym s')
  | .error f => .error f

/-! ### The Link Transmitter and RESET_N (R140, R141) -/

/-- The start-period timer expires (R141): the transmitter enters RUN, and the Roll Call Unit is told. -/
def startPeriodExpires (s : State) : State :=
  if s.tx.state = .start ∧ s.tx.startTimer.isSome then
    beginBeacons { s with tx := { state := .run, startTimer := none } }
  else s

/-- RESET_N goes low (R140): every item returns to its reset value, and SDO is high impedance (R144). The REFCLK
counter runs on (R122), and the queue, what the controller will drive and the free value's counter are not the part's
(log 17). -/
def assertReset (s : State) : State :=
  { State.reset with pending := s.pending, refclk := s.refclk, drive := s.drive, freeNext := s.freeNext }

/-- RESET_N goes high (R140, R119, R144): the straps are latched, the own entry of the Peer Table is SELF, the
transmitter enters START, and a CS_N that is low already is waited out. R144 gives SDO high impedance while CS_N is high
or RESET_N is low, and no level while such a CS_N stays low: the model leaves SDO at high impedance until it has risen
(log 24). -/
def releaseReset (stn rsz : BitVec 4) (tcl : BitVec 2) (csLow : Bool) (s : State) : State :=
  if s.resetLow then
    { setPeer stn.toFin { state := .self, heard := false } s with
      resetLow := false, straps := { stn := stn, rsz := rsz, tcl := tcl },
      tx := { state := .start, startTimer := some Config.startTime }, ringOut := .carries .idle,
      spi := { s.spi with waitRise := csLow, csLow := csLow } }
  else s

/-! ### Meanings -/

/-- RESET_N_ASSERTED. -/
def execResetNAsserted (s : State) : Host.Outcome State Fault Refusal := .next (assertReset s)

/-- RESET_N_RELEASED. -/
def execResetNReleased (stn rsz : BitVec 4) (tcl : BitVec 2) (csLow : Bool) (s : State) :
    Host.Outcome State Fault Refusal := .next (releaseReset stn rsz tcl csLow s)

/-- START_PERIOD_EXPIRY. -/
def execStartPeriodExpiry (s : State) : Host.Outcome State Fault Refusal := .next (startPeriodExpires s)

/-- SYMBOL_IN_DOWN; while RESET_N is low the receiver takes no symbol (R133). -/
def execSymbolInDown (sym : Symbol) (s : State) : Host.Outcome State Fault Refusal :=
  if s.rx.state = .down ∧ ¬s.resetLow then .next (takeInDown sym s) else .next s

/-- SYMBOL_IN_ALIGN. -/
def execSymbolInAlign (sym : Symbol) (s : State) : Host.Outcome State Fault Refusal :=
  if s.rx.state = .align ∧ ¬s.resetLow then .next (takeInAlign sym s) else .next s

/-- SYMBOL_IN_UP. -/
def execSymbolInUp (sym : Symbol) (s : State) : Host.Outcome State Fault Refusal :=
  if s.rx.state = .up ∧ ¬s.resetLow then outcome (takeInUp sym s) else .next s

/-- QUIET_TIMER_EXPIRY (R137); what the symbols before it left to do is done before it (log 4). -/
def execQuietTimerExpiry (s : State) : Host.Outcome State Fault Refusal :=
  if s.rx.state ≠ .down ∧ s.rx.quiet.isSome then .next (linkDown (settle s)) else .next s

end Sys2Proof.Machine
end

