-- ==== Sys2Proof/Machine/CommandUnit.lean ====
section
/-! DEFINITION. The Command Unit (chapter 8): taking a command from the FIFO, its checks in order, and carrying it
out. -/

namespace Sys2Proof.Machine

open Sys2Proof

/-! ### Taking a command (R155, R156) -/

/-- A MEM_WRITE transaction is open (R152). -/
def State.memWriteOpen (s : State) : Bool := s.spi.kind = some .memWrite

/-- The record the Command Unit takes next, where it may take one (R155): the FIFO holds one, no MEM_WRITE is open,
and RESET_N is not low (R174). -/
def nextCommand (s : State) : Option (List Byte) :=
  if s.resetLow || s.memWriteOpen then none else s.commandFifo.head?

/-- The code of a command record (R178). -/
def recordCode (r : List Byte) : Byte := byteAt r 0

/-- The index of a command record (R178). -/
def recordIndex (r : List Byte) : Byte := byteAt r 1

/-- Carry out `f` on the record at the FIFO's head, removed from the FIFO, where the Command Unit may take a command
and the record's code passes the test. -/
def takeCommand (test : Byte → Bool) (f : List Byte → State → State) (s : State) : State :=
  match nextCommand s with
  | some r => if test (recordCode r) then f r { s with commandFifo := s.commandFifo.tail } else s
  | none => s

/-- A command fails a check: CMD_REJECTED, and no other effect (R156). -/
def reject (r : List Byte) (reason : RejectReason) (s : State) : State :=
  post (.cmdRejected (recordCode r) (recordIndex r) reason) s

/-- Carry out a command on the open port its index names, after the checks BAD_PORT and WRONG_STATE (R160, R161). -/
def onOpenPort (r : List Byte) (f : Fin 8 → OpenPort → State → State) (s : State) : State :=
  match portNumber (recordIndex r) with
  | none => reject r .badPort s
  | some i =>
    match s.ports[i] with
    | none => reject r .wrongState s
    | some p => f i p s

/-! ### START_RUN and CANCEL_RUN (R157, R158) -/

/-- The source region a START_RUN would create (R92). -/
def StartRunArgs.region (a : StartRunArgs) : Region := { lo := a.base, hi := a.base + a.count * a.size }

/-- A size is 16 to 1024 and a multiple of 16. -/
def badSize (n : Nat) : Bool := n < 16 || 1024 < n || n % 16 ≠ 0

/-- A window is 0 or above 4. -/
def badWindow (n : Nat) : Bool := n = 0 || 4 < n

/-- BAD_PARAM of START_RUN (R157, check 4). -/
def startRunBad (a : StartRunArgs) (own : Byte) : Bool :=
  badSize a.size || a.count = 0 || badWindow a.window || 8 ≤ a.port.toNat || 16 ≤ a.dest.toNat || a.dest = own ||
    a.base % 16 ≠ 0 || a.region.pastEnd

/-- The Peer Table entry of the station is ABSENT (R157, check 5). -/
def peerAbsent (station : Byte) (s : State) : Bool :=
  match stationNumber station with
  | some i => (s.peers[i]).state = .absent
  | none => true

/-- START_RUN, taken (R157). -/
def startRunTaken (r : List Byte) (s : State) : State :=
  let a := startRunArgs r
  if s.rollCall.silent then reject r .silent s
  else
    match slotNumber (recordIndex r) with
    | none => reject r .badSlot s
    | some i =>
      if (s.slots[i]).isSome then reject r .slotBusy s
      else if startRunBad a s.own then reject r .badParam s
      else if peerAbsent a.dest s then reject r .noPeer s
      else if a.region.overlapsAny (fencedBanks s) then reject r .overlap s
      else beginRun i a s

/-- CANCEL_RUN, taken (R43, R158). -/
def cancelRunTaken (r : List Byte) (s : State) : State :=
  match slotNumber (recordIndex r) with
  | none => reject r .badSlot s
  | some i =>
    match s.slots[i] with
    | none => reject r .wrongState s
    | some q =>
      if q.phase = .ending then reject r .wrongState s
      else endRunNow i q .cancelled none (offer q.cancelOffer s)

/-! ### OPEN_PORT (R91, R159) -/

/-- The two bank regions an OPEN_PORT would create (R91). -/
def OpenPortArgs.regionA (a : OpenPortArgs) : Region := bankRegion a.maxSize a.baseA a.capacityA

/-- The second of them. -/
def OpenPortArgs.regionB (a : OpenPortArgs) : Region := bankRegion a.maxSize a.baseB a.capacityB

/-- BAD_PARAM of OPEN_PORT (R159, check 4). -/
def openPortBad (a : OpenPortArgs) : Bool :=
  badSize a.maxSize || badWindow a.maxWindow || a.capacityA = 0 || a.capacityB = 0 || a.baseA % 16 ≠ 0 ||
    a.baseB % 16 ≠ 0 || a.regionA.pastEnd || a.regionB.pastEnd

/-- OVERLAP of OPEN_PORT (R91). -/
def openPortOverlaps (i : Fin 8) (a : OpenPortArgs) (s : State) : Bool :=
  a.regionA.overlaps a.regionB || a.regionA.overlapsAny (otherBankRegions i s) ||
    a.regionB.overlapsAny (otherBankRegions i s) || a.regionA.overlapsAny (sourceRegions s) ||
    a.regionB.overlapsAny (sourceRegions s)

/-- OPEN_PORT, taken (R159). -/
def openPortTaken (r : List Byte) (s : State) : State :=
  let a := openPortArgs r
  if s.rollCall.silent then reject r .silent s
  else
    match portNumber (recordIndex r) with
    | none => reject r .badPort s
    | some i =>
      if (s.ports[i]).isSome then reject r .wrongState s
      else if openPortBad a then reject r .badParam s
      else if openPortOverlaps i a s then reject r .overlap s
      else beginPort i a s

/-! ### RELEASE_BANK (R94, R160) -/

/-- RELEASE_BANK, taken (R160). -/
def releaseBankTaken (r : List Byte) (s : State) : State :=
  onOpenPort r (fun i p s =>
    let k := releaseBankId r
    let bank := p.bank k
    let base := (releaseNewBase r).getD bank.base
    let present := p.region bank
    let resulting := bankRegion p.maxSize base bank.capacity
    if !bank.isFull then reject r .wrongState s
    else if (releaseNewBase r).isSome && (base % 16 ≠ 0 || resulting.pastEnd) then reject r .badParam s
    else if present.overlapsAny (sourceRegions s) || resulting.overlapsAny (sourceRegions s) then reject r .inUse s
    else if resulting.overlaps (p.region (p.bank k.other)) || resulting.overlapsAny (otherBankRegions i s) then
      reject r .overlap s
    else releaseTo i p k base s) s

/-! ### HALT_PORT, UNHALT_PORT, CLOSE_PORT (R161) -/

/-- HALT_PORT, taken. -/
def haltPortTaken (r : List Byte) (s : State) : State :=
  onOpenPort r (fun i p s => if p.mode = .halted then reject r .wrongState s else haltNow i p s) s

/-- UNHALT_PORT, taken. -/
def unhaltPortTaken (r : List Byte) (s : State) : State :=
  if s.rollCall.silent then reject r .silent s
  else onOpenPort r (fun i p s => if p.mode = .halted then unhaltNow i p s else reject r .wrongState s) s

/-- CLOSE_PORT, taken. -/
def closePortTaken (r : List Byte) (s : State) : State := onOpenPort r closeNow s

/-! ### SOFT_RESET (R162) -/

/-- The RAU's part of a soft reset (R116): both queues emptied, with what R113 says of an empty data queue. -/
def softResetRau (s : State) : State :=
  let s1 := setData [] s
  setRau { s1.rau with controlQueue := [] } s1

/-- SOFT_RESET, taken (R162, R171). -/
def softResetTaken (s : State) : State :=
  let s1 := softResetRau (softResetPorts (softResetRuns s))
  post .softResetDone { s1 with log := [], logCopied := none }

/-! ### Meanings -/

/-- START_RUN. -/
def execStartRun (s : State) : Host.Outcome State Fault Refusal :=
  .next (takeCommand (fun c => c = codeStartRun) startRunTaken s)

/-- CANCEL_RUN. -/
def execCancelRun (s : State) : Host.Outcome State Fault Refusal :=
  .next (takeCommand (fun c => c = codeCancelRun) cancelRunTaken s)

/-- OPEN_PORT. -/
def execOpenPort (s : State) : Host.Outcome State Fault Refusal :=
  .next (takeCommand (fun c => c = codeOpenPort) openPortTaken s)

/-- RELEASE_BANK. -/
def execReleaseBank (s : State) : Host.Outcome State Fault Refusal :=
  .next (takeCommand (fun c => c = codeReleaseBank) releaseBankTaken s)

/-- HALT_PORT. -/
def execHaltPort (s : State) : Host.Outcome State Fault Refusal :=
  .next (takeCommand (fun c => c = codeHaltPort) haltPortTaken s)

/-- UNHALT_PORT. -/
def execUnhaltPort (s : State) : Host.Outcome State Fault Refusal :=
  .next (takeCommand (fun c => c = codeUnhaltPort) unhaltPortTaken s)

/-- CLOSE_PORT. -/
def execClosePort (s : State) : Host.Outcome State Fault Refusal :=
  .next (takeCommand (fun c => c = codeClosePort) closePortTaken s)

/-- SOFT_RESET. -/
def execSoftReset (s : State) : Host.Outcome State Fault Refusal :=
  .next (takeCommand (fun c => c = codeSoftReset) (fun _ t => softResetTaken t) s)

/-- UNKNOWN_COMMAND: the record's code names none of the eight commands (R156). -/
def execUnknownCommand (s : State) : Host.Outcome State Fault Refusal :=
  .next (takeCommand (fun c => !(commandCodes.contains c)) (fun r t => reject r .badCommand t) s)

end Sys2Proof.Machine
end

