-- ==== Sys2Proof/Machine/Inspect.lean ====
section
/-! DEFINITION. The byte layouts the local controller reads (R179): log records and the four snapshots. -/

namespace Sys2Proof.Machine

open Sys2Proof

/-- A number as one byte. -/
def nat8 (n : Nat) : Byte := BitVec.ofNat 8 n

/-- A layout padded with zero bytes to its length. -/
def padTo (n : Nat) (bs : List Byte) : List Byte := bs ++ List.replicate (n - bs.length) 0

/-! ### Log records -/

/-- The RUN_END result code. -/
def RunResult.code : RunResult → Byte
  | .done => 0
  | .digestMismatch => 1
  | .refused => 2
  | .noAnswer => 3
  | .closeUnconfirmed => 4
  | .stalled => 5
  | .haltedByPeer => 6
  | .cancelled => 7
  | .peerLost => 8
  | .undelivered => 9
  | .silenced => 10

/-- The PORT_RUN_END result code. -/
def PortResult.code : PortResult → Byte
  | .matched => 0
  | .mismatched => 1
  | .cancelledByPeer => 2
  | .abandoned => 3
  | .peerLost => 4
  | .haltedLocally => 5
  | .closedLocally => 6
  | .silenced => 7

/-- The CMD_REJECTED reason code (R178). -/
def RejectReason.code : RejectReason → Byte
  | .fifoFull => 1
  | .badCommand => 2
  | .silent => 3
  | .badSlot => 4
  | .slotBusy => 5
  | .badPort => 6
  | .wrongState => 7
  | .badParam => 8
  | .noPeer => 9
  | .overlap => 10
  | .inUse => 11

/-- A bank as one byte: 0 for A, 1 for B. -/
def BankId.code : BankId → Byte
  | .a => 0
  | .b => 1

/-- The bytes of a record as far as they are not the zeros at its end. -/
def Record.fields : Record → List Byte
  | .runEnd slot tag dest port taken result reason =>
    [0x01, nat8 slot.val, tag, dest, port] ++ nat16 taken ++ [result.code, if reason.isSome then 1 else 0, reason.getD 0]
  | .portRunEnd port source tag accepted result =>
    [0x02, nat8 port.val, source, tag] ++ nat16 accepted ++ [result.code]
  | .bankFull port bank base blocks short source tag =>
    [0x03, nat8 port.val, bank.code] ++ nat24 base ++ [nat8 blocks, if short then 1 else 0, source, tag]
  | .cmdRejected code index reason => [0x04, code, index, reason.code]
  | .peerFound station => [0x05, nat8 station.val]
  | .peerLost station => [0x06, nat8 station.val]
  | .classMismatch station cls => [0x07, nat8 station.val, cls]
  | .sizeMismatch station size => [0x08, nat8 station.val, size]
  | .ringOpen => [0x09]
  | .ringClosed => [0x0A]
  | .duplicateStation => [0x0B]
  | .linkUp => [0x0C]
  | .linkDown => [0x0D]
  | .softResetDone => [0x0E]
  | .logOverflow lost => [0x0F, nat8 lost]

/-- The sixteen bytes a LOG_READ returns for a record (R179). -/
def Record.bytes (r : Record) : List Byte := padTo 16 r.fields

/-- The EMPTY answer (R149). -/
def emptyAnswer : List Byte := List.replicate 16 0

/-! ### Snapshots -/

/-- The Link Receiver's state in two bits. -/
def RxState.code : RxState → BitVec 2
  | .down => 0
  | .align => 1
  | .up => 2

/-- The Link Transmitter's state in one bit. -/
def TxState.code : TxState → BitVec 1
  | .held | .start => 0
  | .run => 1

/-- A data-queue entry in the global snapshot: bit 7 held, bits 6 to 4 the slot, bits 1 and 0 the index less that
slot's taken. -/
def entryByte (s : State) (e : DataEntry) : Byte :=
  let taken := match s.slots[e.slot] with
    | some r => r.taken
    | none => 0
  (1 : BitVec 1) ++ BitVec.ofNat 3 e.slot.val ++ (0 : BitVec 2) ++ BitVec.ofNat 2 (e.index - taken)

/-- The global snapshot. -/
def globalSnapshot (s : State) : List Byte :=
  padTo 32 (
    [0x80, s.own, s.ringSize, s.straps.tcl.setWidth 8,
      (0 : BitVec 3) ++ s.tx.state.code ++ (0 : BitVec 2) ++ s.rx.state.code, nat8 s.rx.errors] ++
    nat16 s.rau.passBytes ++ [nat8 s.rau.controlQueue.length, nat8 s.rau.dataQueue.length] ++
    (padTo 8 (s.rau.dataQueue.map (entryByte s))).take 8 ++
    [(0 : BitVec 3) ++ BitVec.ofBool s.rollCall.stamp.isSome ++ BitVec.ofBool s.rollCall.silent ++
      BitVec.ofBool s.rollCall.ringOpen ++ BitVec.ofBool s.rau.inHold ++ BitVec.ofBool s.rau.marking] ++
    bytes16 s.rollCall.number ++ bytes16 (s.rollCall.stamp.getD 0) ++
    [nat8 s.rollCall.misses, nat8 s.commandFifo.length, nat8 s.log.length])

/-- A slot's state code. -/
def Phase.code : Phase → Byte
  | .opening => 1
  | .streaming => 2
  | .paused => 3
  | .closing => 4
  | .ending => 5

/-- The slot snapshot; of a FREE slot, bytes 1 to 31 are 0. -/
def slotSnapshot (i : Fin 8) (s : State) : List Byte :=
  let marker : Byte := 0x90 + nat8 i.val
  match s.slots[i] with
  | none => padTo 32 [marker]
  | some r =>
    let owedReason := r.owed.bind fun o => o.2
    padTo 32 (
      [marker, r.phase.code,
        (0 : BitVec 2) ++ BitVec.ofBool owedReason.isSome ++ BitVec.ofBool r.owed.isSome ++
          BitVec.ofBool (beingInserted i s) ++ BitVec.ofBool r.pause.isSome ++ BitVec.ofBool r.probe.isSome ++
          BitVec.ofBool r.answer.isSome,
        r.tag, r.dest, r.port] ++
      nat24 r.base ++ nat16 r.size ++ nat16 r.count ++ [nat8 r.window, nat8 (r.granted.getD 0)] ++
      nat16 r.taken ++ nat16 r.sent ++ nat16 r.digestIndex ++ bytes32 r.digest ++
      [nat8 r.attempts, nat8 r.timeouts, (r.owed.map fun o => o.1.code).getD 0, owedReason.getD 0])

/-- A size in units of 16 bytes. -/
def units (n : Nat) : Byte := nat8 (n / 16)

/-- A bank in the port snapshot. -/
def bankSnapshot (k : Bank) : List Byte :=
  let state : BitVec 2 := match k.content with
    | .free => 0
    | .filling _ _ => 1
    | .full _ _ => 2
  let fill : Nat := match k.content with
    | .free => 0
    | .filling _ n | .full _ n => n
  let owner : List Byte := match k.content with
    | .free => [0, 0, 0]
    | .filling o _ | .full o _ => [o.source, o.tag, units o.size]
  bytes16 (state ++ (0 : BitVec 1) ++ BitVec.ofNat 13 (k.base / 16)) ++ [nat8 k.capacity, nat8 fill] ++ owner

/-- A station number in four bits. -/
def nibble (b : Byte) : BitVec 4 := b.extractLsb' 0 4

/-- The port snapshot; of a CLOSED port, bytes 1 to 31 are 0. -/
def portSnapshot (i : Fin 8) (s : State) : List Byte :=
  let marker : Byte := 0xA0 + nat8 i.val
  match s.ports[i] with
  | none => padTo 32 [marker]
  | some p =>
    let state : BitVec 2 := match p.mode with
      | .listening => 1
      | .bound _ _ _ => 2
      | .halted => 3
    let current : BitVec 2 := match p.mode with
      | .bound _ (some .a) _ => 1
      | .bound _ (some .b) _ => 2
      | .bound _ none _ | .listening | .halted => 0
    let idle : Bool := match p.mode with
      | .bound _ _ t => t.isSome
      | .listening | .halted => false
    let binding : Option Binding := match p.mode with
      | .bound b _ _ => some b
      | .listening | .halted => none
    let noteBits : BitVec 2 := match p.note with
      | some n => BitVec.ofBool (!n.matched) ++ (1 : BitVec 1)
      | none => 0
    let bindBits : BitVec 3 := match binding with
      | some b => BitVec.ofBool b.resumeSent ++ BitVec.ofBool b.busyOwed ++ (1 : BitVec 1)
      | none => 0
    let granted : BitVec 3 := BitVec.ofNat 3 ((binding.map fun b => b.granted).getD 0)
    let bindSource : BitVec 4 := nibble ((binding.map fun b => b.source).getD 0)
    let noteSource : BitVec 4 := nibble ((p.note.map fun n => n.source).getD 0)
    let bindBytes : List Byte := match binding with
      | some b => [b.tag, units b.size] ++ nat16 b.count ++ nat16 b.accepted ++ bytes32 b.digest
      | none => List.replicate 10 0
    let noteBytes : List Byte := match p.note with
      | some n => [n.tag] ++ nat16 n.accepted
      | none => [0, 0, 0]
    [marker, BitVec.ofBool idle ++ BitVec.ofNat 3 p.maxWindow ++ current ++ state, units p.maxSize,
      granted ++ noteBits ++ bindBits, bindSource ++ noteSource] ++
    bankSnapshot p.bankA ++ bankSnapshot p.bankB ++ bindBytes ++ noteBytes

/-- The peer snapshot. -/
def peerSnapshot (i : Fin 16) (s : State) : List Byte :=
  let p := s.peers[i]
  let marker : Byte := 0xB0 + nat8 i.val
  let heard : BitVec 1 := BitVec.ofBool p.heard
  padTo 32 (
    match p.state with
    | .absent => [marker, 0, 0, (0 : BitVec 7) ++ heard]
    | .present misses beacon cls size =>
      [marker, 1, nat8 misses, (0 : BitVec 6) ++ (1 : BitVec 1) ++ heard] ++ bytes16 beacon ++ [cls, size]
    | .self => [marker, 2, 0, (0 : BitVec 7) ++ heard])

/-- The snapshot of a target and index (R153): 32 zero bytes where the target is 4 or more or the index is outside its
target's range. -/
def snapshot (target index : Byte) (s : State) : List Byte :=
  if target = 0 then globalSnapshot s
  else if target = 1 then
    match slotNumber index with
    | some i => slotSnapshot i s
    | none => List.replicate 32 0
  else if target = 2 then
    match portNumber index with
    | some i => portSnapshot i s
    | none => List.replicate 32 0
  else if target = 3 then
    match stationNumber index with
    | some i => peerSnapshot i s
    | none => List.replicate 32 0
  else List.replicate 32 0

end Sys2Proof.Machine
end

