-- ==== Sys2Proof/WellFormed.lean ====
section
/-! DEFINITION. Which commands are well formed. The operands' types carry their ranges; the one check left
is that a TRANSACTION_IGNORED has a code that names no transaction (R145). -/

namespace Sys2Proof

/-- The five transaction codes (R145): COMMAND, LOG_READ, MEM_WRITE, MEM_READ and INSPECT. -/
def transactionCodes : List Byte := [0xC1, 0xC2, 0xC3, 0xC4, 0xC5]

/-- A command is well formed. -/
def Instr.wf : Instr → Bool
  | .transactionIgnored code => !(transactionCodes.contains code)
  | .resetNAsserted | .resetNReleased _ _ _ _ | .startPeriodExpiry | .symbolInDown _ | .symbolInAlign _
  | .symbolInUp _ | .quietTimerExpiry | .headerDecision | .openFrame | .finishFrame | .cancelFrame | .blockFrame
  | .grantFrame | .refuseFrame | .takenFrame | .resumeFrame | .busyFrame | .haltedFrame | .closedFrame
  | .returnedFrame | .rollFrame | .ownBeacon | .beaconPeriodExpiry | .answerExpiryOpening _
  | .answerExpiryStreaming _ | .answerExpiryClosing _ | .probeTimerExpiry _ | .pauseTimerExpiry _
  | .idleTimerExpiry _ | .dataQueueGrant | .forwardStart | .forwardEnd | .insertionStart | .insertionEnd
  | .yieldThresholdExpiry | .yieldHoldExpiry | .command _ | .startRun | .cancelRun | .openPort | .releaseBank
  | .haltPort | .unhaltPort | .closePort | .softReset | .unknownCommand | .logRead | .logReadDone | .memWrite _ _
  | .memWriteData _ | .memWriteClose | .memRead _ _ | .memReadData | .inspect _ _ | .transactionEnd => true

end Sys2Proof
end

