-- ==== Sys2Proof/Machine/LocalPort.lean ====
section
/-! DEFINITION. The Local Port (chapter 8): the rows of SPI transactions. A row continues the transaction that the pins
have begun; where they have begun none it stands for the transaction from its fall of CS_N on (log 12). -/

namespace Sys2Proof.Machine

open Sys2Proof

/-! ### Transactions (R144 to R146) -/

/-- The Local Port sees the bus: RESET_N is not low, and no CS_N that was low at its release is waited out (R144). -/
def State.busLive (s : State) : Bool := !s.resetLow && !s.spi.waitRise

/-- CS_N rises: nothing of the transaction survives (R145), SDO is high impedance (R144), and a copy that was not fully
shifted out is dropped (R149). -/
def riseOfCs (s : State) : State := { s with spi := LocalPort.reset, logCopied := none }

/-- The transaction at the pins can go on to complete byte `n` of a transaction of this kind: its code byte is arriving,
or it has completed with this kind, and fewer than `n` bytes with it. -/
def LocalPort.opens (p : LocalPort) (k : Option SpiKind) (n : Nat) : Bool :=
  p.phase = .code || (p.phase = .body && p.kind = k && 1 ≤ p.bytes && p.bytes < n)

/-- The status byte of the transaction that completes byte `n` of this kind: as captured at the fall of CS_N (R146),
or, where a row stands for the transaction from its fall on, as it is now (log 12). -/
def openingStatus (k : Option SpiKind) (n : Nat) (s : State) : Byte :=
  if s.spi.opens k n then s.spi.outgoing.headD 0 else statusByte s

/-- A transaction of this kind has come to its byte `n`, at the rise of SCK of that byte's last bit, which is 0 on SDO.
Whatever other transaction stood is gone with its rise of CS_N (log 13). -/
def beginTransaction (k : Option SpiKind) (n : Nat) (s : State) : State :=
  let s1 := riseOfCs s
  { s1 with spi := { LocalPort.reset with csLow := true, sck := true, sdo := some false, bytes := 1,
                                          outgoing := [openingStatus k n s] } }

/-- The transaction with its kind fixed and its phase body (R145). -/
def LocalPort.inBody (p : LocalPort) (k : SpiKind) : LocalPort := { p with phase := .body, kind := some k }

/-- Replace the Local Port's state. -/
def setSpi (p : LocalPort) (s : State) : State := { s with spi := p }

/-! ### COMMAND (R147) -/

/-- The record of a COMMAND joins the FIFO, or is refused with FIFO_FULL (R147). -/
def enqueueCommand (bytes : List Byte) (s : State) : State :=
  if bytes.length < 16 then s
  else if s.commandFifo.length < Config.commandCapacity then
    { s with commandFifo := s.commandFifo ++ [bytes.take 16] }
  else post (.cmdRejected (recordCode bytes) (recordIndex bytes) .fifoFull) s

/-- CS_N rises at the end of a COMMAND. -/
def commandRise (bytes : List Byte) (s : State) : State :=
  if s.resetLow then s else if s.spi.waitRise then riseOfCs s else enqueueCommand bytes (riseOfCs s)

/-! ### LOG_READ (R149, R168, R169) -/

/-- The code byte of a LOG_READ completes: the oldest record is copied, or the EMPTY answer. -/
def startLogRead (s : State) : State :=
  if s.busLive then
    let s1 := beginTransaction (some .logRead) 1 s
    let copy := match s.log.head? with
      | some r => r.bytes
      | none => emptyAnswer
    { setSpi { s1.spi.inBody .logRead with outgoing := s1.spi.outgoing ++ copy } s1 with logCopied := s.log.head? }
  else s

/-- The copied record is removed where the log still holds it unchanged (R168, R169). -/
def removeCopied (s : State) : State :=
  if s.logCopied.isSome ∧ s.log.head? = s.logCopied then { s with log := s.log.tail } else s

/-- The last bit of a LOG_READ's copy has been shifted out. -/
def finishLogRead (s : State) : State :=
  if s.spi.kind = some .logRead ∧ s.spi.bytes < 17 then
    { setSpi { s.spi with bytes := 17 } (removeCopied s) with logCopied := none }
  else s

/-! ### The memory window (R86, R88 to R90, R150 to R152) -/

/-- The verdict code (R178 and its section). -/
def Verdict.code : Verdict → Byte
  | .accepted => 0xA1
  | .fenced => 0xA2
  | .range => 0xA3

/-- The range of a window transaction is outside what the window serves (R88, R90). -/
def windowRange (addr len : Nat) : Bool := len = 0 || 1024 < len || Config.memoryBytes < addr + len

/-- The verdict on a MEM_WRITE (R88). -/
def writeVerdict (addr len : Nat) (s : State) : Verdict :=
  if windowRange addr len then .range
  else if Region.overlapsAny { lo := addr, hi := addr + len } (fence s) then .fenced
  else .accepted

/-- The verdict on a MEM_READ (R90). -/
def readVerdict (addr len : Nat) : Verdict := if windowRange addr len then .range else .accepted

/-- The length field of a window transaction completes: the verdict goes out as byte 7 (R150, R151). -/
def startWindow (k : SpiKind) (addr : BitVec 24) (len : Word16) (v : Verdict) (s : State) : State :=
  let s1 := beginTransaction (some k) 6 s
  setSpi { s1.spi.inBody k with
    bytes := 6, addr := addr, len := len, verdict := some v,
    outgoing := s1.spi.outgoing ++ List.replicate 5 0 ++ [v.code] } s1

/-- The next data byte of a window transaction lies within its length and the verdict was ACCEPTED. -/
def LocalPort.moving (p : LocalPort) : Bool := p.verdict = some .accepted && p.moved < p.len.toNat

/-- A data byte of a MEM_WRITE (R89): written where the transaction was accepted and the length is not reached,
ignored otherwise. The part shifts out 0 during the byte after it (R150). -/
def writeData (b : Byte) (s : State) : Except Fault State :=
  if s.spi.kind = some .memWrite then
    let p := { s.spi with bytes := s.spi.bytes + 1, outgoing := s.spi.outgoing ++ [0] }
    if s.spi.moving then
      match writeByte (s.spi.addr.toNat + s.spi.moved) b s with
      | .ok s' => .ok (setSpi { p with moved := s.spi.moved + 1 } s')
      | .error f => .error f
    else .ok (setSpi p s)
  else .ok s

/-- A data byte of a MEM_READ (R86, R90): read from memory, or 0 after the length or after RANGE. -/
def readData (s : State) : Except Fault State :=
  if s.spi.kind = some .memRead then
    let p := { s.spi with bytes := s.spi.bytes + 1 }
    if s.spi.moving then
      match readByte (s.spi.addr.toNat + s.spi.moved) s with
      | .ok b => .ok (setSpi { p with moved := s.spi.moved + 1, outgoing := s.spi.outgoing ++ [b] } s)
      | .error f => .error f
    else .ok (setSpi { p with outgoing := s.spi.outgoing ++ [0] } s)
  else .ok s

/-! ### INSPECT and ignored transactions (R145, R153) -/

/-- The index byte of an INSPECT completes: the snapshot is composed from the state at this moment. -/
def startInspect (target index : Byte) (s : State) : State :=
  let s1 := beginTransaction (some .inspect) 3 s
  setSpi { s1.spi.inBody .inspect with
    bytes := 3, target := target, index := index,
    outgoing := s1.spi.outgoing ++ [0, 0] ++ snapshot target index s } s1

/-- A code byte that names no transaction: the ignore phase (R145). -/
def startIgnored (s : State) : State :=
  let s1 := beginTransaction none 1 s
  setSpi { s1.spi with phase := .ignore } s1

/-! ### Meanings -/

/-- COMMAND. -/
def execCommand (bytes : List Byte) (s : State) : Host.Outcome State Fault Refusal := .next (commandRise bytes s)

/-- LOG_READ. -/
def execLogRead (s : State) : Host.Outcome State Fault Refusal := .next (startLogRead s)

/-- LOG_READ_DONE. -/
def execLogReadDone (s : State) : Host.Outcome State Fault Refusal := .next (finishLogRead s)

/-- MEM_WRITE; the Command Unit is held until CS_N rises (R152). -/
def execMemWrite (addr : BitVec 24) (len : Word16) (s : State) : Host.Outcome State Fault Refusal :=
  if s.busLive then .next (startWindow .memWrite addr len (writeVerdict addr.toNat len.toNat s) s) else .next s

/-- MEM_WRITE_DATA. -/
def execMemWriteData (b : Byte) (s : State) : Host.Outcome State Fault Refusal := outcome (writeData b s)

/-- MEM_WRITE_CLOSE. -/
def execMemWriteClose (s : State) : Host.Outcome State Fault Refusal :=
  if s.memWriteOpen then .next (riseOfCs s) else .next s

/-- MEM_READ. -/
def execMemRead (addr : BitVec 24) (len : Word16) (s : State) : Host.Outcome State Fault Refusal :=
  if s.busLive then .next (startWindow .memRead addr len (readVerdict addr.toNat len.toNat) s) else .next s

/-- MEM_READ_DATA. -/
def execMemReadData (s : State) : Host.Outcome State Fault Refusal := outcome (readData s)

/-- INSPECT. -/
def execInspect (target index : Byte) (s : State) : Host.Outcome State Fault Refusal :=
  if s.busLive then .next (startInspect target index s) else .next s

/-- TRANSACTION_IGNORED. -/
def execTransactionIgnored (code : Byte) (s : State) : Host.Outcome State Fault Refusal :=
  if s.busLive ∧ ¬(transactionCodes.contains code) then .next (startIgnored s) else .next s

/-- TRANSACTION_END: CS_N rises; what it ends is whatever transaction is in progress (log 13). -/
def execTransactionEnd (s : State) : Host.Outcome State Fault Refusal :=
  if s.resetLow then .next s else .next (riseOfCs s)

end Sys2Proof.Machine
end

