-- ==== Sys2Proof/Machine/Bus.lean ====
section
/-! DEFINITION. The pins of the Local Port (R144): CS_N, SCK and SDI as the controller drives them, the bits and bytes
they make, SDO, and the row that each completed byte or rise of CS_N brings (logs 12, 21). -/

namespace Sys2Proof.Machine

open Sys2Proof

/-! ### Bits and bytes (R144) -/

/-- The byte of eight bits, the most significant first. -/
def byteOfBits (bits : List Bool) : Byte := bits.foldl (fun b x => b.extractLsb' 0 7 ++ BitVec.ofBool x) 0

/-- The bit due on SDO: the next bit of the outgoing byte, most significant first; 0 where no byte is fixed. -/
def LocalPort.outBit (p : LocalPort) : Bool := (p.outgoing.getD p.bytes 0).getMsbD p.bits.length

/-- One more byte has completed, and the byte shifted out after it is 0 where none is fixed. -/
def LocalPort.counted (p : LocalPort) : LocalPort :=
  { p with bytes := p.bytes + 1, outgoing := padTo (p.bytes + 2) p.outgoing }

/-! ### Bytes of a transaction (R145, R147 to R151, R153) -/

/-- The code of a kind of transaction (R145). -/
def SpiKind.code : SpiKind → Byte
  | .command => 0xC1
  | .logRead => 0xC2
  | .memWrite => 0xC3
  | .memRead => 0xC4
  | .inspect => 0xC5

/-- The kind a code byte names, if it names one (R145). -/
def kindOfCode (b : Byte) : Option SpiKind :=
  [SpiKind.command, .logRead, .memWrite, .memRead, .inspect].find? fun k => k.code = b

/-- The code byte completes: a LOG_READ takes its copy, a code that names no transaction goes to the ignore phase, and
another kind of transaction goes on to its body. From here a MEM_WRITE holds the Command Unit (R152). -/
def codeArrives (b : Byte) (s : State) : State :=
  match kindOfCode b with
  | none => due (.transactionIgnored b) s
  | some .logRead => due .logRead s
  | some .command => setSpi (s.spi.inBody .command).counted s
  | some .memWrite => setSpi (s.spi.inBody .memWrite).counted s
  | some .memRead => setSpi (s.spi.inBody .memRead).counted s
  | some .inspect => setSpi (s.spi.inBody .inspect).counted s

/-- A byte after the code byte of a window transaction: three of address and two of length, most significant first, and
the row at the last of them; then the data bytes, each with the row of its kind (R150, R151). -/
def windowArrives (opened : BitVec 24 → Word16 → Instr) (data : Instr) (b : Byte) (s : State) : State :=
  let p := s.spi
  if p.bytes < 4 then setSpi { p.counted with addr := p.addr.extractLsb' 0 16 ++ b, verdict := none } s
  else if p.bytes < 5 then setSpi { p.counted with len := p.len.extractLsb' 0 8 ++ b, verdict := none } s
  else if p.bytes < 6 then due (opened p.addr (p.len.extractLsb' 0 8 ++ b)) s
  else due data s

/-- A byte after the code byte completes (R147, R149 to R151, R153). -/
def bodyArrives (b : Byte) (s : State) : State :=
  let p := s.spi
  match p.kind with
  | none => s
  | some .command => setSpi { p.counted with record := if p.record.length < 16 then p.record ++ [b] else p.record } s
  | some .logRead => if p.bytes = 16 then due .logReadDone s else setSpi p.counted s
  | some .memWrite => windowArrives .memWrite (.memWriteData b) b s
  | some .memRead => windowArrives .memRead .memReadData b s
  | some .inspect =>
    if p.bytes = 1 then setSpi { p.counted with target := b } s
    else if p.bytes = 2 then due (.inspect p.target b) s
    else setSpi p.counted s

/-- A byte completes. In the ignore phase it is counted and nothing else (R145). -/
def byteArrives (b : Byte) (s : State) : State :=
  match s.spi.phase with
  | .none => s
  | .code => codeArrives b s
  | .body => bodyArrives b s
  | .ignore => setSpi s.spi.counted s

/-! ### Edges (R144) -/

/-- CS_N falls: a transaction begins, the status byte is captured, and its first bit goes out (R144, R146). -/
def fallOfCs (sck : Bool) (s : State) : State :=
  setSpi { LocalPort.reset with csLow := true, sck := sck, sdo := some (statusByte s).msb, phase := .code,
                                outgoing := [statusByte s] } s

/-- The row that a rise of CS_N brings: the end of a COMMAND with the record bytes it gathered, of a MEM_WRITE, or of
any other transaction. -/
def LocalPort.atRise (p : LocalPort) : Instr :=
  match p.kind with
  | some .command => .command p.record
  | some .memWrite => .memWriteClose
  | some .logRead | some .memRead | some .inspect | none => .transactionEnd

/-- SCK rises: SDI is sampled, and the eighth bit completes a byte. -/
def sampleBit (x : Bool) (s : State) : State :=
  let bits := s.spi.bits ++ [x]
  if bits.length < 8 then setSpi { s.spi with sck := true, bits := bits } s
  else byteArrives (byteOfBits bits) (setSpi { s.spi with sck := true, bits := [] } s)

/-- One REFCLK period at the pins: a fall or a rise of CS_N, else a rise of SCK, which samples SDI, or a fall of SCK,
after which the next bit stands on SDO. SCK and SDI are ignored while CS_N is high, and until a CS_N that was low at the
release of RESET_N has risen; while RESET_N is low the port takes nothing (R144). -/
def busPeriod (l : BusLevels) (s : State) : State :=
  if s.resetLow then s
  else if l.csLow && !s.spi.csLow then fallOfCs l.sck s
  else if !l.csLow && s.spi.csLow then due s.spi.atRise s
  else if !l.csLow || s.spi.waitRise || l.sck = s.spi.sck then setSpi { s.spi with sck := l.sck } s
  else if l.sck then sampleBit l.sdi s
  else setSpi { s.spi with sck := false, sdo := some s.spi.outBit } s

/-- The pins in one REFCLK period: the next levels that the controller drives; with none listed they stay (log 21). -/
def tickBus (s : State) : State :=
  match s.drive with
  | [] => s
  | l :: rest => busPeriod l { s with drive := rest }

end Sys2Proof.Machine
end

