-- ==== Sys2Proof/Machine/Tick.lean ====
section
/-! DEFINITION. One REFCLK period with no command: the counter of the origin stamp, the timers, the symbols of the Link
Transmitter, and the pins of the Local Port (logs 1, 2, 18, 21). -/

namespace Sys2Proof.Machine

open Sys2Proof

/-! ### The transmitter (R140 to R142) -/

/-- The transmitter emits IDLE between frames; the gap is counted to 2 (R101). -/
def emitIdle (s : State) : State :=
  { setRau { s.rau with gap := min 2 (s.rau.gap + 1) } s with ringOut := .carries .idle }

/-- The next symbol of a forwarded frame: what is left of the gap and the SOF, then the frame's bytes, each removed
from the pass FIFO as it is emitted, and at the note of its end FORWARD_END, which sends EOF or ABORT (R101). With no
byte and no note in the pass FIFO the RAU offers nothing, and the symbol is IDLE (R142, log 11). -/
def emitForwarded (lead : List Symbol) (s : State) : State :=
  match lead with
  | sym :: rest => { setRau { s.rau with output := .forwarding rest } s with ringOut := .carries sym }
  | [] =>
    match s.rau.passFifo with
    | f :: fs =>
      match f.bytes with
      | b :: bs => { setRau { s.rau with passFifo := { f with bytes := bs } :: fs } s with ringOut := .carries (.data b) }
      | [] => if f.ended.isSome then due .forwardEnd s else { s with ringOut := .carries .idle }
    | [] => { s with ringOut := .carries .idle }

/-- The next symbol of an own frame, and after the last of them INSERTION_END, which sends EOF (R110, R111). -/
def emitInserted (block : Option (Fin 8 × Nat)) (left : List Symbol) (s : State) : State :=
  match left with
  | sym :: rest => { setRau { s.rau with output := .inserting block rest } s with ringOut := .carries sym }
  | [] => due .insertionEnd s

/-- One symbol time of the transmitter: nothing while RESET_N is low, IDLE in START, and in RUN what the RAU offers or
IDLE (R140 to R142). -/
def emitSymbol (s : State) : State :=
  match s.tx.state with
  | .held => s
  | .start => emitIdle s
  | .run =>
    match s.rau.output with
    | .free => emitIdle s
    | .forwarding lead => emitForwarded lead s
    | .inserting block left => emitInserted block left s

/-! ### Timers -/

/-- The timers of a slot after one REFCLK period. -/
def tickSlot (slot : Slot) : Slot :=
  slot.map fun r => { r with answer := r.answer.tick, probe := r.probe.tick, pause := r.pause.tick }

/-- The idle timer of a port after one REFCLK period. -/
def tickPort (port : Port) : Port :=
  port.map fun p =>
    match p.mode with
    | .bound b current idle => { p with mode := .bound b current idle.tick }
    | .listening | .halted => p

/-- The RAU's two timers after one REFCLK period. -/
def tickRau (r : Rau) : Rau := { r with threshold := r.threshold.tick, holdTimer := r.holdTimer.tick }

/-- Every timer of the part, and the counter of R122, after one REFCLK period. -/
def tickTimers (s : State) : State :=
  { s with refclk := s.refclk + 1, rx := { s.rx with quiet := s.rx.quiet.tick },
           tx := { s.tx with startTimer := s.tx.startTimer.tick }, rau := tickRau s.rau,
           slots := mapTable tickSlot s.slots, ports := mapTable tickPort s.ports,
           rollCall := { s.rollCall with timer := s.rollCall.timer.tick } }

/-- What the transmitter does in one REFCLK period: a symbol on every second one (R132, log 18). -/
def tickSymbol (s : State) : State := if s.refclk.getLsbD 0 then s else emitSymbol s

/-- One REFCLK period. -/
def tick (s : State) : State := tickBus (tickSymbol (tickTimers s))

end Sys2Proof.Machine
end

