-- ==== Sys2Proof/Machine/Dispatch.lean ====
section
/-! DEFINITION. The dispatch: one arm per constructor of Instr, each one call of its meaning. -/

namespace Sys2Proof.Machine

open Sys2Proof

/-- The effect of a command on everything but the queue of commands. -/
def exec (i : Instr) (s : State) : Host.Outcome State Fault Refusal :=
  match i with
  | .resetNAsserted => Sys2Proof.Machine.execResetNAsserted s
  | .resetNReleased stn rsz tcl csLow => Sys2Proof.Machine.execResetNReleased stn rsz tcl csLow s
  | .startPeriodExpiry => Sys2Proof.Machine.execStartPeriodExpiry s
  | .symbolInDown sym => Sys2Proof.Machine.execSymbolInDown sym s
  | .symbolInAlign sym => Sys2Proof.Machine.execSymbolInAlign sym s
  | .symbolInUp sym => Sys2Proof.Machine.execSymbolInUp sym s
  | .quietTimerExpiry => Sys2Proof.Machine.execQuietTimerExpiry s
  | .headerDecision => Sys2Proof.Machine.execHeaderDecision s
  | .openFrame => Sys2Proof.Machine.execOpenFrame s
  | .finishFrame => Sys2Proof.Machine.execFinishFrame s
  | .cancelFrame => Sys2Proof.Machine.execCancelFrame s
  | .blockFrame => Sys2Proof.Machine.execBlockFrame s
  | .grantFrame => Sys2Proof.Machine.execGrantFrame s
  | .refuseFrame => Sys2Proof.Machine.execRefuseFrame s
  | .takenFrame => Sys2Proof.Machine.execTakenFrame s
  | .resumeFrame => Sys2Proof.Machine.execResumeFrame s
  | .busyFrame => Sys2Proof.Machine.execBusyFrame s
  | .haltedFrame => Sys2Proof.Machine.execHaltedFrame s
  | .closedFrame => Sys2Proof.Machine.execClosedFrame s
  | .returnedFrame => Sys2Proof.Machine.execReturnedFrame s
  | .rollFrame => Sys2Proof.Machine.execRollFrame s
  | .ownBeacon => Sys2Proof.Machine.execOwnBeacon s
  | .beaconPeriodExpiry => Sys2Proof.Machine.execBeaconPeriodExpiry s
  | .answerExpiryOpening slot => Sys2Proof.Machine.execAnswerExpiryOpening slot s
  | .answerExpiryStreaming slot => Sys2Proof.Machine.execAnswerExpiryStreaming slot s
  | .answerExpiryClosing slot => Sys2Proof.Machine.execAnswerExpiryClosing slot s
  | .probeTimerExpiry slot => Sys2Proof.Machine.execProbeTimerExpiry slot s
  | .pauseTimerExpiry slot => Sys2Proof.Machine.execPauseTimerExpiry slot s
  | .idleTimerExpiry port => Sys2Proof.Machine.execIdleTimerExpiry port s
  | .dataQueueGrant => Sys2Proof.Machine.execDataQueueGrant s
  | .forwardStart => Sys2Proof.Machine.execForwardStart s
  | .forwardEnd => Sys2Proof.Machine.execForwardEnd s
  | .insertionStart => Sys2Proof.Machine.execInsertionStart s
  | .insertionEnd => Sys2Proof.Machine.execInsertionEnd s
  | .yieldThresholdExpiry => Sys2Proof.Machine.execYieldThresholdExpiry s
  | .yieldHoldExpiry => Sys2Proof.Machine.execYieldHoldExpiry s
  | .command bytes => Sys2Proof.Machine.execCommand bytes s
  | .startRun => Sys2Proof.Machine.execStartRun s
  | .cancelRun => Sys2Proof.Machine.execCancelRun s
  | .openPort => Sys2Proof.Machine.execOpenPort s
  | .releaseBank => Sys2Proof.Machine.execReleaseBank s
  | .haltPort => Sys2Proof.Machine.execHaltPort s
  | .unhaltPort => Sys2Proof.Machine.execUnhaltPort s
  | .closePort => Sys2Proof.Machine.execClosePort s
  | .softReset => Sys2Proof.Machine.execSoftReset s
  | .unknownCommand => Sys2Proof.Machine.execUnknownCommand s
  | .logRead => Sys2Proof.Machine.execLogRead s
  | .logReadDone => Sys2Proof.Machine.execLogReadDone s
  | .memWrite addr len => Sys2Proof.Machine.execMemWrite addr len s
  | .memWriteData b => Sys2Proof.Machine.execMemWriteData b s
  | .memWriteClose => Sys2Proof.Machine.execMemWriteClose s
  | .memRead addr len => Sys2Proof.Machine.execMemRead addr len s
  | .memReadData => Sys2Proof.Machine.execMemReadData s
  | .inspect target index => Sys2Proof.Machine.execInspect target index s
  | .transactionIgnored code => Sys2Proof.Machine.execTransactionIgnored code s
  | .transactionEnd => Sys2Proof.Machine.execTransactionEnd s

end Sys2Proof.Machine
end

