-- ==== Sys2Proof/Safety.lean ====
section
/-! DEFINITION. What stays true of the part at every step: the predicates that the invariants of
Sys2Proof/Certificates/Slice0/Obligations.lean are stated in. -/

namespace Sys2Proof.Machine

open Sys2Proof

/-! ### The Completion Log (R164, R166, R167) -/

/-- A LOG_OVERFLOW record. -/
def Record.isOverflow : Record → Bool
  | .logOverflow _ => true
  | .runEnd _ _ _ _ _ _ _ | .portRunEnd _ _ _ _ _ | .bankFull _ _ _ _ _ _ _ | .cmdRejected _ _ _ | .peerFound _
  | .peerLost _ | .classMismatch _ _ | .sizeMismatch _ _ | .ringOpen | .ringClosed | .duplicateStation | .linkUp
  | .linkDown | .softResetDone => false

/-- The log holds at most 32 records; a LOG_OVERFLOW is the newest record and its lost count is 1 to 255; without one
the log holds at most 31 records. -/
def LogOk (l : List Record) : Prop :=
  l.length ≤ 32 ∧ (∀ r ∈ l.dropLast, r.isOverflow = false) ∧
    (∀ n, l.getLast? = some (.logOverflow n) → 1 ≤ n ∧ n ≤ 255) ∧
    ((∀ r ∈ l, r.isOverflow = false) → l.length ≤ 31)

/-! ### Queues and FIFOs (R24, R96, R104, R106, R148) -/

/-- Every queue is within its capacity, a command record has sixteen bytes, and the header buffer at most twelve. -/
def QueuesOk (s : State) : Prop :=
  s.rau.controlQueue.length ≤ 16 ∧ s.rau.dataQueue.length ≤ 8 ∧ s.rau.passBytes ≤ 1104 ∧ s.commandFifo.length ≤ 8 ∧
    (∀ r ∈ s.commandFifo, r.length = 16) ∧ (∀ q, s.rau.reception = some q → q.header.length ≤ 12)

/-! ### The Link Receiver (R133 to R139) -/

/-- The receiver's counts are in their ranges, its quiet timer runs in ALIGN and UP only, and a frame is in reception
in UP only. -/
def ReceiverOk (s : State) : Prop :=
  (match s.rx.state with
    | .down => s.rx = Receiver.reset
    | .align => s.rx.run < 32 ∧ s.rx.span < 1024 ∧ s.rx.errors < 8 ∧ s.rx.quiet.isSome
    | .up => s.rx.run = 0 ∧ s.rx.span < 1024 ∧ s.rx.errors < 8 ∧ s.rx.quiet.isSome) ∧
    (s.rau.reception.isSome → s.rx.state = .up)

/-! ### The Run Table and the data queue (R16, R108) -/

/-- A block size of the part. -/
def sizeOk (n : Nat) : Prop := 16 ≤ n ∧ n ≤ 1024 ∧ n % 16 = 0

/-- The timers that may run in each state, and the counts of that state (the table of section 2.1, R16). -/
def Run.phaseOk (r : Run) : Prop :=
  match r.phase with
  | .opening =>
    r.granted = none ∧ r.taken = 0 ∧ r.sent = 0 ∧ r.answer.isSome ∧ r.probe = none ∧ r.pause = none ∧ r.owed = none
  | .streaming =>
    r.granted.isSome ∧ r.taken < r.count ∧ (r.answer.isSome ↔ r.taken < r.sent) ∧ r.probe = none ∧ r.pause = none ∧
      r.owed = none
  | .paused =>
    r.granted.isSome ∧ r.taken < r.count ∧ r.sent ≤ r.taken + 1 ∧ r.answer = none ∧ r.probe.isSome ∧ r.pause.isSome ∧
      r.owed = none
  | .closing =>
    r.granted.isSome ∧ r.taken = r.count ∧ r.answer.isSome ∧ r.probe = none ∧ r.pause = none ∧ r.owed = none
  | .ending => r.answer = none ∧ r.probe = none ∧ r.pause = none

/-- The ranges of a slot's fields (R16). -/
def RunOk (r : Run) : Prop :=
  sizeOk r.size ∧ 1 ≤ r.count ∧ r.count ≤ 65535 ∧ r.base % 16 = 0 ∧ r.base + r.count * r.size ≤ Config.memoryBytes ∧
    1 ≤ r.window ∧ r.window ≤ 4 ∧ r.dest.toNat < 16 ∧ r.port.toNat < 8 ∧ r.taken ≤ r.sent ∧ r.sent ≤ r.count ∧
    r.sent ≤ r.taken + r.granted.getD 0 ∧ (∀ g, r.granted = some g → 1 ≤ g ∧ g ≤ r.window) ∧
    r.digestIndex ≤ r.count ∧ 1 ≤ r.attempts ∧ r.attempts ≤ 4 ∧ r.timeouts ≤ 7 ∧ r.phaseOk

/-- A data-queue entry belongs to a slot in STREAMING or PAUSED and has an index in [taken, sent) of it (R108). -/
def entryOk (s : State) (e : DataEntry) : Prop :=
  ∃ r, s.slots[e.slot] = some r ∧ (r.phase = .streaming ∨ r.phase = .paused) ∧ r.taken ≤ e.index ∧ e.index < r.sent

/-- The Run Table and the data queue agree: every slot's fields are in their ranges, a slot in ENDING has a BLOCK being
inserted, and the data queue holds at most eight entries, each of R108's kind, a slot's entries in increasing order. -/
def RunsOk (s : State) : Prop :=
  (∀ i : Fin 8, ∀ r, s.slots[i] = some r → RunOk r ∧ (r.phase = .ending → beingInserted i s = true)) ∧
    s.rau.dataQueue.length ≤ 8 ∧ (∀ e ∈ s.rau.dataQueue, entryOk s e) ∧
    s.rau.dataQueue.Pairwise fun a b => a.slot = b.slot → a.index < b.index

/-! ### The Port Table and the regions (R48 to R50, R91, R93) -/

/-- The fill of a bank is in the range of its state (R49). -/
def Bank.contentOk (b : Bank) (maxSize : Nat) : Prop :=
  match b.content with
  | .free => True
  | .filling o fill => fill < b.capacity ∧ o.size ≤ maxSize
  | .full o fill => 1 ≤ fill ∧ fill ≤ b.capacity ∧ o.size ≤ maxSize

/-- A bank: whole units within the memory, and a fill in range. -/
def BankOk (p : OpenPort) (b : Bank) : Prop :=
  b.base % 16 = 0 ∧ 1 ≤ b.capacity ∧ b.capacity ≤ 255 ∧ (p.region b).hi ≤ Config.memoryBytes ∧ b.contentOk p.maxSize

/-- A bank is FILLING for this binding. -/
def Bank.fillingFor (b : Bank) (o : Owner) : Prop := ∃ fill, b.content = .filling o fill

/-- A bank is not FILLING. -/
def Bank.notFilling (b : Bank) : Prop := ∀ o fill, b.content ≠ .filling o fill

/-- The state of a port agrees with its banks: the current bank of a BOUND port is FILLING for its binding, and no
other bank is FILLING. -/
def OpenPort.modeOk (p : OpenPort) : Prop :=
  match p.mode with
  | .listening | .halted => p.bankA.notFilling ∧ p.bankB.notFilling
  | .bound b current idle =>
    sizeOk b.size ∧ b.size ≤ p.maxSize ∧ 1 ≤ b.count ∧ 1 ≤ b.granted ∧ b.granted ≤ p.maxWindow ∧ idle.isSome ∧
      (match current with
        | none => p.bankA.notFilling ∧ p.bankB.notFilling
        | some k => (p.bank k).fillingFor b.owner ∧ (p.bank k.other).notFilling)

/-- A port that is not CLOSED (R48 to R50). -/
def PortOk (p : OpenPort) : Prop :=
  sizeOk p.maxSize ∧ 1 ≤ p.maxWindow ∧ p.maxWindow ≤ 4 ∧ BankOk p p.bankA ∧ BankOk p p.bankB ∧ p.modeOk

/-- Two regions share no byte. -/
def Region.apart (a b : Region) : Prop := ∀ x, ¬(a.lo ≤ x ∧ x < a.hi ∧ b.lo ≤ x ∧ x < b.hi)

/-- Every open port is in order; the bank regions of open ports share no byte with one another (R91); and no byte lies
both in a FREE or FILLING bank and in an active source region (R93). Source regions are not empty. -/
def RegionsOk (s : State) : Prop :=
  (∀ i : Fin 8, ∀ p, s.ports[i] = some p → PortOk p ∧ (p.region p.bankA).apart (p.region p.bankB)) ∧
    (∀ i j : Fin 8, i ≠ j → ∀ a ∈ portRegions s.ports[i], ∀ b ∈ portRegions s.ports[j], a.apart b) ∧
    (∀ a ∈ fencedBanks s, ∀ b ∈ sourceRegions s, a.apart b) ∧
    (∀ i : Fin 8, ∀ r, s.slots[i] = some r → 1 ≤ r.count ∧ 1 ≤ r.size)

/-! ### SILENT (R117, R130, R131) -/

/-- While the station is SILENT both queues of the RAU are empty, every slot is FREE or ENDING, and no port is
BOUND. -/
def SilentOk (s : State) : Prop :=
  s.rollCall.silent = true →
    s.rau.controlQueue = [] ∧ s.rau.dataQueue = [] ∧
      (∀ i : Fin 8, ∀ r, s.slots[i] = some r → r.phase = .ending) ∧
      (∀ i : Fin 8, ∀ p b current idle, s.ports[i] = some p → p.mode ≠ .bound b current idle)

/-! ### Memory accesses (R82, R84 to R86) -/

/-- What a BLOCK in reception may still write lies within the memory. -/
def Reception.inMemory (q : Reception) : Prop :=
  ∀ w, q.decision = some (.strip (.block (.expected w))) → w.target + w.limit ≤ Config.memoryBytes

/-- Every access that a next command may make lies within the memory: a BLOCK in reception, and an accepted window
transaction. -/
def AccessOk (s : State) : Prop :=
  (∀ q, s.rau.reception = some q → q.inMemory) ∧
    (s.spi.verdict = some .accepted → s.spi.addr.toNat + s.spi.len.toNat ≤ Config.memoryBytes)

/-- The part is in order. -/
def Safe (s : State) : Prop := RunsOk s ∧ RegionsOk s ∧ AccessOk s

/-! ### Words of the statements -/

/-- A symbol can be taken in UP, and nothing that came before it waits. -/
abbrev State.receiving (s : State) : Prop := s.rx.state = .up ∧ s.resetLow = false ∧ s.rau.handover = none

/-- The header of the frame in reception waits for its decision (R97). -/
abbrev State.waits (s : State) (q : Reception) : Prop :=
  s.rau.reception = some q ∧ q.header.length = 12 ∧ q.decision = none

/-- The header check over the eight bytes of R7 agrees with the two bytes received. -/
abbrev Header.intact (h : Header) : Prop :=
  h.check = crc16 ([h.dest, h.src, h.kind, h.port, h.tag, h.seq] ++ bytes16 h.len)

/-- The state after a header decision that moves no byte: the yield hold of R115, and the decision. -/
def State.decidedAs (s : State) (q : Reception) (d : Decision) : State :=
  { s with rau := { s.rau.yieldOn s.straps.stn (headerOf q.header).flags with
                    reception := some { q with decision := some d } } }

/-- A frame that was handed over waits for its engine, and the station is not SILENT. -/
abbrev State.hands (s : State) (h : Handover) : Prop := s.rau.handover = some h ∧ s.rollCall.silent = false

/-- The row that takes a hand-over (R52, R100). A BLOCK and a ROLL are not handed over as control frames. -/
def Handover.row : Handover → Option Instr
  | .frame k _ _ =>
    match k with
    | .open_ => some .openFrame
    | .finish => some .finishFrame
    | .cancel => some .cancelFrame
    | .grant => some .grantFrame
    | .refuse => some .refuseFrame
    | .taken => some .takenFrame
    | .resume => some .resumeFrame
    | .busy => some .busyFrame
    | .halted => some .haltedFrame
    | .closed => some .closedFrame
    | .block | .roll => none
  | .block _ _ _ => some .blockFrame
  | .returned _ => some .returnedFrame
  | .roll _ _ => some .rollFrame
  | .ownRoll _ _ => some .ownBeacon

/-- The Command Unit may take the record `r` next (R155), and `rest` waits behind it. -/
abbrev State.takes (s : State) (r : List Byte) (rest : List (List Byte)) : Prop :=
  s.resetLow = false ∧ s.spi.kind ≠ some .memWrite ∧ s.commandFifo = r :: rest

/-- The binding of a port is that of the run that a frame's Src and Tag name. -/
def bindsTo (p : Port) (source tag : Byte) : Prop :=
  ∃ q b current idle, p = some q ∧ q.mode = .bound b current idle ∧ b.source = source ∧ b.tag = tag

/-- The records a log has taken since `before`, in order. -/
def Posted (before after : List Record) (rs : List Record) : Prop := after = rs.foldl postTo before

/-- A field of `k` bytes, most significant first. -/
def bigEndian : Nat → Nat → List Byte
  | 0, _ => []
  | k + 1, n => BitVec.ofNat 8 (n / 256 ^ k) :: bigEndian k n

/-- A flag's value at a bit of a byte. -/
def flagAt (bit : Nat) (b : Bool) : Nat := if b then 2 ^ bit else 0

/-- The Run Engine posts the record (R47). -/
def Record.ofRunEngine : Record → Bool
  | .runEnd _ _ _ _ _ _ _ => true
  | .portRunEnd _ _ _ _ _ | .bankFull _ _ _ _ _ _ _ | .cmdRejected _ _ _ | .peerFound _ | .peerLost _
  | .classMismatch _ _ | .sizeMismatch _ _ | .ringOpen | .ringClosed | .duplicateStation | .linkUp | .linkDown
  | .softResetDone | .logOverflow _ => false

/-- The Port Engine posts the record (R80, R81). -/
def Record.ofPortEngine : Record → Bool
  | .portRunEnd _ _ _ _ _ | .bankFull _ _ _ _ _ _ _ => true
  | .runEnd _ _ _ _ _ _ _ | .cmdRejected _ _ _ | .peerFound _ | .peerLost _ | .classMismatch _ _ | .sizeMismatch _ _
  | .ringOpen | .ringClosed | .duplicateStation | .linkUp | .linkDown | .softResetDone | .logOverflow _ => false

/-- What a slot becomes, and the records posted, where every run that passes the test ends with a result and no reason
(R41): a slot in ENDING stays; one whose BLOCK is being inserted waits in ENDING with the result owed. -/
def slotAfterEnding (i : Fin 8) (inserting : Bool) (ends : Run → Bool) (result : RunResult) (slot : Slot) :
    Slot × List Record :=
  match slot with
  | none => (none, [])
  | some r =>
    if r.phase = .ending ∨ ends r = false then (some r, [])
    else if inserting then
      (some { r with phase := .ending, owed := some (result, none), answer := none, probe := none, pause := none }, [])
    else (none, [.runEnd i r.tag r.dest r.port r.taken result none])

/-- What a port becomes, and the records posted, where every binding that passes the test ends with a result (R69, R70,
R80): the current bank is closed, FULL with a partial BANK_FULL or FREE with no record, then PORT_RUN_END, and the port
is LISTENING. -/
def portAfterEnding (i : Fin 8) (ends : Binding → Bool) (result : PortResult) (port : Port) : Port × List Record :=
  match port with
  | none => (none, [])
  | some p =>
    match p.mode with
    | .listening | .halted => (some p, [])
    | .bound b current _ =>
      if ends b = false then (some p, [])
      else
        let ended : Record := .portRunEnd i b.source b.tag b.accepted result
        match current with
        | none => (some { p with mode := .listening }, [ended])
        | some k =>
          match (p.bank k).content with
          | .filling o fill =>
            if fill = 0 then
              (some { p.setBank k { p.bank k with content := .free } with mode := .listening }, [ended])
            else
              (some { p.setBank k { p.bank k with content := .full o fill } with mode := .listening },
                [.bankFull i k (p.bank k).base fill true o.source o.tag, ended])
          | .free | .full _ _ => (some { p with mode := .listening }, [ended])

end Sys2Proof.Machine
end

