-- ==== Sys2Proof/Certificates/Slice0/Obligations.lean ====
section
/-! DEFINITION. The statements about the part. Each is a proposition over the model's own operations; the rules they
come from are in OBLIGATIONS.json. -/

open Sys2Proof Sys2Proof.Machine

/-! ### The queue of commands, ticks and resets -/

/-- A step takes the command at the front of the queue and runs it on the state with the queue's rest. -/
def Obligations.StepRunsFrontCommand : Prop :=
  ∀ (c : Instr) (rest : List Instr) (s : State),
    step { s with pending := c :: rest } = exec c { s with pending := rest }

/-- A step on an empty queue is one REFCLK period (model's choice, logs 1 and 2): the counter of R122 advances, every
running timer runs down by one period and stays at 0, and no table, queue of own frames, log or memory changes. On every
second one (log 18) the transmitter sends a symbol (R101, R141, R142): none while RESET_N is low, IDLE in START, and in
RUN the next symbol of the frame that is going out, a forwarded byte leaving the pass FIFO as it is sent, or IDLE
between frames, which counts for the gap; where the frame's symbols have gone out its end, which sends EOF or ABORT, is
the next command (log 11). Last, the next levels of the bus, where any are listed, reach the Local Port (log 21). -/
def Obligations.EmptyQueueStepTicks : Prop :=
  ∀ s : State, s.pending = [] → ∃ t,
    step s = .next (match s.drive with | [] => t | l :: rest => busPeriod l { t with drive := rest }) ∧
    t.drive = s.drive ∧ t.resetLow = s.resetLow ∧ t.straps = s.straps ∧ t.logCopied = s.logCopied ∧
    t.refclk = s.refclk + 1 ∧
    t.rx = { s.rx with quiet := s.rx.quiet.map (· - 1) } ∧
    t.tx = { s.tx with startTimer := s.tx.startTimer.map (· - 1) } ∧
    t.rau.threshold = s.rau.threshold.map (· - 1) ∧ t.rau.holdTimer = s.rau.holdTimer.map (· - 1) ∧
    t.rollCall = { s.rollCall with timer := s.rollCall.timer.map (· - 1) } ∧
    (∀ i : Fin 8, t.slots[i] = s.slots[i].map fun r =>
      { r with answer := r.answer.map (· - 1), probe := r.probe.map (· - 1), pause := r.pause.map (· - 1) }) ∧
    (∀ (i : Fin 8) p b current idle, s.ports[i] = some p → p.mode = .bound b current idle →
      t.ports[i] = some { p with mode := .bound b current (idle.map (· - 1)) }) ∧
    (∀ i : Fin 8, (∀ p b current idle, s.ports[i] = some p → p.mode ≠ .bound b current idle) →
      t.ports[i] = s.ports[i]) ∧
    t.peers = s.peers ∧ t.mem = s.mem ∧ t.log = s.log ∧ t.commandFifo = s.commandFifo ∧ t.spi = s.spi ∧
    t.rau.controlQueue = s.rau.controlQueue ∧ t.rau.dataQueue = s.rau.dataQueue ∧
    t.rau.reception = s.rau.reception ∧ t.rau.handover = s.rau.handover ∧ t.tagCounter = s.tagCounter ∧
    t.rrPointer = s.rrPointer ∧
    (let sends : Prop := (s.refclk + 1).getLsbD 0 = false
     let sent (line : Line) (gap : Nat) (out : Output) (pass : List PassFrame) : Prop := t.pending = [] ∧
       t.ringOut = line ∧ t.rau.gap = gap ∧ t.rau.output = out ∧ t.rau.passFifo = pass
     let idle : Prop := sent (.carries .idle) (min 2 (s.rau.gap + 1)) s.rau.output s.rau.passFifo
     let ends (c : Instr) : Prop := t.pending = [c] ∧ t.ringOut = s.ringOut ∧ t.rau.gap = s.rau.gap ∧
       t.rau.output = s.rau.output ∧ t.rau.passFifo = s.rau.passFifo
     (¬sends ∨ s.tx.state = .held → sent s.ringOut s.rau.gap s.rau.output s.rau.passFifo) ∧
     (sends → s.tx.state = .start → idle) ∧
     (sends → s.tx.state = .run →
       (s.rau.output = .free → idle) ∧
       (∀ sym rest, s.rau.output = .forwarding (sym :: rest) →
         sent (.carries sym) s.rau.gap (.forwarding rest) s.rau.passFifo) ∧
       (∀ f fs, s.rau.output = .forwarding [] → s.rau.passFifo = f :: fs →
         (∀ b bs, f.bytes = b :: bs →
           sent (.carries (.data b)) s.rau.gap (.forwarding []) ({ f with bytes := bs } :: fs)) ∧
         (f.bytes = [] → f.ended ≠ none → ends .forwardEnd) ∧
         (f.bytes = [] → f.ended = none → sent (.carries .idle) s.rau.gap (.forwarding []) s.rau.passFifo)) ∧
       (∀ block sym rest, s.rau.output = .inserting block (sym :: rest) →
         sent (.carries sym) s.rau.gap (.inserting block rest) s.rau.passFifo) ∧
       (∀ block, s.rau.output = .inserting block [] → ends .insertionEnd)))

/-- No command changes the queue of commands. -/
def Obligations.CommandsKeepTheQueue : Prop :=
  ∀ (i : Instr) (s t : State), exec i s = .next t → t.pending = s.pending

/-- The part after a hardware reset. The straps, the REFCLK counter and the gap are the model's choices (logs 5, 6 and
11) and are not stated here. -/
def Obligations.ResetStateValues : Prop :=
  let s := State.reset
  s.pending = [] ∧ s.resetLow = true ∧ s.ringOut = .quiet ∧
    s.rx = { state := .down, run := 0, span := 0, errors := 0, quiet := none } ∧ s.tx.startTimer = none ∧
    s.rau.reception = none ∧ s.rau.passFifo = [] ∧ s.rau.output = .free ∧ s.rau.controlQueue = [] ∧
    s.rau.dataQueue = [] ∧ s.rau.marking = false ∧ s.rau.threshold = none ∧ s.rau.inHold = false ∧
    s.rau.holdTimer = none ∧ (∀ i : Fin 8, s.slots[i] = none) ∧ s.tagCounter = 0 ∧ s.rrPointer = 7 ∧
    (∀ i : Fin 8, s.ports[i] = none) ∧ (∀ a, Memory.read s.mem a = 0) ∧
    s.rollCall = { timer := none, number := 0, stamp := none, inFlight := none, misses := 0, ringOpen := false,
                   silent := false } ∧
    s.commandFifo = [] ∧ s.log = [] ∧ s.attention = false ∧ s.spi.phase = .none

/-- RESET_N_ASSERTED returns every item to its reset value, and the counter of R122 runs on; RESET_N_RELEASED latches
the straps, makes the own Peer Table entry SELF and starts the transmitter's START period. The free value's counter,
the queue and the levels the controller will drive are the model's own (logs 5, 8, 17 and 21); that a release while
RESET_N is not low changes nothing is the model's choice (log 3), and so is SDO at high impedance while a CS_N that was
low at the release is waited out (log 24). -/
def Obligations.HardwareReset : Prop :=
  (∀ s : State, exec .resetNAsserted s =
    .next { State.reset with pending := s.pending, refclk := s.refclk, drive := s.drive, freeNext := s.freeNext }) ∧
  (∀ (s : State) (stn rsz : BitVec 4) (tcl : BitVec 2) (csLow : Bool), s.resetLow = true →
    ∃ t, exec (.resetNReleased stn rsz tcl csLow) s = .next t ∧
      t = { s with resetLow := false, straps := { stn := stn, rsz := rsz, tcl := tcl },
                   tx := { state := .start, startTimer := some 3200 }, ringOut := .carries .idle,
                   peers := t.peers, spi := { s.spi with waitRise := csLow, csLow := csLow } } ∧
      (∀ i : Fin 16, t.peers[i] = if i.val = stn.toNat then { state := .self, heard := false } else s.peers[i])) ∧
  (∀ (s : State) (stn rsz : BitVec 4) (tcl : BitVec 2) (csLow : Bool), s.resetLow = false →
    exec (.resetNReleased stn rsz tcl csLow) s = .next s)

/-! ### The link -/

/-- At the end of the start period the transmitter enters RUN (R141), and the Roll Call Unit captures the origin stamp,
offers the first beacon and starts the beacon period timer (R120 to R122). A station that went SILENT in START offers no
beacon, and its beacon number and beacon in flight keep their values (R131); that its timer is started and no stamp is
taken is the model's reading (log 23). -/
def Obligations.FirstBeacon : Prop :=
  (∀ s : State, s.tx.state = .start → s.tx.startTimer.isSome → s.rollCall.silent = true →
    exec .startPeriodExpiry s = .next
      { s with
        tx := { state := .run, startTimer := none },
        rollCall := { s.rollCall with timer := some (8 * Config.answerTime s.straps.tcl) } }) ∧
  (∀ s : State, s.tx.state = .start → s.tx.startTimer.isSome → s.rollCall.silent = false →
    exec .startPeriodExpiry s = .next
      { s with
        tx := { state := .run, startTimer := none },
        rollCall := { s.rollCall with
          timer := some (8 * Config.answerTime s.straps.tcl), stamp := some s.refclk,
          inFlight := some { number := s.rollCall.number, sent := canOffer s, returned := false },
          number := s.rollCall.number + 1 },
        rau := if canOffer s then
            { s.rau with controlQueue := s.rau.controlQueue ++
                [{ dest := 0xFF, kind := .roll, port := 0, tag := 0, seq := 0,
                   payload := [s.straps.rsz.setWidth 8 + 1, s.straps.tcl.setWidth 8] ++ bytes16 s.rollCall.number ++
                     bytes16 s.refclk ++ [0, 0] }] }
          else s.rau })

/-- The receiver in DOWN ignores an invalid symbol and goes to ALIGN at a valid one (R134); in ALIGN it counts IDLE
symbols and code errors, and enters UP with LINK_UP at the thirty-second IDLE (R135, R138). -/
def Obligations.ReceiverTrains : Prop :=
  (∀ (s : State) (sym : Symbol), s.rx.state = .down → s.resetLow = false →
    exec (.symbolInDown sym) s = .next
      (if sym = .invalid then s
       else { s with rx := { state := .align, run := if sym = .idle then 1 else 0, span := 1, errors := 0,
                             quiet := some 400 } })) ∧
  (∀ (s : State) (sym : Symbol), s.rx.state = .align → s.resetLow = false → s.rx.run < 32 → s.rx.span < 1024 →
    s.rx.errors < 8 →
    let span := if s.rx.span + 1 = 1024 then 0 else s.rx.span + 1
    let errors := fun n : Nat => if s.rx.span + 1 = 1024 then 0 else n
    (sym = .idle → s.rx.run + 1 < 32 → exec (.symbolInAlign sym) s = .next
      { s with rx := { state := .align, run := s.rx.run + 1, span := span, errors := errors s.rx.errors,
                       quiet := some 400 } }) ∧
    (sym = .idle → s.rx.run + 1 = 32 → exec (.symbolInAlign sym) s = .next
      { s with rx := { state := .up, run := 0, span := span, errors := errors s.rx.errors, quiet := some 400 },
               log := postTo s.log .linkUp }) ∧
    (sym ≠ .idle → sym ≠ .invalid → exec (.symbolInAlign sym) s = .next
      { s with rx := { state := .align, run := 0, span := span, errors := errors s.rx.errors, quiet := some 400 } }) ∧
    (sym = .invalid → s.rx.errors + 1 < 8 → exec (.symbolInAlign sym) s = .next
      { s with rx := { state := .align, run := 0, span := span, errors := errors (s.rx.errors + 1),
                       quiet := s.rx.quiet } }) ∧
    (sym = .invalid → s.rx.errors + 1 = 8 → exec (.symbolInAlign sym) s = .next
      { s with rx := { state := .down, run := 0, span := 0, errors := 0, quiet := none } }))

/-- The receiver in UP: how a symbol is counted once the RAU has it (R136 to R138), inside a frame or outside, with
the loss of the link at the eighth code error of a span, where no frame is in reception since the invalid symbol has
abandoned it (`FrameReception`); a symbol outside any frame but SOF goes nowhere; and the quiet timer's expiry takes
ALIGN and UP to DOWN, from UP with LINK_DOWN. A frame handed over and not yet taken, and a header not yet decided, are
settled before the next symbol and before the expiry: these act as on the state in which the row of the handed-over
frame, if there is one, and then HEADER_DECISION have been taken, in which nothing is left to settle. That is the
model's reading of R52, R97 and R100 (log 4). -/
def Obligations.ReceiverInUpAndLinkLoss : Prop :=
  (∀ (s : State) (sym : Symbol), s.rx.state = .up → s.rx.span < 1024 → s.rx.errors < 8 →
    let span := if s.rx.span + 1 = 1024 then 0 else s.rx.span + 1
    let errors := fun n : Nat => if s.rx.span + 1 = 1024 then 0 else n
    (sym ≠ .invalid → countInUp sym s =
      { s with rx := { s.rx with span := span, errors := errors s.rx.errors, quiet := some 400 } }) ∧
    (sym = .invalid → s.rx.errors + 1 < 8 → countInUp sym s =
      { s with rx := { s.rx with span := span, errors := errors (s.rx.errors + 1) } }) ∧
    (sym = .invalid → s.rx.errors + 1 = 8 → s.rau.reception = none → countInUp sym s =
      { s with rx := { state := .down, run := 0, span := 0, errors := 0, quiet := none },
               log := postTo s.log .linkDown })) ∧
  (∀ (s : State) (sym : Symbol), s.receiving → s.rau.reception = none → sym ≠ .sof →
    exec (.symbolInUp sym) s = .next (countInUp sym s)) ∧
  (∀ s : State, s.rx.state = .align → s.rx.quiet.isSome → s.rau.handover = none → s.rau.reception = none →
    exec .quietTimerExpiry s = .next { s with rx := Receiver.reset }) ∧
  (∀ s : State, s.rx.state = .up → s.rx.quiet.isSome → s.rau.handover = none → s.rau.reception = none →
    exec .quietTimerExpiry s = .next { s with rx := Receiver.reset, log := postTo s.log .linkDown }) ∧
  (∀ s : State,
    let actsAs (u : State) : Prop :=
      u.rau.handover = none ∧ (∀ q, ¬u.waits q) ∧ u.rx = s.rx ∧ u.resetLow = s.resetLow ∧
      (s.rx.state = .up → s.resetLow = false → ∀ sym, exec (.symbolInUp sym) s = exec (.symbolInUp sym) u) ∧
      (s.rx.state ≠ .down → s.rx.quiet.isSome → exec .quietTimerExpiry s = exec .quietTimerExpiry u)
    (s.rau.handover = none → ∃ u, exec .headerDecision s = .next u ∧ actsAs u) ∧
    (∀ x c, s.rau.handover = some x → x.row = some c →
      ∃ t u, exec c s = .next t ∧ exec .headerDecision t = .next u ∧ actsAs u))

/-! ### Frames in reception -/

/-- The symbols of a frame: SOF opens it, data bytes fill its header, and after a decision to forward they enter the
pass FIFO, whose capacity abandons it (R104), and after any other they are kept with the frame as far as it is copied or
stripped (R100), up to the 1041st of a stripped frame, which abandons it. EOF notes the end, and an IDLE, ABORT or
invalid symbol, a further SOF, which opens the next frame (R2, R103), or the loss of the link (R105, R139) cuts it: of a
runt nothing goes anywhere (R97, R103), the note of a forwarded frame is then ABORT, and the Port Engine is told that a
BLOCK it took at its header is abandoned. -/
def Obligations.FrameReception : Prop :=
  (∀ s : State, s.receiving → s.rau.reception = none →
    exec (.symbolInUp .sof) s = .next (countInUp .sof
      { s with rau := { s.rau with reception := some { header := [], decision := none, count := 0, body := [] } } })) ∧
  (∀ (s : State) (q : Reception) (b : Byte), s.receiving → s.rau.reception = some q → q.decision = none →
    q.header.length < 12 →
    exec (.symbolInUp (.data b)) s = .next (countInUp (.data b)
      { s with rau := { s.rau with reception := some { q with header := q.header ++ [b], count := q.count + 1 } } })) ∧
  (∀ (s : State) (q : Reception) (front : List PassFrame) (f : PassFrame) (b : Byte), s.receiving →
    s.rau.reception = some q → q.decision = some .forward → s.rau.passFifo = front ++ [f] →
    (s.rau.passBytes < 1104 → exec (.symbolInUp (.data b)) s = .next (countInUp (.data b)
      { s with rau := { s.rau with reception := some { q with count := q.count + 1 },
                                   passFifo := front ++ [{ f with bytes := f.bytes ++ [b] }] } })) ∧
    (1104 ≤ s.rau.passBytes → exec (.symbolInUp (.data b)) s = .next (countInUp (.data b)
      { s with rau := { s.rau with reception := none, passFifo := front ++ [{ f with ended := some .abort }] } })) ∧
    (exec (.symbolInUp .eof) s = .next (countInUp .eof
      { s with rau := { s.rau with reception := none, passFifo := front ++ [{ f with ended := some .eof }] } })) ∧
    (∀ sym, sym = .idle ∨ sym = .abort ∨ sym = .invalid → exec (.symbolInUp sym) s = .next (countInUp sym
      { s with rau := { s.rau with reception := none, passFifo := front ++ [{ f with ended := some .abort }] } })) ∧
    (s.rx.quiet.isSome → exec .quietTimerExpiry s = .next
      { s with rx := Receiver.reset, log := postTo s.log .linkDown,
               rau := { s.rau with reception := none, passFifo := front ++ [{ f with ended := some .abort }] } })) ∧
  (∀ (s : State) (q : Reception) (sym : Symbol), s.receiving → s.rau.reception = some q → q.decision = none →
    q.header.length < 12 → sym = .eof ∨ sym = .idle ∨ sym = .abort ∨ sym = .invalid →
    exec (.symbolInUp sym) s = .next (countInUp sym { s with rau := { s.rau with reception := none } })) ∧
  (∀ (s : State) (q : Reception), s.receiving → s.rau.reception = some q → q.decision = none → q.header.length < 12 →
    let opened : Reception := { header := [], decision := none, count := 0, body := [] }
    exec (.symbolInUp .sof) s = .next (countInUp .sof { s with rau := { s.rau with reception := some opened } }) ∧
    (s.rx.quiet.isSome → exec .quietTimerExpiry s = .next
      { s with rx := Receiver.reset, log := postTo s.log .linkDown, rau := { s.rau with reception := none } })) ∧
  (∀ (s : State) (q : Reception) (d : Decision), s.receiving → s.rau.reception = some q → q.decision = some d →
    let opened : Reception := { header := [], decision := none, count := 0, body := [] }
    let told : Option Handover :=
      match d with
      | .strip (.block c) => some (.block (headerOf q.header) c .abandoned)
      | .drop | .forward | .copy _ | .strip .control | .strip .discarded | .strip .ownBeacon | .strip .returned => none
    let cuts (pass : List PassFrame) : Prop :=
      let cut (next : Option Reception) : State :=
        { s with rau := { s.rau with reception := next, handover := told, passFifo := pass } }
      exec (.symbolInUp .sof) s = .next (countInUp .sof (cut (some opened))) ∧
      (∀ sym, sym = .idle ∨ sym = .abort ∨ sym = .invalid →
        exec (.symbolInUp sym) s = .next (countInUp sym (cut none))) ∧
      (s.rx.quiet.isSome → exec .quietTimerExpiry s =
        .next { cut none with rx := Receiver.reset, log := postTo s.log .linkDown })
    (d ≠ .forward → d ≠ .copy true → cuts s.rau.passFifo) ∧
    (∀ front f, d = .forward ∨ d = .copy true → s.rau.passFifo = front ++ [f] →
      cuts (front ++ [{ f with ended := some .abort }])) ∧
    (∀ b : Byte,
      let counted : Reception := { q with count := q.count + 1 }
      let kept : Reception := { counted with body := q.body ++ [b] }
      let goesOn (next : Option Reception) (x : Option Handover) (pass : List PassFrame) : Prop :=
        exec (.symbolInUp (.data b)) s = .next (countInUp (.data b)
          { s with rau := { s.rau with reception := next, handover := x, passFifo := pass } })
      (d = .drop → goesOn (some counted) none s.rau.passFifo) ∧
      (d = .copy false → goesOn (some kept) none s.rau.passFifo) ∧
      (∀ front f, d = .copy true → s.rau.passFifo = front ++ [f] →
        (s.rau.passBytes < 1104 → goesOn (some kept) none (front ++ [{ f with bytes := f.bytes ++ [b] }])) ∧
        (1104 ≤ s.rau.passBytes → goesOn none none (front ++ [{ f with ended := some .abort }]))) ∧
      (∀ k, d = .strip k → (∀ w, k ≠ .block (.expected w)) → q.count + 1 < 1041 →
        goesOn (some kept) none s.rau.passFifo) ∧
      (∀ k, d = .strip k → 1041 ≤ q.count + 1 → goesOn none told s.rau.passFifo)))

/-- A payload byte of an expected BLOCK is written at the next byte of the position fixed at its header, and enters the
trial digest, up to the limit; past the limit no byte is written. A stripped BLOCK that reaches its 1041st data byte is
abandoned there. Memory is in its canonical form, which every step keeps (`MemoryStaysCanonical`). -/
def Obligations.BankWriterByte : Prop :=
  ∀ (s : State) (q : Reception) (w : BankWrite) (b : Byte), s.receiving → s.rau.reception = some q →
    q.decision = some (.strip (.block (.expected w))) →
    let q' : Reception := { q with count := q.count + 1, body := q.body ++ [b] }
    let w' : BankWrite := { w with written := w.written + 1, trial := crc32Byte w.trial b }
    let written : Reception := { q' with decision := some (.strip (.block (.expected w'))) }
    (s.mem.wf = true → q.count + 1 < 1041 → w.written < w.limit → w.target + w.written < 131072 →
      ∃ t, exec (.symbolInUp (.data b)) s = .next t ∧
        Memory.read t.mem (w.target + w.written) = b ∧
        (∀ a, a ≠ w.target + w.written → Memory.read t.mem a = Memory.read s.mem a) ∧
        t = countInUp (.data b) { s with mem := t.mem, rau := { s.rau with reception := some written } }) ∧
    (q.count + 1 < 1041 → w.limit ≤ w.written →
      exec (.symbolInUp (.data b)) s =
        .next (countInUp (.data b) { s with rau := { s.rau with reception := some q' } })) ∧
    (1041 ≤ q.count + 1 →
      let cut : Handover := .block (headerOf q.header) (.expected w) .abandoned
      exec (.symbolInUp (.data b)) s =
        .next (countInUp (.data b) { s with rau := { s.rau with reception := none, handover := some cut } }))

/-- What a stripped or copied frame hands over at its EOF (R15, R100): a control frame for this station that passes the
tests, a valid ROLL, a returned frame, and a BLOCK's end, intact or damaged; a frame that fails a test, a dropped frame
and a discarded BLOCK hand over nothing. The kinds' codes, their required lengths and the kinds whose Seq is read are
those of R10 and R15. -/
def Obligations.FrameEndHandsOver : Prop :=
  (∀ (b : Byte) (k : Kind), kindOf b = some k ↔
    (b, k) ∈ [((0x10 : Byte), Kind.block), (0x21, .open_), (0x22, .finish), (0x23, .cancel), (0x31, .grant),
      (0x32, .refuse), (0x41, .taken), (0x42, .resume), (0x43, .busy), (0x44, .halted), (0x45, .closed),
      (0x70, .roll)]) ∧
  (∀ (k : Kind) (n : Nat), k.requiredLen = some n ↔
    (k, n) ∈ [(Kind.open_, 6), (.finish, 6), (.cancel, 0), (.grant, 1), (.refuse, 1), (.taken, 0), (.resume, 0),
      (.busy, 0), (.halted, 1), (.closed, 4), (.roll, 8)]) ∧
  (∀ k : Kind, k.readsSeq = true ↔ k = .block ∨ k = .taken ∨ k = .resume ∨ k = .busy) ∧
  ∀ (s : State) (q : Reception), s.receiving → s.rau.reception = some q →
    let h := headerOf q.header
    let payload := q.body.take h.len.toNat
    let whole : Prop := q.count = (if h.len.toNat = 0 then 12 else 16 + h.len.toNat) ∧
      (h.len = 0 ∨ word32At q.body h.len.toNat = crc32 payload)
    let ends (x : Option Handover) : Prop := exec (.symbolInUp .eof) s =
      .next (countInUp .eof { s with rau := { s.rau with reception := none, handover := x } })
    (q.decision = some (.strip .control) → ∀ k, kindOf h.kind = some k → k ≠ .block →
      ((k ≠ .roll ∧ h.src.toNat < 16 ∧ h.src ≠ s.own ∧ (k.readsSeq = true → h.seq.toNat < 8) ∧
          k.requiredLen = some h.len.toNat ∧ whole) → ends (some (.frame k h payload))) ∧
      ((k = .roll ∨ 16 ≤ h.src.toNat ∨ h.src = s.own ∨ (k.readsSeq = true ∧ 8 ≤ h.seq.toNat) ∨
          k.requiredLen ≠ some h.len.toNat ∨ ¬whole) → ends none)) ∧
    (q.decision = some (.strip .control) → kindOf h.kind = none → ends none) ∧
    (q.decision = some (.copy false) → h.kind = 0x70 → h.src.toNat < 16 → h.len = 8 → whole →
      ends (some (.roll h payload))) ∧
    (q.decision = some (.copy false) → h.kind ≠ 0x70 ∨ 16 ≤ h.src.toNat ∨ h.len ≠ 8 ∨ ¬whole → ends none) ∧
    (∀ front f, q.decision = some (.copy true) → s.rau.passFifo = front ++ [f] → h.kind = 0x70 → h.src.toNat < 16 →
      h.len = 8 → whole → exec (.symbolInUp .eof) s = .next (countInUp .eof
        { s with rau := { s.rau with reception := none, handover := some (.roll h payload),
                                     passFifo := front ++ [{ f with ended := some .eof }] } })) ∧
    (∀ front f, q.decision = some (.copy true) → s.rau.passFifo = front ++ [f] →
      h.kind ≠ 0x70 ∨ 16 ≤ h.src.toNat ∨ h.len ≠ 8 ∨ ¬whole → exec (.symbolInUp .eof) s = .next (countInUp .eof
        { s with rau := { s.rau with reception := none, passFifo := front ++ [{ f with ended := some .eof }] } })) ∧
    (q.decision = some (.strip .ownBeacon) → h.kind ≠ 0x70 ∨ 16 ≤ h.src.toNat ∨ h.len ≠ 8 ∨ ¬whole → ends none) ∧
    (q.decision = some .drop ∨ q.decision = some (.strip .discarded) → ends none) ∧
    (q.decision = some (.strip .ownBeacon) → h.kind = 0x70 → h.src.toNat < 16 → h.len = 8 → whole →
      ends (some (.ownRoll h payload))) ∧
    (q.decision = some (.strip .returned) → ends (some (.returned h))) ∧
    (∀ c, q.decision = some (.strip (.block c)) → whole → ends (some (.block h c .intact))) ∧
    (∀ c, q.decision = some (.strip (.block c)) → ¬whole → ends (some (.block h c .damaged)))

/-! ### The header decision -/

/-- The decision at the twelfth data byte (R14, R98, R99): a header that is not intact, or whose Dest is 16 to 254, is
dropped and changes nothing else; the rows of R98 in order otherwise. A BLOCK for this station is the statement
`BlockClassAtHeader`, a frame that is forwarded `ForwardedHeader`. -/
def Obligations.HeaderDecisionTable : Prop :=
  ∀ (s : State) (q : Reception), s.waits q →
    let h := headerOf q.header
    let stays : Prop := h.hops.toNat < 2 ∨ s.tx.state ≠ .run
    (¬h.intact ∨ (16 ≤ h.dest.toNat ∧ h.dest ≠ 0xFF) → exec .headerDecision s =
      .next { s with rau := { s.rau with reception := some { q with decision := some .drop } } }) ∧
    (h.intact →
      (h.dest = s.own → h.kind ≠ 0x10 → exec .headerDecision s = .next (s.decidedAs q (.strip .control))) ∧
      (h.dest = s.own → h.kind = 0x10 → 16 ≤ h.src.toNat ∨ h.src = s.own ∨ 8 ≤ h.seq.toNat ∨ s.rollCall.silent = true →
        exec .headerDecision s = .next (s.decidedAs q (.strip .discarded))) ∧
      (h.dest = 0xFF → h.src = s.own → exec .headerDecision s = .next (s.decidedAs q (.strip .ownBeacon))) ∧
      (h.dest = 0xFF → h.src ≠ s.own → stays → exec .headerDecision s = .next (s.decidedAs q (.copy false))) ∧
      (h.dest.toNat < 16 → h.dest ≠ s.own → h.src = s.own →
        exec .headerDecision s = .next (s.decidedAs q (.strip .returned))) ∧
      (h.dest.toNat < 16 → h.dest ≠ s.own → h.src ≠ s.own → stays →
        exec .headerDecision s = .next (s.decidedAs q .drop)))

/-- A frame that is forwarded (R99, R101) enters the pass FIFO as a new frame of its twelve header bytes, as they
arrived but for Hops, one lower, and Flags: a marked frame leaves as it arrived, an unmarked one gets the mark and the
own number where the station is marking (R5, R114). Where the station is not marking, R114 says that the frame leaves
unmarked; that its whole Flags byte, the owner bits included, is as it arrived is the model's reading (log 16). With room
in the pass FIFO for fewer than twelve bytes, the bytes that fit are stored and the frame is abandoned at the first that
does not, as R104 says of a byte that finds the FIFO full; that the header bytes enter together, and that nothing is
stored where none fits, is the model's choice (log 15). -/
def Obligations.ForwardedHeader : Prop :=
  ∀ (s : State) (q : Reception) (dest src kind flags hops port tag seq l1 l0 c1 c0 : Byte), s.waits q →
    q.header = [dest, src, kind, flags, hops, port, tag, seq, l1, l0, c1, c0] → (headerOf q.header).intact →
    (dest = 0xFF ∨ dest.toNat < 16) → dest ≠ s.own → src ≠ s.own → 2 ≤ hops.toNat → s.tx.state = .run →
    let flags' : Byte :=
      if flags.getLsbD 7 = true ∨ s.rau.marking = false then flags else 0x80 ||| (flags &&& 0x70) ||| s.own
    let frame : PassFrame :=
      { bytes := [dest, src, kind, flags', hops - 1, port, tag, seq, l1, l0, c1, c0], ended := none }
    let d : Decision := if dest = 0xFF then .copy true else .forward
    let t := s.decidedAs q d
    let room := 1104 - s.rau.passBytes
    (12 ≤ room → exec .headerDecision s = .next { t with rau := { t.rau with passFifo := s.rau.passFifo ++ [frame] } }) ∧
    (0 < room → room < 12 → exec .headerDecision s = .next
      { t with rau := { t.rau with reception := none, passFifo := s.rau.passFifo ++
                                     [{ bytes := frame.bytes.take room, ended := some .abort }] } }) ∧
    (room = 0 → exec .headerDecision s = .next { t with rau := { t.rau with reception := none } })

/-- The yield hold (R115): every decision on a valid header enters, keeps or leaves it by the frame's mark and owner,
and the hold timer's expiry ends it. -/
def Obligations.YieldHold : Prop :=
  (∀ (s : State) (q : Reception), s.waits q → (headerOf q.header).intact →
    ((headerOf q.header).dest.toNat < 16 ∨ (headerOf q.header).dest = 0xFF) →
    let flags := (headerOf q.header).flags
    let other : Prop := flags.getLsbD 7 = true ∧ flags.extractLsb' 0 4 ≠ s.straps.stn
    ∃ t, exec .headerDecision s = .next t ∧
      (other → s.rau.inHold = false → t.rau.inHold = true ∧ t.rau.holdTimer = some 20000) ∧
      (other → s.rau.inHold = true → t.rau.inHold = true ∧ t.rau.holdTimer = s.rau.holdTimer) ∧
      (¬other → s.rau.inHold = true → t.rau.inHold = false ∧ t.rau.holdTimer = none) ∧
      (¬other → s.rau.inHold = false → t.rau.inHold = false ∧ t.rau.holdTimer = s.rau.holdTimer)) ∧
  (∀ s : State, s.rau.holdTimer.isSome → exec .yieldHoldExpiry s =
    .next { s with rau := { s.rau with inHold := false, holdTimer := none } })

/-- A BLOCK for this station reaches the Port Engine at its header: refused with the reason of R55 where its port is
not bound to the run, and classed by its distance from the expected sequence where it is (R56, R57), with the idle
timer restarted. Nothing else changes but the yield hold. -/
def Obligations.BlockClassAtHeader : Prop :=
  ∀ (s : State) (q : Reception), s.waits q →
    let h := headerOf q.header
    h.intact → h.dest = s.own → h.kind = 0x10 → h.src.toNat < 16 → h.src ≠ s.own → h.seq.toNat < 8 →
    s.rollCall.silent = false →
    let classed (c : BlockClass) : Prop := exec .headerDecision s = .next (s.decidedAs q (.strip (.block c)))
    (8 ≤ h.port.toNat → classed (.refused .portClosed)) ∧
    (∀ i : Fin 8, h.port.toNat = i.val →
      (s.ports[i] = none → classed (.refused .portClosed)) ∧
      (∀ p, s.ports[i] = some p →
        (p.mode = .halted → classed (.refused .localHalt)) ∧
        (p.mode = .listening → classed (.refused .notBound)) ∧
        (∀ b current idle, p.mode = .bound b current idle →
          (b.source ≠ h.src ∨ b.tag ≠ h.tag → classed (.refused .notBound)) ∧
          (b.source = h.src → b.tag = h.tag →
            let d := (h.seq.toNat + 8 - b.accepted % 8) % 8
            let bound (c : BlockClass) : Prop :=
              exec .headerDecision s = .next (setPort i (some { p with
                mode := .bound b current (some (256 * Config.answerTime s.straps.tcl)) })
                (s.decidedAs q (.strip (.block c))))
            (4 ≤ d → b.accepted = 0 → bound .noReply) ∧
            (4 ≤ d → b.accepted ≠ 0 → bound .behind) ∧
            (d < 4 → b.accepted = b.count → bound .noReply) ∧
            (1 ≤ d → d < 4 → b.accepted ≠ b.count → bound .ahead) ∧
            (d = 0 → b.accepted ≠ b.count → current = none → bound .expectedNoBank) ∧
            (∀ k o fill, d = 0 → b.accepted ≠ b.count → current = some k → (p.bank k).content = .filling o fill →
              bound (.expected { target := (p.bank k).base + fill * b.size, limit := min h.len.toNat b.size,
                                 written := 0, trial := b.digest }))))))

/-! ### The Port Engine -/

/-- An OPEN (R53, R54): the first case of R53 that applies answers it; a LISTENING port binds the run, with bank A, else
B, else none as its current bank. -/
def Obligations.OpenExchange : Prop :=
  ∀ (s : State) (h : Header) (s1 s0 c1 c0 w r : Byte), s.hands (.frame .open_ h [s1, s0, c1, c0, w, r]) →
    let u := clearHandover s
    let size := (s1 ++ s0).toNat
    let count := (c1 ++ c0).toNat
    let refused (reason : Byte) : Prop := exec .openFrame s =
      .next (offer { dest := h.src, kind := .refuse, port := h.port, tag := h.tag, seq := 0, payload := [reason] } u)
    let granted (g : Nat) (t : State) : Prop := exec .openFrame s =
      .next (offer { dest := h.src, kind := .grant, port := h.port, tag := h.tag, seq := 0,
                     payload := [BitVec.ofNat 8 g] } t)
    (8 ≤ h.port.toNat → refused 1) ∧
    (∀ i : Fin 8, h.port.toNat = i.val →
      (s.ports[i] = none → refused 1) ∧
      (∀ p, s.ports[i] = some p →
        (p.mode = .halted → refused 3) ∧
        (∀ b current idle, p.mode = .bound b current idle →
          (b.source = h.src ∧ b.tag = h.tag → granted b.granted u) ∧
          (¬(b.source = h.src ∧ b.tag = h.tag) → refused 2)) ∧
        (p.mode = .listening →
          let bad : Prop := size < 16 ∨ p.maxSize < size ∨ size % 16 ≠ 0 ∨ count = 0 ∨ w = 0 ∨ 4 < w.toNat
          let elsewhere : Prop := ∃ j : Fin 8, j ≠ i ∧ bindsTo s.ports[j] h.src h.tag
          let g := min w.toNat p.maxWindow
          let binding : Binding := { source := h.src, tag := h.tag, size := size, count := count, granted := g,
                                     accepted := 0, digest := 0xFFFFFFFF, busyOwed := false, resumeSent := false }
          let filling : BankContent := .filling { source := h.src, tag := h.tag, size := size } 0
          let idle : Timer := some (256 * Config.answerTime s.straps.tcl)
          (bad → refused 4) ∧ (¬bad → elsewhere → refused 2) ∧
          (¬bad → ¬elsewhere → p.bankA.content = .free → granted g (setPort i
            (some { p with bankA := { p.bankA with content := filling }, mode := .bound binding (some .a) idle }) u)) ∧
          (¬bad → ¬elsewhere → p.bankA.content ≠ .free → p.bankB.content = .free → granted g (setPort i
            (some { p with bankB := { p.bankB with content := filling }, mode := .bound binding (some .b) idle }) u)) ∧
          (¬bad → ¬elsewhere → p.bankA.content ≠ .free → p.bankB.content ≠ .free → granted g (setPort i
            (some { p with mode := .bound binding none idle }) u)))))

/-- The replies at a BLOCK's end but for an acceptance (R55, R58 to R60, R63, R64): the reason fixed at the header for a
refused BLOCK, BUSY, RESUME or TAKEN by its class where its port is still bound to the run, and nothing where the frame
was abandoned or the binding is gone. -/
def Obligations.BlockEndReplies : Prop :=
  ∀ (s : State) (h : Header) (c : BlockClass) (e : BlockEnd), s.hands (.block h c e) →
    let u := clearHandover s
    let reply (k : Kind) (seq : Byte) (payload : List Byte) : OwnFrame :=
      { dest := h.src, kind := k, port := h.port, tag := h.tag, seq := seq, payload := payload }
    let answers (t : State) : Prop := exec .blockFrame s = .next t
    (e = .abandoned → answers u) ∧
    (∀ reason, e ≠ .abandoned → c = .refused reason → answers (offer (reply .halted 0
      [match reason with | .localHalt => 1 | .portClosed => 2 | .notBound => 3]) u)) ∧
    ((∀ reason, c ≠ .refused reason) → (∀ i : Fin 8, h.port.toNat = i.val → ¬bindsTo s.ports[i] h.src h.tag) →
      answers u) ∧
    (∀ (i : Fin 8) p b current idle, e ≠ .abandoned → h.port.toNat = i.val → s.ports[i] = some p →
      p.mode = .bound b current idle → b.source = h.src → b.tag = h.tag →
      let expected : Byte := BitVec.ofNat 8 (b.accepted % 8)
      let resumes : Prop :=
        (b.resumeSent = true → answers u) ∧
        (b.resumeSent = false → answers (offer (reply .resume expected [])
          (setPort i (some { p with mode := .bound { b with resumeSent := true } current idle }) u)))
      (c = .ahead → resumes) ∧
      (c = .expectedNoBank → current ≠ none → resumes) ∧
      (c = .expectedNoBank → current = none → answers (offer (reply .busy expected [])
        (setPort i (some { p with mode := .bound { b with busyOwed := true } none idle }) u))) ∧
      (∀ w, c = .expected w → e = .damaged ∨ h.len.toNat ≠ b.size → resumes) ∧
      (c = .behind → answers (offer (reply .taken (BitVec.ofNat 8 ((b.accepted - 1) % 8)) []) u)) ∧
      (c = .noReply → answers u))

/-- The acceptance of an expected block that ended intact with the binding's size (R61, R62): fill and accepted go up by
one, the trial digest becomes the receiver digest, resume-sent is cleared and TAKEN is offered; a bank that reaches its
capacity is FULL with a BANK_FULL record, and the other bank, where FREE, becomes current. -/
def Obligations.BlockAccepted : Prop :=
  ∀ (s : State) (h : Header) (w : BankWrite) (i : Fin 8) p b k idle o fill,
    s.hands (.block h (.expected w) .intact) → h.port.toNat = i.val → s.ports[i] = some p →
    p.mode = .bound b (some k) idle → b.source = h.src → b.tag = h.tag → h.len.toNat = b.size →
    (p.bank k).content = .filling o fill →
    let b' : Binding := { b with accepted := b.accepted + 1, digest := w.trial, resumeSent := false }
    let taken : OwnFrame := { dest := h.src, kind := .taken, port := h.port, tag := h.tag, seq := h.seq, payload := [] }
    let full : OpenPort := p.setBank k { p.bank k with content := .full o (fill + 1) }
    let record : Record := .bankFull i k (p.bank k).base (fill + 1) false o.source o.tag
    let other := p.bank k.other
    let filled (p' : OpenPort) : Prop := exec .blockFrame s =
      .next (post record (offer taken (setPort i (some p') (clearHandover s))))
    (fill + 1 < (p.bank k).capacity → exec .blockFrame s = .next (offer taken (setPort i (some
      { p.setBank k { p.bank k with content := .filling o (fill + 1) } with mode := .bound b' (some k) idle })
      (clearHandover s)))) ∧
    ((p.bank k).capacity ≤ fill + 1 → other.content = .free →
      filled { full.setBank k.other { other with content := .filling { source := b.source, tag := b.tag, size := b.size } 0 }
               with mode := .bound b' (some k.other) idle }) ∧
    ((p.bank k).capacity ≤ fill + 1 → other.content ≠ .free → filled { full with mode := .bound b' none idle })

/-- The end of a binding (R69, R70, R80, R81): the current bank is closed, FULL with a partial BANK_FULL where it holds
a block and FREE where it holds none, BANK_FULL before PORT_RUN_END; and the two rows that do nothing more, a CANCEL of
the bound run (R68) and the idle timer's expiry (R71). A CANCEL that finds no such binding changes nothing. -/
def Obligations.BindingEnds : Prop :=
  (∀ (i : Fin 8) (p : OpenPort) (b : Binding) (result : PortResult) (mode : PortMode) (s : State),
    let ended : Record := .portRunEnd i b.source b.tag b.accepted result
    unbindNow i p b none result mode s = post ended (setPort i (some { p with mode := mode }) s) ∧
    (∀ k o fill, (p.bank k).content = .filling o fill →
      (fill = 0 → unbindNow i p b (some k) result mode s =
        post ended (setPort i (some { p.setBank k { p.bank k with content := .free } with mode := mode }) s)) ∧
      (fill ≠ 0 → unbindNow i p b (some k) result mode s =
        post ended (post (.bankFull i k (p.bank k).base fill true o.source o.tag)
          (setPort i (some { p.setBank k { p.bank k with content := .full o fill } with mode := mode }) s))))) ∧
  (∀ (s : State) (h : Header) (x : List Byte), s.hands (.frame .cancel h x) →
    (∀ (i : Fin 8) p b current idle, h.port.toNat = i.val → s.ports[i] = some p → p.mode = .bound b current idle →
      b.source = h.src → b.tag = h.tag →
      exec .cancelFrame s = .next (unbindNow i p b current .cancelledByPeer .listening (clearHandover s))) ∧
    ((∀ i : Fin 8, h.port.toNat = i.val → ¬bindsTo s.ports[i] h.src h.tag) →
      exec .cancelFrame s = .next (clearHandover s))) ∧
  (∀ (s : State) (i : Fin 8) p b current n, s.ports[i] = some p → p.mode = .bound b current (some n) →
    exec (.idleTimerExpiry i) s = .next (unbindNow i p b current .abandoned .listening s))

/-- A FINISH (R65, R66): from the last-closed note where it matches; with RESUME where the bound run is short of its
count; with the close of the run, MATCH exactly where digest and count agree; and with HALTED NOT_BOUND otherwise. -/
def Obligations.FinishAnswers : Prop :=
  ∀ (s : State) (h : Header) (d3 d2 d1 d0 c1 c0 : Byte), s.hands (.frame .finish h [d3, d2, d1, d0, c1, c0]) →
    let u := clearHandover s
    let reply (k : Kind) (seq : Byte) (payload : List Byte) : OwnFrame :=
      { dest := h.src, kind := k, port := h.port, tag := h.tag, seq := seq, payload := payload }
    let notBound : Prop := exec .finishFrame s = .next (offer (reply .halted 0 [3]) u)
    (8 ≤ h.port.toNat → notBound) ∧
    (∀ i : Fin 8, h.port.toNat = i.val →
      (s.ports[i] = none → notBound) ∧
      (∀ p, s.ports[i] = some p →
        let noted : Prop := ∃ n, p.note = some n ∧ n.source = h.src ∧ n.tag = h.tag
        (∀ n, p.note = some n → n.source = h.src → n.tag = h.tag →
          exec .finishFrame s = .next (offer (reply .closed 0
            ([if n.matched then 0 else 1, 0] ++ bytes16 (BitVec.ofNat 16 n.accepted))) u)) ∧
        (¬noted → ¬bindsTo s.ports[i] h.src h.tag → notBound) ∧
        (∀ b current idle, ¬noted → p.mode = .bound b current idle → b.source = h.src → b.tag = h.tag →
          (b.accepted < b.count →
            exec .finishFrame s = .next (offer (reply .resume (BitVec.ofNat 8 (b.accepted % 8)) []) u)) ∧
          (b.count ≤ b.accepted →
            let matched : Bool := d3 ++ d2 ++ d1 ++ d0 = ~~~b.digest ∧ (c1 ++ c0).toNat = b.count
            let note : Note := { source := h.src, tag := h.tag, matched := matched, accepted := b.accepted }
            exec .finishFrame s = .next (unbindNow i { p with note := some note } b current
              (if matched then .matched else .mismatched) .listening
              (offer (reply .closed 0 ([if matched then 0 else 1, 0] ++ bytes16 (BitVec.ofNat 16 b.accepted))) u))))))

/-! ### The Run Engine -/

/-- The slot a reply concerns (R19, R23): the lowest-numbered slot that is not FREE and whose dest station, dest port
and tag are those given; none where there is no such slot. -/
def Obligations.SlotOfAReply : Prop :=
  ∀ (station port tag : Byte) (s : State),
    let matching (r : Run) : Prop := r.dest = station ∧ r.port = port ∧ r.tag = tag
    (∀ (i : Fin 8) (r : Run), findRun station port tag s = some (i, r) ↔
      s.slots[i] = some r ∧ matching r ∧ ∀ (j : Fin 8) (q : Run), j < i → s.slots[j] = some q → ¬matching q) ∧
    (findRun station port tag s = none ↔ ∀ (j : Fin 8) (q : Run), s.slots[j] = some q → ¬matching q)

/-- A GRANT (R20, R40): a slot in OPENING enters STREAMING with the granted window clamped into 1 to the requested
window and the answer timer stopped; in any other state, or with no matching slot, nothing changes, nor
does it at a TAKEN, RESUME or BUSY with no matching slot (R19). -/
def Obligations.GrantOpensTheRun : Prop :=
  (∀ (s : State) (h : Header) (w : Byte), s.hands (.frame .grant h [w]) →
    (∀ i r, findRun h.src h.port h.tag s = some (i, r) → r.phase = .opening →
      let g := if w = 0 then min 1 r.window else if r.window < w.toNat then r.window else w.toNat
      exec .grantFrame s = .next (setSlot i (some { r with granted := some g, answer := none, phase := .streaming })
        (clearHandover s))) ∧
    (∀ i r, findRun h.src h.port h.tag s = some (i, r) → r.phase ≠ .opening →
      exec .grantFrame s = .next (clearHandover s)) ∧
    (findRun h.src h.port h.tag s = none → exec .grantFrame s = .next (clearHandover s))) ∧
  (∀ (s : State) (h : Header) (x : List Byte), findRun h.src h.port h.tag s = none →
    (s.hands (.frame .taken h x) → exec .takenFrame s = .next (clearHandover s)) ∧
    (s.hands (.frame .resume h x) → exec .resumeFrame s = .next (clearHandover s)) ∧
    (s.hands (.frame .busy h x) → exec .busyFrame s = .next (clearHandover s)))

/-- A REFUSE that reaches a slot in OPENING ends the run with REFUSED and the reason as received, by the ending
procedure, with no frame (R21). -/
def Obligations.RefuseEndsTheRun : Prop :=
  ∀ (s : State) (h : Header) (reason : Byte) i r, s.hands (.frame .refuse h [reason]) →
    findRun h.src h.port h.tag s = some (i, r) → r.phase = .opening →
    exec .refuseFrame s = .next (endRunNow i r .refused (some reason) (clearHandover s))

/-- The other frames that end a run: HALTED in every state but ENDING (R39), CLOSED in CLOSING, DONE exactly where the
result byte is 0 and the count is the block count (R36), and a returned OPEN in every state but ENDING (R23). A frame
without use in the slot's state, or with no slot, and a returned frame of another kind, change nothing (R19, R40). -/
def Obligations.FinalFramesEndTheRun : Prop :=
  (∀ (s : State) (h : Header) (reason : Byte), s.hands (.frame .halted h [reason]) →
    (∀ i r, findRun h.src h.port h.tag s = some (i, r) → r.phase ≠ .ending →
      exec .haltedFrame s = .next (endRunNow i r .haltedByPeer (some reason) (clearHandover s))) ∧
    ((∀ i r, findRun h.src h.port h.tag s = some (i, r) → r.phase = .ending) →
      exec .haltedFrame s = .next (clearHandover s))) ∧
  (∀ (s : State) (h : Header) (result x c1 c0 : Byte), s.hands (.frame .closed h [result, x, c1, c0]) →
    (∀ i r, findRun h.src h.port h.tag s = some (i, r) → r.phase = .closing →
      exec .closedFrame s = .next (endRunNow i r
        (if result = 0 ∧ (c1 ++ c0).toNat = r.count then .done else .digestMismatch) none (clearHandover s))) ∧
    ((∀ i r, findRun h.src h.port h.tag s = some (i, r) → r.phase ≠ .closing) →
      exec .closedFrame s = .next (clearHandover s))) ∧
  (∀ (s : State) (h : Header), s.hands (.returned h) →
    (∀ i r, h.kind = 0x21 → findRun h.dest h.port h.tag s = some (i, r) → r.phase ≠ .ending →
      exec .returnedFrame s = .next (endRunNow i r .undelivered none (clearHandover s))) ∧
    (h.kind ≠ 0x21 ∨ (∀ i r, findRun h.dest h.port h.tag s = some (i, r) → r.phase = .ending) →
      exec .returnedFrame s = .next (clearHandover s))) ∧
  (∀ (s : State) (h : Header) (reason : Byte), s.hands (.frame .refuse h [reason]) →
    (∀ i r, findRun h.src h.port h.tag s = some (i, r) → r.phase ≠ .opening) →
    exec .refuseFrame s = .next (clearHandover s))

/-- A TAKEN (R27, R28, R33, R35): fresh where the distance from the oldest unacknowledged block is below the number of
blocks outstanding; it acknowledges up to the block it names, and the slot closes where that was the last. Stale, or in
another state, it changes nothing. -/
def Obligations.TakenAcknowledges : Prop :=
  ∀ (s : State) (h : Header) (x : List Byte) i r, s.hands (.frame .taken h x) →
    findRun h.src h.port h.tag s = some (i, r) →
    let d := (h.seq.toNat + 8 - r.taken % 8) % 8
    let u := clearHandover s
    let taken := r.taken + d + 1
    let r' : Run := { r with taken := taken, timeouts := 0 }
    let timed : Run := { r' with answer := if taken < r.sent then some (Config.answerTime s.straps.tcl) else none }
    let left : Run := { r' with phase := .streaming, answer := none, probe := none, pause := none }
    let answers (t : State) : Prop := exec .takenFrame s = .next t
    (r.phase = .streaming → d < r.sent - r.taken →
      (taken ≠ r.count → answers (setSlot i (some timed) (dropBelow i taken u))) ∧
      (taken = r.count → answers (enterClosing i timed (dropBelow i taken u)))) ∧
    (r.phase = .paused → d < r.sent - r.taken →
      (taken ≠ r.count → answers (setSlot i (some left) (purge i u))) ∧
      (taken = r.count → answers (enterClosing i left (purge i u)))) ∧
    (r.sent - r.taken ≤ d → answers u) ∧
    (r.phase = .opening ∨ r.phase = .closing ∨ r.phase = .ending → answers u)

/-- A RESUME (R27, R29, R33, R35, R38): fresh where the distance is not above the number of blocks outstanding; it
acknowledges the blocks before the one it names and rewinds the slot, ends a pause, and in CLOSING with distance 0
draws a fresh FINISH. The last clause says what entering CLOSING does. -/
def Obligations.ResumeRewinds : Prop :=
  (∀ (s : State) (h : Header) (x : List Byte) i r, s.hands (.frame .resume h x) →
    findRun h.src h.port h.tag s = some (i, r) →
    let d := (h.seq.toNat + 8 - r.taken % 8) % 8
    let u := clearHandover s
    let taken := r.taken + d
    let r' : Run := { r with taken := taken, sent := taken, timeouts := if d = 0 then r.timeouts else 0, answer := none }
    let left : Run := { r' with phase := .streaming, probe := none, pause := none }
    let answers (t : State) : Prop := exec .resumeFrame s = .next t
    (r.phase = .streaming → d ≤ r.sent - r.taken →
      (taken ≠ r.count → answers (setSlot i (some r') (purge i u))) ∧
      (taken = r.count → answers (enterClosing i r' (purge i u)))) ∧
    (r.phase = .paused → d ≤ r.sent - r.taken →
      (taken ≠ r.count → answers (setSlot i (some left) (purge i u))) ∧
      (taken = r.count → answers (enterClosing i left (purge i u)))) ∧
    (r.phase = .closing → d = 0 → answers (enterClosing i { r with sent := r.taken, answer := none } u)) ∧
    (r.phase = .streaming ∨ r.phase = .paused → r.sent - r.taken < d → answers u) ∧
    (r.phase = .closing → d ≠ 0 → answers u) ∧
    (r.phase = .opening ∨ r.phase = .ending → answers u)) ∧
  (∀ (i : Fin 8) (r : Run) (s : State),
    enterClosing i r s = offer
      { dest := r.dest, kind := .finish, port := r.port, tag := r.tag, seq := 0,
        payload := bytes32 (~~~r.digest) ++ bytes16 (BitVec.ofNat 16 r.count) }
      (setSlot i (some { r with phase := .closing, probe := none, pause := none, attempts := 1,
                                answer := some (Config.answerTime s.straps.tcl) }) (purge i s)))

/-- A BUSY (R27, R30, R33, R35): fresh under the test of RESUME, it acknowledges and rewinds; a STREAMING slot pauses
with both pause timers started, a PAUSED slot stays paused with both running on, and either closes where every block is
acknowledged. Stale, or in another state, it changes nothing. -/
def Obligations.BusyPauses : Prop :=
  ∀ (s : State) (h : Header) (x : List Byte) i r, s.hands (.frame .busy h x) →
    findRun h.src h.port h.tag s = some (i, r) →
    let d := (h.seq.toNat + 8 - r.taken % 8) % 8
    let u := clearHandover s
    let taken := r.taken + d
    let r' : Run := { r with taken := taken, sent := taken, timeouts := if d = 0 then r.timeouts else 0, answer := none }
    let paused : Run := { r' with phase := .paused, probe := some (2 * Config.answerTime s.straps.tcl),
                                  pause := some (64 * Config.answerTime s.straps.tcl) }
    let answers (t : State) : Prop := exec .busyFrame s = .next t
    (r.phase = .streaming → d ≤ r.sent - r.taken →
      (taken ≠ r.count → answers (setSlot i (some paused) (purge i u))) ∧
      (taken = r.count → ∃ t, exec .busyFrame s = .next t ∧
        t = offer { dest := r.dest, kind := .finish, port := r.port, tag := r.tag, seq := 0,
                    payload := bytes32 (~~~r.digest) ++ bytes16 (BitVec.ofNat 16 r.count) }
          (setSlot i (some { r' with phase := .closing, probe := none, pause := none, attempts := 1,
                                     answer := some (Config.answerTime s.straps.tcl) }) (purge i u)))) ∧
    (r.phase = .paused → d ≤ r.sent - r.taken →
      (taken ≠ r.count → answers (setSlot i (some r') (purge i u))) ∧
      (taken = r.count → answers (enterClosing i r' (purge i u)))) ∧
    (r.sent - r.taken < d → answers u) ∧
    (r.phase = .opening ∨ r.phase = .closing ∨ r.phase = .ending → answers u)

/-- The ending procedure (R41, R42): entries purged and timers stopped; with a BLOCK of the slot being inserted the slot
waits in ENDING with its result owed, and otherwise it becomes FREE with its RUN_END. The end of an insertion, with its
other symbols gone out, sends EOF, frees a slot in ENDING with the record it owes, and leaves any other slot as it is;
with symbols still to go it is not reached and changes nothing (model's choice, logs 3 and 11). -/
def Obligations.EndingProcedure : Prop :=
  (∀ (i : Fin 8) (r : Run) (result : RunResult) (reason : Option Byte) (s : State),
    (beingInserted i s = true → endRunNow i r result reason s = setSlot i (some
      { r with phase := .ending, owed := some (result, reason), answer := none, probe := none, pause := none })
      (purge i s)) ∧
    (beingInserted i s = false → endRunNow i r result reason s =
      post (.runEnd i r.tag r.dest r.port r.taken result reason) (setSlot i none (purge i s)))) ∧
  (∀ (s : State) (sym : Symbol) (left : List Symbol) (block : Option (Fin 8 × Nat)),
    s.rau.output = .inserting block (sym :: left) → exec .insertionEnd s = .next s) ∧
  (∀ (s : State) (block : Option (Fin 8 × Nat)), s.rau.output = .inserting block [] →
    let u : State := { s with rau := { s.rau with output := .free, gap := 0 }, ringOut := .carries .eof }
    (block = none → exec .insertionEnd s = .next u) ∧
    (∀ i n, block = some (i, n) →
      (s.slots[i] = none → exec .insertionEnd s = .next u) ∧
      (∀ r, s.slots[i] = some r →
        (r.phase ≠ .ending → exec .insertionEnd s = .next u) ∧
        (r.phase = .ending → r.owed = none → exec .insertionEnd s = .next (setSlot i none u)) ∧
        (∀ result reason, r.phase = .ending → r.owed = some (result, reason) → exec .insertionEnd s =
          .next (post (.runEnd i r.tag r.dest r.port r.taken result reason) (setSlot i none u))))))

/-- The answer timer's expiry: in OPENING and CLOSING the OPEN or FINISH is offered again up to the fourth attempt and
the run then ends NO_ANSWER or CLOSE_UNCONFIRMED (R22, R37); in STREAMING the slot rewinds with one more consecutive
timeout, and at the eighth ends NO_ANSWER (R31), its count of consecutive timeouts left as it was (model's choice, log
22). -/
def Obligations.AnswerTimerExpiries : Prop :=
  ∀ (s : State) (i : Fin 8) (r : Run) (n : Nat), s.slots[i] = some r → r.answer = some n →
    let again : Run := { r with attempts := r.attempts + 1, answer := some (Config.answerTime s.straps.tcl) }
    (r.phase = .opening → r.attempts < 4 → exec (.answerExpiryOpening i) s = .next (offer
      { dest := r.dest, kind := .open_, port := r.port, tag := r.tag, seq := 0,
        payload := bytes16 (BitVec.ofNat 16 r.size) ++ bytes16 (BitVec.ofNat 16 r.count) ++
          [BitVec.ofNat 8 r.window, 0] }
      (setSlot i (some again) s))) ∧
    (r.phase = .opening → 4 ≤ r.attempts →
      exec (.answerExpiryOpening i) s = .next (endRunNow i r .noAnswer none s)) ∧
    (r.phase = .closing → r.attempts < 4 → exec (.answerExpiryClosing i) s = .next (offer
      { dest := r.dest, kind := .finish, port := r.port, tag := r.tag, seq := 0,
        payload := bytes32 (~~~r.digest) ++ bytes16 (BitVec.ofNat 16 r.count) }
      (setSlot i (some again) s))) ∧
    (r.phase = .closing → 4 ≤ r.attempts →
      exec (.answerExpiryClosing i) s = .next (endRunNow i r .closeUnconfirmed none s)) ∧
    (r.phase = .streaming → r.timeouts + 1 < 8 → exec (.answerExpiryStreaming i) s = .next (setSlot i (some
      { r with sent := r.taken, answer := none, timeouts := r.timeouts + 1 }) (purge i s))) ∧
    (r.phase = .streaming → 8 ≤ r.timeouts + 1 →
      exec (.answerExpiryStreaming i) s = .next (endRunNow i r .noAnswer none s))

/-- The timers of a pause: the probe timer's expiry queues the block at index taken where it is not queued and the data
queue has room, and restarts (R32); the pause timer's expiry ends the run STALLED with no frame (R34). -/
def Obligations.ProbeAndPauseExpiries : Prop :=
  ∀ (s : State) (i : Fin 8) (r : Run) (n : Nat), s.slots[i] = some r → r.phase = .paused →
    let again : Run := { r with probe := some (2 * Config.answerTime s.straps.tcl) }
    let entry : DataEntry := { slot := i, index := r.taken }
    (r.probe = some n → entry ∉ s.rau.dataQueue → s.rau.dataQueue.length < 8 → exec (.probeTimerExpiry i) s =
      .next (setSlot i (some { again with sent := r.taken + 1 }) (setData (s.rau.dataQueue ++ [entry]) s))) ∧
    (r.probe = some n → entry ∈ s.rau.dataQueue ∨ 8 ≤ s.rau.dataQueue.length →
      exec (.probeTimerExpiry i) s = .next (setSlot i (some again) s)) ∧
    (r.pause = some n → exec (.pauseTimerExpiry i) s = .next (endRunNow i r .stalled none s))

/-- One grant of the data-queue arbiter (R24, R25): with fewer than eight entries, the first slot that wants a place,
counting upward from the one after the round-robin pointer, gets its next block's entry at the tail, its sent goes up by
one, its answer timer is started where it is stopped, and the pointer is set to it; otherwise nothing changes. -/
def Obligations.DataQueueGrant : Prop :=
  ∀ s : State,
    let wants (x : Slot) : Prop :=
      ∃ r, x = some r ∧ r.phase = .streaming ∧ r.sent < r.count ∧ r.sent - r.taken < r.granted.getD 0
    (∀ (i : Fin 8) (r : Run), s.rau.dataQueue.length < 8 → s.slots[i] = some r → wants (some r) →
      (∀ j : Fin 8, j - (s.rrPointer + 1) < i - (s.rrPointer + 1) → ¬wants s.slots[j]) →
      exec .dataQueueGrant s = .next
        { setSlot i (some { r with sent := r.sent + 1,
                                   answer := if r.answer.isSome then r.answer
                                             else some (Config.answerTime s.straps.tcl) })
            (setData (s.rau.dataQueue ++ [{ slot := i, index := r.sent }]) s) with rrPointer := i }) ∧
    (8 ≤ s.rau.dataQueue.length ∨ (∀ j : Fin 8, ¬wants s.slots[j]) → exec .dataQueueGrant s = .next s)

/-- The yield threshold timer and marking (R113): the timer is started when the data queue becomes non-empty and runs on
while it stays so; it is stopped, and marking turned off, when the queue becomes empty; its expiry turns marking on. A
purge of a slot and a removal below taken take out exactly the entries R107 names. -/
def Obligations.YieldThreshold : Prop :=
  (∀ (s : State) (q : List DataEntry),
    (q = [] → setData q s = { s with rau := { s.rau with dataQueue := [], threshold := none, marking := false } }) ∧
    (q ≠ [] → s.rau.dataQueue = [] →
      setData q s = { s with rau := { s.rau with dataQueue := q, threshold := some 5000 } }) ∧
    (q ≠ [] → s.rau.dataQueue ≠ [] → setData q s = { s with rau := { s.rau with dataQueue := q } })) ∧
  (∀ (s : State) (i : Fin 8) (n : Nat),
    purge i s = setData (s.rau.dataQueue.filter fun e => !decide (e.slot = i)) s ∧
    dropBelow i n s = setData (s.rau.dataQueue.filter fun e => !(decide (e.slot = i) && decide (e.index < n))) s) ∧
  (∀ s : State, s.rau.threshold.isSome → exec .yieldThresholdExpiry s =
    .next { s with rau := { s.rau with threshold := none, marking := true } })

/-! ### The Roll Call Unit -/

/-- A copied ROLL (R123, R124): the entry of its Src is PRESENT and heard with the values received, PEER_FOUND is posted
where it was ABSENT, and a mismatch record where a received value differs from the own value and from the one recorded
before; SILENT or not (R131). -/
def Obligations.RollHeard : Prop :=
  ∀ (s : State) (h : Header) (size cls n1 n0 s1 s0 x y : Byte) (i : Fin 16),
    s.rau.handover = some (.roll h [size, cls, n1, n0, s1, s0, x, y]) → h.src.toNat = i.val →
    let u := setPeer i { state := .present 0 (n1 ++ n0) cls size, heard := true } (clearHandover s)
    let ownClass : Byte := s.straps.tcl.setWidth 8
    let ownSize : Byte := s.straps.rsz.setWidth 8 + 1
    (s.peers[i].state = .absent → exec .rollFrame s = .next (postAll
      ([.peerFound i] ++ (if cls = ownClass then [] else [.classMismatch i cls]) ++
        (if size = ownSize then [] else [.sizeMismatch i size])) u)) ∧
    (∀ misses beacon oldCls oldSize, s.peers[i].state = .present misses beacon oldCls oldSize →
      exec .rollFrame s = .next (postAll
        ((if cls = ownClass ∨ cls = oldCls then [] else [.classMismatch i cls]) ++
          (if size = ownSize ∨ size = oldSize then [] else [.sizeMismatch i size])) u))

/-- A stripped ROLL with the own Src (R127, R129, R130): with the number and stamp of a beacon in flight that was sent
it is the own beacon's return, which clears the misses and closes a ring reported open; otherwise the station enters
SILENT: DUPLICATE_STATION is posted first, the control queue is emptied, and every run and binding ends SILENCED, the
current bank of a BOUND port closed with its BANK_FULL (R69, R70, R73); the Run Engine's records stand in slot-number
order and the Port Engine's in port-number order, and no other record is posted. A SILENT station discards it. -/
def Obligations.OwnBeacon : Prop :=
  ∀ (s : State) (h : Header) (size cls n1 n0 s1 s0 x y : Byte),
    s.rau.handover = some (.ownRoll h [size, cls, n1, n0, s1, s0, x, y]) →
    let u := clearHandover s
    let own (b : Beacon) : Prop :=
      s.rollCall.inFlight = some b ∧ b.sent = true ∧ b.number = n1 ++ n0 ∧ s.rollCall.stamp = some (s1 ++ s0)
    (s.rollCall.silent = true → exec .ownBeacon s = .next u) ∧
    (∀ b, s.rollCall.silent = false → own b →
      let back : RollCall :=
        { s.rollCall with inFlight := some { b with returned := true }, misses := 0, ringOpen := false }
      (b.returned = true → exec .ownBeacon s = .next u) ∧
      (b.returned = false → s.rollCall.ringOpen = false → exec .ownBeacon s = .next { u with rollCall := back }) ∧
      (b.returned = false → s.rollCall.ringOpen = true →
        exec .ownBeacon s = .next (post .ringClosed { u with rollCall := back }))) ∧
    (s.rollCall.silent = false → (∀ b, ¬own b) →
      ∃ t rs, exec .ownBeacon s = .next t ∧ t.rollCall = { s.rollCall with silent := true } ∧
        Posted s.log t.log (.duplicateStation :: rs) ∧ t.rau.controlQueue = [] ∧ t.rau.output = s.rau.output ∧
        t.rau.passFifo = s.rau.passFifo ∧ t.peers = s.peers ∧ t.mem = s.mem ∧ t.commandFifo = s.commandFifo ∧
        (∀ i : Fin 8, s.slots[i] = none → t.slots[i] = none) ∧
        (∀ (i : Fin 8) r, s.slots[i] = some r → r.phase = .ending → t.slots[i] = some r) ∧
        (∀ (i : Fin 8) r, s.slots[i] = some r → r.phase ≠ .ending → beingInserted i s = true → t.slots[i] = some
          { r with phase := .ending, owed := some (.silenced, none), answer := none, probe := none, pause := none }) ∧
        (∀ (i : Fin 8) r, s.slots[i] = some r → r.phase ≠ .ending → beingInserted i s = false →
          t.slots[i] = none ∧ .runEnd i r.tag r.dest r.port r.taken .silenced none ∈ rs) ∧
        (∀ (i : Fin 8) p b current idle, s.ports[i] = some p → p.mode = .bound b current idle →
          .portRunEnd i b.source b.tag b.accepted .silenced ∈ rs ∧
          ∃ p', t.ports[i] = some p' ∧ p'.mode = .listening ∧ p'.note = p.note) ∧
        (∀ i : Fin 8, (∀ p b current idle, s.ports[i] = some p → p.mode ≠ .bound b current idle) →
          t.ports[i] = s.ports[i]) ∧
        (let slot (i : Fin 8) := slotAfterEnding i (beingInserted i s) (fun _ => true) .silenced s.slots[i]
         let port (i : Fin 8) := portAfterEnding i (fun _ => true) .silenced s.ports[i]
         (∀ i : Fin 8, t.slots[i] = (slot i).1 ∧ t.ports[i] = (port i).1) ∧
         rs.filter Record.ofRunEngine = slotNumbers.flatMap (fun i => (slot i).2) ∧
         rs.filter Record.ofPortEngine = portNumbers.flatMap (fun i => (port i).2) ∧
         ∀ r ∈ rs, r.ofRunEngine = true ∨ r.ofPortEngine = true))

/-- The beacon period timer's expiry (R120, R121, R125, R126, R128): the presence check of every entry, with the runs to
a lost peer and the bindings from it ended, the current bank of such a binding closed (R70); unless the station is
SILENT the ring-health check and the next beacon; and the timer restarted. PEER_LOST records stand in station order and
each before the records it causes, RING_OPEN after them; each engine's records stand in the order of the losses and of
its own table; and no other record is posted. -/
def Obligations.BeaconPeriod : Prop :=
  ∀ s : State, s.rollCall.timer.isSome →
    let lost (i : Fin 16) : Prop :=
      ∃ m beacon cls size, s.peers[i] = { state := .present m beacon cls size, heard := false } ∧ 3 ≤ m + 1
    let missed : Prop := ∃ b, s.rollCall.inFlight = some b ∧ b.sent = true ∧ b.returned = false
    ∃ t rs, exec .beaconPeriodExpiry s = .next t ∧ Posted s.log t.log rs ∧
      t.rollCall.timer = some (8 * Config.answerTime s.straps.tcl) ∧ t.mem = s.mem ∧ t.rau.output = s.rau.output ∧
      (∀ i : Fin 16, (t.peers[i]).heard = false) ∧
      (∀ i : Fin 16, lost i → t.peers[i].state = .absent ∧ Record.peerLost i ∈ rs) ∧
      (∀ (i : Fin 16) m beacon cls size, s.peers[i] = { state := .present m beacon cls size, heard := true } →
        t.peers[i].state = .present 0 beacon cls size) ∧
      (∀ (i : Fin 16) m beacon cls size, s.peers[i] = { state := .present m beacon cls size, heard := false } →
        m + 1 < 3 → t.peers[i].state = .present (m + 1) beacon cls size) ∧
      (∀ i : Fin 16, s.peers[i].state = .absent ∨ s.peers[i].state = .self → t.peers[i].state = s.peers[i].state) ∧
      (∀ (i : Fin 8) r, s.slots[i] = some r → (∀ j : Fin 16, lost j → r.dest.toNat ≠ j.val) ∨ r.phase = .ending →
        t.slots[i] = some r) ∧
      (∀ (i : Fin 8) r (j : Fin 16), s.slots[i] = some r → r.phase ≠ .ending → lost j → r.dest.toNat = j.val →
        t.slots[i] = (if beingInserted i s then some
          { r with phase := .ending, owed := some (.peerLost, none), answer := none, probe := none, pause := none }
          else none)) ∧
      (∀ (i : Fin 8) p b current idle, s.ports[i] = some p → p.mode = .bound b current idle →
        (∀ j : Fin 16, lost j → b.source.toNat ≠ j.val) → t.ports[i] = some p) ∧
      (∀ (i : Fin 8) p b current idle (j : Fin 16), s.ports[i] = some p → p.mode = .bound b current idle → lost j →
        b.source.toNat = j.val → .portRunEnd i b.source b.tag b.accepted .peerLost ∈ rs ∧
        ∃ p', t.ports[i] = some p' ∧ p'.mode = .listening ∧ p'.note = p.note) ∧
      (s.rollCall.silent = true → t.rollCall = { s.rollCall with timer := t.rollCall.timer } ∧
        t.rau.controlQueue = s.rau.controlQueue) ∧
      (s.rollCall.silent = false →
        t.rollCall.number = s.rollCall.number + 1 ∧ t.rollCall.stamp = s.rollCall.stamp ∧
        t.rollCall.inFlight = some { number := s.rollCall.number, sent := canOffer s, returned := false } ∧
        t.rau.controlQueue = s.rau.controlQueue ++ (if canOffer s then
          [{ dest := 0xFF, kind := .roll, port := 0, tag := 0, seq := 0,
             payload := [s.straps.rsz.setWidth 8 + 1, s.straps.tcl.setWidth 8] ++ bytes16 s.rollCall.number ++
               bytes16 (s.rollCall.stamp.getD 0) ++ [0, 0] }] else []) ∧
        (¬missed → t.rollCall.misses = s.rollCall.misses ∧ t.rollCall.ringOpen = s.rollCall.ringOpen) ∧
        (missed → s.rollCall.misses < 2 →
          t.rollCall.misses = s.rollCall.misses + 1 ∧ t.rollCall.ringOpen = s.rollCall.ringOpen) ∧
        (missed → s.rollCall.misses = 2 → t.rollCall.misses = 3 ∧ t.rollCall.ringOpen = true ∧
          (s.rollCall.ringOpen = false → Record.ringOpen ∈ rs)) ∧
        (missed → 3 ≤ s.rollCall.misses →
          t.rollCall.misses = s.rollCall.misses ∧ t.rollCall.ringOpen = s.rollCall.ringOpen)) ∧
      (∀ losing : List (Fin 16), losing.Pairwise (· < ·) → (∀ j, j ∈ losing ↔ lost j) →
        let runTo (j : Fin 16) (r : Run) : Bool := r.dest.toNat = j.val
        let boundFrom (j : Fin 16) (b : Binding) : Bool := b.source.toNat = j.val
        let runs (j : Fin 16) : List Record :=
          slotNumbers.flatMap fun i => (slotAfterEnding i (beingInserted i s) (runTo j) .peerLost s.slots[i]).2
        let ports (j : Fin 16) : List Record :=
          portNumbers.flatMap fun i => (portAfterEnding i (boundFrom j) .peerLost s.ports[i]).2
        let others : List Record := rs.filter fun r => !r.ofRunEngine && !r.ofPortEngine
        let opens : Prop := s.rollCall.silent = false ∧ missed ∧ s.rollCall.misses = 2 ∧ s.rollCall.ringOpen = false
        (∀ i : Fin 8, t.ports[i] =
          (portAfterEnding i (fun b => losing.any fun j => boundFrom j b) .peerLost s.ports[i]).1) ∧
        rs.filter Record.ofRunEngine = losing.flatMap runs ∧ rs.filter Record.ofPortEngine = losing.flatMap ports ∧
        (opens → others = losing.map .peerLost ++ [.ringOpen]) ∧ (¬opens → others = losing.map .peerLost) ∧
        (∀ j ∈ losing, ∀ r, r ∈ runs j ∨ r ∈ ports j → [.peerLost j, r].Sublist rs))

/-! ### Output and insertion -/

/-- Forwarding (R101, R102): with nothing being sent and the transmitter in RUN, the frame at the head of the pass FIFO
is started, after what is left of the two-IDLE gap; when its note is reached, its other symbols having gone out, its
end sends EOF or, for an abandoned frame, ABORT, and removes it. With symbols still to go or no note the end is not
reached and changes nothing (model's choice, logs 3 and 11). -/
def Obligations.Forwarding : Prop :=
  (∀ (s : State) (f : PassFrame) (rest : List PassFrame), s.rau.passFifo = f :: rest → f.bytes ≠ [] →
    s.rau.output = .free → s.tx.state = .run → exec .forwardStart s = .next
      { s with rau := { s.rau with output := .forwarding (List.replicate (2 - s.rau.gap) .idle ++ [.sof]) } }) ∧
  (∀ (s : State) (f : PassFrame) (rest : List PassFrame) (lead : List Symbol), s.rau.passFifo = f :: rest →
    s.rau.output = .forwarding lead → lead ≠ [] ∨ f.bytes ≠ [] ∨ f.ended = none →
    exec .forwardEnd s = .next s) ∧
  (∀ (s : State) (f : PassFrame) (rest : List PassFrame) (e : FrameEnd), s.rau.passFifo = f :: rest →
    s.rau.output = .forwarding [] → f.bytes = [] → f.ended = some e → exec .forwardEnd s = .next
      { s with rau := { s.rau with output := .free, passFifo := rest, gap := 0 },
               ringOut := .carries (match e with | .eof => .eof | .abort => .abort) }) ∧
  (∀ s : State, s.rau.passFifo = [] ∨ s.rau.output ≠ .free ∨ s.tx.state ≠ .run → exec .forwardStart s = .next s)

/-- The insertion arbiter (R109 to R111, R26, R113): with the pass path idle, nothing being sent, the transmitter in RUN
and the station not SILENT, the control queue's head is taken first, and the data queue's head while the station is not
in yield hold; a BLOCK carries the bytes its slot's source region holds and folds them into the digest at its first
copy. Where a condition fails nothing starts. That the payload is read whole at the start is the model's reading of R85
(log 10). -/
def Obligations.InsertionStart : Prop :=
  ∀ s : State,
    let may : Prop := (∀ f ∈ s.rau.passFifo, f.bytes = []) ∧ s.rau.reception = none ∧ s.rau.output = .free ∧
      s.tx.state = .run ∧ s.rollCall.silent = false
    let lead : List Symbol := List.replicate (2 - s.rau.gap) .idle ++ [.sof]
    let framed (dest : Byte) (k : Kind) (port tag seq : Byte) (payload : List Byte) : List Symbol :=
      let len : Word16 := BitVec.ofNat 16 payload.length
      lead ++ ([dest, s.own, k.code, 0, s.ringSize, port, tag, seq] ++ bytes16 len ++
        bytes16 (crc16 ([dest, s.own, k.code, port, tag, seq] ++ bytes16 len)) ++ payload ++
        (if payload = [] then [] else bytes32 (crc32 payload))).map .data
    (∀ f rest, may → s.rau.controlQueue = f :: rest →
      let out : Output := .inserting none (framed f.dest f.kind f.port f.tag f.seq f.payload)
      exec .insertionStart s = .next { s with rau := { s.rau with controlQueue := rest, output := out } }) ∧
    (∀ e rest r, may → s.rau.controlQueue = [] → s.rau.dataQueue = e :: rest → s.rau.inHold = false →
      s.slots[e.slot] = some r → r.base + e.index * r.size + r.size ≤ 131072 →
      let payload := Memory.bytesFrom s.mem (r.base + e.index * r.size) r.size
      let folded : Run :=
        if e.index = r.digestIndex then
          { r with digest := digestFold r.digest payload, digestIndex := r.digestIndex + 1 } else r
      let out : Output := .inserting (some (e.slot, e.index))
        (framed r.dest .block r.port r.tag (BitVec.ofNat 8 (e.index % 8)) payload)
      let timer : Timer := if rest = [] then none else some 5000
      exec .insertionStart s = .next (setSlot e.slot (some folded)
        { s with rau := { s.rau with dataQueue := rest, marking := false, threshold := timer, output := out } })) ∧
    (¬may ∨ (s.rau.controlQueue = [] ∧ (s.rau.dataQueue = [] ∨ s.rau.inHold = true)) →
      exec .insertionStart s = .next s)

/-! ### Commands of the local controller -/

/-- START_RUN (R157, R18, R92): the first check that fails rejects it and changes nothing else; otherwise the slot
enters OPENING with the tag counter's tag and an OPEN is offered. -/
def Obligations.StartRunCommand : Prop :=
  ∀ (s : State) (rest : List (List Byte)) (slot dest port b2 b1 b0 s1 s0 c1 c0 w x y z v : Byte),
    s.takes [0x01, slot, dest, port, b2, b1, b0, s1, s0, c1, c0, w, x, y, z, v] rest →
    let u : State := { s with commandFifo := rest }
    let base := (b2 ++ b1 ++ b0).toNat
    let size := (s1 ++ s0).toNat
    let count := (c1 ++ c0).toNat
    let region : Region := { lo := base, hi := base + count * size }
    let rejected (reason : RejectReason) : Prop := exec .startRun s = .next (post (.cmdRejected 0x01 slot reason) u)
    let bad : Prop := size < 16 ∨ 1024 < size ∨ size % 16 ≠ 0 ∨ count = 0 ∨ w = 0 ∨ 4 < w.toNat ∨ 8 ≤ port.toNat ∨
      16 ≤ dest.toNat ∨ dest = s.own ∨ base % 16 ≠ 0 ∨ 131072 < base + count * size
    let absent : Prop := ∀ j : Fin 16, dest.toNat = j.val → s.peers[j].state = .absent
    (s.rollCall.silent = true → rejected .silent) ∧
    (s.rollCall.silent = false → 8 ≤ slot.toNat → rejected .badSlot) ∧
    (∀ i : Fin 8, s.rollCall.silent = false → slot.toNat = i.val →
      (s.slots[i] ≠ none → rejected .slotBusy) ∧
      (s.slots[i] = none → bad → rejected .badParam) ∧
      (s.slots[i] = none → ¬bad → absent → rejected .noPeer) ∧
      (s.slots[i] = none → ¬bad → ¬absent → (∃ a ∈ fencedBanks s, region.overlaps a = true) → rejected .overlap) ∧
      (s.slots[i] = none → ¬bad → ¬absent → (∀ a ∈ fencedBanks s, region.overlaps a = false) →
        exec .startRun s = .next (offer
          { dest := dest, kind := .open_, port := port, tag := s.tagCounter, seq := 0,
            payload := [s1, s0, c1, c0, w, 0] }
          { setSlot i (some
              { phase := .opening, tag := s.tagCounter, dest := dest, port := port, base := base, size := size,
                count := count, window := w.toNat, granted := none, taken := 0, sent := 0, digestIndex := 0,
                digest := 0xFFFFFFFF, attempts := 1, timeouts := 0, owed := none,
                answer := some (Config.answerTime s.straps.tcl), probe := none, pause := none }) u
            with tagCounter := s.tagCounter + 1 })))

/-- CANCEL_RUN (R158, R43): BAD_SLOT and WRONG_STATE, and otherwise a CANCEL is offered and the run ends CANCELLED. A
record whose code names no command is rejected with BAD_COMMAND (R156). -/
def Obligations.CancelAndUnknownCommands : Prop :=
  (∀ (s : State) (rest : List (List Byte)) (slot : Byte) (x : List Byte), s.takes (0x02 :: slot :: x) rest →
    let u : State := { s with commandFifo := rest }
    let rejected (reason : RejectReason) : Prop := exec .cancelRun s = .next (post (.cmdRejected 0x02 slot reason) u)
    (8 ≤ slot.toNat → rejected .badSlot) ∧
    (∀ i : Fin 8, slot.toNat = i.val →
      (s.slots[i] = none → rejected .wrongState) ∧
      (∀ r, s.slots[i] = some r →
        (r.phase = .ending → rejected .wrongState) ∧
        (r.phase ≠ .ending → exec .cancelRun s = .next (endRunNow i r .cancelled none
          (offer { dest := r.dest, kind := .cancel, port := r.port, tag := r.tag, seq := 0, payload := [] } u)))))) ∧
  (∀ (s : State) (rest : List (List Byte)) (code index : Byte) (x : List Byte), s.takes (code :: index :: x) rest →
    code = 0 ∨ 9 ≤ code.toNat →
    exec .unknownCommand s = .next (post (.cmdRejected code index .badCommand) { s with commandFifo := rest }))

/-- OPEN_PORT (R159, R91, R74): the first check that fails rejects it; otherwise the port is LISTENING with the two
banks given, both FREE. -/
def Obligations.OpenPortCommand : Prop :=
  ∀ (s : State) (rest : List (List Byte)) (port s1 s0 w a2 a1 a0 ca b2 b1 b0 cb x y z : Byte),
    s.takes [0x03, port, s1, s0, w, a2, a1, a0, ca, b2, b1, b0, cb, x, y, z] rest →
    let u : State := { s with commandFifo := rest }
    let size := (s1 ++ s0).toNat
    let baseA := (a2 ++ a1 ++ a0).toNat
    let baseB := (b2 ++ b1 ++ b0).toNat
    let regionA : Region := { lo := baseA, hi := baseA + ca.toNat * size }
    let regionB : Region := { lo := baseB, hi := baseB + cb.toNat * size }
    let rejected (reason : RejectReason) : Prop := exec .openPort s = .next (post (.cmdRejected 0x03 port reason) u)
    let bad : Prop := size < 16 ∨ 1024 < size ∨ size % 16 ≠ 0 ∨ w = 0 ∨ 4 < w.toNat ∨ ca = 0 ∨ cb = 0 ∨
      baseA % 16 ≠ 0 ∨ baseB % 16 ≠ 0 ∨ 131072 < regionA.hi ∨ 131072 < regionB.hi
    (s.rollCall.silent = true → rejected .silent) ∧
    (s.rollCall.silent = false → 8 ≤ port.toNat → rejected .badPort) ∧
    (∀ i : Fin 8, s.rollCall.silent = false → port.toNat = i.val →
      let hit (a : Region) : Prop := (∃ j : Fin 8, j ≠ i ∧ ∃ b ∈ portRegions s.ports[j], a.overlaps b = true) ∨
        ∃ b ∈ sourceRegions s, a.overlaps b = true
      let overlap : Prop := regionA.overlaps regionB = true ∨ hit regionA ∨ hit regionB
      (s.ports[i] ≠ none → rejected .wrongState) ∧
      (s.ports[i] = none → bad → rejected .badParam) ∧
      (s.ports[i] = none → ¬bad → overlap → rejected .overlap) ∧
      (s.ports[i] = none → ¬bad → ¬overlap → exec .openPort s = .next (setPort i (some
        { maxSize := size, maxWindow := w.toNat,
          bankA := { base := baseA, capacity := ca.toNat, content := .free },
          bankB := { base := baseB, capacity := cb.toNat, content := .free }, mode := .listening, note := none }) u)))

/-- RELEASE_BANK (R160, R94, R75): the checks in order, IN_USE before OVERLAP; an accepted release makes the bank
FILLING and current at a BOUND port with no current bank, with the RESUME it owes, and FREE otherwise. -/
def Obligations.ReleaseBankCommand : Prop :=
  ∀ (s : State) (rest : List (List Byte)) (port flags n2 n1 n0 : Byte) (x : List Byte),
    s.takes (0x04 :: port :: flags :: n2 :: n1 :: n0 :: x) rest →
    let u : State := { s with commandFifo := rest }
    let k : BankId := if flags.getLsbD 0 then .b else .a
    let moved := flags.getLsbD 1
    let rejected (reason : RejectReason) : Prop := exec .releaseBank s = .next (post (.cmdRejected 0x04 port reason) u)
    (8 ≤ port.toNat → rejected .badPort) ∧
    (∀ i : Fin 8, port.toNat = i.val →
      (s.ports[i] = none → rejected .wrongState) ∧
      (∀ p, s.ports[i] = some p →
        let bank := p.bank k
        let base := if moved then (n2 ++ n1 ++ n0).toNat else bank.base
        let present : Region := { lo := bank.base, hi := bank.base + bank.capacity * p.maxSize }
        let resulting : Region := { lo := base, hi := base + bank.capacity * p.maxSize }
        let bad : Prop := moved = true ∧ (base % 16 ≠ 0 ∨ 131072 < resulting.hi)
        let inUse : Prop := ∃ a ∈ sourceRegions s, present.overlaps a = true ∨ resulting.overlaps a = true
        let overlap : Prop := resulting.overlaps (p.region (p.bank k.other)) = true ∨
          ∃ j : Fin 8, j ≠ i ∧ ∃ b ∈ portRegions s.ports[j], resulting.overlaps b = true
        let full : Prop := ∃ o fill, bank.content = .full o fill
        (¬full → rejected .wrongState) ∧
        (full → bad → rejected .badParam) ∧
        (full → ¬bad → inUse → rejected .inUse) ∧
        (full → ¬bad → ¬inUse → overlap → rejected .overlap) ∧
        (full → ¬bad → ¬inUse → ¬overlap →
          (∀ b idle, p.mode = .bound b none idle →
            let owner : Owner := { source := b.source, tag := b.tag, size := b.size }
            let filling : OpenPort := p.setBank k { bank with base := base, content := .filling owner 0 }
            (b.busyOwed = true → exec .releaseBank s = .next (offer
              { dest := b.source, kind := .resume, port := BitVec.ofNat 8 i.val, tag := b.tag,
                seq := BitVec.ofNat 8 (b.accepted % 8), payload := [] }
              (setPort i (some { filling with
                mode := .bound { b with busyOwed := false, resumeSent := true } (some k) idle }) u))) ∧
            (b.busyOwed = false → exec .releaseBank s =
              .next (setPort i (some { filling with mode := .bound b (some k) idle }) u))) ∧
          ((∀ b idle, p.mode ≠ .bound b none idle) → exec .releaseBank s =
            .next (setPort i (some (p.setBank k { bank with base := base, content := .free })) u)))))

/-- UNHALT_PORT takes a HALTED port to LISTENING; its banks and its note are kept, no frame is sent and no record is
posted (R77). Its checks are SILENT, BAD_PORT and WRONG_STATE, in that order (R161). -/
def Obligations.UnhaltPortCommand : Prop :=
  ∀ (s : State) (rest : List (List Byte)) (port : Byte) (x : List Byte), s.takes (0x06 :: port :: x) rest →
    let u : State := { s with commandFifo := rest }
    let rejected (reason : RejectReason) : Prop := exec .unhaltPort s = .next (post (.cmdRejected 0x06 port reason) u)
    (s.rollCall.silent = true → rejected .silent) ∧
    (s.rollCall.silent = false → 8 ≤ port.toNat → rejected .badPort) ∧
    (∀ i : Fin 8, s.rollCall.silent = false → port.toNat = i.val →
      (s.ports[i] = none → rejected .wrongState) ∧
      (∀ p, s.ports[i] = some p →
        (p.mode ≠ .halted → rejected .wrongState) ∧
        (p.mode = .halted → exec .unhaltPort s = .next (setPort i (some { p with mode := .listening }) u))))

/-- HALT_PORT and CLOSE_PORT (R161, R76, R78): their checks; a bound port's source gets HALTED before its binding ends;
HALT_PORT keeps banks and note, CLOSE_PORT forgets them and posts no BANK_FULL. -/
def Obligations.HaltAndCloseCommands : Prop :=
  (∀ (s : State) (rest : List (List Byte)) (port : Byte) (x : List Byte), s.takes (0x05 :: port :: x) rest →
    let u : State := { s with commandFifo := rest }
    let rejected (reason : RejectReason) : Prop := exec .haltPort s = .next (post (.cmdRejected 0x05 port reason) u)
    (8 ≤ port.toNat → rejected .badPort) ∧
    (∀ i : Fin 8, port.toNat = i.val →
      (s.ports[i] = none → rejected .wrongState) ∧
      (∀ p, s.ports[i] = some p →
        (p.mode = .halted → rejected .wrongState) ∧
        (p.mode = .listening → exec .haltPort s = .next (setPort i (some { p with mode := .halted }) u)) ∧
        (∀ b current idle, p.mode = .bound b current idle → exec .haltPort s =
          .next (unbindNow i p b current .haltedLocally .halted (offer
            { dest := b.source, kind := .halted, port := BitVec.ofNat 8 i.val, tag := b.tag, seq := 0,
              payload := [1] } u)))))) ∧
  (∀ (s : State) (rest : List (List Byte)) (port : Byte) (x : List Byte), s.takes (0x07 :: port :: x) rest →
    let u : State := { s with commandFifo := rest }
    let rejected (reason : RejectReason) : Prop := exec .closePort s = .next (post (.cmdRejected 0x07 port reason) u)
    (8 ≤ port.toNat → rejected .badPort) ∧
    (∀ i : Fin 8, port.toNat = i.val →
      (s.ports[i] = none → rejected .wrongState) ∧
      (∀ p, s.ports[i] = some p →
        (p.mode = .halted ∨ p.mode = .listening → exec .closePort s = .next (setPort i none u)) ∧
        (∀ b current idle, p.mode = .bound b current idle → exec .closePort s =
          .next (post (.portRunEnd i b.source b.tag b.accepted .closedLocally) (setPort i none (offer
            { dest := b.source, kind := .halted, port := BitVec.ofNat 8 i.val, tag := b.tag, seq := 0,
              payload := [2] } u)))))))

/-- SOFT_RESET (R162, R46, R79, R116, R171): every slot FREE, but one whose BLOCK is being inserted, which waits in
ENDING with nothing owed; every port CLOSED; both queues empty; the log holds SOFT_RESET_DONE alone. The tag counter,
the Peer Table, the Roll Call Unit, the link, the memory, the Local Port and the FIFO's other commands are kept. -/
def Obligations.SoftResetCommand : Prop :=
  ∀ (s : State) (rest : List (List Byte)) (x : List Byte), s.takes (0x08 :: x) rest →
    ∃ t, exec .softReset s = .next t ∧
      t = { s with commandFifo := rest, log := [.softResetDone], logCopied := none, rrPointer := 7, slots := t.slots,
                   ports := Vector.replicate 8 none,
                   rau := { s.rau with controlQueue := [], dataQueue := [], marking := false, threshold := none } } ∧
      (∀ i : Fin 8, (s.slots[i] = none ∨ beingInserted i s = false → t.slots[i] = none) ∧
        (∀ r, s.slots[i] = some r → beingInserted i s = true → t.slots[i] = some
          { r with phase := .ending, owed := none, answer := none, probe := none, pause := none }))

/-! ### The Local Port -/

/-- A LOG_READ (R149, R168, R169): a copy of the oldest record, or sixteen zero bytes, follows the status byte; at its
last bit the copied record is removed where the log still holds it unchanged; a rise of CS_N before it removes
nothing. The copy is the record's sixteen bytes as R179 lays them out. The row continues a transaction whose code byte
the pins have brought, with the status byte of its fall of CS_N, and stands for the fall as well where they have not
(log 12); a rise ends whatever transaction stands (log 13). -/
def Obligations.LogReadTransaction : Prop :=
  (∀ s : State, s.resetLow = false → s.spi.waitRise = false →
    let copy : List Byte := match s.log.head? with | some r => r.bytes | none => List.replicate 16 0
    ∃ t, exec .logRead s = .next t ∧ t.log = s.log ∧ t.logCopied = s.log.head? ∧ t.spi.kind = some .logRead ∧
      t.spi.phase = .body ∧ t.spi.bytes = 1 ∧ t.spi.csLow = true ∧
      (∀ x l, s.spi.phase = .code → s.spi.outgoing = x :: l → t.spi.outgoing = x :: copy) ∧
      (s.spi.phase ≠ .code → t.spi.outgoing = statusByte s :: copy) ∧
      t = { s with spi := t.spi, logCopied := t.logCopied }) ∧
  (∀ s : State, s.spi.kind = some .logRead → s.spi.bytes < 17 →
    let u : State := { s with spi := { s.spi with bytes := 17 }, logCopied := none }
    (∀ r l, s.log = r :: l → s.logCopied = some r → exec .logReadDone s = .next { u with log := l }) ∧
    (s.logCopied = none ∨ s.log.head? ≠ s.logCopied → exec .logReadDone s = .next u)) ∧
  (∀ s : State, s.resetLow = false →
    exec .transactionEnd s = .next { s with spi := LocalPort.reset, logCopied := none }) ∧
  (∀ (s : State) (b : Byte), s.spi.phase = .body → s.spi.kind = some .logRead →
    (s.spi.bytes = 16 → byteArrives b s = { s with pending := s.pending ++ [.logReadDone] }) ∧
    (s.spi.bytes ≠ 16 → byteArrives b s = { s with spi := s.spi.counted })) ∧
  (let named (r : Record) (fields : List Byte) : Prop := r.bytes = fields ++ List.replicate (16 - fields.length) 0
   (∀ (slot : Fin 8) (tag dest port : Byte) (taken : Nat) (result : RunResult) (reason : Option Byte),
     named (.runEnd slot tag dest port taken result reason)
       ([0x01, BitVec.ofNat 8 slot.val, tag, dest, port] ++ bigEndian 2 taken ++
         [result.code, if reason = none then 0 else 1, reason.getD 0])) ∧
   (∀ (port : Fin 8) (source tag : Byte) (accepted : Nat) (result : PortResult),
     named (.portRunEnd port source tag accepted result)
       ([0x02, BitVec.ofNat 8 port.val, source, tag] ++ bigEndian 2 accepted ++ [result.code])) ∧
   (∀ (port : Fin 8) (bank : BankId) (base blocks : Nat) (short : Bool) (source tag : Byte),
     named (.bankFull port bank base blocks short source tag)
       ([0x03, BitVec.ofNat 8 port.val, if bank = .a then 0 else 1] ++ bigEndian 3 base ++
         [BitVec.ofNat 8 blocks, if short then 1 else 0, source, tag])) ∧
   (∀ (code index : Byte) (reason : RejectReason),
     named (.cmdRejected code index reason) [0x04, code, index, reason.code]) ∧
   (∀ (i : Fin 16) (x : Byte), named (.peerFound i) [0x05, BitVec.ofNat 8 i.val] ∧
     named (.peerLost i) [0x06, BitVec.ofNat 8 i.val] ∧ named (.classMismatch i x) [0x07, BitVec.ofNat 8 i.val, x] ∧
     named (.sizeMismatch i x) [0x08, BitVec.ofNat 8 i.val, x]) ∧
   named .ringOpen [0x09] ∧ named .ringClosed [0x0A] ∧ named .duplicateStation [0x0B] ∧ named .linkUp [0x0C] ∧
   named .linkDown [0x0D] ∧ named .softResetDone [0x0E] ∧
   (∀ n : Nat, named (.logOverflow n) [0x0F, BitVec.ofNat 8 n])) ∧
  ([RunResult.done, .digestMismatch, .refused, .noAnswer, .closeUnconfirmed, .stalled, .haltedByPeer, .cancelled,
    .peerLost, .undelivered, .silenced].map RunResult.code = [0, 1, 2, 3, 4, 5, 6, 7, 8, 9, 10]) ∧
  ([PortResult.matched, .mismatched, .cancelledByPeer, .abandoned, .peerLost, .haltedLocally, .closedLocally,
    .silenced].map PortResult.code = [0, 1, 2, 3, 4, 5, 6, 7]) ∧
  ([RejectReason.fifoFull, .badCommand, .silent, .badSlot, .slotBusy, .badPort, .wrongState, .badParam, .noPeer,
    .overlap, .inUse].map RejectReason.code = [1, 2, 3, 4, 5, 6, 7, 8, 9, 10, 11])

/-- The memory window (R86, R88 to R90, R150 to R152): the verdict on a MEM_WRITE and on a MEM_READ; an accepted write's
bytes go to consecutive addresses and a refused one's nowhere; an accepted read returns them, and 0 past its length; no
command is taken until a MEM_WRITE is closed, from its code byte on. The bytes at the pins make the address and the
length, most significant byte first (R144), and the rows of the verdict and of each data byte. Where a byte is written,
memory is in its canonical form, which every step keeps (`MemoryStaysCanonical`). The row of a verdict continues the
transaction at the pins, with the status byte of its fall of CS_N, and stands for the fall as well where the pins have
begun none of its kind (log 12), what stood there being gone (log 13). -/
def Obligations.MemoryWindow : Prop :=
  (∀ (s : State) (addr : BitVec 24) (len : Word16), s.resetLow = false → s.spi.waitRise = false →
    let range : Prop := len = 0 ∨ 1024 < len.toNat ∨ 131072 < addr.toNat + len.toNat
    let fenced : Prop := ∃ a ∈ fence s, addr.toNat < a.hi ∧ a.lo < addr.toNat + len.toNat
    let opened (v : Verdict) (code : Byte) (k : SpiKind) (i : Instr) : Prop :=
      let p (status : Byte) : LocalPort :=
        { LocalPort.reset with csLow := true, sck := true, sdo := some false, phase := .body, kind := some k, bytes := 6,
                               addr := addr, len := len, verdict := some v,
                               outgoing := [status, 0, 0, 0, 0, 0, code] }
      let begun : Prop :=
        s.spi.phase = .code ∨ (s.spi.phase = .body ∧ s.spi.kind = some k ∧ 1 ≤ s.spi.bytes ∧ s.spi.bytes < 6)
      (∀ x l, begun → s.spi.outgoing = x :: l → exec i s = .next { s with logCopied := none, spi := p x }) ∧
      (¬begun → exec i s = .next { s with logCopied := none, spi := p (statusByte s) })
    (range → opened .range 0xA3 .memWrite (.memWrite addr len)) ∧
    (¬range → fenced → opened .fenced 0xA2 .memWrite (.memWrite addr len)) ∧
    (¬range → ¬fenced → opened .accepted 0xA1 .memWrite (.memWrite addr len)) ∧
    (range → opened .range 0xA3 .memRead (.memRead addr len)) ∧
    (¬range → opened .accepted 0xA1 .memRead (.memRead addr len))) ∧
  (∀ (s : State) (b : Byte), s.spi.kind = some .memWrite →
    let a := s.spi.addr.toNat + s.spi.moved
    let p : LocalPort := { s.spi with bytes := s.spi.bytes + 1, outgoing := s.spi.outgoing ++ [0] }
    (s.mem.wf = true → s.spi.verdict = some .accepted → s.spi.moved < s.spi.len.toNat → a < 131072 →
      ∃ t, exec (.memWriteData b) s = .next t ∧ Memory.read t.mem a = b ∧
        (∀ x, x ≠ a → Memory.read t.mem x = Memory.read s.mem x) ∧
        t = { s with mem := t.mem, spi := { p with moved := s.spi.moved + 1 } }) ∧
    (s.spi.verdict ≠ some .accepted ∨ s.spi.len.toNat ≤ s.spi.moved →
      exec (.memWriteData b) s = .next { s with spi := p })) ∧
  (∀ s : State, s.spi.kind = some .memWrite →
    exec .memWriteClose s = .next { s with spi := LocalPort.reset, logCopied := none } ∧
    (∀ i, i = .startRun ∨ i = .cancelRun ∨ i = .openPort ∨ i = .releaseBank ∨ i = .haltPort ∨ i = .unhaltPort ∨
      i = .closePort ∨ i = .softReset ∨ i = .unknownCommand → exec i s = .next s)) ∧
  (∀ s : State, s.spi.kind = some .memRead →
    let a := s.spi.addr.toNat + s.spi.moved
    (s.spi.verdict = some .accepted → s.spi.moved < s.spi.len.toNat → a < 131072 → exec .memReadData s = .next
      { s with spi := { s.spi with bytes := s.spi.bytes + 1, moved := s.spi.moved + 1,
                                   outgoing := s.spi.outgoing ++ [Memory.read s.mem a] } }) ∧
    (s.spi.verdict ≠ some .accepted ∨ s.spi.len.toNat ≤ s.spi.moved → exec .memReadData s = .next
      { s with spi := { s.spi with bytes := s.spi.bytes + 1, outgoing := s.spi.outgoing ++ [0] } })) ∧
  (∀ (s : State) (b : Byte) (k : SpiKind), s.spi.phase = .body → s.spi.kind = some k → k = .memWrite ∨ k = .memRead →
    let wide : BitVec 24 := s.spi.addr <<< 8 ||| b.setWidth 24
    let long : Word16 := s.spi.len <<< 8 ||| b.setWidth 16
    let brings (c : Instr) : Prop := byteArrives b s = { s with pending := s.pending ++ [c] }
    (s.spi.bytes < 4 → byteArrives b s = { s with spi := { s.spi.counted with addr := wide, verdict := none } }) ∧
    (s.spi.bytes = 4 → byteArrives b s = { s with spi := { s.spi.counted with len := long, verdict := none } }) ∧
    (s.spi.bytes = 5 → brings (if k = .memWrite then .memWrite s.spi.addr long else .memRead s.spi.addr long)) ∧
    (6 ≤ s.spi.bytes → brings (if k = .memWrite then .memWriteData b else .memReadData)))

/-- The bus and the other transactions. The pins (R144 to R146): CS_N's fall captures the status byte and begins a
transaction, whose first bit stands on SDO; SDI is sampled at the rise of SCK, eight bits make a byte, most significant
first, and the next bit stands on SDO after the fall of SCK; CS_N's rise brings the row of the transaction's end; SCK is
ignored while CS_N is high, and the bus while RESET_N is low, or until a CS_N that was low at its release has risen. The
code byte fixes the kind. A COMMAND gathers its record, shifting out 0, and at the rise of CS_N the record joins the
command FIFO or meets a full FIFO and is rejected with FIFO_FULL, and has no effect with fewer than sixteen bytes (R147).
INSPECT changes nothing but the transaction's own state, and its snapshot is laid out as R154 and R179 say (R153). A
code that names no transaction is ignored (R145). Each transaction opens with the status byte captured at its fall of
CS_N; a row where the pins have begun none of its kind stands for the fall as well (log 12), what stood there being gone
(log 13). That the bus is sampled once in each REFCLK period is log 21, and that SDO stays as it is while a CS_N low since the
release of RESET_N is waited out, at the high impedance that the release left, is log 24. -/
def Obligations.OtherTransactions : Prop :=
  (∀ (s : State) (bytes : List Byte), s.resetLow = false → s.spi.waitRise = false →
    let u : State := { s with spi := LocalPort.reset, logCopied := none }
    (bytes.length < 16 → exec (.command bytes) s = .next u) ∧
    (16 ≤ bytes.length → s.commandFifo.length < 8 →
      exec (.command bytes) s = .next { u with commandFifo := s.commandFifo ++ [bytes.take 16] }) ∧
    (16 ≤ bytes.length → 8 ≤ s.commandFifo.length → exec (.command bytes) s =
      .next (post (.cmdRejected (bytes.getD 0 0) (bytes.getD 1 0) .fifoFull) u))) ∧
  (∀ (s : State) (bytes : List Byte),
    (s.resetLow = true → exec (.command bytes) s = .next s) ∧
    (s.resetLow = false → s.spi.waitRise = true →
      exec (.command bytes) s = .next { s with spi := LocalPort.reset, logCopied := none })) ∧
  (∀ (s : State) (target index : Byte), s.resetLow = false → s.spi.waitRise = false →
    let p (status : Byte) : LocalPort :=
      { LocalPort.reset with csLow := true, sck := true, sdo := some false, phase := .body, kind := some .inspect,
                             bytes := 3, target := target, index := index,
                             outgoing := [status, 0, 0] ++ snapshot target index s }
    let begun : Prop :=
      s.spi.phase = .code ∨ (s.spi.phase = .body ∧ s.spi.kind = some .inspect ∧ 1 ≤ s.spi.bytes ∧ s.spi.bytes < 3)
    (∀ x l, begun → s.spi.outgoing = x :: l →
      exec (.inspect target index) s = .next { s with logCopied := none, spi := p x }) ∧
    (¬begun → exec (.inspect target index) s = .next { s with logCopied := none, spi := p (statusByte s) }) ∧
    (4 ≤ target.toNat ∨ ((target = 1 ∨ target = 2) ∧ 8 ≤ index.toNat) ∨ (target = 3 ∧ 16 ≤ index.toNat) →
      snapshot target index s = List.replicate 32 0) ∧
    (target = 0 → (snapshot target index s).head? = some 0x80) ∧
    (target = 1 → index.toNat < 8 → (snapshot target index s).head? = some (0x90 + index)) ∧
    (target = 2 → index.toNat < 8 → (snapshot target index s).head? = some (0xA0 + index)) ∧
    (target = 3 → index.toNat < 16 → (snapshot target index s).head? = some (0xB0 + index))) ∧
  (∀ (s : State) (index : Byte), s.rau.dataQueue.length ≤ 8 →
    let entry (e : DataEntry) : Byte :=
      BitVec.ofNat 8 (128 + 16 * e.slot.val + (e.index - (s.slots[e.slot].map fun r => r.taken).getD 0) % 4)
    let rx : Nat := match s.rx.state with | .down => 0 | .align => 1 | .up => 2
    let tx : Nat := match s.tx.state with | .held | .start => 0 | .run => 16
    snapshot 0 index s =
      [0x80, s.straps.stn.setWidth 8, s.straps.rsz.setWidth 8 + 1, s.straps.tcl.setWidth 8, BitVec.ofNat 8 (rx + tx),
        BitVec.ofNat 8 s.rx.errors] ++
      bigEndian 2 s.rau.passBytes ++ [BitVec.ofNat 8 s.rau.controlQueue.length, BitVec.ofNat 8 s.rau.dataQueue.length] ++
      s.rau.dataQueue.map entry ++ List.replicate (8 - s.rau.dataQueue.length) 0 ++
      [BitVec.ofNat 8 (flagAt 0 s.rau.marking + flagAt 1 s.rau.inHold + flagAt 2 s.rollCall.ringOpen +
        flagAt 3 s.rollCall.silent + flagAt 4 s.rollCall.stamp.isSome)] ++
      bigEndian 2 s.rollCall.number.toNat ++ bigEndian 2 (s.rollCall.stamp.getD 0).toNat ++
      [BitVec.ofNat 8 s.rollCall.misses, BitVec.ofNat 8 s.commandFifo.length, BitVec.ofNat 8 s.log.length] ++
      List.replicate 6 0) ∧
  (∀ (s : State) (index : Byte) (i : Fin 8), index.toNat = i.val →
    (s.slots[i] = none → snapshot 1 index s = (0x90 + index) :: List.replicate 31 0) ∧
    (∀ r, s.slots[i] = some r →
      let state : Byte := match r.phase with | .opening => 1 | .streaming => 2 | .paused => 3 | .closing => 4 | .ending => 5
      let reason : Option Byte := match r.owed with | some (_, x) => x | none => none
      snapshot 1 index s =
        [0x90 + index, state,
          BitVec.ofNat 8 (flagAt 0 r.answer.isSome + flagAt 1 r.probe.isSome + flagAt 2 r.pause.isSome +
            flagAt 3 (beingInserted i s) + flagAt 4 r.owed.isSome + flagAt 5 reason.isSome), r.tag, r.dest, r.port] ++
        bigEndian 3 r.base ++ bigEndian 2 r.size ++ bigEndian 2 r.count ++
        [BitVec.ofNat 8 r.window, BitVec.ofNat 8 (r.granted.getD 0)] ++ bigEndian 2 r.taken ++ bigEndian 2 r.sent ++
        bigEndian 2 r.digestIndex ++ bigEndian 4 r.digest.toNat ++
        [BitVec.ofNat 8 r.attempts, BitVec.ofNat 8 r.timeouts,
          match r.owed with | some (result, _) => result.code | none => 0, reason.getD 0, 0, 0, 0])) ∧
  (∀ (s : State) (index : Byte) (i : Fin 8), index.toNat = i.val →
    (s.ports[i] = none → snapshot 2 index s = (0xA0 + index) :: List.replicate 31 0) ∧
    (∀ p, s.ports[i] = some p →
      let bank (k : Bank) : List Byte :=
        match k.content with
        | .free => bigEndian 2 (k.base / 16 % 8192) ++ [BitVec.ofNat 8 k.capacity, 0, 0, 0, 0]
        | .filling o fill => bigEndian 2 (16384 + k.base / 16 % 8192) ++
          [BitVec.ofNat 8 k.capacity, BitVec.ofNat 8 fill, o.source, o.tag, BitVec.ofNat 8 (o.size / 16)]
        | .full o fill => bigEndian 2 (32768 + k.base / 16 % 8192) ++
          [BitVec.ofNat 8 k.capacity, BitVec.ofNat 8 fill, o.source, o.tag, BitVec.ofNat 8 (o.size / 16)]
      let note : Nat := match p.note with | some n => 8 + flagAt 4 (!n.matched) | none => 0
      let noteSource : Nat := match p.note with | some n => n.source.toNat % 16 | none => 0
      let noteBytes : List Byte := match p.note with | some n => n.tag :: bigEndian 2 n.accepted | none => [0, 0, 0]
      let shows (state current idle bits source : Nat) (bytes : List Byte) : Prop := snapshot 2 index s =
        [0xA0 + index, BitVec.ofNat 8 (state + 4 * current + 16 * (p.maxWindow % 8) + 128 * idle),
          BitVec.ofNat 8 (p.maxSize / 16), BitVec.ofNat 8 (bits + note), BitVec.ofNat 8 (16 * source + noteSource)] ++
        bank p.bankA ++ bank p.bankB ++ bytes ++ noteBytes
      (p.mode = .listening → shows 1 0 0 0 0 (List.replicate 10 0)) ∧
      (p.mode = .halted → shows 3 0 0 0 0 (List.replicate 10 0)) ∧
      (∀ b current idle, p.mode = .bound b current idle →
        shows 2 (match current with | none => 0 | some .a => 1 | some .b => 2) (if idle.isSome then 1 else 0)
          (1 + flagAt 1 b.busyOwed + flagAt 2 b.resumeSent + 32 * (b.granted % 8)) (b.source.toNat % 16)
          ([b.tag, BitVec.ofNat 8 (b.size / 16)] ++ bigEndian 2 b.count ++ bigEndian 2 b.accepted ++
            bigEndian 4 b.digest.toNat)))) ∧
  (∀ (s : State) (index : Byte) (i : Fin 16), index.toNat = i.val →
    let heard := flagAt 0 s.peers[i].heard
    let shows (state misses : Byte) (bits : Nat) (bytes : List Byte) : Prop := snapshot 3 index s =
      [0xB0 + index, state, misses, BitVec.ofNat 8 bits] ++ bytes ++ List.replicate 24 0
    (s.peers[i].state = .absent → shows 0 0 heard [0, 0, 0, 0]) ∧
    (s.peers[i].state = .self → shows 2 0 heard [0, 0, 0, 0]) ∧
    (∀ misses beacon cls size, s.peers[i].state = .present misses beacon cls size →
      shows 1 (BitVec.ofNat 8 misses) (2 + heard) (bigEndian 2 beacon.toNat ++ [cls, size]))) ∧
  (∀ s : State,
    (statusByte s).getLsbD 7 = !s.log.isEmpty ∧ (statusByte s).getLsbD 6 = decide (s.commandFifo.length = 8) ∧
    (statusByte s).getLsbD 5 = s.rollCall.silent ∧ (statusByte s).getLsbD 4 = decide (s.rx.state = .up) ∧
    (statusByte s).getLsbD 3 = s.rollCall.ringOpen ∧ (statusByte s).extractLsb' 0 3 = 0) ∧
  (∀ (s : State) (code : Byte), s.resetLow = false → s.spi.waitRise = false →
    code.toNat < 0xC1 ∨ 0xC5 < code.toNat →
    let p (status : Byte) : LocalPort :=
      { LocalPort.reset with csLow := true, sck := true, sdo := some false, phase := .ignore, bytes := 1,
                             outgoing := [status] }
    (∀ x l, s.spi.phase = .code → s.spi.outgoing = x :: l →
      exec (.transactionIgnored code) s = .next { s with logCopied := none, spi := p x }) ∧
    (s.spi.phase ≠ .code →
      exec (.transactionIgnored code) s = .next { s with logCopied := none, spi := p (statusByte s) })) ∧
  (∀ (s : State) (i : Instr), s.resetLow = true ∨ s.spi.waitRise = true →
    (i = .logRead ∨ (∃ a n, i = .memWrite a n) ∨ (∃ a n, i = .memRead a n) ∨ (∃ a n, i = .inspect a n) ∨
      ∃ c, i = .transactionIgnored c) → exec i s = .next s) ∧
  (∀ (s : State) (l : BusLevels),
    let holds (p : LocalPort) : Prop := busPeriod l s = { s with spi := p }
    let brings (c : Instr) : Prop := busPeriod l s = { s with pending := s.pending ++ [c] }
    (s.resetLow = true → busPeriod l s = s) ∧
    (s.resetLow = false → l.csLow = true → s.spi.csLow = false → holds
      { LocalPort.reset with csLow := true, sck := l.sck, sdo := some ((statusByte s).getLsbD 7), phase := .code,
                             outgoing := [statusByte s] }) ∧
    (s.resetLow = false → l.csLow = false → s.spi.csLow = true →
      (s.spi.kind = some .command → brings (.command s.spi.record)) ∧
      (s.spi.kind = some .memWrite → brings .memWriteClose) ∧
      (s.spi.kind ≠ some .command → s.spi.kind ≠ some .memWrite → brings .transactionEnd)) ∧
    (s.resetLow = false → l.csLow = false → s.spi.csLow = false → holds { s.spi with sck := l.sck }) ∧
    (s.resetLow = false → l.csLow = true → s.spi.csLow = true → s.spi.waitRise = true →
      holds { s.spi with sck := l.sck }) ∧
    (s.resetLow = false → l.csLow = true → s.spi.csLow = true → s.spi.waitRise = false →
      (l.sck = s.spi.sck → busPeriod l s = s) ∧
      (l.sck = true → s.spi.sck = false → s.spi.bits.length < 7 →
        holds { s.spi with sck := true, bits := s.spi.bits ++ [l.sdi] }) ∧
      (∀ b7 b6 b5 b4 b3 b2 b1 : Bool, l.sck = true → s.spi.sck = false → s.spi.bits = [b7, b6, b5, b4, b3, b2, b1] →
        ∃ b : Byte, b.getLsbD 7 = b7 ∧ b.getLsbD 6 = b6 ∧ b.getLsbD 5 = b5 ∧ b.getLsbD 4 = b4 ∧ b.getLsbD 3 = b3 ∧
          b.getLsbD 2 = b2 ∧ b.getLsbD 1 = b1 ∧ b.getLsbD 0 = l.sdi ∧
          busPeriod l s = byteArrives b { s with spi := { s.spi with sck := true, bits := [] } }) ∧
      (l.sck = false → s.spi.sck = true → s.spi.bits.length < 8 → holds
        { s.spi with sck := false,
                     sdo := some ((s.spi.outgoing.getD s.spi.bytes 0).getLsbD (7 - s.spi.bits.length)) }))) ∧
  (∀ (s : State) (b : Byte),
    let counted : LocalPort :=
      { s.spi with bytes := s.spi.bytes + 1,
                   outgoing := s.spi.outgoing ++ List.replicate (s.spi.bytes + 2 - s.spi.outgoing.length) 0 }
    let goesOn (k : SpiKind) : Prop :=
      byteArrives b s = { s with spi := { counted with phase := .body, kind := some k } }
    let brings (c : Instr) : Prop := byteArrives b s = { s with pending := s.pending ++ [c] }
    s.spi.counted = counted ∧
    (s.spi.phase = .code →
      (b = 0xC1 → goesOn .command) ∧ (b = 0xC2 → brings .logRead) ∧ (b = 0xC3 → goesOn .memWrite) ∧
      (b = 0xC4 → goesOn .memRead) ∧ (b = 0xC5 → goesOn .inspect) ∧
      (b.toNat < 0xC1 ∨ 0xC5 < b.toNat → brings (.transactionIgnored b))) ∧
    (s.spi.phase = .ignore → byteArrives b s = { s with spi := counted }) ∧
    (s.spi.phase = .body → s.spi.kind = some .command →
      (s.spi.record.length < 16 → byteArrives b s = { s with spi := { counted with record := s.spi.record ++ [b] } }) ∧
      (16 ≤ s.spi.record.length → byteArrives b s = { s with spi := counted })) ∧
    (s.spi.phase = .body → s.spi.kind = some .inspect →
      (s.spi.bytes = 1 → byteArrives b s = { s with spi := { counted with target := b } }) ∧
      (s.spi.bytes = 2 → brings (.inspect s.spi.target b)) ∧
      (3 ≤ s.spi.bytes → byteArrives b s = { s with spi := counted })))

/-! ### Shared operations -/

/-- A posting (R165 to R167): with a LOG_OVERFLOW present its lost count goes up to 255 at most and the record is
discarded; with 31 records LOG_OVERFLOW of one lost record takes the record's place; with fewer it is appended. An offer
to the control queue (R106, R117): appended at the tail where fewer than sixteen frames are held and the station is not
SILENT, refused otherwise; nothing else changes. -/
def Obligations.PostingsAndOffers : Prop :=
  (∀ (l : List Record) (r : Record),
    (∀ front n, l = front ++ [.logOverflow n] →
      postTo l r = front ++ [.logOverflow (if n < 255 then n + 1 else n)]) ∧
    ((∀ x ∈ l, x.isOverflow = false) → l.length = 31 → postTo l r = l ++ [.logOverflow 1]) ∧
    ((∀ x ∈ l, x.isOverflow = false) → l.length < 31 → postTo l r = l ++ [r])) ∧
  (∀ (f : OwnFrame) (s : State),
    (s.rollCall.silent = false → s.rau.controlQueue.length < 16 → canOffer s = true ∧
      offer f s = { s with rau := { s.rau with controlQueue := s.rau.controlQueue ++ [f] } }) ∧
    (s.rollCall.silent = true ∨ 16 ≤ s.rau.controlQueue.length → canOffer s = false ∧ offer f s = s))

/-! ### Frames: what a command leaves as it is -/

/-- Memory: only a symbol in UP, a MEM_WRITE_DATA and RESET_N_ASSERTED change a byte. A symbol in UP writes at most the
next byte of an expected BLOCK in reception, and a MEM_WRITE_DATA at most the next byte of its window. -/
def Obligations.MemoryFrame : Prop :=
  ∀ (i : Instr) (s t : State), exec i s = .next t →
    ((∀ sym, i ≠ .symbolInUp sym) → (∀ b, i ≠ .memWriteData b) → i ≠ .resetNAsserted →
      ∀ a, Memory.read t.mem a = Memory.read s.mem a) ∧
    (∀ b, i = .memWriteData b → ∀ a, a ≠ s.spi.addr.toNat + s.spi.moved → Memory.read t.mem a = Memory.read s.mem a) ∧
    (∀ sym, i = .symbolInUp sym → ∀ a,
      (∀ q w, (settle s).rau.reception = some q → q.decision = some (.strip (.block (.expected w))) →
        a ≠ w.target + w.written) →
      Memory.read t.mem a = Memory.read s.mem a)

/-- The engines: a frame or a timer of the Run Engine changes no other slot than its own, and no port; one of the Port
Engine changes no other port, and no slot; and neither touches the link, the pass FIFO, the frame in reception, the
output, the yield hold, the Peer Table, the Roll Call Unit, the command FIFO, the Local Port, the tag counter or the
round-robin pointer. -/
def Obligations.EngineFrames : Prop :=
  ∀ (i : Instr) (s t : State), exec i s = .next t →
    let kept : Prop := t.straps = s.straps ∧ t.refclk = s.refclk ∧ t.rx = s.rx ∧ t.tx = s.tx ∧ t.ringOut = s.ringOut ∧
      t.rau.passFifo = s.rau.passFifo ∧ t.rau.reception = s.rau.reception ∧ t.rau.output = s.rau.output ∧
      t.rau.gap = s.rau.gap ∧ t.rau.inHold = s.rau.inHold ∧ t.rau.holdTimer = s.rau.holdTimer ∧ t.peers = s.peers ∧
      t.rollCall = s.rollCall ∧ t.mem = s.mem ∧ t.commandFifo = s.commandFifo ∧ t.spi = s.spi ∧
      t.logCopied = s.logCopied ∧ t.tagCounter = s.tagCounter ∧ t.rrPointer = s.rrPointer
    (i = .grantFrame ∨ i = .refuseFrame ∨ i = .takenFrame ∨ i = .resumeFrame ∨ i = .busyFrame ∨ i = .haltedFrame ∨
      i = .closedFrame → kept ∧ t.ports = s.ports ∧
      ∀ k h p, s.rau.handover = some (.frame k h p) →
        ∀ j : Fin 8, (∀ r, findRun h.src h.port h.tag s ≠ some (j, r)) → t.slots[j] = s.slots[j]) ∧
    (i = .returnedFrame → kept ∧ t.ports = s.ports ∧
      ∀ h, s.rau.handover = some (.returned h) →
        ∀ j : Fin 8, (∀ r, findRun h.dest h.port h.tag s ≠ some (j, r)) → t.slots[j] = s.slots[j]) ∧
    (∀ n, i = .answerExpiryOpening n ∨ i = .answerExpiryStreaming n ∨ i = .answerExpiryClosing n ∨
        i = .probeTimerExpiry n ∨ i = .pauseTimerExpiry n →
      kept ∧ t.ports = s.ports ∧ ∀ j : Fin 8, j ≠ n → t.slots[j] = s.slots[j]) ∧
    (i = .openFrame ∨ i = .finishFrame ∨ i = .cancelFrame → kept ∧ t.slots = s.slots ∧
      t.rau.dataQueue = s.rau.dataQueue ∧ t.rau.threshold = s.rau.threshold ∧ t.rau.marking = s.rau.marking ∧
      ∀ k h p, s.rau.handover = some (.frame k h p) →
        ∀ j : Fin 8, j.val ≠ h.port.toNat → t.ports[j] = s.ports[j]) ∧
    (i = .blockFrame → kept ∧ t.slots = s.slots ∧ t.rau.dataQueue = s.rau.dataQueue ∧
      ∀ h c e, s.rau.handover = some (.block h c e) → ∀ j : Fin 8, j.val ≠ h.port.toNat → t.ports[j] = s.ports[j]) ∧
    (∀ n, i = .idleTimerExpiry n → kept ∧ t.slots = s.slots ∧ t.rau = s.rau ∧
      ∀ j : Fin 8, j ≠ n → t.ports[j] = s.ports[j])

/-- The Local Port and the rest of the part: a transaction's rows change the transaction, and the command FIFO, the log
or memory where their rules say so, and nothing else; a period of the bus changes the transaction and the queue alone;
what the Command Unit takes leaves the link, the pass FIFO, the frame in reception, the output, the Peer Table, the Roll
Call Unit, memory and the Local Port as they are. -/
def Obligations.LocalFrames : Prop :=
  (∀ (l : BusLevels) (s : State), ∃ p q, busPeriod l s = { s with spi := p, pending := q }) ∧
  ∀ (i : Instr) (s t : State), exec i s = .next t →
    ((∃ bytes, i = .command bytes) →
      t = { s with spi := t.spi, logCopied := t.logCopied, commandFifo := t.commandFifo, log := t.log }) ∧
    (i = .logReadDone → t = { s with spi := t.spi, logCopied := t.logCopied, log := t.log }) ∧
    ((∃ b, i = .memWriteData b) → t = { s with spi := t.spi, mem := t.mem }) ∧
    (i = .logRead ∨ (∃ a n, i = .memWrite a n) ∨ i = .memWriteClose ∨ (∃ a n, i = .memRead a n) ∨ i = .memReadData ∨
        (∃ a n, i = .inspect a n) ∨ (∃ c, i = .transactionIgnored c) ∨ i = .transactionEnd →
      t = { s with spi := t.spi, logCopied := t.logCopied }) ∧
    (i = .startRun ∨ i = .cancelRun ∨ i = .openPort ∨ i = .releaseBank ∨ i = .haltPort ∨ i = .unhaltPort ∨
        i = .closePort ∨ i = .softReset ∨ i = .unknownCommand →
      t = { s with commandFifo := t.commandFifo, log := t.log, logCopied := t.logCopied, slots := t.slots,
                   ports := t.ports, tagCounter := t.tagCounter, rrPointer := t.rrPointer,
                   rau := { s.rau with controlQueue := t.rau.controlQueue, dataQueue := t.rau.dataQueue,
                                       threshold := t.rau.threshold, marking := t.rau.marking } })

/-! ### Invariants of every step -/

/-- Every step keeps memory in its canonical form: addresses strictly rising within the memory, and no zero byte
listed. -/
def Obligations.MemoryStaysCanonical : Prop :=
  ∀ s t : State, s.mem.wf = true → step s = .next t → t.mem.wf = true

/-- Every step keeps the log within R166: at most 32 records, a LOG_OVERFLOW only as the newest, with a lost count of 1
to 255. -/
def Obligations.LogStaysInOrder : Prop := ∀ s t : State, LogOk s.log → step s = .next t → LogOk t.log

/-- Every step keeps every queue and FIFO within its capacity. -/
def Obligations.QueuesStayWithinCapacity : Prop := ∀ s t : State, QueuesOk s → step s = .next t → QueuesOk t

/-- Every step keeps the Link Receiver's counts in the ranges of R133 and a frame in reception in UP only. -/
def Obligations.ReceiverStaysInRange : Prop := ∀ s t : State, ReceiverOk s → step s = .next t → ReceiverOk t

/-- Every step keeps every slot's fields in the ranges of R16, a slot in ENDING only while its BLOCK is being inserted,
and the data queue as R108 states it. -/
def Obligations.RunTableStaysInOrder : Prop := ∀ s t : State, RunsOk s → step s = .next t → RunsOk t

/-- No byte of block memory lies both in a FREE or FILLING bank of a port that is not CLOSED and in the source region of
a slot that is not FREE (R93), and the bank regions of open ports never overlap (R91): every step keeps it. -/
def Obligations.RegionsStayApart : Prop :=
  ∀ s t : State, RegionsOk s → step s = .next t → RegionsOk t

/-- Every step of a SILENT station keeps both its queues empty, its slots FREE or ENDING and its ports unbound, and only
a hardware reset clears the silent flag. -/
def Obligations.SilentStaysQuiet : Prop :=
  (∀ s t : State, RunsOk s → SilentOk s → step s = .next t → SilentOk t) ∧
  (∀ (i : Instr) (s t : State), s.rollCall.silent = true → i ≠ .resetNAsserted → exec i s = .next t →
    t.rollCall.silent = true)

/-- Every step from a state in order completes and leaves the part in order: no access of a rule ever leaves the memory
(the model's one fault, log 7), and no command is refused. -/
def Obligations.EveryStepCompletes : Prop := ∀ s : State, Safe s → ∃ t, step s = .next t ∧ Safe t

/-- The invariants hold right after a hardware reset. -/
def Obligations.ResetStateIsInOrder : Prop :=
  State.reset.mem.wf = true ∧ LogOk State.reset.log ∧ QueuesOk State.reset ∧ ReceiverOk State.reset ∧
    RunsOk State.reset ∧ RegionsOk State.reset ∧ SilentOk State.reset ∧ AccessOk State.reset
end

