-- ==== Sys2Proof/Laws/State.lean ====
section
/-! SUPPORT. One lemma per field per update of the state, true by rfl: a proof rewrites with these instead of
unfolding a record update. -/

namespace Sys2Proof.Machine

open Sys2Proof

@[simp] theorem setSlot_pending (i : Fin 8) (r : Slot) (s : State) : (setSlot i r s).pending = s.pending := rfl
@[simp] theorem setSlot_resetLow (i : Fin 8) (r : Slot) (s : State) : (setSlot i r s).resetLow = s.resetLow := rfl
@[simp] theorem setSlot_straps (i : Fin 8) (r : Slot) (s : State) : (setSlot i r s).straps = s.straps := rfl
@[simp] theorem setSlot_refclk (i : Fin 8) (r : Slot) (s : State) : (setSlot i r s).refclk = s.refclk := rfl
@[simp] theorem setSlot_rx (i : Fin 8) (r : Slot) (s : State) : (setSlot i r s).rx = s.rx := rfl
@[simp] theorem setSlot_tx (i : Fin 8) (r : Slot) (s : State) : (setSlot i r s).tx = s.tx := rfl
@[simp] theorem setSlot_ringOut (i : Fin 8) (r : Slot) (s : State) : (setSlot i r s).ringOut = s.ringOut := rfl
@[simp] theorem setSlot_rau (i : Fin 8) (r : Slot) (s : State) : (setSlot i r s).rau = s.rau := rfl
@[simp] theorem setSlot_slots (i : Fin 8) (r : Slot) (s : State) : (setSlot i r s).slots = s.slots.set i r := rfl
@[simp] theorem setSlot_tagCounter (i : Fin 8) (r : Slot) (s : State) : (setSlot i r s).tagCounter = s.tagCounter := rfl
@[simp] theorem setSlot_rrPointer (i : Fin 8) (r : Slot) (s : State) : (setSlot i r s).rrPointer = s.rrPointer := rfl
@[simp] theorem setSlot_ports (i : Fin 8) (r : Slot) (s : State) : (setSlot i r s).ports = s.ports := rfl
@[simp] theorem setSlot_peers (i : Fin 8) (r : Slot) (s : State) : (setSlot i r s).peers = s.peers := rfl
@[simp] theorem setSlot_rollCall (i : Fin 8) (r : Slot) (s : State) : (setSlot i r s).rollCall = s.rollCall := rfl
@[simp] theorem setSlot_mem (i : Fin 8) (r : Slot) (s : State) : (setSlot i r s).mem = s.mem := rfl
@[simp] theorem setSlot_commandFifo (i : Fin 8) (r : Slot) (s : State) : (setSlot i r s).commandFifo = s.commandFifo := rfl
@[simp] theorem setSlot_log (i : Fin 8) (r : Slot) (s : State) : (setSlot i r s).log = s.log := rfl
@[simp] theorem setSlot_logCopied (i : Fin 8) (r : Slot) (s : State) : (setSlot i r s).logCopied = s.logCopied := rfl
@[simp] theorem setSlot_spi (i : Fin 8) (r : Slot) (s : State) : (setSlot i r s).spi = s.spi := rfl
@[simp] theorem setSlot_drive (i : Fin 8) (r : Slot) (s : State) : (setSlot i r s).drive = s.drive := rfl
@[simp] theorem setSlot_freeNext (i : Fin 8) (r : Slot) (s : State) : (setSlot i r s).freeNext = s.freeNext := rfl

@[simp] theorem setPort_pending (i : Fin 8) (p : Port) (s : State) : (setPort i p s).pending = s.pending := rfl
@[simp] theorem setPort_resetLow (i : Fin 8) (p : Port) (s : State) : (setPort i p s).resetLow = s.resetLow := rfl
@[simp] theorem setPort_straps (i : Fin 8) (p : Port) (s : State) : (setPort i p s).straps = s.straps := rfl
@[simp] theorem setPort_refclk (i : Fin 8) (p : Port) (s : State) : (setPort i p s).refclk = s.refclk := rfl
@[simp] theorem setPort_rx (i : Fin 8) (p : Port) (s : State) : (setPort i p s).rx = s.rx := rfl
@[simp] theorem setPort_tx (i : Fin 8) (p : Port) (s : State) : (setPort i p s).tx = s.tx := rfl
@[simp] theorem setPort_ringOut (i : Fin 8) (p : Port) (s : State) : (setPort i p s).ringOut = s.ringOut := rfl
@[simp] theorem setPort_rau (i : Fin 8) (p : Port) (s : State) : (setPort i p s).rau = s.rau := rfl
@[simp] theorem setPort_slots (i : Fin 8) (p : Port) (s : State) : (setPort i p s).slots = s.slots := rfl
@[simp] theorem setPort_tagCounter (i : Fin 8) (p : Port) (s : State) : (setPort i p s).tagCounter = s.tagCounter := rfl
@[simp] theorem setPort_rrPointer (i : Fin 8) (p : Port) (s : State) : (setPort i p s).rrPointer = s.rrPointer := rfl
@[simp] theorem setPort_ports (i : Fin 8) (p : Port) (s : State) : (setPort i p s).ports = s.ports.set i p := rfl
@[simp] theorem setPort_peers (i : Fin 8) (p : Port) (s : State) : (setPort i p s).peers = s.peers := rfl
@[simp] theorem setPort_rollCall (i : Fin 8) (p : Port) (s : State) : (setPort i p s).rollCall = s.rollCall := rfl
@[simp] theorem setPort_mem (i : Fin 8) (p : Port) (s : State) : (setPort i p s).mem = s.mem := rfl
@[simp] theorem setPort_commandFifo (i : Fin 8) (p : Port) (s : State) : (setPort i p s).commandFifo = s.commandFifo := rfl
@[simp] theorem setPort_log (i : Fin 8) (p : Port) (s : State) : (setPort i p s).log = s.log := rfl
@[simp] theorem setPort_logCopied (i : Fin 8) (p : Port) (s : State) : (setPort i p s).logCopied = s.logCopied := rfl
@[simp] theorem setPort_spi (i : Fin 8) (p : Port) (s : State) : (setPort i p s).spi = s.spi := rfl
@[simp] theorem setPort_drive (i : Fin 8) (p : Port) (s : State) : (setPort i p s).drive = s.drive := rfl
@[simp] theorem setPort_freeNext (i : Fin 8) (p : Port) (s : State) : (setPort i p s).freeNext = s.freeNext := rfl

@[simp] theorem setPeer_pending (i : Fin 16) (p : Peer) (s : State) : (setPeer i p s).pending = s.pending := rfl
@[simp] theorem setPeer_resetLow (i : Fin 16) (p : Peer) (s : State) : (setPeer i p s).resetLow = s.resetLow := rfl
@[simp] theorem setPeer_straps (i : Fin 16) (p : Peer) (s : State) : (setPeer i p s).straps = s.straps := rfl
@[simp] theorem setPeer_refclk (i : Fin 16) (p : Peer) (s : State) : (setPeer i p s).refclk = s.refclk := rfl
@[simp] theorem setPeer_rx (i : Fin 16) (p : Peer) (s : State) : (setPeer i p s).rx = s.rx := rfl
@[simp] theorem setPeer_tx (i : Fin 16) (p : Peer) (s : State) : (setPeer i p s).tx = s.tx := rfl
@[simp] theorem setPeer_ringOut (i : Fin 16) (p : Peer) (s : State) : (setPeer i p s).ringOut = s.ringOut := rfl
@[simp] theorem setPeer_rau (i : Fin 16) (p : Peer) (s : State) : (setPeer i p s).rau = s.rau := rfl
@[simp] theorem setPeer_slots (i : Fin 16) (p : Peer) (s : State) : (setPeer i p s).slots = s.slots := rfl
@[simp] theorem setPeer_tagCounter (i : Fin 16) (p : Peer) (s : State) : (setPeer i p s).tagCounter = s.tagCounter := rfl
@[simp] theorem setPeer_rrPointer (i : Fin 16) (p : Peer) (s : State) : (setPeer i p s).rrPointer = s.rrPointer := rfl
@[simp] theorem setPeer_ports (i : Fin 16) (p : Peer) (s : State) : (setPeer i p s).ports = s.ports := rfl
@[simp] theorem setPeer_peers (i : Fin 16) (p : Peer) (s : State) : (setPeer i p s).peers = s.peers.set i p := rfl
@[simp] theorem setPeer_rollCall (i : Fin 16) (p : Peer) (s : State) : (setPeer i p s).rollCall = s.rollCall := rfl
@[simp] theorem setPeer_mem (i : Fin 16) (p : Peer) (s : State) : (setPeer i p s).mem = s.mem := rfl
@[simp] theorem setPeer_commandFifo (i : Fin 16) (p : Peer) (s : State) : (setPeer i p s).commandFifo = s.commandFifo := rfl
@[simp] theorem setPeer_log (i : Fin 16) (p : Peer) (s : State) : (setPeer i p s).log = s.log := rfl
@[simp] theorem setPeer_logCopied (i : Fin 16) (p : Peer) (s : State) : (setPeer i p s).logCopied = s.logCopied := rfl
@[simp] theorem setPeer_spi (i : Fin 16) (p : Peer) (s : State) : (setPeer i p s).spi = s.spi := rfl
@[simp] theorem setPeer_drive (i : Fin 16) (p : Peer) (s : State) : (setPeer i p s).drive = s.drive := rfl
@[simp] theorem setPeer_freeNext (i : Fin 16) (p : Peer) (s : State) : (setPeer i p s).freeNext = s.freeNext := rfl

@[simp] theorem setRau_pending (r : Rau) (s : State) : (setRau r s).pending = s.pending := rfl
@[simp] theorem setRau_resetLow (r : Rau) (s : State) : (setRau r s).resetLow = s.resetLow := rfl
@[simp] theorem setRau_straps (r : Rau) (s : State) : (setRau r s).straps = s.straps := rfl
@[simp] theorem setRau_refclk (r : Rau) (s : State) : (setRau r s).refclk = s.refclk := rfl
@[simp] theorem setRau_rx (r : Rau) (s : State) : (setRau r s).rx = s.rx := rfl
@[simp] theorem setRau_tx (r : Rau) (s : State) : (setRau r s).tx = s.tx := rfl
@[simp] theorem setRau_ringOut (r : Rau) (s : State) : (setRau r s).ringOut = s.ringOut := rfl
@[simp] theorem setRau_rau (r : Rau) (s : State) : (setRau r s).rau = r := rfl
@[simp] theorem setRau_slots (r : Rau) (s : State) : (setRau r s).slots = s.slots := rfl
@[simp] theorem setRau_tagCounter (r : Rau) (s : State) : (setRau r s).tagCounter = s.tagCounter := rfl
@[simp] theorem setRau_rrPointer (r : Rau) (s : State) : (setRau r s).rrPointer = s.rrPointer := rfl
@[simp] theorem setRau_ports (r : Rau) (s : State) : (setRau r s).ports = s.ports := rfl
@[simp] theorem setRau_peers (r : Rau) (s : State) : (setRau r s).peers = s.peers := rfl
@[simp] theorem setRau_rollCall (r : Rau) (s : State) : (setRau r s).rollCall = s.rollCall := rfl
@[simp] theorem setRau_mem (r : Rau) (s : State) : (setRau r s).mem = s.mem := rfl
@[simp] theorem setRau_commandFifo (r : Rau) (s : State) : (setRau r s).commandFifo = s.commandFifo := rfl
@[simp] theorem setRau_log (r : Rau) (s : State) : (setRau r s).log = s.log := rfl
@[simp] theorem setRau_logCopied (r : Rau) (s : State) : (setRau r s).logCopied = s.logCopied := rfl
@[simp] theorem setRau_spi (r : Rau) (s : State) : (setRau r s).spi = s.spi := rfl
@[simp] theorem setRau_drive (r : Rau) (s : State) : (setRau r s).drive = s.drive := rfl
@[simp] theorem setRau_freeNext (r : Rau) (s : State) : (setRau r s).freeNext = s.freeNext := rfl

@[simp] theorem setRollCall_pending (r : RollCall) (s : State) : (setRollCall r s).pending = s.pending := rfl
@[simp] theorem setRollCall_resetLow (r : RollCall) (s : State) : (setRollCall r s).resetLow = s.resetLow := rfl
@[simp] theorem setRollCall_straps (r : RollCall) (s : State) : (setRollCall r s).straps = s.straps := rfl
@[simp] theorem setRollCall_refclk (r : RollCall) (s : State) : (setRollCall r s).refclk = s.refclk := rfl
@[simp] theorem setRollCall_rx (r : RollCall) (s : State) : (setRollCall r s).rx = s.rx := rfl
@[simp] theorem setRollCall_tx (r : RollCall) (s : State) : (setRollCall r s).tx = s.tx := rfl
@[simp] theorem setRollCall_ringOut (r : RollCall) (s : State) : (setRollCall r s).ringOut = s.ringOut := rfl
@[simp] theorem setRollCall_rau (r : RollCall) (s : State) : (setRollCall r s).rau = s.rau := rfl
@[simp] theorem setRollCall_slots (r : RollCall) (s : State) : (setRollCall r s).slots = s.slots := rfl
@[simp] theorem setRollCall_tagCounter (r : RollCall) (s : State) : (setRollCall r s).tagCounter = s.tagCounter := rfl
@[simp] theorem setRollCall_rrPointer (r : RollCall) (s : State) : (setRollCall r s).rrPointer = s.rrPointer := rfl
@[simp] theorem setRollCall_ports (r : RollCall) (s : State) : (setRollCall r s).ports = s.ports := rfl
@[simp] theorem setRollCall_peers (r : RollCall) (s : State) : (setRollCall r s).peers = s.peers := rfl
@[simp] theorem setRollCall_rollCall (r : RollCall) (s : State) : (setRollCall r s).rollCall = r := rfl
@[simp] theorem setRollCall_mem (r : RollCall) (s : State) : (setRollCall r s).mem = s.mem := rfl
@[simp] theorem setRollCall_commandFifo (r : RollCall) (s : State) : (setRollCall r s).commandFifo = s.commandFifo := rfl
@[simp] theorem setRollCall_log (r : RollCall) (s : State) : (setRollCall r s).log = s.log := rfl
@[simp] theorem setRollCall_logCopied (r : RollCall) (s : State) : (setRollCall r s).logCopied = s.logCopied := rfl
@[simp] theorem setRollCall_spi (r : RollCall) (s : State) : (setRollCall r s).spi = s.spi := rfl
@[simp] theorem setRollCall_drive (r : RollCall) (s : State) : (setRollCall r s).drive = s.drive := rfl
@[simp] theorem setRollCall_freeNext (r : RollCall) (s : State) : (setRollCall r s).freeNext = s.freeNext := rfl

@[simp] theorem setRx_pending (r : Receiver) (s : State) : (setRx r s).pending = s.pending := rfl
@[simp] theorem setRx_resetLow (r : Receiver) (s : State) : (setRx r s).resetLow = s.resetLow := rfl
@[simp] theorem setRx_straps (r : Receiver) (s : State) : (setRx r s).straps = s.straps := rfl
@[simp] theorem setRx_refclk (r : Receiver) (s : State) : (setRx r s).refclk = s.refclk := rfl
@[simp] theorem setRx_rx (r : Receiver) (s : State) : (setRx r s).rx = r := rfl
@[simp] theorem setRx_tx (r : Receiver) (s : State) : (setRx r s).tx = s.tx := rfl
@[simp] theorem setRx_ringOut (r : Receiver) (s : State) : (setRx r s).ringOut = s.ringOut := rfl
@[simp] theorem setRx_rau (r : Receiver) (s : State) : (setRx r s).rau = s.rau := rfl
@[simp] theorem setRx_slots (r : Receiver) (s : State) : (setRx r s).slots = s.slots := rfl
@[simp] theorem setRx_tagCounter (r : Receiver) (s : State) : (setRx r s).tagCounter = s.tagCounter := rfl
@[simp] theorem setRx_rrPointer (r : Receiver) (s : State) : (setRx r s).rrPointer = s.rrPointer := rfl
@[simp] theorem setRx_ports (r : Receiver) (s : State) : (setRx r s).ports = s.ports := rfl
@[simp] theorem setRx_peers (r : Receiver) (s : State) : (setRx r s).peers = s.peers := rfl
@[simp] theorem setRx_rollCall (r : Receiver) (s : State) : (setRx r s).rollCall = s.rollCall := rfl
@[simp] theorem setRx_mem (r : Receiver) (s : State) : (setRx r s).mem = s.mem := rfl
@[simp] theorem setRx_commandFifo (r : Receiver) (s : State) : (setRx r s).commandFifo = s.commandFifo := rfl
@[simp] theorem setRx_log (r : Receiver) (s : State) : (setRx r s).log = s.log := rfl
@[simp] theorem setRx_logCopied (r : Receiver) (s : State) : (setRx r s).logCopied = s.logCopied := rfl
@[simp] theorem setRx_spi (r : Receiver) (s : State) : (setRx r s).spi = s.spi := rfl
@[simp] theorem setRx_drive (r : Receiver) (s : State) : (setRx r s).drive = s.drive := rfl
@[simp] theorem setRx_freeNext (r : Receiver) (s : State) : (setRx r s).freeNext = s.freeNext := rfl

@[simp] theorem setSpi_pending (p : LocalPort) (s : State) : (setSpi p s).pending = s.pending := rfl
@[simp] theorem setSpi_resetLow (p : LocalPort) (s : State) : (setSpi p s).resetLow = s.resetLow := rfl
@[simp] theorem setSpi_straps (p : LocalPort) (s : State) : (setSpi p s).straps = s.straps := rfl
@[simp] theorem setSpi_refclk (p : LocalPort) (s : State) : (setSpi p s).refclk = s.refclk := rfl
@[simp] theorem setSpi_rx (p : LocalPort) (s : State) : (setSpi p s).rx = s.rx := rfl
@[simp] theorem setSpi_tx (p : LocalPort) (s : State) : (setSpi p s).tx = s.tx := rfl
@[simp] theorem setSpi_ringOut (p : LocalPort) (s : State) : (setSpi p s).ringOut = s.ringOut := rfl
@[simp] theorem setSpi_rau (p : LocalPort) (s : State) : (setSpi p s).rau = s.rau := rfl
@[simp] theorem setSpi_slots (p : LocalPort) (s : State) : (setSpi p s).slots = s.slots := rfl
@[simp] theorem setSpi_tagCounter (p : LocalPort) (s : State) : (setSpi p s).tagCounter = s.tagCounter := rfl
@[simp] theorem setSpi_rrPointer (p : LocalPort) (s : State) : (setSpi p s).rrPointer = s.rrPointer := rfl
@[simp] theorem setSpi_ports (p : LocalPort) (s : State) : (setSpi p s).ports = s.ports := rfl
@[simp] theorem setSpi_peers (p : LocalPort) (s : State) : (setSpi p s).peers = s.peers := rfl
@[simp] theorem setSpi_rollCall (p : LocalPort) (s : State) : (setSpi p s).rollCall = s.rollCall := rfl
@[simp] theorem setSpi_mem (p : LocalPort) (s : State) : (setSpi p s).mem = s.mem := rfl
@[simp] theorem setSpi_commandFifo (p : LocalPort) (s : State) : (setSpi p s).commandFifo = s.commandFifo := rfl
@[simp] theorem setSpi_log (p : LocalPort) (s : State) : (setSpi p s).log = s.log := rfl
@[simp] theorem setSpi_logCopied (p : LocalPort) (s : State) : (setSpi p s).logCopied = s.logCopied := rfl
@[simp] theorem setSpi_spi (p : LocalPort) (s : State) : (setSpi p s).spi = p := rfl
@[simp] theorem setSpi_drive (p : LocalPort) (s : State) : (setSpi p s).drive = s.drive := rfl
@[simp] theorem setSpi_freeNext (p : LocalPort) (s : State) : (setSpi p s).freeNext = s.freeNext := rfl

@[simp] theorem post_pending (r : Record) (s : State) : (post r s).pending = s.pending := rfl
@[simp] theorem post_resetLow (r : Record) (s : State) : (post r s).resetLow = s.resetLow := rfl
@[simp] theorem post_straps (r : Record) (s : State) : (post r s).straps = s.straps := rfl
@[simp] theorem post_refclk (r : Record) (s : State) : (post r s).refclk = s.refclk := rfl
@[simp] theorem post_rx (r : Record) (s : State) : (post r s).rx = s.rx := rfl
@[simp] theorem post_tx (r : Record) (s : State) : (post r s).tx = s.tx := rfl
@[simp] theorem post_ringOut (r : Record) (s : State) : (post r s).ringOut = s.ringOut := rfl
@[simp] theorem post_rau (r : Record) (s : State) : (post r s).rau = s.rau := rfl
@[simp] theorem post_slots (r : Record) (s : State) : (post r s).slots = s.slots := rfl
@[simp] theorem post_tagCounter (r : Record) (s : State) : (post r s).tagCounter = s.tagCounter := rfl
@[simp] theorem post_rrPointer (r : Record) (s : State) : (post r s).rrPointer = s.rrPointer := rfl
@[simp] theorem post_ports (r : Record) (s : State) : (post r s).ports = s.ports := rfl
@[simp] theorem post_peers (r : Record) (s : State) : (post r s).peers = s.peers := rfl
@[simp] theorem post_rollCall (r : Record) (s : State) : (post r s).rollCall = s.rollCall := rfl
@[simp] theorem post_mem (r : Record) (s : State) : (post r s).mem = s.mem := rfl
@[simp] theorem post_commandFifo (r : Record) (s : State) : (post r s).commandFifo = s.commandFifo := rfl
@[simp] theorem post_log (r : Record) (s : State) : (post r s).log = postTo s.log r := rfl
@[simp] theorem post_logCopied (r : Record) (s : State) : (post r s).logCopied = s.logCopied := rfl
@[simp] theorem post_spi (r : Record) (s : State) : (post r s).spi = s.spi := rfl
@[simp] theorem post_drive (r : Record) (s : State) : (post r s).drive = s.drive := rfl
@[simp] theorem post_freeNext (r : Record) (s : State) : (post r s).freeNext = s.freeNext := rfl

@[simp] theorem postAll_pending (rs : List Record) (s : State) : (postAll rs s).pending = s.pending := rfl
@[simp] theorem postAll_resetLow (rs : List Record) (s : State) : (postAll rs s).resetLow = s.resetLow := rfl
@[simp] theorem postAll_straps (rs : List Record) (s : State) : (postAll rs s).straps = s.straps := rfl
@[simp] theorem postAll_refclk (rs : List Record) (s : State) : (postAll rs s).refclk = s.refclk := rfl
@[simp] theorem postAll_rx (rs : List Record) (s : State) : (postAll rs s).rx = s.rx := rfl
@[simp] theorem postAll_tx (rs : List Record) (s : State) : (postAll rs s).tx = s.tx := rfl
@[simp] theorem postAll_ringOut (rs : List Record) (s : State) : (postAll rs s).ringOut = s.ringOut := rfl
@[simp] theorem postAll_rau (rs : List Record) (s : State) : (postAll rs s).rau = s.rau := rfl
@[simp] theorem postAll_slots (rs : List Record) (s : State) : (postAll rs s).slots = s.slots := rfl
@[simp] theorem postAll_tagCounter (rs : List Record) (s : State) : (postAll rs s).tagCounter = s.tagCounter := rfl
@[simp] theorem postAll_rrPointer (rs : List Record) (s : State) : (postAll rs s).rrPointer = s.rrPointer := rfl
@[simp] theorem postAll_ports (rs : List Record) (s : State) : (postAll rs s).ports = s.ports := rfl
@[simp] theorem postAll_peers (rs : List Record) (s : State) : (postAll rs s).peers = s.peers := rfl
@[simp] theorem postAll_rollCall (rs : List Record) (s : State) : (postAll rs s).rollCall = s.rollCall := rfl
@[simp] theorem postAll_mem (rs : List Record) (s : State) : (postAll rs s).mem = s.mem := rfl
@[simp] theorem postAll_commandFifo (rs : List Record) (s : State) : (postAll rs s).commandFifo = s.commandFifo := rfl
@[simp] theorem postAll_log (rs : List Record) (s : State) : (postAll rs s).log = rs.foldl postTo s.log := rfl
@[simp] theorem postAll_logCopied (rs : List Record) (s : State) : (postAll rs s).logCopied = s.logCopied := rfl
@[simp] theorem postAll_spi (rs : List Record) (s : State) : (postAll rs s).spi = s.spi := rfl
@[simp] theorem postAll_drive (rs : List Record) (s : State) : (postAll rs s).drive = s.drive := rfl
@[simp] theorem postAll_freeNext (rs : List Record) (s : State) : (postAll rs s).freeNext = s.freeNext := rfl

@[simp] theorem clearHandover_pending (s : State) : (clearHandover s).pending = s.pending := rfl
@[simp] theorem clearHandover_resetLow (s : State) : (clearHandover s).resetLow = s.resetLow := rfl
@[simp] theorem clearHandover_straps (s : State) : (clearHandover s).straps = s.straps := rfl
@[simp] theorem clearHandover_refclk (s : State) : (clearHandover s).refclk = s.refclk := rfl
@[simp] theorem clearHandover_rx (s : State) : (clearHandover s).rx = s.rx := rfl
@[simp] theorem clearHandover_tx (s : State) : (clearHandover s).tx = s.tx := rfl
@[simp] theorem clearHandover_ringOut (s : State) : (clearHandover s).ringOut = s.ringOut := rfl
@[simp] theorem clearHandover_slots (s : State) : (clearHandover s).slots = s.slots := rfl
@[simp] theorem clearHandover_tagCounter (s : State) : (clearHandover s).tagCounter = s.tagCounter := rfl
@[simp] theorem clearHandover_rrPointer (s : State) : (clearHandover s).rrPointer = s.rrPointer := rfl
@[simp] theorem clearHandover_ports (s : State) : (clearHandover s).ports = s.ports := rfl
@[simp] theorem clearHandover_peers (s : State) : (clearHandover s).peers = s.peers := rfl
@[simp] theorem clearHandover_rollCall (s : State) : (clearHandover s).rollCall = s.rollCall := rfl
@[simp] theorem clearHandover_mem (s : State) : (clearHandover s).mem = s.mem := rfl
@[simp] theorem clearHandover_commandFifo (s : State) : (clearHandover s).commandFifo = s.commandFifo := rfl
@[simp] theorem clearHandover_log (s : State) : (clearHandover s).log = s.log := rfl
@[simp] theorem clearHandover_logCopied (s : State) : (clearHandover s).logCopied = s.logCopied := rfl
@[simp] theorem clearHandover_spi (s : State) : (clearHandover s).spi = s.spi := rfl
@[simp] theorem clearHandover_drive (s : State) : (clearHandover s).drive = s.drive := rfl
@[simp] theorem clearHandover_freeNext (s : State) : (clearHandover s).freeNext = s.freeNext := rfl
@[simp] theorem clearHandover_rau_reception (s : State) : (clearHandover s).rau.reception = s.rau.reception := rfl
@[simp] theorem clearHandover_rau_handover (s : State) : (clearHandover s).rau.handover = none := rfl
@[simp] theorem clearHandover_rau_passFifo (s : State) : (clearHandover s).rau.passFifo = s.rau.passFifo := rfl
@[simp] theorem clearHandover_rau_output (s : State) : (clearHandover s).rau.output = s.rau.output := rfl
@[simp] theorem clearHandover_rau_gap (s : State) : (clearHandover s).rau.gap = s.rau.gap := rfl
@[simp] theorem clearHandover_rau_controlQueue (s : State) : (clearHandover s).rau.controlQueue = s.rau.controlQueue := rfl
@[simp] theorem clearHandover_rau_dataQueue (s : State) : (clearHandover s).rau.dataQueue = s.rau.dataQueue := rfl
@[simp] theorem clearHandover_rau_marking (s : State) : (clearHandover s).rau.marking = s.rau.marking := rfl
@[simp] theorem clearHandover_rau_threshold (s : State) : (clearHandover s).rau.threshold = s.rau.threshold := rfl
@[simp] theorem clearHandover_rau_inHold (s : State) : (clearHandover s).rau.inHold = s.rau.inHold := rfl
@[simp] theorem clearHandover_rau_holdTimer (s : State) : (clearHandover s).rau.holdTimer = s.rau.holdTimer := rfl

@[simp] theorem offer_pending (f : OwnFrame) (s : State) : (offer f s).pending = s.pending := by unfold offer; split <;> rfl
@[simp] theorem offer_resetLow (f : OwnFrame) (s : State) : (offer f s).resetLow = s.resetLow := by unfold offer; split <;> rfl
@[simp] theorem offer_straps (f : OwnFrame) (s : State) : (offer f s).straps = s.straps := by unfold offer; split <;> rfl
@[simp] theorem offer_refclk (f : OwnFrame) (s : State) : (offer f s).refclk = s.refclk := by unfold offer; split <;> rfl
@[simp] theorem offer_rx (f : OwnFrame) (s : State) : (offer f s).rx = s.rx := by unfold offer; split <;> rfl
@[simp] theorem offer_tx (f : OwnFrame) (s : State) : (offer f s).tx = s.tx := by unfold offer; split <;> rfl
@[simp] theorem offer_ringOut (f : OwnFrame) (s : State) : (offer f s).ringOut = s.ringOut := by unfold offer; split <;> rfl
@[simp] theorem offer_slots (f : OwnFrame) (s : State) : (offer f s).slots = s.slots := by unfold offer; split <;> rfl
@[simp] theorem offer_tagCounter (f : OwnFrame) (s : State) : (offer f s).tagCounter = s.tagCounter := by unfold offer; split <;> rfl
@[simp] theorem offer_rrPointer (f : OwnFrame) (s : State) : (offer f s).rrPointer = s.rrPointer := by unfold offer; split <;> rfl
@[simp] theorem offer_ports (f : OwnFrame) (s : State) : (offer f s).ports = s.ports := by unfold offer; split <;> rfl
@[simp] theorem offer_peers (f : OwnFrame) (s : State) : (offer f s).peers = s.peers := by unfold offer; split <;> rfl
@[simp] theorem offer_rollCall (f : OwnFrame) (s : State) : (offer f s).rollCall = s.rollCall := by unfold offer; split <;> rfl
@[simp] theorem offer_mem (f : OwnFrame) (s : State) : (offer f s).mem = s.mem := by unfold offer; split <;> rfl
@[simp] theorem offer_commandFifo (f : OwnFrame) (s : State) : (offer f s).commandFifo = s.commandFifo := by unfold offer; split <;> rfl
@[simp] theorem offer_log (f : OwnFrame) (s : State) : (offer f s).log = s.log := by unfold offer; split <;> rfl
@[simp] theorem offer_logCopied (f : OwnFrame) (s : State) : (offer f s).logCopied = s.logCopied := by unfold offer; split <;> rfl
@[simp] theorem offer_spi (f : OwnFrame) (s : State) : (offer f s).spi = s.spi := by unfold offer; split <;> rfl
@[simp] theorem offer_drive (f : OwnFrame) (s : State) : (offer f s).drive = s.drive := by unfold offer; split <;> rfl
@[simp] theorem offer_freeNext (f : OwnFrame) (s : State) : (offer f s).freeNext = s.freeNext := by unfold offer; split <;> rfl
@[simp] theorem offer_rau_reception (f : OwnFrame) (s : State) : (offer f s).rau.reception = s.rau.reception := by unfold offer; split <;> rfl
@[simp] theorem offer_rau_handover (f : OwnFrame) (s : State) : (offer f s).rau.handover = s.rau.handover := by unfold offer; split <;> rfl
@[simp] theorem offer_rau_passFifo (f : OwnFrame) (s : State) : (offer f s).rau.passFifo = s.rau.passFifo := by unfold offer; split <;> rfl
@[simp] theorem offer_rau_output (f : OwnFrame) (s : State) : (offer f s).rau.output = s.rau.output := by unfold offer; split <;> rfl
@[simp] theorem offer_rau_gap (f : OwnFrame) (s : State) : (offer f s).rau.gap = s.rau.gap := by unfold offer; split <;> rfl
@[simp] theorem offer_rau_dataQueue (f : OwnFrame) (s : State) : (offer f s).rau.dataQueue = s.rau.dataQueue := by unfold offer; split <;> rfl
@[simp] theorem offer_rau_marking (f : OwnFrame) (s : State) : (offer f s).rau.marking = s.rau.marking := by unfold offer; split <;> rfl
@[simp] theorem offer_rau_threshold (f : OwnFrame) (s : State) : (offer f s).rau.threshold = s.rau.threshold := by unfold offer; split <;> rfl
@[simp] theorem offer_rau_inHold (f : OwnFrame) (s : State) : (offer f s).rau.inHold = s.rau.inHold := by unfold offer; split <;> rfl
@[simp] theorem offer_rau_holdTimer (f : OwnFrame) (s : State) : (offer f s).rau.holdTimer = s.rau.holdTimer := by unfold offer; split <;> rfl

@[simp] theorem setData_pending (q : List DataEntry) (s : State) : (setData q s).pending = s.pending := rfl
@[simp] theorem setData_resetLow (q : List DataEntry) (s : State) : (setData q s).resetLow = s.resetLow := rfl
@[simp] theorem setData_straps (q : List DataEntry) (s : State) : (setData q s).straps = s.straps := rfl
@[simp] theorem setData_refclk (q : List DataEntry) (s : State) : (setData q s).refclk = s.refclk := rfl
@[simp] theorem setData_rx (q : List DataEntry) (s : State) : (setData q s).rx = s.rx := rfl
@[simp] theorem setData_tx (q : List DataEntry) (s : State) : (setData q s).tx = s.tx := rfl
@[simp] theorem setData_ringOut (q : List DataEntry) (s : State) : (setData q s).ringOut = s.ringOut := rfl
@[simp] theorem setData_slots (q : List DataEntry) (s : State) : (setData q s).slots = s.slots := rfl
@[simp] theorem setData_tagCounter (q : List DataEntry) (s : State) : (setData q s).tagCounter = s.tagCounter := rfl
@[simp] theorem setData_rrPointer (q : List DataEntry) (s : State) : (setData q s).rrPointer = s.rrPointer := rfl
@[simp] theorem setData_ports (q : List DataEntry) (s : State) : (setData q s).ports = s.ports := rfl
@[simp] theorem setData_peers (q : List DataEntry) (s : State) : (setData q s).peers = s.peers := rfl
@[simp] theorem setData_rollCall (q : List DataEntry) (s : State) : (setData q s).rollCall = s.rollCall := rfl
@[simp] theorem setData_mem (q : List DataEntry) (s : State) : (setData q s).mem = s.mem := rfl
@[simp] theorem setData_commandFifo (q : List DataEntry) (s : State) : (setData q s).commandFifo = s.commandFifo := rfl
@[simp] theorem setData_log (q : List DataEntry) (s : State) : (setData q s).log = s.log := rfl
@[simp] theorem setData_logCopied (q : List DataEntry) (s : State) : (setData q s).logCopied = s.logCopied := rfl
@[simp] theorem setData_spi (q : List DataEntry) (s : State) : (setData q s).spi = s.spi := rfl
@[simp] theorem setData_drive (q : List DataEntry) (s : State) : (setData q s).drive = s.drive := rfl
@[simp] theorem setData_freeNext (q : List DataEntry) (s : State) : (setData q s).freeNext = s.freeNext := rfl
@[simp] theorem setData_rau_reception (q : List DataEntry) (s : State) : (setData q s).rau.reception = s.rau.reception := by
  simp only [setData, setData, setRau_rau, Rau.withData]; split <;> (try split) <;> rfl
@[simp] theorem setData_rau_handover (q : List DataEntry) (s : State) : (setData q s).rau.handover = s.rau.handover := by
  simp only [setData, setData, setRau_rau, Rau.withData]; split <;> (try split) <;> rfl
@[simp] theorem setData_rau_passFifo (q : List DataEntry) (s : State) : (setData q s).rau.passFifo = s.rau.passFifo := by
  simp only [setData, setData, setRau_rau, Rau.withData]; split <;> (try split) <;> rfl
@[simp] theorem setData_rau_output (q : List DataEntry) (s : State) : (setData q s).rau.output = s.rau.output := by
  simp only [setData, setData, setRau_rau, Rau.withData]; split <;> (try split) <;> rfl
@[simp] theorem setData_rau_gap (q : List DataEntry) (s : State) : (setData q s).rau.gap = s.rau.gap := by
  simp only [setData, setData, setRau_rau, Rau.withData]; split <;> (try split) <;> rfl
@[simp] theorem setData_rau_controlQueue (q : List DataEntry) (s : State) : (setData q s).rau.controlQueue = s.rau.controlQueue := by
  simp only [setData, setData, setRau_rau, Rau.withData]; split <;> (try split) <;> rfl
@[simp] theorem setData_rau_inHold (q : List DataEntry) (s : State) : (setData q s).rau.inHold = s.rau.inHold := by
  simp only [setData, setData, setRau_rau, Rau.withData]; split <;> (try split) <;> rfl
@[simp] theorem setData_rau_holdTimer (q : List DataEntry) (s : State) : (setData q s).rau.holdTimer = s.rau.holdTimer := by
  simp only [setData, setData, setRau_rau, Rau.withData]; split <;> (try split) <;> rfl

@[simp] theorem purge_pending (i : Fin 8) (s : State) : (purge i s).pending = s.pending := rfl
@[simp] theorem purge_resetLow (i : Fin 8) (s : State) : (purge i s).resetLow = s.resetLow := rfl
@[simp] theorem purge_straps (i : Fin 8) (s : State) : (purge i s).straps = s.straps := rfl
@[simp] theorem purge_refclk (i : Fin 8) (s : State) : (purge i s).refclk = s.refclk := rfl
@[simp] theorem purge_rx (i : Fin 8) (s : State) : (purge i s).rx = s.rx := rfl
@[simp] theorem purge_tx (i : Fin 8) (s : State) : (purge i s).tx = s.tx := rfl
@[simp] theorem purge_ringOut (i : Fin 8) (s : State) : (purge i s).ringOut = s.ringOut := rfl
@[simp] theorem purge_slots (i : Fin 8) (s : State) : (purge i s).slots = s.slots := rfl
@[simp] theorem purge_tagCounter (i : Fin 8) (s : State) : (purge i s).tagCounter = s.tagCounter := rfl
@[simp] theorem purge_rrPointer (i : Fin 8) (s : State) : (purge i s).rrPointer = s.rrPointer := rfl
@[simp] theorem purge_ports (i : Fin 8) (s : State) : (purge i s).ports = s.ports := rfl
@[simp] theorem purge_peers (i : Fin 8) (s : State) : (purge i s).peers = s.peers := rfl
@[simp] theorem purge_rollCall (i : Fin 8) (s : State) : (purge i s).rollCall = s.rollCall := rfl
@[simp] theorem purge_mem (i : Fin 8) (s : State) : (purge i s).mem = s.mem := rfl
@[simp] theorem purge_commandFifo (i : Fin 8) (s : State) : (purge i s).commandFifo = s.commandFifo := rfl
@[simp] theorem purge_log (i : Fin 8) (s : State) : (purge i s).log = s.log := rfl
@[simp] theorem purge_logCopied (i : Fin 8) (s : State) : (purge i s).logCopied = s.logCopied := rfl
@[simp] theorem purge_spi (i : Fin 8) (s : State) : (purge i s).spi = s.spi := rfl
@[simp] theorem purge_drive (i : Fin 8) (s : State) : (purge i s).drive = s.drive := rfl
@[simp] theorem purge_freeNext (i : Fin 8) (s : State) : (purge i s).freeNext = s.freeNext := rfl
@[simp] theorem purge_rau_reception (i : Fin 8) (s : State) : (purge i s).rau.reception = s.rau.reception := by
  simp only [purge, setData, setRau_rau, Rau.withData]; split <;> (try split) <;> rfl
@[simp] theorem purge_rau_handover (i : Fin 8) (s : State) : (purge i s).rau.handover = s.rau.handover := by
  simp only [purge, setData, setRau_rau, Rau.withData]; split <;> (try split) <;> rfl
@[simp] theorem purge_rau_passFifo (i : Fin 8) (s : State) : (purge i s).rau.passFifo = s.rau.passFifo := by
  simp only [purge, setData, setRau_rau, Rau.withData]; split <;> (try split) <;> rfl
@[simp] theorem purge_rau_output (i : Fin 8) (s : State) : (purge i s).rau.output = s.rau.output := by
  simp only [purge, setData, setRau_rau, Rau.withData]; split <;> (try split) <;> rfl
@[simp] theorem purge_rau_gap (i : Fin 8) (s : State) : (purge i s).rau.gap = s.rau.gap := by
  simp only [purge, setData, setRau_rau, Rau.withData]; split <;> (try split) <;> rfl
@[simp] theorem purge_rau_controlQueue (i : Fin 8) (s : State) : (purge i s).rau.controlQueue = s.rau.controlQueue := by
  simp only [purge, setData, setRau_rau, Rau.withData]; split <;> (try split) <;> rfl
@[simp] theorem purge_rau_inHold (i : Fin 8) (s : State) : (purge i s).rau.inHold = s.rau.inHold := by
  simp only [purge, setData, setRau_rau, Rau.withData]; split <;> (try split) <;> rfl
@[simp] theorem purge_rau_holdTimer (i : Fin 8) (s : State) : (purge i s).rau.holdTimer = s.rau.holdTimer := by
  simp only [purge, setData, setRau_rau, Rau.withData]; split <;> (try split) <;> rfl

@[simp] theorem dropBelow_pending (i : Fin 8) (n : Nat) (s : State) : (dropBelow i n s).pending = s.pending := rfl
@[simp] theorem dropBelow_resetLow (i : Fin 8) (n : Nat) (s : State) : (dropBelow i n s).resetLow = s.resetLow := rfl
@[simp] theorem dropBelow_straps (i : Fin 8) (n : Nat) (s : State) : (dropBelow i n s).straps = s.straps := rfl
@[simp] theorem dropBelow_refclk (i : Fin 8) (n : Nat) (s : State) : (dropBelow i n s).refclk = s.refclk := rfl
@[simp] theorem dropBelow_rx (i : Fin 8) (n : Nat) (s : State) : (dropBelow i n s).rx = s.rx := rfl
@[simp] theorem dropBelow_tx (i : Fin 8) (n : Nat) (s : State) : (dropBelow i n s).tx = s.tx := rfl
@[simp] theorem dropBelow_ringOut (i : Fin 8) (n : Nat) (s : State) : (dropBelow i n s).ringOut = s.ringOut := rfl
@[simp] theorem dropBelow_slots (i : Fin 8) (n : Nat) (s : State) : (dropBelow i n s).slots = s.slots := rfl
@[simp] theorem dropBelow_tagCounter (i : Fin 8) (n : Nat) (s : State) : (dropBelow i n s).tagCounter = s.tagCounter := rfl
@[simp] theorem dropBelow_rrPointer (i : Fin 8) (n : Nat) (s : State) : (dropBelow i n s).rrPointer = s.rrPointer := rfl
@[simp] theorem dropBelow_ports (i : Fin 8) (n : Nat) (s : State) : (dropBelow i n s).ports = s.ports := rfl
@[simp] theorem dropBelow_peers (i : Fin 8) (n : Nat) (s : State) : (dropBelow i n s).peers = s.peers := rfl
@[simp] theorem dropBelow_rollCall (i : Fin 8) (n : Nat) (s : State) : (dropBelow i n s).rollCall = s.rollCall := rfl
@[simp] theorem dropBelow_mem (i : Fin 8) (n : Nat) (s : State) : (dropBelow i n s).mem = s.mem := rfl
@[simp] theorem dropBelow_commandFifo (i : Fin 8) (n : Nat) (s : State) : (dropBelow i n s).commandFifo = s.commandFifo := rfl
@[simp] theorem dropBelow_log (i : Fin 8) (n : Nat) (s : State) : (dropBelow i n s).log = s.log := rfl
@[simp] theorem dropBelow_logCopied (i : Fin 8) (n : Nat) (s : State) : (dropBelow i n s).logCopied = s.logCopied := rfl
@[simp] theorem dropBelow_spi (i : Fin 8) (n : Nat) (s : State) : (dropBelow i n s).spi = s.spi := rfl
@[simp] theorem dropBelow_drive (i : Fin 8) (n : Nat) (s : State) : (dropBelow i n s).drive = s.drive := rfl
@[simp] theorem dropBelow_freeNext (i : Fin 8) (n : Nat) (s : State) : (dropBelow i n s).freeNext = s.freeNext := rfl
@[simp] theorem dropBelow_rau_reception (i : Fin 8) (n : Nat) (s : State) : (dropBelow i n s).rau.reception = s.rau.reception := by
  simp only [dropBelow, setData, setRau_rau, Rau.withData]; split <;> (try split) <;> rfl
@[simp] theorem dropBelow_rau_handover (i : Fin 8) (n : Nat) (s : State) : (dropBelow i n s).rau.handover = s.rau.handover := by
  simp only [dropBelow, setData, setRau_rau, Rau.withData]; split <;> (try split) <;> rfl
@[simp] theorem dropBelow_rau_passFifo (i : Fin 8) (n : Nat) (s : State) : (dropBelow i n s).rau.passFifo = s.rau.passFifo := by
  simp only [dropBelow, setData, setRau_rau, Rau.withData]; split <;> (try split) <;> rfl
@[simp] theorem dropBelow_rau_output (i : Fin 8) (n : Nat) (s : State) : (dropBelow i n s).rau.output = s.rau.output := by
  simp only [dropBelow, setData, setRau_rau, Rau.withData]; split <;> (try split) <;> rfl
@[simp] theorem dropBelow_rau_gap (i : Fin 8) (n : Nat) (s : State) : (dropBelow i n s).rau.gap = s.rau.gap := by
  simp only [dropBelow, setData, setRau_rau, Rau.withData]; split <;> (try split) <;> rfl
@[simp] theorem dropBelow_rau_controlQueue (i : Fin 8) (n : Nat) (s : State) : (dropBelow i n s).rau.controlQueue = s.rau.controlQueue := by
  simp only [dropBelow, setData, setRau_rau, Rau.withData]; split <;> (try split) <;> rfl
@[simp] theorem dropBelow_rau_inHold (i : Fin 8) (n : Nat) (s : State) : (dropBelow i n s).rau.inHold = s.rau.inHold := by
  simp only [dropBelow, setData, setRau_rau, Rau.withData]; split <;> (try split) <;> rfl
@[simp] theorem dropBelow_rau_holdTimer (i : Fin 8) (n : Nat) (s : State) : (dropBelow i n s).rau.holdTimer = s.rau.holdTimer := by
  simp only [dropBelow, setData, setRau_rau, Rau.withData]; split <;> (try split) <;> rfl

@[simp] theorem withData_dataQueue (r : Rau) (q : List DataEntry) : (r.withData q).dataQueue = q := by
  unfold Rau.withData; split <;> (try split) <;> rfl

@[simp] theorem setData_rau_dataQueue (q : List DataEntry) (s : State) : (setData q s).rau.dataQueue = q :=
  withData_dataQueue _ _

@[simp] theorem purge_rau_dataQueue (i : Fin 8) (s : State) :
    (purge i s).rau.dataQueue = s.rau.dataQueue.filter fun e => e.slot ≠ i := withData_dataQueue _ _

@[simp] theorem dropBelow_rau_dataQueue (i : Fin 8) (n : Nat) (s : State) :
    (dropBelow i n s).rau.dataQueue = s.rau.dataQueue.filter fun e => ¬(e.slot = i ∧ e.index < n) :=
  withData_dataQueue _ _

theorem withData_withData (r : Rau) (q : List DataEntry) : (r.withData q).withData q = r.withData q := by
  by_cases h : q.isEmpty
  · simp only [Rau.withData, h, if_true]
  · by_cases h2 : r.dataQueue.isEmpty <;> simp [Rau.withData, h, h2]

/-- A second purge changes nothing. -/
theorem purge_purge (i : Fin 8) (s : State) : purge i (purge i s) = purge i s := by
  have hf : (purge i s).rau.dataQueue.filter (fun e => decide (e.slot ≠ i)) =
      s.rau.dataQueue.filter fun e => decide (e.slot ≠ i) := by
    rw [purge_rau_dataQueue, List.filter_filter]; simp
  show setData _ (purge i s) = _
  rw [hf]
  show setRau (Rau.withData (purge i s).rau _) (purge i s) = _
  have : (purge i s).rau = s.rau.withData (s.rau.dataQueue.filter fun e => decide (e.slot ≠ i)) := rfl
  rw [this, withData_withData]
  rfl

/-! ### Single table entries -/

theorem setSlot_get (i j : Fin 8) (r : Slot) (s : State) :
    (setSlot i r s).slots[j] = if i = j then r else s.slots[j] := by
  simp [Fin.ext_iff, Vector.getElem_set]

theorem setPort_get (i j : Fin 8) (p : Port) (s : State) :
    (setPort i p s).ports[j] = if i = j then p else s.ports[j] := by
  simp [Fin.ext_iff, Vector.getElem_set]

theorem setPeer_get (i j : Fin 16) (p : Peer) (s : State) :
    (setPeer i p s).peers[j] = if i = j then p else s.peers[j] := by
  simp [Fin.ext_iff, Vector.getElem_set]

@[simp] theorem setSlot_get_self (i : Fin 8) (r : Slot) (s : State) : (setSlot i r s).slots[i] = r := by
  rw [setSlot_get, if_pos rfl]

@[simp] theorem setPort_get_self (i : Fin 8) (p : Port) (s : State) : (setPort i p s).ports[i] = p := by
  rw [setPort_get, if_pos rfl]

@[simp] theorem setPeer_get_self (i : Fin 16) (p : Peer) (s : State) : (setPeer i p s).peers[i] = p := by
  rw [setPeer_get, if_pos rfl]

theorem setSlot_get_of_ne {i j : Fin 8} (h : i ≠ j) (r : Slot) (s : State) :
    (setSlot i r s).slots[j] = s.slots[j] := by
  rw [setSlot_get, if_neg h]

theorem setPort_get_of_ne {i j : Fin 8} (h : i ≠ j) (p : Port) (s : State) :
    (setPort i p s).ports[j] = s.ports[j] := by
  rw [setPort_get, if_neg h]

theorem setPeer_get_of_ne {i j : Fin 16} (h : i ≠ j) (p : Peer) (s : State) :
    (setPeer i p s).peers[j] = s.peers[j] := by
  rw [setPeer_get, if_neg h]

@[simp] theorem due_pending (c : Instr) (s : State) : (due c s).pending = s.pending ++ [c] := rfl
@[simp] theorem due_resetLow (c : Instr) (s : State) : (due c s).resetLow = s.resetLow := rfl
@[simp] theorem due_straps (c : Instr) (s : State) : (due c s).straps = s.straps := rfl
@[simp] theorem due_refclk (c : Instr) (s : State) : (due c s).refclk = s.refclk := rfl
@[simp] theorem due_rx (c : Instr) (s : State) : (due c s).rx = s.rx := rfl
@[simp] theorem due_tx (c : Instr) (s : State) : (due c s).tx = s.tx := rfl
@[simp] theorem due_ringOut (c : Instr) (s : State) : (due c s).ringOut = s.ringOut := rfl
@[simp] theorem due_rau (c : Instr) (s : State) : (due c s).rau = s.rau := rfl
@[simp] theorem due_slots (c : Instr) (s : State) : (due c s).slots = s.slots := rfl
@[simp] theorem due_tagCounter (c : Instr) (s : State) : (due c s).tagCounter = s.tagCounter := rfl
@[simp] theorem due_rrPointer (c : Instr) (s : State) : (due c s).rrPointer = s.rrPointer := rfl
@[simp] theorem due_ports (c : Instr) (s : State) : (due c s).ports = s.ports := rfl
@[simp] theorem due_peers (c : Instr) (s : State) : (due c s).peers = s.peers := rfl
@[simp] theorem due_rollCall (c : Instr) (s : State) : (due c s).rollCall = s.rollCall := rfl
@[simp] theorem due_mem (c : Instr) (s : State) : (due c s).mem = s.mem := rfl
@[simp] theorem due_commandFifo (c : Instr) (s : State) : (due c s).commandFifo = s.commandFifo := rfl
@[simp] theorem due_log (c : Instr) (s : State) : (due c s).log = s.log := rfl
@[simp] theorem due_logCopied (c : Instr) (s : State) : (due c s).logCopied = s.logCopied := rfl
@[simp] theorem due_spi (c : Instr) (s : State) : (due c s).spi = s.spi := rfl
@[simp] theorem due_drive (c : Instr) (s : State) : (due c s).drive = s.drive := rfl
@[simp] theorem due_freeNext (c : Instr) (s : State) : (due c s).freeNext = s.freeNext := rfl
@[simp] theorem due_own (c : Instr) (s : State) : (due c s).own = s.own := rfl
@[simp] theorem due_ringSize (c : Instr) (s : State) : (due c s).ringSize = s.ringSize := rfl
@[simp] theorem due_answerTime (c : Instr) (s : State) : (due c s).answerTime = s.answerTime := rfl

/-! ### What the straps give -/

@[simp] theorem setSlot_own (i : Fin 8) (r : Slot) (s : State) : (setSlot i r s).own = s.own := rfl
@[simp] theorem setSlot_ringSize (i : Fin 8) (r : Slot) (s : State) : (setSlot i r s).ringSize = s.ringSize := rfl
@[simp] theorem setSlot_answerTime (i : Fin 8) (r : Slot) (s : State) : (setSlot i r s).answerTime = s.answerTime := rfl
@[simp] theorem setPort_own (i : Fin 8) (p : Port) (s : State) : (setPort i p s).own = s.own := rfl
@[simp] theorem setPort_ringSize (i : Fin 8) (p : Port) (s : State) : (setPort i p s).ringSize = s.ringSize := rfl
@[simp] theorem setPort_answerTime (i : Fin 8) (p : Port) (s : State) : (setPort i p s).answerTime = s.answerTime := rfl
@[simp] theorem setPeer_own (i : Fin 16) (p : Peer) (s : State) : (setPeer i p s).own = s.own := rfl
@[simp] theorem setPeer_ringSize (i : Fin 16) (p : Peer) (s : State) : (setPeer i p s).ringSize = s.ringSize := rfl
@[simp] theorem setPeer_answerTime (i : Fin 16) (p : Peer) (s : State) : (setPeer i p s).answerTime = s.answerTime := rfl
@[simp] theorem setRau_own (r : Rau) (s : State) : (setRau r s).own = s.own := rfl
@[simp] theorem setRau_ringSize (r : Rau) (s : State) : (setRau r s).ringSize = s.ringSize := rfl
@[simp] theorem setRau_answerTime (r : Rau) (s : State) : (setRau r s).answerTime = s.answerTime := rfl
@[simp] theorem setRollCall_own (r : RollCall) (s : State) : (setRollCall r s).own = s.own := rfl
@[simp] theorem setRollCall_ringSize (r : RollCall) (s : State) : (setRollCall r s).ringSize = s.ringSize := rfl
@[simp] theorem setRollCall_answerTime (r : RollCall) (s : State) : (setRollCall r s).answerTime = s.answerTime := rfl
@[simp] theorem setRx_own (r : Receiver) (s : State) : (setRx r s).own = s.own := rfl
@[simp] theorem setRx_ringSize (r : Receiver) (s : State) : (setRx r s).ringSize = s.ringSize := rfl
@[simp] theorem setRx_answerTime (r : Receiver) (s : State) : (setRx r s).answerTime = s.answerTime := rfl
@[simp] theorem setSpi_own (p : LocalPort) (s : State) : (setSpi p s).own = s.own := rfl
@[simp] theorem setSpi_ringSize (p : LocalPort) (s : State) : (setSpi p s).ringSize = s.ringSize := rfl
@[simp] theorem setSpi_answerTime (p : LocalPort) (s : State) : (setSpi p s).answerTime = s.answerTime := rfl
@[simp] theorem post_own (r : Record) (s : State) : (post r s).own = s.own := rfl
@[simp] theorem post_ringSize (r : Record) (s : State) : (post r s).ringSize = s.ringSize := rfl
@[simp] theorem post_answerTime (r : Record) (s : State) : (post r s).answerTime = s.answerTime := rfl
@[simp] theorem postAll_own (rs : List Record) (s : State) : (postAll rs s).own = s.own := rfl
@[simp] theorem postAll_ringSize (rs : List Record) (s : State) : (postAll rs s).ringSize = s.ringSize := rfl
@[simp] theorem postAll_answerTime (rs : List Record) (s : State) : (postAll rs s).answerTime = s.answerTime := rfl
@[simp] theorem clearHandover_own (s : State) : (clearHandover s).own = s.own := rfl
@[simp] theorem clearHandover_ringSize (s : State) : (clearHandover s).ringSize = s.ringSize := rfl
@[simp] theorem clearHandover_answerTime (s : State) : (clearHandover s).answerTime = s.answerTime := rfl
@[simp] theorem offer_own (f : OwnFrame) (s : State) : (offer f s).own = s.own := by simp only [State.own, offer_straps]
@[simp] theorem offer_ringSize (f : OwnFrame) (s : State) : (offer f s).ringSize = s.ringSize := by simp only [State.ringSize, offer_straps]
@[simp] theorem offer_answerTime (f : OwnFrame) (s : State) : (offer f s).answerTime = s.answerTime := by simp only [State.answerTime, offer_straps]
@[simp] theorem setData_own (q : List DataEntry) (s : State) : (setData q s).own = s.own := rfl
@[simp] theorem setData_ringSize (q : List DataEntry) (s : State) : (setData q s).ringSize = s.ringSize := rfl
@[simp] theorem setData_answerTime (q : List DataEntry) (s : State) : (setData q s).answerTime = s.answerTime := rfl
@[simp] theorem purge_own (i : Fin 8) (s : State) : (purge i s).own = s.own := rfl
@[simp] theorem purge_ringSize (i : Fin 8) (s : State) : (purge i s).ringSize = s.ringSize := rfl
@[simp] theorem purge_answerTime (i : Fin 8) (s : State) : (purge i s).answerTime = s.answerTime := rfl
@[simp] theorem dropBelow_own (i : Fin 8) (n : Nat) (s : State) : (dropBelow i n s).own = s.own := rfl
@[simp] theorem dropBelow_ringSize (i : Fin 8) (n : Nat) (s : State) : (dropBelow i n s).ringSize = s.ringSize := rfl
@[simp] theorem dropBelow_answerTime (i : Fin 8) (n : Nat) (s : State) : (dropBelow i n s).answerTime = s.answerTime := rfl

theorem own_lt (s : State) : s.own.toNat < 16 := by
  simp only [State.own, BitVec.toNat_setWidth]; omega

theorem own_ne_broadcast (s : State) : s.own ≠ 0xFF := fun e => by
  have := own_lt s
  rw [e] at this
  revert this
  decide

end Sys2Proof.Machine
end

