-- ==== Sys2Proof/Laws/Bus.lean ====
section
/-! SUPPORT. What one REFCLK period at the pins of the Local Port can do: it changes the Local Port, the levels still to
come, and the queue, at whose end the row of a completed byte or of a rise of CS_N joins. -/

namespace Sys2Proof.Machine

open Sys2Proof

/-- A step that changes the Local Port and the queue alone, and accepts no window transaction: the verdict is as it was
with the same address and length, or there is none. -/
structure BusStep (s t : State) : Prop where
  rest : t = { s with spi := t.spi, pending := t.pending }
  verdict : t.spi.verdict = none ∨
    (t.spi.verdict = s.spi.verdict ∧ t.spi.addr = s.spi.addr ∧ t.spi.len = s.spi.len)

theorem BusStep.refl (s : State) : BusStep s s := ⟨rfl, .inr ⟨rfl, rfl, rfl⟩⟩

theorem BusStep.due (c : Instr) (s : State) : BusStep s (due c s) := ⟨rfl, .inr ⟨rfl, rfl, rfl⟩⟩

/-- The Local Port is replaced by one with its verdict, address and length, or with no verdict. -/
theorem BusStep.setSpi {p : LocalPort} {s : State}
    (h : p.verdict = none ∨ (p.verdict = s.spi.verdict ∧ p.addr = s.spi.addr ∧ p.len = s.spi.len)) :
    BusStep s (setSpi p s) := ⟨rfl, h⟩

theorem BusStep.trans {s t u : State} (h : BusStep s t) (k : BusStep t u) : BusStep s u := by
  refine ⟨by rw [k.rest, h.rest], ?_⟩
  rcases k.verdict with k | ⟨k1, k2, k3⟩
  · exact .inl k
  · rcases h.verdict with h | ⟨h1, h2, h3⟩
    · exact .inl (k1.trans h)
    · exact .inr ⟨k1.trans h1, k2.trans h2, k3.trans h3⟩

theorem codeArrives_busStep (b : Byte) (s : State) : BusStep s (codeArrives b s) := by
  unfold codeArrives
  split
  · exact .due _ s
  · exact .due _ s
  all_goals exact .setSpi (.inr ⟨rfl, rfl, rfl⟩)

theorem windowArrives_busStep (o : BitVec 24 → Word16 → Instr) (d : Instr) (b : Byte) (s : State) :
    BusStep s (windowArrives o d b s) := by
  unfold windowArrives
  dsimp only
  split
  · exact .setSpi (.inl rfl)
  · split
    · exact .setSpi (.inl rfl)
    · split
      · exact .due _ s
      · exact .due _ s

theorem bodyArrives_busStep (b : Byte) (s : State) : BusStep s (bodyArrives b s) := by
  unfold bodyArrives
  dsimp only
  split
  · exact .refl s
  · exact .setSpi (.inr ⟨rfl, rfl, rfl⟩)
  · split
    · exact .due _ s
    · exact .setSpi (.inr ⟨rfl, rfl, rfl⟩)
  · exact windowArrives_busStep _ _ b s
  · exact windowArrives_busStep _ _ b s
  · split
    · exact .setSpi (.inr ⟨rfl, rfl, rfl⟩)
    · split
      · exact .due _ s
      · exact .setSpi (.inr ⟨rfl, rfl, rfl⟩)

theorem byteArrives_busStep (b : Byte) (s : State) : BusStep s (byteArrives b s) := by
  unfold byteArrives
  split
  · exact .refl s
  · exact codeArrives_busStep b s
  · exact bodyArrives_busStep b s
  · exact .setSpi (.inr ⟨rfl, rfl, rfl⟩)

theorem sampleBit_busStep (x : Bool) (s : State) : BusStep s (sampleBit x s) := by
  unfold sampleBit
  dsimp only
  split
  · exact .setSpi (.inr ⟨rfl, rfl, rfl⟩)
  · exact BusStep.trans (t := Machine.setSpi { s.spi with sck := true, bits := [] } s) (.setSpi (.inr ⟨rfl, rfl, rfl⟩))
      (byteArrives_busStep _ _)

/-- One REFCLK period at the pins. -/
theorem busPeriod_busStep (l : BusLevels) (s : State) : BusStep s (busPeriod l s) := by
  unfold busPeriod
  split
  · exact .refl s
  split
  · exact .setSpi (.inl rfl)
  split
  · exact .due _ s
  split
  · exact .setSpi (.inr ⟨rfl, rfl, rfl⟩)
  split
  · exact sampleBit_busStep _ s
  · exact .setSpi (.inr ⟨rfl, rfl, rfl⟩)

/-- With no levels listed the pins stay. -/
theorem tickBus_nil {s : State} (h : s.drive = []) : tickBus s = s := by
  unfold tickBus; rw [h]

/-- The next levels listed are driven for this period. -/
theorem tickBus_cons {s : State} {l : BusLevels} {rest : List BusLevels} (h : s.drive = l :: rest) :
    tickBus s = busPeriod l { s with drive := rest } := by
  unfold tickBus; rw [h]

/-- The pins' part of a tick: the Local Port, the queue and the levels still to come, and nothing else; and it accepts
no window transaction. -/
theorem tickBus_spec (s : State) :
    ∃ p q, tickBus s = { s with spi := p, pending := q, drive := s.drive.tail } ∧
      (p.verdict = none ∨ (p.verdict = s.spi.verdict ∧ p.addr = s.spi.addr ∧ p.len = s.spi.len)) := by
  cases h : s.drive with
  | nil => exact ⟨s.spi, s.pending, by rw [tickBus_nil h, List.tail_nil, ← h], .inr ⟨rfl, rfl, rfl⟩⟩
  | cons l rest =>
    have k := busPeriod_busStep l { s with drive := rest }
    exact ⟨_, _, (tickBus_cons h).trans k.rest, k.verdict⟩

/-! ### The status byte of a row's transaction (R146, log 12) -/

/-- Where the pins have begun the transaction, its status byte is the one captured at the fall of CS_N. -/
theorem openingStatus_begun {k : Option SpiKind} {n : Nat} {s : State} {x : Byte} {l : List Byte}
    (h : s.spi.phase = .code ∨ (s.spi.phase = .body ∧ s.spi.kind = k ∧ 1 ≤ s.spi.bytes ∧ s.spi.bytes < n))
    (ho : s.spi.outgoing = x :: l) : openingStatus k n s = x := by
  have : s.spi.opens k n = true := by
    unfold LocalPort.opens
    rcases h with h | ⟨h1, h2, h3, h4⟩
    · simp [h]
    · simp [h1, h2, h3, h4]
  rw [openingStatus, if_pos this, ho, List.headD_cons]

/-- Where they have not, it is the status byte of this moment. -/
theorem openingStatus_new {k : Option SpiKind} {n : Nat} {s : State}
    (h : ¬(s.spi.phase = .code ∨ (s.spi.phase = .body ∧ s.spi.kind = k ∧ 1 ≤ s.spi.bytes ∧ s.spi.bytes < n))) :
    openingStatus k n s = statusByte s := by
  have : ¬s.spi.opens k n = true := by
    unfold LocalPort.opens
    simpa [and_assoc] using h
  rw [openingStatus, if_neg this]

end Sys2Proof.Machine
end

