-- ==== Sys2Proof/Laws/Rau.lean ====
section
/-! SUPPORT. What the Ring Access Unit's shared operations do: what is left to settle before a symbol, the end of a
frame, the pass FIFO, and a symbol taken in UP. -/

namespace Sys2Proof.Machine

open Sys2Proof

/-! ### Settling -/

theorem abandon_none (r : Rau) (h : r.reception = none) : abandon r = r := by
  unfold abandon; rw [h]

theorem deliverPending_none (s : State) (h : s.rau.handover = none) : deliverPending s = s := by
  unfold deliverPending; rw [h]

theorem decidePending_none (s : State) (h : s.rau.reception = none) : decidePending s = s := by
  unfold decidePending; rw [h]

theorem decidePending_undecided (s : State) (q : Reception) (h : s.rau.reception = some q) (hq : q.undecided = true) :
    decidePending s = decideHeader q s := by
  unfold decidePending; rw [h]; exact if_pos hq

theorem decidePending_decided (s : State) (q : Reception) (h : s.rau.reception = some q) (hq : q.undecided = false) :
    decidePending s = s := by
  unfold decidePending; rw [h]; exact if_neg (by simp [hq])

theorem settle_idle (s : State) (h : s.rau.handover = none) (hr : s.rau.reception = none) : settle s = s := by
  rw [settle, deliverPending_none s h, decidePending_none s hr]

theorem settle_decided (s : State) (q : Reception) (h : s.rau.handover = none) (hr : s.rau.reception = some q)
    (hq : q.undecided = false) : settle s = s := by
  rw [settle, deliverPending_none s h, decidePending_decided s q hr hq]

theorem undecided_of_decision (q : Reception) (d : Decision) (h : q.decision = some d) : q.undecided = false := by
  simp [Reception.undecided, h]

theorem undecided_of_short (q : Reception) (h : q.header.length < 12) : q.undecided = false := by
  simp [Reception.undecided]; omega

theorem waits_undecided {s : State} {q : Reception} (h : s.waits q) : q.undecided = true := by
  simp [Reception.undecided, h.2.1, h.2.2]

/-! ### The pass FIFO -/

theorem noteEnd_append (e : FrameEnd) (front : List PassFrame) (f : PassFrame) :
    noteEnd e (front ++ [f]) = front ++ [{ f with ended := some e }] := by
  induction front with
  | nil => rfl
  | cons a l ih =>
    cases l with
    | nil => rfl
    | cons b m => simp only [List.cons_append, noteEnd] at ih ⊢; rw [ih]

theorem appendByte_append (b : Byte) (front : List PassFrame) (f : PassFrame) :
    appendByte b (front ++ [f]) = front ++ [{ f with bytes := f.bytes ++ [b] }] := by
  induction front with
  | nil => rfl
  | cons a l ih =>
    cases l with
    | nil => rfl
    | cons c m => simp only [List.cons_append, appendByte] at ih ⊢; rw [ih]

/-- Bytes in a list of frames. -/
theorem passBytes_cons (r : Rau) (f : PassFrame) (l : List PassFrame) :
    ({ r with passFifo := f :: l } : Rau).passBytes = f.bytes.length + ({ r with passFifo := l } : Rau).passBytes := by
  simp [Rau.passBytes]

theorem noteEnd_bytes (e : FrameEnd) (l : List PassFrame) :
    ((noteEnd e l).map fun f => f.bytes.length).sum = (l.map fun f => f.bytes.length).sum := by
  fun_induction noteEnd e l <;> simp_all

theorem appendByte_bytes_le (b : Byte) (l : List PassFrame) :
    ((appendByte b l).map fun f => f.bytes.length).sum ≤ (l.map fun f => f.bytes.length).sum + 1 := by
  fun_induction appendByte b l <;> (simp_all; try omega)

/-! ### Bytes and the header decision -/

theorem bytes16_append (a b : Byte) : bytes16 (a ++ b) = [a, b] := by
  have h1 : (a ++ b).extractLsb' 8 8 = a := by
    ext i hi
    simp only [BitVec.getElem_extractLsb']
    erw [BitVec.getLsbD_append]
    simp [hi]
  have h2 : (a ++ b).extractLsb' 0 8 = b := by
    ext i hi
    simp only [BitVec.getElem_extractLsb']
    erw [BitVec.getLsbD_append]
    simp [hi]
  exact congrArg₂ (fun x y => [x, y]) h1 h2

theorem markFlags_eq (flags : Byte) (owner : BitVec 4) :
    markFlags flags owner = 0x80 ||| (flags &&& 0x70) ||| owner.setWidth 8 := by
  unfold markFlags
  ext i hi
  simp only [← BitVec.getLsbD_eq_getElem]
  erw [BitVec.getLsbD_append, BitVec.getLsbD_append]
  have : i = 0 ∨ i = 1 ∨ i = 2 ∨ i = 3 ∨ i = 4 ∨ i = 5 ∨ i = 6 ∨ i = 7 := by omega
  rcases this with rfl | rfl | rfl | rfl | rfl | rfl | rfl | rfl <;> simp

theorem valid_iff (h : Header) : h.valid = true ↔ h.intact ∧ (h.dest.toNat < 16 ∨ h.dest = 0xFF) := by
  simp only [Header.valid, Bool.and_eq_true, Bool.or_eq_true, decide_eq_true_eq]
  exact Iff.rfl

theorem yieldOn_eq (r : Rau) (own : BitVec 4) (flags : Byte) : r.yieldOn own flags =
    { r with inHold := (r.yieldOn own flags).inHold, holdTimer := (r.yieldOn own flags).holdTimer } := by
  unfold Rau.yieldOn; split <;> split <;> rfl

@[simp] theorem yieldOn_reception (r : Rau) (own : BitVec 4) (flags : Byte) : (r.yieldOn own flags).reception = r.reception := by
  rw [yieldOn_eq]
@[simp] theorem yieldOn_handover (r : Rau) (own : BitVec 4) (flags : Byte) : (r.yieldOn own flags).handover = r.handover := by
  rw [yieldOn_eq]
@[simp] theorem yieldOn_passFifo (r : Rau) (own : BitVec 4) (flags : Byte) : (r.yieldOn own flags).passFifo = r.passFifo := by
  rw [yieldOn_eq]
@[simp] theorem yieldOn_output (r : Rau) (own : BitVec 4) (flags : Byte) : (r.yieldOn own flags).output = r.output := by
  rw [yieldOn_eq]
@[simp] theorem yieldOn_gap (r : Rau) (own : BitVec 4) (flags : Byte) : (r.yieldOn own flags).gap = r.gap := by
  rw [yieldOn_eq]
@[simp] theorem yieldOn_controlQueue (r : Rau) (own : BitVec 4) (flags : Byte) : (r.yieldOn own flags).controlQueue = r.controlQueue := by
  rw [yieldOn_eq]
@[simp] theorem yieldOn_dataQueue (r : Rau) (own : BitVec 4) (flags : Byte) : (r.yieldOn own flags).dataQueue = r.dataQueue := by
  rw [yieldOn_eq]
@[simp] theorem yieldOn_marking (r : Rau) (own : BitVec 4) (flags : Byte) : (r.yieldOn own flags).marking = r.marking := by
  rw [yieldOn_eq]
@[simp] theorem yieldOn_threshold (r : Rau) (own : BitVec 4) (flags : Byte) : (r.yieldOn own flags).threshold = r.threshold := by
  rw [yieldOn_eq]

@[simp] theorem yieldOn_passBytes (r : Rau) (own : BitVec 4) (flags : Byte) :
    (r.yieldOn own flags).passBytes = r.passBytes := by rw [Rau.passBytes, yieldOn_passFifo]; rfl

/-- Header bytes for which the pass FIFO has room. -/
theorem enterPass_fits (bs : List Byte) (r : Rau) (h : r.passBytes + bs.length ≤ 1104) :
    enterPass bs r = { r with passFifo := r.passFifo ++ [{ bytes := bs, ended := none }] } := by
  rw [enterPass]
  exact if_pos (by unfold Config.passCapacity; omega)

/-- Header bytes for which the pass FIFO has too little room. -/
theorem enterPass_full (bs : List Byte) (r : Rau) (hb : 0 < bs.length) (h : 1104 < r.passBytes + bs.length) :
    enterPass bs r =
      { r with passFifo := r.passFifo ++ (if 1104 - r.passBytes = 0 then []
                 else [{ bytes := bs.take (1104 - r.passBytes), ended := some .abort }]),
               reception := none } := by
  rw [enterPass]
  exact if_neg (by unfold Config.passCapacity; omega)

/-- The header decision for a header that is not valid. -/
theorem decideHeader_invalid (s : State) (q : Reception) (h : (headerOf q.header).valid = false) :
    decideHeader q s = { s with rau := { s.rau with reception := some { q with decision := some .drop } } } := by
  simp only [decideHeader, h]; rfl

/-- The header decision for a valid header, where R98 answers `d` with the state `t`. -/
theorem decideHeader_valid (s : State) (q : Reception) (h : (headerOf q.header).valid = true) {d : Decision} {t : State}
    (hd : decide98 (headerOf q.header) (setRau (s.rau.yieldOn s.straps.stn (headerOf q.header).flags) s) = (d, t)) :
    decideHeader q s =
      if d.forwards then
        setRau (enterPass (forwardHeader (headerOf q.header)
          (setRau (s.rau.yieldOn s.straps.stn (headerOf q.header).flags) s)).bytes
          { t.rau with reception := some { q with decision := some d } }) t
      else setRau { t.rau with reception := some { q with decision := some d } } t := by
  simp only [decideHeader, h, if_true, hd]; rfl

theorem exec_headerDecision (s : State) (q : Reception) (hq : s.waits q) :
    exec .headerDecision s = .next (decideHeader q s) := by
  show Host.Outcome.next (decidePending s) = _
  rw [decidePending_undecided s q hq.1 (waits_undecided hq)]

/-! ### The tests of a frame at its end -/

theorem word16_eq_zero_iff (w : Word16) : w = 0 ↔ w.toNat = 0 :=
  ⟨fun h => by rw [h]; rfl, fun h => BitVec.eq_of_toNat_eq h⟩

theorem consistent_iff (len : Word16) (n : Nat) :
    consistent len n = true ↔ n = if len.toNat = 0 then 12 else 16 + len.toNat := by
  simp only [consistent, decide_eq_true_eq, word16_eq_zero_iff]

theorem payloadIntact_iff (len : Word16) (body : List Byte) :
    payloadIntact len body = true ↔ (len = 0 ∨ word32At body len.toNat = crc32 (body.take len.toNat)) := by
  simp [payloadIntact]

theorem kindOf_code (k : Kind) : kindOf k.code = some k := by cases k <;> decide

theorem kindOf_eq_some (b : Byte) (k : Kind) : kindOf b = some k ↔ b = k.code := by
  constructor
  · intro h
    have := List.find?_some h
    simpa [eq_comm] using this
  · rintro rfl; exact kindOf_code k

/-! ### A symbol taken in UP -/

theorem exec_symbolInUp (s : State) (sym : Symbol) (h : s.rx.state = .up) (hr : s.resetLow = false) :
    exec (.symbolInUp sym) s = outcome (takeInUp sym s) := by
  simp only [exec, execSymbolInUp]
  exact if_pos ⟨h, by simp [hr]⟩

/-- Outside any frame, with nothing handed over. -/
theorem exec_symbolInUp_idle (s t : State) (sym : Symbol) (hs : s.receiving) (hr : s.rau.reception = none)
    (h : symbolToRau sym s = .ok t) : exec (.symbolInUp sym) s = .next (countInUp sym t) := by
  rw [exec_symbolInUp s sym hs.1 hs.2.1, takeInUp, settle_idle s hs.2.2 hr, h]; rfl

/-- Inside a frame whose header decision is not due. -/
theorem exec_symbolInUp_frame (s t : State) (sym : Symbol) (q : Reception) (hs : s.receiving)
    (hr : s.rau.reception = some q) (hq : q.undecided = false) (h : symbolToRau sym s = .ok t) :
    exec (.symbolInUp sym) s = .next (countInUp sym t) := by
  rw [exec_symbolInUp s sym hs.1 hs.2.1, takeInUp, settle_decided s q hs.2.2 hr hq, h]; rfl

theorem exec_quietTimerExpiry (s : State) (h : s.rx.state ≠ .down) (hq : s.rx.quiet.isSome = true) :
    exec .quietTimerExpiry s = .next (linkDown (settle s)) := by
  simp only [exec, execQuietTimerExpiry]
  exact if_pos ⟨h, hq⟩

/-! ### What the loss of the link and the counting of a symbol leave as they are -/

theorem abandon_eq (r : Rau) : abandon r =
    { r with reception := none, passFifo := (abandon r).passFifo, handover := (abandon r).handover } := by
  unfold abandon
  split
  · cases r; simp_all
  · split
    · rfl
    · unfold Rau.handing; split <;> split <;> rfl

theorem linkDown_eq (s : State) : linkDown s =
    { s with rx := Receiver.reset, log := (linkDown s).log, rau := (linkDown s).rau } := by
  unfold linkDown; split <;> rfl

theorem linkDown_rau (s : State) : (linkDown s).rau = if s.rx.state = .up then abandon s.rau else s.rau := by
  unfold linkDown; split <;> rfl

theorem linkDown_log (s : State) : (linkDown s).log = if s.rx.state = .up then postTo s.log .linkDown else s.log := by
  unfold linkDown; split <;> rfl

theorem countInUp_def (sym : Symbol) (s : State) : countInUp sym s =
    if Config.codeErrorLimit ≤ (s.rx.count sym).errors then linkDown s else setRx (s.rx.count sym).endSpan s := rfl

theorem countInUp_cases (sym : Symbol) (s : State) :
    countInUp sym s = linkDown s ∨ countInUp sym s = setRx (s.rx.count sym).endSpan s := by
  rw [countInUp_def]; split
  · exact .inl rfl
  · exact .inr rfl

theorem countInUp_eq (sym : Symbol) (s : State) : countInUp sym s =
    { s with rx := (countInUp sym s).rx, log := (countInUp sym s).log, rau := (countInUp sym s).rau } := by
  rcases countInUp_cases sym s with h | h <;> rw [h]
  · rw [linkDown_eq]
  · rfl

@[simp] theorem linkDown_pending (s : State) : (linkDown s).pending = s.pending := by rw [linkDown_eq]
@[simp] theorem linkDown_resetLow (s : State) : (linkDown s).resetLow = s.resetLow := by rw [linkDown_eq]
@[simp] theorem linkDown_straps (s : State) : (linkDown s).straps = s.straps := by rw [linkDown_eq]
@[simp] theorem linkDown_refclk (s : State) : (linkDown s).refclk = s.refclk := by rw [linkDown_eq]
@[simp] theorem linkDown_tx (s : State) : (linkDown s).tx = s.tx := by rw [linkDown_eq]
@[simp] theorem linkDown_ringOut (s : State) : (linkDown s).ringOut = s.ringOut := by rw [linkDown_eq]
@[simp] theorem linkDown_slots (s : State) : (linkDown s).slots = s.slots := by rw [linkDown_eq]
@[simp] theorem linkDown_tagCounter (s : State) : (linkDown s).tagCounter = s.tagCounter := by rw [linkDown_eq]
@[simp] theorem linkDown_rrPointer (s : State) : (linkDown s).rrPointer = s.rrPointer := by rw [linkDown_eq]
@[simp] theorem linkDown_ports (s : State) : (linkDown s).ports = s.ports := by rw [linkDown_eq]
@[simp] theorem linkDown_peers (s : State) : (linkDown s).peers = s.peers := by rw [linkDown_eq]
@[simp] theorem linkDown_rollCall (s : State) : (linkDown s).rollCall = s.rollCall := by rw [linkDown_eq]
@[simp] theorem linkDown_mem (s : State) : (linkDown s).mem = s.mem := by rw [linkDown_eq]
@[simp] theorem linkDown_commandFifo (s : State) : (linkDown s).commandFifo = s.commandFifo := by rw [linkDown_eq]
@[simp] theorem linkDown_logCopied (s : State) : (linkDown s).logCopied = s.logCopied := by rw [linkDown_eq]
@[simp] theorem linkDown_spi (s : State) : (linkDown s).spi = s.spi := by rw [linkDown_eq]
@[simp] theorem linkDown_freeNext (s : State) : (linkDown s).freeNext = s.freeNext := by rw [linkDown_eq]

@[simp] theorem countInUp_pending (sym : Symbol) (s : State) : (countInUp sym s).pending = s.pending := by rw [countInUp_eq]
@[simp] theorem countInUp_resetLow (sym : Symbol) (s : State) : (countInUp sym s).resetLow = s.resetLow := by rw [countInUp_eq]
@[simp] theorem countInUp_straps (sym : Symbol) (s : State) : (countInUp sym s).straps = s.straps := by rw [countInUp_eq]
@[simp] theorem countInUp_refclk (sym : Symbol) (s : State) : (countInUp sym s).refclk = s.refclk := by rw [countInUp_eq]
@[simp] theorem countInUp_tx (sym : Symbol) (s : State) : (countInUp sym s).tx = s.tx := by rw [countInUp_eq]
@[simp] theorem countInUp_ringOut (sym : Symbol) (s : State) : (countInUp sym s).ringOut = s.ringOut := by rw [countInUp_eq]
@[simp] theorem countInUp_slots (sym : Symbol) (s : State) : (countInUp sym s).slots = s.slots := by rw [countInUp_eq]
@[simp] theorem countInUp_tagCounter (sym : Symbol) (s : State) : (countInUp sym s).tagCounter = s.tagCounter := by rw [countInUp_eq]
@[simp] theorem countInUp_rrPointer (sym : Symbol) (s : State) : (countInUp sym s).rrPointer = s.rrPointer := by rw [countInUp_eq]
@[simp] theorem countInUp_ports (sym : Symbol) (s : State) : (countInUp sym s).ports = s.ports := by rw [countInUp_eq]
@[simp] theorem countInUp_peers (sym : Symbol) (s : State) : (countInUp sym s).peers = s.peers := by rw [countInUp_eq]
@[simp] theorem countInUp_rollCall (sym : Symbol) (s : State) : (countInUp sym s).rollCall = s.rollCall := by rw [countInUp_eq]
@[simp] theorem countInUp_mem (sym : Symbol) (s : State) : (countInUp sym s).mem = s.mem := by rw [countInUp_eq]
@[simp] theorem countInUp_commandFifo (sym : Symbol) (s : State) : (countInUp sym s).commandFifo = s.commandFifo := by rw [countInUp_eq]
@[simp] theorem countInUp_logCopied (sym : Symbol) (s : State) : (countInUp sym s).logCopied = s.logCopied := by rw [countInUp_eq]
@[simp] theorem countInUp_spi (sym : Symbol) (s : State) : (countInUp sym s).spi = s.spi := by rw [countInUp_eq]
@[simp] theorem countInUp_freeNext (sym : Symbol) (s : State) : (countInUp sym s).freeNext = s.freeNext := by rw [countInUp_eq]

@[simp] theorem abandon_output (r : Rau) : (abandon r).output = r.output := by rw [abandon_eq]
@[simp] theorem abandon_gap (r : Rau) : (abandon r).gap = r.gap := by rw [abandon_eq]
@[simp] theorem abandon_controlQueue (r : Rau) : (abandon r).controlQueue = r.controlQueue := by rw [abandon_eq]
@[simp] theorem abandon_dataQueue (r : Rau) : (abandon r).dataQueue = r.dataQueue := by rw [abandon_eq]
@[simp] theorem abandon_marking (r : Rau) : (abandon r).marking = r.marking := by rw [abandon_eq]
@[simp] theorem abandon_threshold (r : Rau) : (abandon r).threshold = r.threshold := by rw [abandon_eq]
@[simp] theorem abandon_inHold (r : Rau) : (abandon r).inHold = r.inHold := by rw [abandon_eq]
@[simp] theorem abandon_holdTimer (r : Rau) : (abandon r).holdTimer = r.holdTimer := by rw [abandon_eq]

@[simp] theorem abandon_reception (r : Rau) : (abandon r).reception = none := by rw [abandon_eq]

end Sys2Proof.Machine
end

