-- ==== Sys2Proof/Laws/Engines.lean ====
section
/-! SUPPORT. What the engines' shared operations do: the taking of a frame, the port and the slot it concerns, banks, the
classes of a block, and the endings of a binding and of a run. -/

namespace Sys2Proof.Machine

open Sys2Proof

/-! ### Numbers that name a table entry -/

theorem portNumber_eq_some {b : Byte} {i : Fin 8} : portNumber b = some i ↔ b.toNat = i.val := by
  unfold portNumber
  split
  · simp [Fin.ext_iff]
  · simp; omega

theorem portNumber_eq_none {b : Byte} : portNumber b = none ↔ 8 ≤ b.toNat := by
  unfold portNumber; split <;> simp <;> omega

theorem slotNumber_eq_some {b : Byte} {i : Fin 8} : slotNumber b = some i ↔ b.toNat = i.val := portNumber_eq_some

theorem slotNumber_eq_none {b : Byte} : slotNumber b = none ↔ 8 ≤ b.toNat := portNumber_eq_none

theorem stationNumber_eq_some {b : Byte} {i : Fin 16} : stationNumber b = some i ↔ b.toNat = i.val := by
  unfold stationNumber
  split
  · simp [Fin.ext_iff]
  · simp; omega

theorem stationNumber_eq_none {b : Byte} : stationNumber b = none ↔ 16 ≤ b.toNat := by
  unfold stationNumber; split <;> simp <;> omega

theorem portOf_out {b : Byte} (s : State) (h : 8 ≤ b.toNat) : portOf b s = none := by
  simp only [portOf, portNumber_eq_none.2 h]

theorem portOf_at {b : Byte} (s : State) {i : Fin 8} (h : b.toNat = i.val) :
    portOf b s = (s.ports[i]).map fun p => (i, p) := by
  simp only [portOf, portNumber_eq_some.2 h]

theorem portOf_closed {b : Byte} (s : State) {i : Fin 8} (h : b.toNat = i.val) (hp : s.ports[i] = none) :
    portOf b s = none := by
  rw [portOf_at s h, hp]; rfl

theorem portOf_open {b : Byte} (s : State) {i : Fin 8} {p : OpenPort} (h : b.toNat = i.val) (hp : s.ports[i] = some p) :
    portOf b s = some (i, p) := by
  rw [portOf_at s h, hp]; rfl

/-- What `portOf` finds. -/
theorem portOf_eq_some {b : Byte} {s : State} {i : Fin 8} {p : OpenPort} (h : portOf b s = some (i, p)) :
    b.toNat = i.val ∧ s.ports[i] = some p := by
  unfold portOf at h
  split at h
  · rename_i j hj
    rw [Option.map_eq_some_iff] at h
    obtain ⟨q, hq, he⟩ := h
    cases he
    exact ⟨portNumber_eq_some.1 hj, hq⟩
  · cases h

/-! ### The taking of what was handed over -/

theorem delivered_eq (f : State → State) (s : State) (h : s.rollCall.silent = false) :
    delivered f s = f (clearHandover s) := by
  unfold delivered; rw [if_neg (by simp [h])]

theorem delivered_silent (f : State → State) (s : State) (h : s.rollCall.silent = true) :
    delivered f s = clearHandover s := by
  unfold delivered; rw [if_pos h]

theorem exec_openFrame {s : State} {h : Header} {x : List Byte} (hs : s.hands (.frame .open_ h x)) :
    exec .openFrame s = .next (openReaches h x (clearHandover s)) := by
  simp only [exec, execOpenFrame, hs.1, delivered_eq _ s hs.2]

theorem exec_finishFrame {s : State} {h : Header} {x : List Byte} (hs : s.hands (.frame .finish h x)) :
    exec .finishFrame s = .next (finishReaches h x (clearHandover s)) := by
  simp only [exec, execFinishFrame, hs.1, delivered_eq _ s hs.2]

theorem exec_cancelFrame {s : State} {h : Header} {x : List Byte} (hs : s.hands (.frame .cancel h x)) :
    exec .cancelFrame s = .next (cancelReaches h (clearHandover s)) := by
  simp only [exec, execCancelFrame, hs.1, delivered_eq _ s hs.2]

theorem exec_grantFrame {s : State} {h : Header} {x : List Byte} (hs : s.hands (.frame .grant h x)) :
    exec .grantFrame s = .next (grantReaches h x (clearHandover s)) := by
  simp only [exec, execGrantFrame, hs.1, delivered_eq _ s hs.2]

theorem exec_refuseFrame {s : State} {h : Header} {x : List Byte} (hs : s.hands (.frame .refuse h x)) :
    exec .refuseFrame s = .next (refuseReaches h x (clearHandover s)) := by
  simp only [exec, execRefuseFrame, hs.1, delivered_eq _ s hs.2]

theorem exec_takenFrame {s : State} {h : Header} {x : List Byte} (hs : s.hands (.frame .taken h x)) :
    exec .takenFrame s = .next (takenReaches h (clearHandover s)) := by
  simp only [exec, execTakenFrame, hs.1, delivered_eq _ s hs.2]

theorem exec_resumeFrame {s : State} {h : Header} {x : List Byte} (hs : s.hands (.frame .resume h x)) :
    exec .resumeFrame s = .next (resumeReaches h (clearHandover s)) := by
  simp only [exec, execResumeFrame, hs.1, delivered_eq _ s hs.2]

theorem exec_busyFrame {s : State} {h : Header} {x : List Byte} (hs : s.hands (.frame .busy h x)) :
    exec .busyFrame s = .next (busyReaches h (clearHandover s)) := by
  simp only [exec, execBusyFrame, hs.1, delivered_eq _ s hs.2]

theorem exec_haltedFrame {s : State} {h : Header} {x : List Byte} (hs : s.hands (.frame .halted h x)) :
    exec .haltedFrame s = .next (haltedReaches h x (clearHandover s)) := by
  simp only [exec, execHaltedFrame, hs.1, delivered_eq _ s hs.2]

theorem exec_closedFrame {s : State} {h : Header} {x : List Byte} (hs : s.hands (.frame .closed h x)) :
    exec .closedFrame s = .next (closedReaches h x (clearHandover s)) := by
  simp only [exec, execClosedFrame, hs.1, delivered_eq _ s hs.2]

theorem exec_blockFrame {s : State} {h : Header} {c : BlockClass} {e : BlockEnd} (hs : s.hands (.block h c e)) :
    exec .blockFrame s = .next (blockEnds h c e (clearHandover s)) := by
  simp only [exec, execBlockFrame, hs.1, delivered_eq _ s hs.2]

theorem exec_returnedFrame {s : State} {h : Header} (hs : s.hands (.returned h)) :
    exec .returnedFrame s = .next (returnedReaches h (clearHandover s)) := by
  simp only [exec, execReturnedFrame, hs.1, delivered_eq _ s hs.2]

theorem exec_rollFrame {s : State} {h : Header} {x : List Byte} (hs : s.rau.handover = some (.roll h x)) :
    exec .rollFrame s = .next (rollReaches h x (clearHandover s)) := by
  simp only [exec, execRollFrame, hs]

theorem exec_ownBeacon {s : State} {h : Header} {x : List Byte} (hs : s.rau.handover = some (.ownRoll h x)) :
    exec .ownBeacon s = .next (ownRollReaches x (clearHandover s)) := by
  simp only [exec, execOwnBeacon, hs]

/-! ### Banks -/

@[simp] theorem bank_setBank_self (p : OpenPort) (k : BankId) (b : Bank) : (p.setBank k b).bank k = b := by
  cases k <;> rfl

@[simp] theorem bank_setBank_other (p : OpenPort) (k : BankId) (b : Bank) :
    (p.setBank k b).bank k.other = p.bank k.other := by
  cases k <;> rfl

@[simp] theorem setBank_maxSize (p : OpenPort) (k : BankId) (b : Bank) : (p.setBank k b).maxSize = p.maxSize := by
  cases k <;> rfl

@[simp] theorem setBank_maxWindow (p : OpenPort) (k : BankId) (b : Bank) : (p.setBank k b).maxWindow = p.maxWindow := by
  cases k <;> rfl

@[simp] theorem setBank_mode (p : OpenPort) (k : BankId) (b : Bank) : (p.setBank k b).mode = p.mode := by
  cases k <;> rfl

@[simp] theorem setBank_note (p : OpenPort) (k : BankId) (b : Bank) : (p.setBank k b).note = p.note := by
  cases k <;> rfl

theorem isFree_iff (b : Bank) : b.isFree = true ↔ b.content = .free := by
  unfold Bank.isFree; split <;> simp_all

theorem isFull_iff (b : Bank) : b.isFull = true ↔ ∃ o fill, b.content = .full o fill := by
  unfold Bank.isFull; split <;> simp_all

theorem isOf_iff (b : Binding) (source tag : Byte) : b.isOf source tag = true ↔ b.source = source ∧ b.tag = tag := by
  simp [Binding.isOf]

theorem boundTo_iff (source tag : Byte) (p : Port) : boundTo source tag p = true ↔ bindsTo p source tag := by
  unfold boundTo bindsTo
  split
  · split
    · rename_i q b c d hq
      rw [isOf_iff]
      constructor
      · rintro ⟨h1, h2⟩; exact ⟨_, _, _, _, rfl, hq, h1, h2⟩
      · rintro ⟨q', b', c', d', he, hm, h1, h2⟩
        cases he
        rw [hq] at hm
        cases hm
        exact ⟨h1, h2⟩
    all_goals
      rename_i q hq
      simp only [Bool.false_eq_true, false_iff]
      rintro ⟨q', b', c', d', he, hm, h1, h2⟩
      cases he
      rw [hq] at hm
      cases hm
  · simp

theorem boundElsewhere_iff (i : Fin 8) (source tag : Byte) (s : State) :
    boundElsewhere i source tag s = true ↔ ∃ j : Fin 8, j ≠ i ∧ bindsTo s.ports[j] source tag := by
  unfold boundElsewhere
  rw [List.any_eq_true]
  constructor
  · rintro ⟨j, -, hj⟩
    simp only [Bool.and_eq_true, decide_eq_true_iff, boundTo_iff] at hj
    exact ⟨j, hj⟩
  · rintro ⟨j, h1, h2⟩
    refine ⟨j, by fin_cases j <;> decide, ?_⟩
    simp only [Bool.and_eq_true, decide_eq_true_iff, boundTo_iff]
    exact ⟨h1, h2⟩

/-! ### The slot of a reply -/

/-- The first of a rising list that a test answers for. -/
theorem findSome?_sorted {α : Type} (f : Fin 8 → Option α) (l : List (Fin 8)) (hl : l.Pairwise (· < ·)) (x : α) (i : Fin 8)
    (hf : ∀ j y, f j = some y → y = x → j = i) :
    l.findSome? f = some x ↔ i ∈ l ∧ f i = some x ∧ ∀ j ∈ l, j < i → f j = none := by
  induction l with
  | nil => simp
  | cons a l ih =>
    rw [List.pairwise_cons] at hl
    rw [List.findSome?_cons]
    cases ha : f a with
    | some y =>
      simp only [Option.some.injEq]
      constructor
      · rintro rfl
        have := hf a y ha rfl
        subst this
        refine ⟨by simp, ha, ?_⟩
        intro j hj hlt
        rcases List.mem_cons.1 hj with rfl | hj
        · omega
        · have := hl.1 j hj; omega
      · rintro ⟨hm, h1, h2⟩
        rcases List.mem_cons.1 hm with rfl | hm
        · rw [ha] at h1; cases h1; rfl
        · have := h2 a (by simp) (hl.1 i hm)
          rw [ha] at this; cases this
    | none =>
      simp only
      rw [ih hl.2]
      constructor
      · rintro ⟨hm, h1, h2⟩
        refine ⟨by simp [hm], h1, ?_⟩
        intro j hj hlt
        rcases List.mem_cons.1 hj with rfl | hj
        · exact ha
        · exact h2 j hj hlt
      · rintro ⟨hm, h1, h2⟩
        rcases List.mem_cons.1 hm with rfl | hm
        · rw [ha] at h1; cases h1
        · exact ⟨hm, h1, fun j hj => h2 j (by simp [hj])⟩

theorem mem_slotNumbers (i : Fin 8) : i ∈ slotNumbers := by fin_cases i <;> decide

theorem mem_portNumbers (i : Fin 8) : i ∈ portNumbers := by fin_cases i <;> decide

theorem mem_stationNumbers (i : Fin 16) : i ∈ stationNumbers := by fin_cases i <;> decide

theorem slotNumbers_nodup : slotNumbers.Nodup := by decide

theorem portNumbers_nodup : portNumbers.Nodup := by decide

theorem stationNumbers_nodup : stationNumbers.Nodup := by decide

theorem slotNumbers_sorted : slotNumbers.Pairwise (· < ·) := by decide

/-- The slot that a reply concerns: the lowest-numbered match (R19). -/
theorem findRun_eq_some {station port tag : Byte} {s : State} {i : Fin 8} {r : Run} :
    findRun station port tag s = some (i, r) ↔
      s.slots[i] = some r ∧ (r.dest = station ∧ r.port = port ∧ r.tag = tag) ∧
        ∀ (j : Fin 8) (q : Run), j < i → s.slots[j] = some q → ¬(q.dest = station ∧ q.port = port ∧ q.tag = tag) := by
  unfold findRun
  rw [findSome?_sorted _ _ slotNumbers_sorted (i, r) i]
  · constructor
    · rintro ⟨-, h1, h2⟩
      split at h1
      · rename_i q hq
        split at h1
        · rename_i hm
          cases h1
          refine ⟨hq, hm, ?_⟩
          intro j p hj hp hmp
          have := h2 j (mem_slotNumbers j) hj
          simp only [hp, if_pos hmp] at this
          cases this
        · cases h1
      · cases h1
    · rintro ⟨h1, h2, h3⟩
      refine ⟨mem_slotNumbers i, ?_, ?_⟩
      · simp only [h1, if_pos h2]
      · intro j _ hj
        split
        · rename_i q hq
          rw [if_neg (h3 j q hj hq)]
        · rfl
  · intro j y hy he
    subst he
    split at hy
    · split at hy
      · cases hy; rfl
      · cases hy
    · cases hy

theorem findRun_eq_none {station port tag : Byte} {s : State} :
    findRun station port tag s = none ↔
      ∀ (j : Fin 8) (q : Run), s.slots[j] = some q → ¬(q.dest = station ∧ q.port = port ∧ q.tag = tag) := by
  unfold findRun
  rw [List.findSome?_eq_none_iff]
  constructor
  · intro h j q hj hm
    have := h j (mem_slotNumbers j)
    simp only [hj, if_pos hm] at this
    cases this
  · intro h j _
    split
    · rename_i q hj
      rw [if_neg (h j q hj)]
    · rfl

/-- A reply at the slot it concerns. -/
theorem replyReaches_at (f : Fin 8 → Run → State → State) (h : Header) (s : State) {i : Fin 8} {r : Run}
    (hf : findRun h.src h.port h.tag s = some (i, r)) (hr : r.phase ≠ .ending) : replyReaches f h s = f i r s := by
  rw [replyReaches, hf]; exact if_neg hr

theorem replyReaches_ending (f : Fin 8 → Run → State → State) (h : Header) (s : State) {i : Fin 8} {r : Run}
    (hf : findRun h.src h.port h.tag s = some (i, r)) (hr : r.phase = .ending) : replyReaches f h s = s := by
  rw [replyReaches, hf]; exact if_pos hr

theorem replyReaches_none (f : Fin 8 → Run → State → State) (h : Header) (s : State)
    (hf : findRun h.src h.port h.tag s = none) : replyReaches f h s = s := by
  rw [replyReaches, hf]

/-- Everything a reply can do. -/
theorem replyReaches_cases (f : Fin 8 → Run → State → State) (h : Header) (s : State) :
    replyReaches f h s = s ∨ ∃ i r, findRun h.src h.port h.tag s = some (i, r) ∧ r.phase ≠ .ending ∧
      replyReaches f h s = f i r s := by
  cases hf : findRun h.src h.port h.tag s with
  | none => exact .inl (replyReaches_none f h s hf)
  | some x =>
    by_cases he : x.2.phase = .ending
    · exact .inl (replyReaches_ending f h s hf he)
    · exact .inr ⟨x.1, x.2, rfl, he, replyReaches_at f h s hf he⟩

@[simp] theorem findRun_clearHandover (station port tag : Byte) (s : State) :
    findRun station port tag (clearHandover s) = findRun station port tag s := rfl

/-! ### The data-queue arbiter -/

theorem arbiterOrder_eq (p : Fin 8) : arbiterOrder p =
    [p + 1 + 0, p + 1 + 1, p + 1 + 2, p + 1 + 3, p + 1 + 4, p + 1 + 5, p + 1 + 6, p + 1 + 7] := by
  revert p; decide

/-- The arbiter takes the first slot, upward from the one after its pointer, for which the test answers (R24). -/
theorem arbiter_first {α : Type} (f : Fin 8 → Option α) (p i : Fin 8) (x : α) (hi : f i = some x)
    (hj : ∀ j : Fin 8, j - (p + 1) < i - (p + 1) → f j = none) : (arbiterOrder p).findSome? f = some x := by
  obtain ⟨k, rfl⟩ : ∃ k, i = p + 1 + k := ⟨i - (p + 1), by simp⟩
  have h : ∀ m : Fin 8, m < k → f (p + 1 + m) = none := fun m hm => hj _ (by simpa using hm)
  rw [arbiterOrder_eq]
  have h0 := h 0; have h1 := h 1; have h2 := h 2; have h3 := h 3; have h4 := h 4; have h5 := h 5; have h6 := h 6
  clear h hj
  generalize p + 1 = a at *
  fin_cases k <;> simp only [List.findSome?_cons] <;> simp_all (decide := true)

theorem arbiter_none {α : Type} (f : Fin 8 → Option α) (p : Fin 8) (hj : ∀ j : Fin 8, f j = none) :
    (arbiterOrder p).findSome? f = none := by
  rw [List.findSome?_eq_none_iff]; exact fun j _ => hj j

/-- Whatever the arbiter takes is a wanting slot. -/
theorem nextWanting_some {s : State} {i : Fin 8} {r : Run} (h : nextWanting s = some (i, r)) :
    s.slots[i] = some r ∧ r.wants = true := by
  unfold nextWanting at h
  obtain ⟨j, -, hj⟩ := List.exists_of_findSome?_eq_some h
  split at hj
  · rename_i q hq
    split at hj
    · cases hj; exact ⟨hq, by assumption⟩
    · cases hj
  · cases hj

end Sys2Proof.Machine
end

