-- ==== Sys2Proof/Laws/RollCall.lean ====
section
/-! SUPPORT. What the Roll Call Unit's shared operations do: the runs and bindings that one event ends, the order of the
records it posts, the presence check and the beacon. -/

namespace Sys2Proof.Machine

open Sys2Proof

/-! ### Runs that one event ends (R44, R45) -/

/-- The run of a slot that an event ends. -/
def endsAt (test : Run → Bool) (slot : Slot) : Bool :=
  match slot with
  | some r => r.phase ≠ .ending && test r
  | none => false

/-- What the ending procedure leaves in a slot. -/
def endedSlot (inserting : Bool) (result : RunResult) (slot : Slot) : Slot :=
  match slot with
  | some r => if inserting then some { r.stopped with phase := .ending, owed := some (result, none) } else none
  | none => none

/-- The record that the ending procedure posts at once. -/
def endedRecords (i : Fin 8) (inserting : Bool) (result : RunResult) (slot : Slot) : List Record :=
  match slot with
  | some r => if inserting then [] else [r.endRecord i result none]
  | none => []

theorem endRun_eq (i : Fin 8) (r : Run) (result : RunResult) (reason : Option Byte) (s : State) :
    (endRun i r result reason s).1 = setSlot i (if beingInserted i s then
      some { r.stopped with phase := .ending, owed := some (result, reason) } else none) (purge i s) := by
  unfold endRun; split <;> rfl

theorem beingInserted_congr {s t : State} (h : t.rau.output = s.rau.output) (i : Fin 8) :
    beingInserted i t = beingInserted i s := by
  simp only [beingInserted, h]

/-- What a list of endings leaves as it is. -/
structure KeptByEndings (s t : State) : Prop where
  pending : t.pending = s.pending
  resetLow : t.resetLow = s.resetLow
  straps : t.straps = s.straps
  refclk : t.refclk = s.refclk
  rx : t.rx = s.rx
  tx : t.tx = s.tx
  ringOut : t.ringOut = s.ringOut
  reception : t.rau.reception = s.rau.reception
  handover : t.rau.handover = s.rau.handover
  passFifo : t.rau.passFifo = s.rau.passFifo
  output : t.rau.output = s.rau.output
  gap : t.rau.gap = s.rau.gap
  controlQueue : t.rau.controlQueue = s.rau.controlQueue
  inHold : t.rau.inHold = s.rau.inHold
  holdTimer : t.rau.holdTimer = s.rau.holdTimer
  tagCounter : t.tagCounter = s.tagCounter
  rrPointer : t.rrPointer = s.rrPointer
  rollCall : t.rollCall = s.rollCall
  mem : t.mem = s.mem
  commandFifo : t.commandFifo = s.commandFifo
  log : t.log = s.log
  logCopied : t.logCopied = s.logCopied
  spi : t.spi = s.spi
  drive : t.drive = s.drive
  freeNext : t.freeNext = s.freeNext
  dataQueue : t.rau.dataQueue.Sublist s.rau.dataQueue

theorem KeptByEndings.refl (s : State) : KeptByEndings s s := by constructor <;> rfl

theorem KeptByEndings.trans {s t u : State} (h : KeptByEndings s t) (k : KeptByEndings t u) : KeptByEndings s u := by
  constructor
  · exact k.pending.trans h.pending
  · exact k.resetLow.trans h.resetLow
  · exact k.straps.trans h.straps
  · exact k.refclk.trans h.refclk
  · exact k.rx.trans h.rx
  · exact k.tx.trans h.tx
  · exact k.ringOut.trans h.ringOut
  · exact k.reception.trans h.reception
  · exact k.handover.trans h.handover
  · exact k.passFifo.trans h.passFifo
  · exact k.output.trans h.output
  · exact k.gap.trans h.gap
  · exact k.controlQueue.trans h.controlQueue
  · exact k.inHold.trans h.inHold
  · exact k.holdTimer.trans h.holdTimer
  · exact k.tagCounter.trans h.tagCounter
  · exact k.rrPointer.trans h.rrPointer
  · exact k.rollCall.trans h.rollCall
  · exact k.mem.trans h.mem
  · exact k.commandFifo.trans h.commandFifo
  · exact k.log.trans h.log
  · exact k.logCopied.trans h.logCopied
  · exact k.spi.trans h.spi
  · exact k.drive.trans h.drive
  · exact k.freeNext.trans h.freeNext
  · exact k.dataQueue.trans h.dataQueue

theorem KeptByEndings.purge (i : Fin 8) (s : State) : KeptByEndings s (purge i s) := by
  constructor <;> simp

theorem KeptByEndings.setSlot (i : Fin 8) (r : Slot) (s : State) : KeptByEndings s (setSlot i r s) := by
  constructor <;> rfl

theorem KeptByEndings.setPort (i : Fin 8) (p : Port) (s : State) : KeptByEndings s (setPort i p s) := by
  constructor <;> rfl

theorem KeptByEndings.setPeer (i : Fin 16) (p : Peer) (s : State) : KeptByEndings s (setPeer i p s) := by
  constructor <;> rfl

/-- One ending in a list of endings. -/
theorem endRunIf_spec (test : Run → Bool) (result : RunResult) (acc : State × List Record) (i : Fin 8) :
    let t := (endRunIf test result acc i).1
    KeptByEndings acc.1 t ∧ t.ports = acc.1.ports ∧ t.peers = acc.1.peers ∧
      (∀ j : Fin 8, t.slots[j] = if i = j ∧ endsAt test acc.1.slots[i] = true then
        endedSlot (beingInserted i acc.1) result acc.1.slots[i] else acc.1.slots[j]) ∧
      (endRunIf test result acc i).2 = acc.2 ++ (if endsAt test acc.1.slots[i] = true then
        endedRecords i (beingInserted i acc.1) result acc.1.slots[i] else []) := by
  unfold endRunIf
  cases hr : acc.1.slots[i] with
  | none => simp [endsAt, KeptByEndings.refl]
  | some r =>
    by_cases hc : r.phase ≠ .ending ∧ test r
    · have he : endsAt test (some r) = true := by simp [endsAt, hc.1, hc.2]
      dsimp only
      rw [if_pos hc]
      simp only [he, if_true, and_true]
      refine ⟨?_, ?_, ?_, ?_, ?_⟩
      · rw [endRun_eq]; exact (KeptByEndings.purge i acc.1).trans (.setSlot i _ _)
      · rw [endRun_eq]; rfl
      · rw [endRun_eq]; rfl
      · intro j
        rw [endRun_eq, setSlot_get]
        simp only [endedSlot]
        split <;> simp
      · simp only [endRun, endedRecords]
        split <;> rfl
    · have he : endsAt test (some r) = false := by
        simp only [endsAt, Bool.and_eq_false_iff, decide_eq_false_iff_not]
        by_cases h1 : r.phase = .ending
        · exact .inl (fun h => h h1)
        · exact .inr (by simpa [h1] using hc)
      dsimp only
      rw [if_neg hc]
      simp [he, KeptByEndings.refl]

theorem endRuns_fold (test : Run → Bool) (result : RunResult) (l : List (Fin 8)) (hl : l.Nodup)
    (acc : State × List Record) :
    let e := l.foldl (endRunIf test result) acc
    KeptByEndings acc.1 e.1 ∧ e.1.ports = acc.1.ports ∧ e.1.peers = acc.1.peers ∧
      (∀ j : Fin 8, e.1.slots[j] = if j ∈ l ∧ endsAt test acc.1.slots[j] = true then
        endedSlot (beingInserted j acc.1) result acc.1.slots[j] else acc.1.slots[j]) ∧
      e.2 = acc.2 ++ l.flatMap fun i => if endsAt test acc.1.slots[i] = true then
        endedRecords i (beingInserted i acc.1) result acc.1.slots[i] else [] := by
  induction l generalizing acc with
  | nil => simp [KeptByEndings.refl]
  | cons i l ih =>
    rw [List.nodup_cons] at hl
    obtain ⟨k1, p1, q1, s1, r1⟩ := endRunIf_spec test result acc i
    obtain ⟨k2, p2, q2, s2, r2⟩ := ih hl.2 (endRunIf test result acc i)
    have hb : ∀ j, beingInserted j (endRunIf test result acc i).1 = beingInserted j acc.1 :=
      fun j => beingInserted_congr k1.output j
    refine ⟨k1.trans k2, p2.trans p1, q2.trans q1, ?_, ?_⟩
    · intro j
      simp only [List.foldl_cons]
      rw [s2 j, hb j]
      by_cases hj : j = i
      · subst hj
        simp only [hl.1, false_and, if_false, List.mem_cons, true_or, true_and]
        rw [s1 j]; simp
      · have h1 := s1 j
        rw [if_neg (fun h => hj h.1.symm)] at h1
        rw [h1]
        simp [hj]
    · simp only [List.foldl_cons, List.flatMap_cons]
      rw [r2, r1, List.append_assoc]
      congr 1
      congr 1
      apply List.flatMap_congr
      intro j hj
      have hji : i ≠ j := fun h => hl.1 (h ▸ hj)
      have h1 := s1 j
      rw [if_neg (fun h => hji h.1)] at h1
      rw [h1, hb j]

/-- Everything `endRunsWhere` does. -/
theorem endRunsWhere_spec (test : Run → Bool) (result : RunResult) (s : State) :
    let e := endRunsWhere test result s
    KeptByEndings s e.1 ∧ e.1.ports = s.ports ∧ e.1.peers = s.peers ∧
      (∀ j : Fin 8, e.1.slots[j] = if endsAt test s.slots[j] = true then
        endedSlot (beingInserted j s) result s.slots[j] else s.slots[j]) ∧
      e.2 = slotNumbers.flatMap fun i => if endsAt test s.slots[i] = true then
        endedRecords i (beingInserted i s) result s.slots[i] else [] := by
  have h := endRuns_fold test result slotNumbers slotNumbers_nodup (s, [])
  have he : endRunsWhere test result s = slotNumbers.foldl (endRunIf test result) (s, []) := rfl
  generalize slotNumbers.foldl (endRunIf test result) (s, []) = e at h he
  obtain ⟨h1, h2, h3, h4, h5⟩ := h
  rw [he]
  exact ⟨h1, h2, h3, fun j => by rw [h4 j]; simp only [mem_slotNumbers, true_and], by rw [h5]; rfl⟩

/-! ### Bindings that one event ends (R72, R73) -/

/-- The binding of a port that an event ends. -/
def unbindsAt (test : Binding → Bool) (port : Port) : Bool :=
  match port with
  | some p =>
    match p.mode with
    | .bound b _ _ => test b
    | .listening | .halted => false
  | none => false

/-- What the end of its binding leaves of a port, and the records it posts. -/
def unboundPort (i : Fin 8) (result : PortResult) (port : Port) : Port × List Record :=
  match port with
  | some p =>
    match p.mode with
    | .bound b current _ =>
      let u := unbind i p b current result .listening
      (some u.1, u.2)
    | .listening | .halted => (some p, [])
  | none => (none, [])

theorem unbindIf_spec (test : Binding → Bool) (result : PortResult) (acc : State × List Record) (i : Fin 8) :
    let t := (unbindIf test result acc i).1
    KeptByEndings acc.1 t ∧ t.rau = acc.1.rau ∧ t.slots = acc.1.slots ∧ t.peers = acc.1.peers ∧
      (∀ j : Fin 8, t.ports[j] = if i = j ∧ unbindsAt test acc.1.ports[i] = true then
        (unboundPort i result acc.1.ports[i]).1 else acc.1.ports[j]) ∧
      (unbindIf test result acc i).2 = acc.2 ++ (if unbindsAt test acc.1.ports[i] = true then
        (unboundPort i result acc.1.ports[i]).2 else []) := by
  unfold unbindIf
  cases hp : acc.1.ports[i] with
  | none => simp [unbindsAt, KeptByEndings.refl]
  | some p =>
    cases hm : p.mode with
    | listening => simp [unbindsAt, hm, KeptByEndings.refl]
    | halted => simp [unbindsAt, hm, KeptByEndings.refl]
    | bound b current idle =>
      by_cases ht : test b = true
      · simp only [unbindsAt, hm, ht, if_true, and_true, unboundPort]
        refine ⟨.setPort i _ _, rfl, rfl, rfl, ?_⟩
        intro j
        rw [setPort_get]
      · simp [unbindsAt, hm, ht, KeptByEndings.refl]

theorem unbinds_fold (test : Binding → Bool) (result : PortResult) (l : List (Fin 8)) (hl : l.Nodup)
    (acc : State × List Record) :
    let e := l.foldl (unbindIf test result) acc
    KeptByEndings acc.1 e.1 ∧ e.1.rau = acc.1.rau ∧ e.1.slots = acc.1.slots ∧ e.1.peers = acc.1.peers ∧
      (∀ j : Fin 8, e.1.ports[j] = if j ∈ l ∧ unbindsAt test acc.1.ports[j] = true then
        (unboundPort j result acc.1.ports[j]).1 else acc.1.ports[j]) ∧
      e.2 = acc.2 ++ l.flatMap fun i => if unbindsAt test acc.1.ports[i] = true then
        (unboundPort i result acc.1.ports[i]).2 else [] := by
  induction l generalizing acc with
  | nil => simp [KeptByEndings.refl]
  | cons i l ih =>
    rw [List.nodup_cons] at hl
    obtain ⟨k1, a1, p1, q1, s1, r1⟩ := unbindIf_spec test result acc i
    obtain ⟨k2, a2, p2, q2, s2, r2⟩ := ih hl.2 (unbindIf test result acc i)
    refine ⟨k1.trans k2, a2.trans a1, p2.trans p1, q2.trans q1, ?_, ?_⟩
    · intro j
      simp only [List.foldl_cons]
      rw [s2 j]
      by_cases hj : j = i
      · subst hj
        simp only [hl.1, false_and, if_false, List.mem_cons, true_or, true_and]
        rw [s1 j]; simp
      · have h1 := s1 j
        rw [if_neg (fun h => hj h.1.symm)] at h1
        rw [h1]
        simp [hj]
    · simp only [List.foldl_cons, List.flatMap_cons]
      rw [r2, r1, List.append_assoc]
      congr 1
      congr 1
      apply List.flatMap_congr
      intro j hj
      have hji : i ≠ j := fun h => hl.1 (h ▸ hj)
      have h1 := s1 j
      rw [if_neg (fun h => hji h.1)] at h1
      rw [h1]

/-- Everything `unbindWhere` does. -/
theorem unbindWhere_spec (test : Binding → Bool) (result : PortResult) (s : State) :
    let e := unbindWhere test result s
    KeptByEndings s e.1 ∧ e.1.rau = s.rau ∧ e.1.slots = s.slots ∧ e.1.peers = s.peers ∧
      (∀ j : Fin 8, e.1.ports[j] = if unbindsAt test s.ports[j] = true then
        (unboundPort j result s.ports[j]).1 else s.ports[j]) ∧
      e.2 = portNumbers.flatMap fun i => if unbindsAt test s.ports[i] = true then
        (unboundPort i result s.ports[i]).2 else [] := by
  have h := unbinds_fold test result portNumbers portNumbers_nodup (s, [])
  have he : unbindWhere test result s = portNumbers.foldl (unbindIf test result) (s, []) := rfl
  generalize portNumbers.foldl (unbindIf test result) (s, []) = e at h he
  obtain ⟨h1, h2, h3, h4, h5, h6⟩ := h
  rw [he]
  exact ⟨h1, h2, h3, h4, fun j => by rw [h5 j]; simp only [mem_portNumbers, true_and], by rw [h6]; rfl⟩

/-! ### No operation posts a LOG_OVERFLOW of its own (R165, R166) -/

/-- Records of the other kinds. -/
def PlainRecords (rs : List Record) : Prop := ∀ r ∈ rs, r.isOverflow = false

theorem plain_nil : PlainRecords [] := fun _ h => by cases h

theorem plain_one {r : Record} (h : r.isOverflow = false) : PlainRecords [r] := by
  intro x hx
  rw [List.mem_singleton] at hx
  rw [hx]; exact h

theorem PlainRecords.append {a b : List Record} (ha : PlainRecords a) (hb : PlainRecords b) : PlainRecords (a ++ b) := by
  intro r hr
  rcases List.mem_append.1 hr with h | h
  · exact ha r h
  · exact hb r h

theorem endRun_plain (i : Fin 8) (r : Run) (result : RunResult) (reason : Option Byte) (s : State) :
    PlainRecords (endRun i r result reason s).2 := by
  unfold endRun
  split
  · exact plain_nil
  · exact plain_one rfl

theorem unbind_plain (i : Fin 8) (p : OpenPort) (b : Binding) (c : Option BankId) (result : PortResult) (mode : PortMode) :
    PlainRecords (unbind i p b c result mode).2 := by
  unfold unbind closeCurrent closeBank
  dsimp only
  refine PlainRecords.append ?_ (plain_one rfl)
  split
  · exact plain_nil
  · dsimp only
    split
    · split
      · exact plain_nil
      · exact plain_one rfl
    all_goals exact plain_nil

theorem fillBank_plain (i : Fin 8) (p : OpenPort) (b : Binding) (k : BankId) (o : Owner) (fill : Nat) (idle : Timer) :
    PlainRecords (fillBank i p b k o fill idle).2 := by
  unfold fillBank
  dsimp only
  split
  · exact plain_nil
  · split <;> exact plain_one rfl

theorem rollRecords_plain (i : Fin 16) (state : PeerState) (a b c d : Byte) :
    PlainRecords (rollRecords i state a b c d) := by
  unfold rollRecords
  split
  · refine PlainRecords.append (PlainRecords.append (plain_one rfl) ?_) ?_ <;> split <;>
      first | exact plain_one rfl | exact plain_nil
  · refine PlainRecords.append ?_ ?_ <;> split <;> first | exact plain_one rfl | exact plain_nil
  · exact plain_nil

theorem endedRecords_plain (i : Fin 8) (inserting : Bool) (result : RunResult) (slot : Slot) :
    PlainRecords (endedRecords i inserting result slot) := by
  unfold endedRecords
  split
  · split
    · exact plain_nil
    · exact plain_one rfl
  · exact plain_nil

theorem unboundPort_plain (i : Fin 8) (result : PortResult) (port : Port) : PlainRecords (unboundPort i result port).2 := by
  unfold unboundPort
  split
  · split
    · exact unbind_plain _ _ _ _ _ .listening
    all_goals exact plain_nil
  · exact plain_nil

theorem flatMap_plain {α : Type} (l : List α) (f : α → List Record) (h : ∀ a, PlainRecords (f a)) :
    PlainRecords (l.flatMap f) := by
  intro r hr
  obtain ⟨a, -, ha⟩ := List.mem_flatMap.1 hr
  exact h a r ha

theorem endRunsWhere_plain (test : Run → Bool) (result : RunResult) (s : State) :
    PlainRecords (endRunsWhere test result s).2 := by
  rw [(endRunsWhere_spec test result s).2.2.2.2]
  refine flatMap_plain _ _ fun i => ?_
  split
  · exact endedRecords_plain _ _ _ _
  · exact plain_nil

theorem unbindWhere_plain (test : Binding → Bool) (result : PortResult) (s : State) :
    PlainRecords (unbindWhere test result s).2 := by
  rw [(unbindWhere_spec test result s).2.2.2.2.2]
  refine flatMap_plain _ _ fun i => ?_
  split
  · exact unboundPort_plain _ _ _
  · exact plain_nil

/-- A report leaves no LOG_OVERFLOW to be posted. -/
def Report.plain (p : Report) : Prop := p.record.isOverflow = false ∧ PlainRecords p.runs ∧ PlainRecords p.ports

/-! ### The order of the records of one event (log 8) -/

/-- The turn that `weave` takes. -/
theorem turn_mem (n : Nat) (ts : List Turn) (h : ts ≠ []) :
    (if ts.length ≤ 1 then ts.headD .rollCall else ts.getD (Config.postChoice n % ts.length) .rollCall) ∈ ts := by
  split
  · cases ts with
    | nil => exact absurd rfl h
    | cons a l => simp
  · have hlt : Config.postChoice n % ts.length < ts.length := Nat.mod_lt _ (by cases ts <;> simp_all)
    rw [List.getD_eq_getElem?_getD, List.getElem?_eq_getElem hlt]
    exact List.getElem_mem hlt

theorem turns_nil (reports : List Report) (runs ports : List Record) (h : turns reports runs ports = []) :
    reports = [] ∧ runs = [] ∧ ports = [] := by
  simp only [turns, List.append_eq_nil_iff] at h
  obtain ⟨⟨h1, h2⟩, h3⟩ := h
  refine ⟨?_, ?_, ?_⟩
  · cases reports <;> simp_all
  · cases runs <;> simp_all
  · cases ports <;> simp_all

theorem turns_mem {reports : List Report} {runs ports : List Record} {t : Turn} (h : t ∈ turns reports runs ports) :
    (t = .rollCall → reports ≠ []) ∧ (t = .runEngine → runs ≠ []) ∧ (t = .portEngine → ports ≠ []) := by
  cases reports <;> cases runs <;> cases ports <;> cases t <;> simp_all [turns]

theorem total_cons (p : Report) (l : List Report) :
    Report.total (p :: l) = 1 + p.runs.length + p.ports.length + Report.total l := by simp [Report.total]

/-- A record is one that an event leaves to be posted. -/
def Left (reports : List Report) (runs ports : List Record) (r : Record) : Prop :=
  (∃ p ∈ reports, r = p.record ∨ r ∈ p.runs ∨ r ∈ p.ports) ∨ r ∈ runs ∨ r ∈ ports

/-- Every record of one event is posted, and nothing else. -/
theorem weave_mem (fuel n : Nat) (reports : List Report) (runs ports : List Record)
    (h : Report.total reports + runs.length + ports.length ≤ fuel) (r : Record) :
    r ∈ (weave fuel n reports runs ports).1 ↔ Left reports runs ports r := by
  induction fuel generalizing n reports runs ports with
  | zero =>
    have h1 : reports = [] := by
      cases reports with
      | nil => rfl
      | cons p l => rw [total_cons] at h; omega
    have h2 : runs = [] := List.eq_nil_of_length_eq_zero (by omega)
    have h3 : ports = [] := List.eq_nil_of_length_eq_zero (by omega)
    subst h1 h2 h3
    simp [weave, Left]
  | succ fuel ih =>
    simp only [weave]
    generalize hn : (if (turns reports runs ports).length ≤ 1 then n else n + 1) = n'
    generalize ht : (if (turns reports runs ports).length ≤ 1 then (turns reports runs ports).headD .rollCall
      else (turns reports runs ports).getD (Config.postChoice n % (turns reports runs ports).length) .rollCall) = t
    by_cases he : turns reports runs ports = []
    · obtain ⟨h1, h2, h3⟩ := turns_nil _ _ _ he
      subst h1 h2 h3
      have : t = .rollCall := by rw [← ht]; rfl
      subst this
      simp [Left]
    · have hm := turn_mem n _ he
      rw [ht] at hm
      obtain ⟨m1, m2, m3⟩ := turns_mem hm
      clear ht hm he hn
      cases t with
      | rollCall =>
        cases reports with
        | nil => exact absurd rfl (m1 rfl)
        | cons p rest =>
          dsimp only
          rw [total_cons] at h
          rw [List.mem_cons, ih _ _ _ _ (by simp only [List.length_append]; omega)]
          simp only [Left, List.mem_append, List.mem_cons, exists_eq_or_imp]
          generalize (∃ p ∈ rest, r = p.record ∨ r ∈ p.runs ∨ r ∈ p.ports) = X
          grind
      | runEngine =>
        cases runs with
        | nil => exact absurd rfl (m2 rfl)
        | cons p rest =>
          dsimp only
          rw [List.mem_cons, ih _ _ _ _ (by simp only [List.length_cons] at h; omega)]
          simp only [Left, List.mem_cons]
          generalize (∃ p ∈ reports, r = p.record ∨ r ∈ p.runs ∨ r ∈ p.ports) = X
          grind
      | portEngine =>
        cases ports with
        | nil => exact absurd rfl (m3 rfl)
        | cons p rest =>
          dsimp only
          rw [List.mem_cons, ih _ _ _ _ (by simp only [List.length_cons] at h; omega)]
          simp only [Left, List.mem_cons]
          generalize (∃ p ∈ reports, r = p.record ∨ r ∈ p.runs ∨ r ∈ p.ports) = X
          grind

/-- A report with nothing before it is posted first. -/
theorem weave_head (fuel n : Nat) (p : Report) (rest : List Report) :
    ∃ rs, (weave (fuel + 1) n (p :: rest) [] []).1 = p.record :: rs := ⟨_, rfl⟩

/-- Everything `postReports` does: the records of the reports are posted, each of them and nothing else, the first
report's own record first. -/
theorem postReports_spec (reports : List Report) (s : State) :
    ∃ rs, postReports reports s =
        { s with log := rs.foldl postTo s.log, freeNext := (postReports reports s).freeNext } ∧
      (∀ r, r ∈ rs ↔ ∃ p ∈ reports, r = p.record ∨ r ∈ p.runs ∨ r ∈ p.ports) ∧
      (∀ p rest, reports = p :: rest → ∃ tail, rs = p.record :: tail) := by
  refine ⟨(weave (Report.total reports) s.freeNext reports [] []).1, rfl, ?_, ?_⟩
  · intro r
    rw [weave_mem _ _ _ _ _ (by simp)]
    simp [Left]
  · rintro p rest rfl
    have : Report.total (p :: rest) = (p.runs.length + p.ports.length + Report.total rest) + 1 := by
      rw [total_cons]; omega
    rw [this]
    exact weave_head _ _ _ _
/-! ### The presence check (R125, R126) -/

theorem endsAt_endedSlot (test : Run → Bool) (b : Bool) (result : RunResult) (slot : Slot) :
    endsAt test (endedSlot b result slot) = false := by
  cases slot <;> cases b <;> simp [endedSlot, endsAt]

theorem unbindsAt_unboundPort (test : Binding → Bool) (i : Fin 8) (result : PortResult) (port : Port) :
    unbindsAt test (unboundPort i result port).1 = false := by
  cases port with
  | none => rfl
  | some p =>
    cases hm : p.mode with
    | listening => simp [unboundPort, unbindsAt, hm]
    | halted => simp [unboundPort, unbindsAt, hm]
    | bound b current idle =>
      simp only [unboundPort, unbindsAt, hm, unbind]

/-- The runs and the bindings that the loss of a peer ends. -/
def runTo (i : Fin 16) (r : Run) : Bool := r.dest = (BitVec.ofNat 8 i.val : Byte)

/-- The bindings from a station. -/
def boundFrom (i : Fin 16) (b : Binding) : Bool := b.source = (BitVec.ofNat 8 i.val : Byte)

theorem station_inj {i j : Fin 16} (h : (BitVec.ofNat 8 i.val : Byte) = BitVec.ofNat 8 j.val) : i = j := by
  have := congrArg BitVec.toNat h
  simp only [BitVec.toNat_ofNat] at this
  omega

theorem endsAt_other {i k : Fin 16} (h : i ≠ k) {slot : Slot} (hk : endsAt (runTo k) slot = true) :
    endsAt (runTo i) slot = false := by
  cases slot with
  | none => rfl
  | some r =>
    simp only [endsAt, runTo, Bool.and_eq_true, decide_eq_true_eq] at hk
    simp only [endsAt, runTo, hk.2, Bool.and_eq_false_iff, decide_eq_false_iff_not]
    exact .inr fun e => h (station_inj e).symm

theorem unbindsAt_other {i k : Fin 16} (h : i ≠ k) {port : Port} (hk : unbindsAt (boundFrom k) port = true) :
    unbindsAt (boundFrom i) port = false := by
  cases port with
  | none => rfl
  | some p =>
    cases hm : p.mode with
    | listening => simp [unbindsAt, hm]
    | halted => simp [unbindsAt, hm]
    | bound b current idle =>
      simp only [unbindsAt, hm, boundFrom, decide_eq_true_eq] at hk
      simp only [unbindsAt, hm, boundFrom, hk, decide_eq_false_iff_not]
      exact fun e => h (station_inj e).symm

/-- Everything `losePeer` does. -/
theorem losePeer_spec (i : Fin 16) (s : State) :
    KeptByEndings s (losePeer i s).1 ∧ (losePeer i s).1.peers = s.peers ∧
      (∀ j : Fin 8, (losePeer i s).1.slots[j] = if endsAt (runTo i) s.slots[j] = true then
        endedSlot (beingInserted j s) .peerLost s.slots[j] else s.slots[j]) ∧
      (∀ j : Fin 8, (losePeer i s).1.ports[j] = if unbindsAt (boundFrom i) s.ports[j] = true then
        (unboundPort j .peerLost s.ports[j]).1 else s.ports[j]) ∧
      (losePeer i s).2.record = .peerLost i ∧
      ((losePeer i s).2.runs = slotNumbers.flatMap fun j => if endsAt (runTo i) s.slots[j] = true then
        endedRecords j (beingInserted j s) .peerLost s.slots[j] else []) ∧
      ((losePeer i s).2.ports = portNumbers.flatMap fun j => if unbindsAt (boundFrom i) s.ports[j] = true then
        (unboundPort j .peerLost s.ports[j]).2 else []) := by
  obtain ⟨k1, p1, q1, s1, r1⟩ := endRunsWhere_spec (runTo i) .peerLost s
  obtain ⟨k2, _, p2, q2, s2, r2⟩ := unbindWhere_spec (boundFrom i) .peerLost (endRunsWhere (runTo i) .peerLost s).1
  have he : losePeer i s = ((unbindWhere (boundFrom i) .peerLost (endRunsWhere (runTo i) .peerLost s).1).1,
      { record := .peerLost i, runs := (endRunsWhere (runTo i) .peerLost s).2,
        ports := (unbindWhere (boundFrom i) .peerLost (endRunsWhere (runTo i) .peerLost s).1).2 }) := rfl
  generalize endRunsWhere (runTo i) .peerLost s = e at *
  generalize unbindWhere (boundFrom i) .peerLost e.1 = u at *
  rw [he]
  refine ⟨k1.trans k2, q2.trans q1, ?_, ?_, rfl, r1, ?_⟩
  · intro j; dsimp only; rw [p2, s1 j]
  · intro j; dsimp only; rw [s2 j, p1]
  · dsimp only; rw [r2, p1]

/-- The presence check finds the peer of an entry lost. -/
def Peer.lost (p : Peer) : Bool := (checkPeer p).2

/-- The presence check at one entry. -/
theorem presenceAt_spec (acc : State × List Report) (i : Fin 16) :
    let e := presenceAt acc i
    KeptByEndings acc.1 e.1 ∧
      (∀ j : Fin 16, e.1.peers[j] =
        if i = j then { state := (checkPeer acc.1.peers[i]).1, heard := false } else acc.1.peers[j]) ∧
      (∀ j : Fin 8, e.1.slots[j] = if acc.1.peers[i].lost = true ∧ endsAt (runTo i) acc.1.slots[j] = true then
        endedSlot (beingInserted j acc.1) .peerLost acc.1.slots[j] else acc.1.slots[j]) ∧
      (∀ j : Fin 8, e.1.ports[j] = if acc.1.peers[i].lost = true ∧ unbindsAt (boundFrom i) acc.1.ports[j] = true then
        (unboundPort j .peerLost acc.1.ports[j]).1 else acc.1.ports[j]) ∧
      e.2 = acc.2 ++ (if acc.1.peers[i].lost = true then [(losePeer i acc.1).2] else []) := by
  unfold presenceAt
  by_cases hl : (checkPeer acc.1.peers[i]).2 = true
  · have hl' : acc.1.peers[i].lost = true := hl
    dsimp only
    rw [if_pos hl]
    simp only [hl', true_and, if_true]
    obtain ⟨k, q, s1, p1, h1, h2, h3⟩ :=
      losePeer_spec i (setPeer i { state := (checkPeer acc.1.peers[i]).1, heard := false } acc.1)
    obtain ⟨_, _, _, _, g1, g2, g3⟩ := losePeer_spec i acc.1
    generalize losePeer i (setPeer i { state := (checkPeer acc.1.peers[i]).1, heard := false } acc.1) = l at *
    generalize losePeer i acc.1 = l' at *
    refine ⟨(KeptByEndings.setPeer i _ _).trans k, ?_, ?_, ?_, ?_⟩
    · intro j; rw [q, setPeer_get]
    · intro j; rw [s1 j]; rfl
    · intro j; rw [p1 j]; rfl
    · congr 2
      obtain ⟨l1, a, b, c⟩ := l
      obtain ⟨l2, a', b', c'⟩ := l'
      dsimp only at *
      rw [h1, g1, h2, g2, h3, g3]
      rfl
  · have hl' : acc.1.peers[i].lost = false := by simpa [Peer.lost] using hl
    dsimp only
    rw [if_neg hl]
    simp only [hl', false_and, if_false, List.append_nil, and_true, Bool.false_eq_true]
    refine ⟨.setPeer i _ _, fun j => by rw [setPeer_get], fun _ => rfl, fun _ => rfl⟩

/-- The report of a loss depends on the tables and the output alone. -/
theorem losePeer_report_congr (i : Fin 16) {s t : State}
    (hs : ∀ j : Fin 8, endsAt (runTo i) t.slots[j] = endsAt (runTo i) s.slots[j] ∧
      (endsAt (runTo i) s.slots[j] = true → t.slots[j] = s.slots[j]))
    (hp : ∀ j : Fin 8, unbindsAt (boundFrom i) t.ports[j] = unbindsAt (boundFrom i) s.ports[j] ∧
      (unbindsAt (boundFrom i) s.ports[j] = true → t.ports[j] = s.ports[j]))
    (ho : t.rau.output = s.rau.output) : (losePeer i t).2 = (losePeer i s).2 := by
  obtain ⟨_, _, _, _, h1, h2, h3⟩ := losePeer_spec i t
  obtain ⟨_, _, _, _, g1, g2, g3⟩ := losePeer_spec i s
  generalize losePeer i t = l at *
  generalize losePeer i s = l' at *
  obtain ⟨l1, a, b, c⟩ := l
  obtain ⟨l2, a', b', c'⟩ := l'
  dsimp only at *
  rw [h1, g1, h2, g2, h3, g3]
  congr 1
  · apply List.flatMap_congr
    intro j _
    rw [(hs j).1, beingInserted_congr ho]
    split
    · rename_i hj; rw [(hs j).2 hj]
    · rfl
  · apply List.flatMap_congr
    intro j _
    rw [(hp j).1]
    split
    · rename_i hj; rw [(hp j).2 hj]
    · rfl

theorem presence_fold (l : List (Fin 16)) (hl : l.Nodup) (acc : State × List Report) :
    let e := l.foldl presenceAt acc
    KeptByEndings acc.1 e.1 ∧
      (∀ j : Fin 16, e.1.peers[j] =
        if j ∈ l then { state := (checkPeer acc.1.peers[j]).1, heard := false } else acc.1.peers[j]) ∧
      (∀ j : Fin 8, e.1.slots[j] = if (l.any fun i => acc.1.peers[i].lost && endsAt (runTo i) acc.1.slots[j]) = true then
        endedSlot (beingInserted j acc.1) .peerLost acc.1.slots[j] else acc.1.slots[j]) ∧
      (∀ j : Fin 8, e.1.ports[j] =
        if (l.any fun i => acc.1.peers[i].lost && unbindsAt (boundFrom i) acc.1.ports[j]) = true then
        (unboundPort j .peerLost acc.1.ports[j]).1 else acc.1.ports[j]) ∧
      e.2 = acc.2 ++ (l.filter fun i => acc.1.peers[i].lost).map fun i => (losePeer i acc.1).2 := by
  induction l generalizing acc with
  | nil => simp [KeptByEndings.refl]
  | cons i l ih =>
    rw [List.nodup_cons] at hl
    obtain ⟨k1, q1, s1, p1, r1⟩ := presenceAt_spec acc i
    obtain ⟨k2, q2, s2, p2, r2⟩ := ih hl.2 (presenceAt acc i)
    clear ih
    simp only [List.foldl_cons]
    have hq : ∀ k ∈ l, (presenceAt acc i).1.peers[k] = acc.1.peers[k] := fun k hk => by
      have hik : ¬i = k := fun h => hl.1 (h ▸ hk)
      rw [q1 k, if_neg hik]
    have hs : ∀ k ∈ l, ∀ j : Fin 8, endsAt (runTo k) (presenceAt acc i).1.slots[j] = endsAt (runTo k) acc.1.slots[j] ∧
        (endsAt (runTo k) acc.1.slots[j] = true → (presenceAt acc i).1.slots[j] = acc.1.slots[j]) := fun k hk j => by
      have hki : k ≠ i := fun h => hl.1 (h ▸ hk)
      rw [s1 j]
      split
      · rename_i h
        rw [endsAt_endedSlot, endsAt_other hki h.2]
        exact ⟨rfl, fun h => by simp at h⟩
      · exact ⟨rfl, fun _ => rfl⟩
    have hp : ∀ k ∈ l, ∀ j : Fin 8, unbindsAt (boundFrom k) (presenceAt acc i).1.ports[j] = unbindsAt (boundFrom k) acc.1.ports[j] ∧
        (unbindsAt (boundFrom k) acc.1.ports[j] = true → (presenceAt acc i).1.ports[j] = acc.1.ports[j]) := fun k hk j => by
      have hki : k ≠ i := fun h => hl.1 (h ▸ hk)
      rw [p1 j]
      split
      · rename_i h
        rw [unbindsAt_unboundPort, unbindsAt_other hki h.2]
        exact ⟨rfl, fun h => by simp at h⟩
      · exact ⟨rfl, fun _ => rfl⟩
    refine ⟨k1.trans k2, ?_, ?_, ?_, ?_⟩
    · intro j
      rw [q2 j]
      by_cases hj : j ∈ l
      · rw [if_pos hj, hq j hj, if_pos (List.mem_cons_of_mem i hj)]
      · rw [if_neg hj, q1 j]
        by_cases h : i = j
        · subst h; simp
        · simp [h, hj, Ne.symm h]
    · intro j
      rw [s2 j, beingInserted_congr k1.output]
      by_cases h1 : acc.1.peers[i].lost = true ∧ endsAt (runTo i) acc.1.slots[j] = true
      · have hx : ((i :: l).any fun i => acc.1.peers[i].lost && endsAt (runTo i) acc.1.slots[j]) = true := by
          rw [List.any_cons, h1.1, h1.2]; rfl
        rw [if_pos hx, if_neg, s1 j, if_pos h1]
        simp only [List.any_eq_true, Bool.and_eq_true]
        rintro ⟨k, hk, _, h⟩
        rw [s1 j, if_pos h1, endsAt_endedSlot] at h
        exact absurd h (by simp)
      · have hx : (presenceAt acc i).1.slots[j] = acc.1.slots[j] := by rw [s1 j, if_neg h1]
        rw [hx]
        congr 1
        simp only [List.any_cons, List.any_eq_true, Bool.or_eq_true, Bool.and_eq_true, eq_iff_iff]
        constructor
        · rintro ⟨k, hk, h, h'⟩; exact .inr ⟨k, hk, by rw [← hq k hk]; exact h, h'⟩
        · rintro (h | ⟨k, hk, h, h'⟩)
          · exact absurd h h1
          · exact ⟨k, hk, by rw [hq k hk]; exact h, h'⟩
    · intro j
      rw [p2 j]
      by_cases h1 : acc.1.peers[i].lost = true ∧ unbindsAt (boundFrom i) acc.1.ports[j] = true
      · have hx : ((i :: l).any fun i => acc.1.peers[i].lost && unbindsAt (boundFrom i) acc.1.ports[j]) = true := by
          rw [List.any_cons, h1.1, h1.2]; rfl
        rw [if_pos hx, if_neg, p1 j, if_pos h1]
        simp only [List.any_eq_true, Bool.and_eq_true]
        rintro ⟨k, hk, _, h⟩
        rw [p1 j, if_pos h1, unbindsAt_unboundPort] at h
        exact absurd h (by simp)
      · have hx : (presenceAt acc i).1.ports[j] = acc.1.ports[j] := by rw [p1 j, if_neg h1]
        rw [hx]
        congr 1
        simp only [List.any_cons, List.any_eq_true, Bool.or_eq_true, Bool.and_eq_true, eq_iff_iff]
        constructor
        · rintro ⟨k, hk, h, h'⟩; exact .inr ⟨k, hk, by rw [← hq k hk]; exact h, h'⟩
        · rintro (h | ⟨k, hk, h, h'⟩)
          · exact absurd h h1
          · exact ⟨k, hk, by rw [hq k hk]; exact h, h'⟩
    · rw [r2, r1, List.filter_cons]
      have h1 : (l.filter fun k => (presenceAt acc i).1.peers[k].lost) = l.filter fun k => acc.1.peers[k].lost :=
        List.filter_congr fun k hk => by rw [hq k hk]
      rw [h1]
      have h2 : ((l.filter fun k => acc.1.peers[k].lost).map fun k => (losePeer k (presenceAt acc i).1).2) =
          (l.filter fun k => acc.1.peers[k].lost).map fun k => (losePeer k acc.1).2 :=
        List.map_congr_left fun k hk =>
          losePeer_report_congr k (hs k (List.mem_filter.mp hk).1) (hp k (List.mem_filter.mp hk).1) k1.output
      rw [h2]
      split <;> simp

/-- Everything `presenceCheck` does. -/
theorem presenceCheck_spec (s : State) :
    let e := presenceCheck s
    KeptByEndings s e.1 ∧
      (∀ j : Fin 16, e.1.peers[j] = { state := (checkPeer s.peers[j]).1, heard := false }) ∧
      (∀ j : Fin 8, e.1.slots[j] = if ∃ i : Fin 16, s.peers[i].lost = true ∧ endsAt (runTo i) s.slots[j] = true then
        endedSlot (beingInserted j s) .peerLost s.slots[j] else s.slots[j]) ∧
      (∀ j : Fin 8, e.1.ports[j] =
        if ∃ i : Fin 16, s.peers[i].lost = true ∧ unbindsAt (boundFrom i) s.ports[j] = true then
        (unboundPort j .peerLost s.ports[j]).1 else s.ports[j]) ∧
      e.2 = (stationNumbers.filter fun i => s.peers[i].lost).map fun i => (losePeer i s).2 := by
  have h := presence_fold stationNumbers stationNumbers_nodup (s, [])
  have he : presenceCheck s = stationNumbers.foldl presenceAt (s, []) := rfl
  generalize stationNumbers.foldl presenceAt (s, []) = e at h he
  obtain ⟨h1, h2, h3, h4, h5⟩ := h
  rw [he]
  refine ⟨h1, fun j => by rw [h2 j, if_pos (mem_stationNumbers j)], fun j => ?_, fun j => ?_, by rw [h5]; rfl⟩
  · rw [h3 j]; exact if_congr (by simp [mem_stationNumbers]) rfl rfl
  · rw [h4 j]; exact if_congr (by simp [mem_stationNumbers]) rfl rfl

/-! ### SILENT (R130) -/

/-- The station as SILENT finds it: the flag set and the control queue emptied. -/
def silenced (s : State) : State :=
  { s with rollCall := { s.rollCall with silent := true }, rau := { s.rau with controlQueue := [] } }

/-- Everything `enterSilent` does. -/
theorem enterSilent_spec (s : State) : ∃ z tail,
    enterSilent s =
      { z with log := (.duplicateStation :: tail).foldl postTo s.log, freeNext := (enterSilent s).freeNext } ∧
    KeptByEndings (silenced s) z ∧ z.peers = s.peers ∧
    (∀ j : Fin 8, z.slots[j] = if endsAt (fun _ => true) s.slots[j] = true then
      endedSlot (beingInserted j s) .silenced s.slots[j] else s.slots[j]) ∧
    (∀ j : Fin 8, z.ports[j] = if unbindsAt (fun _ => true) s.ports[j] = true then
      (unboundPort j .silenced s.ports[j]).1 else s.ports[j]) ∧
    (∀ j : Fin 8, endsAt (fun _ => true) s.slots[j] = true →
      ∀ r ∈ endedRecords j (beingInserted j s) .silenced s.slots[j], r ∈ tail) ∧
    (∀ j : Fin 8, unbindsAt (fun _ => true) s.ports[j] = true →
      ∀ r ∈ (unboundPort j .silenced s.ports[j]).2, r ∈ tail) ∧ PlainRecords tail := by
  have hp1 := endRunsWhere_plain (fun _ => true) .silenced (silenced s)
  have hp2 := unbindWhere_plain (fun _ => true) .silenced (endRunsWhere (fun _ => true) .silenced (silenced s)).1
  obtain ⟨k1, p1, q1, sl1, r1⟩ := endRunsWhere_spec (fun _ => true) .silenced (silenced s)
  obtain ⟨k2, _, p2, q2, sl2, r2⟩ :=
    unbindWhere_spec (fun _ => true) .silenced (endRunsWhere (fun _ => true) .silenced (silenced s)).1
  have he : enterSilent s = postReports [
      { record := .duplicateStation,
        runs := (endRunsWhere (fun _ => true) .silenced (silenced s)).2,
        ports := (unbindWhere (fun _ => true) .silenced (endRunsWhere (fun _ => true) .silenced (silenced s)).1).2 }]
      (unbindWhere (fun _ => true) .silenced (endRunsWhere (fun _ => true) .silenced (silenced s)).1).1 := rfl
  generalize endRunsWhere (fun _ => true) .silenced (silenced s) = w at *
  generalize unbindWhere (fun _ => true) .silenced w.1 = z at *
  obtain ⟨rs, hpr, hmem, hhead⟩ := postReports_spec [{ record := .duplicateStation, runs := w.2, ports := z.2 }] z.1
  obtain ⟨tail, htl⟩ := hhead _ _ rfl
  have hin : ∀ r ∈ w.2 ++ z.2, r ∈ rs := fun r hr =>
    (hmem r).2 ⟨_, List.mem_singleton.2 rfl, .inr (List.mem_append.1 hr)⟩
  have hno : ∀ r ∈ w.2 ++ z.2, r ≠ .duplicateStation → r ∈ tail := fun r hr hne => by
    have := hin r hr
    rw [htl, List.mem_cons] at this
    exact this.resolve_left hne
  have kk := k1.trans k2
  refine ⟨z.1, tail, ?_, kk, q2.trans q1, ?_, ?_, ?_, ?_, ?_⟩
  · rw [he, hpr, htl, kk.log]; rfl
  · intro j; rw [p2, sl1 j]; rfl
  · intro j; rw [sl2 j, p1]; rfl
  · intro j hj r hr
    refine hno r (List.mem_append_left _ ?_) ?_
    · rw [r1, List.mem_flatMap]
      refine ⟨j, mem_slotNumbers j, ?_⟩
      show r ∈ if endsAt (fun _ => true) s.slots[j] = true then
        endedRecords j (beingInserted j s) .silenced s.slots[j] else []
      rw [if_pos hj]; exact hr
    · rintro rfl
      unfold endedRecords at hr
      split at hr
      · split at hr <;> simp [Run.endRecord] at hr
      · simp at hr
  · intro j hj r hr
    refine hno r (List.mem_append_right _ ?_) ?_
    · rw [r2, p1, List.mem_flatMap]
      refine ⟨j, mem_portNumbers j, ?_⟩
      show r ∈ if unbindsAt (fun _ => true) s.ports[j] = true then (unboundPort j .silenced s.ports[j]).2 else []
      rw [if_pos hj]; exact hr
    · rintro rfl
      unfold unboundPort unbind closeCurrent closeBank at hr
      dsimp only at hr
      repeat' split at hr
      all_goals simp [Binding.endRecord, bankFullRecord] at hr
  · intro r hr
    obtain ⟨p, hp, hx⟩ := (hmem r).1 (by rw [htl]; exact List.mem_cons_of_mem _ hr)
    rw [List.mem_singleton] at hp
    subst hp
    rcases hx with hx | hx | hx
    · rw [hx]; rfl
    · exact hp1 r hx
    · exact hp2 r hx

/-- The loss of a peer posts no LOG_OVERFLOW. -/
theorem losePeer_plain (i : Fin 16) (s : State) : (losePeer i s).2.plain := by
  obtain ⟨-, -, -, -, h1, h2, h3⟩ := losePeer_spec i s
  refine ⟨by rw [h1]; rfl, ?_, ?_⟩
  · rw [h2]
    refine flatMap_plain _ _ fun i => ?_
    split
    · exact endedRecords_plain _ _ _ _
    · exact plain_nil
  · rw [h3]
    refine flatMap_plain _ _ fun i => ?_
    split
    · exact unboundPort_plain _ _ _
    · exact plain_nil

theorem presenceCheck_plain (s : State) : ∀ p ∈ (presenceCheck s).2, p.plain := by
  rw [(presenceCheck_spec s).2.2.2.2]
  intro p hp
  obtain ⟨i, -, rfl⟩ := List.mem_map.1 hp
  exact losePeer_plain i s

end Sys2Proof.Machine
end

