-- ==== Sys2Proof/Laws/Commands.lean ====
section
/-! SUPPORT. What the Command Unit's shared operations do: taking a command, its checks, and the soft reset. -/

namespace Sys2Proof.Machine

open Sys2Proof

/-! ### Taking a command (R155, R156) -/

/-- The command at the FIFO's head is carried out, removed from the FIFO. -/
theorem takeCommand_takes (test : Byte → Bool) (f : List Byte → State → State) {s : State} {r : List Byte}
    {rest : List (List Byte)} (h : s.takes r rest) (ht : test (recordCode r) = true) :
    takeCommand test f s = f r { s with commandFifo := rest } := by
  have h1 : nextCommand s = some r := by
    rw [nextCommand, if_neg]
    · rw [h.2.2]; rfl
    · simp [State.memWriteOpen, h.1, h.2.1]
  rw [takeCommand, h1]
  dsimp only
  rw [if_pos ht, h.2.2]; rfl

/-- No command is taken where the FIFO's head is of another code. -/
theorem takeCommand_other (test : Byte → Bool) (f : List Byte → State → State) {s : State}
    (ht : ∀ r, s.commandFifo.head? = some r → test (recordCode r) = false) : takeCommand test f s = s := by
  unfold takeCommand nextCommand
  split
  · rename_i r hr
    split at hr
    · simp at hr
    · rw [if_neg (by rw [ht r hr]; simp)]
  · rfl

/-- No command is taken while RESET_N is low or a MEM_WRITE is open. -/
theorem takeCommand_held (test : Byte → Bool) (f : List Byte → State → State) {s : State}
    (h : s.resetLow = true ∨ s.spi.kind = some .memWrite) : takeCommand test f s = s := by
  have h1 : nextCommand s = none := by
    rw [nextCommand, if_pos]
    rcases h with h | h <;> simp [State.memWriteOpen, h]
  rw [takeCommand, h1]

/-- What a command does is what it does to the state with its record taken, or nothing. -/
theorem takeCommand_cases (test : Byte → Bool) (f : List Byte → State → State) (s : State) :
    takeCommand test f s = s ∨
      ∃ r rest, s.takes r rest ∧ test (recordCode r) = true ∧
        takeCommand test f s = f r { s with commandFifo := rest } := by
  by_cases hl : s.resetLow = true ∨ s.spi.kind = some .memWrite
  · exact .inl (takeCommand_held test f hl)
  · simp only [not_or, Bool.not_eq_true] at hl
    cases hf : s.commandFifo with
    | nil => exact .inl (takeCommand_other test f fun r hr => by simp [hf] at hr)
    | cons r rest =>
      by_cases ht : test (recordCode r) = true
      · exact .inr ⟨r, rest, ⟨hl.1, hl.2, hf⟩, ht, takeCommand_takes test f ⟨hl.1, hl.2, hf⟩ ht⟩
      · refine .inl (takeCommand_other test f fun r' hr => ?_)
        rw [hf] at hr
        cases hr
        simpa using ht

theorem exec_startRun {s : State} {r : List Byte} {rest : List (List Byte)} (h : s.takes (0x01 :: r) rest) :
    exec .startRun s = .next (startRunTaken (0x01 :: r) { s with commandFifo := rest }) :=
  congrArg Host.Outcome.next (takeCommand_takes _ _ h rfl)

theorem exec_cancelRun {s : State} {r : List Byte} {rest : List (List Byte)} (h : s.takes (0x02 :: r) rest) :
    exec .cancelRun s = .next (cancelRunTaken (0x02 :: r) { s with commandFifo := rest }) :=
  congrArg Host.Outcome.next (takeCommand_takes _ _ h rfl)

theorem exec_openPort {s : State} {r : List Byte} {rest : List (List Byte)} (h : s.takes (0x03 :: r) rest) :
    exec .openPort s = .next (openPortTaken (0x03 :: r) { s with commandFifo := rest }) :=
  congrArg Host.Outcome.next (takeCommand_takes _ _ h rfl)

theorem exec_releaseBank {s : State} {r : List Byte} {rest : List (List Byte)} (h : s.takes (0x04 :: r) rest) :
    exec .releaseBank s = .next (releaseBankTaken (0x04 :: r) { s with commandFifo := rest }) :=
  congrArg Host.Outcome.next (takeCommand_takes _ _ h rfl)

theorem exec_haltPort {s : State} {r : List Byte} {rest : List (List Byte)} (h : s.takes (0x05 :: r) rest) :
    exec .haltPort s = .next (haltPortTaken (0x05 :: r) { s with commandFifo := rest }) :=
  congrArg Host.Outcome.next (takeCommand_takes _ _ h rfl)

theorem exec_unhaltPort {s : State} {r : List Byte} {rest : List (List Byte)} (h : s.takes (0x06 :: r) rest) :
    exec .unhaltPort s = .next (unhaltPortTaken (0x06 :: r) { s with commandFifo := rest }) :=
  congrArg Host.Outcome.next (takeCommand_takes _ _ h rfl)

theorem exec_closePort {s : State} {r : List Byte} {rest : List (List Byte)} (h : s.takes (0x07 :: r) rest) :
    exec .closePort s = .next (closePortTaken (0x07 :: r) { s with commandFifo := rest }) :=
  congrArg Host.Outcome.next (takeCommand_takes _ _ h rfl)

theorem exec_softReset {s : State} {r : List Byte} {rest : List (List Byte)} (h : s.takes (0x08 :: r) rest) :
    exec .softReset s = .next (softResetTaken { s with commandFifo := rest }) :=
  congrArg Host.Outcome.next (takeCommand_takes _ _ h rfl)

theorem exec_unknownCommand {s : State} {c : Byte} {r : List Byte} {rest : List (List Byte)} (h : s.takes (c :: r) rest)
    (hc : c = 0 ∨ 9 ≤ c.toNat) :
    exec .unknownCommand s = .next (reject (c :: r) .badCommand { s with commandFifo := rest }) := by
  refine congrArg Host.Outcome.next (takeCommand_takes _ _ h ?_)
  show (!(commandCodes.contains c)) = true
  have : ∀ c : Byte, c = 0 ∨ 9 ≤ c.toNat → (!(commandCodes.contains c)) = true := by decide
  exact this c hc

/-! ### Checks (R157 to R161) -/

theorem badSize_iff (n : Nat) : badSize n = true ↔ n < 16 ∨ 1024 < n ∨ n % 16 ≠ 0 := by
  simp [badSize, or_assoc]

theorem badWindow_iff (n : Nat) : badWindow n = true ↔ n = 0 ∨ 4 < n := by simp [badWindow]

theorem pastEnd_iff (a : Region) : a.pastEnd = true ↔ 131072 < a.hi := by
  simp only [Region.pastEnd, decide_eq_true_eq]; exact Iff.rfl

theorem overlaps_iff (a b : Region) : a.overlaps b = true ↔ a.lo < b.hi ∧ b.lo < a.hi := by
  simp [Region.overlaps]

theorem overlapsAny_iff (a : Region) (l : List Region) : a.overlapsAny l = true ↔ ∃ b ∈ l, a.overlaps b = true := by
  simp [Region.overlapsAny]

theorem overlapsAny_eq_false (a : Region) (l : List Region) :
    a.overlapsAny l = false ↔ ∀ b ∈ l, a.overlaps b = false := by
  simp [Region.overlapsAny]

theorem peerAbsent_iff {dest : Byte} (h : dest.toNat < 16) (s : State) :
    peerAbsent dest s = true ↔ ∀ j : Fin 16, dest.toNat = j.val → s.peers[j].state = .absent := by
  have hn : stationNumber dest = some ⟨dest.toNat, h⟩ := stationNumber_eq_some.2 rfl
  rw [peerAbsent, hn]
  simp only [decide_eq_true_eq]
  constructor
  · intro hp j hj
    have : j = ⟨dest.toNat, h⟩ := Fin.ext hj.symm
    rw [this]; exact hp
  · intro hp; exact hp ⟨dest.toNat, h⟩ rfl

theorem mem_otherBankRegions {i : Fin 8} {s : State} {b : Region} :
    b ∈ otherBankRegions i s ↔ ∃ j : Fin 8, j ≠ i ∧ b ∈ portRegions s.ports[j] := by
  simp only [otherBankRegions, List.mem_flatMap]
  constructor
  · rintro ⟨j, _, hj⟩
    split at hj
    · simp at hj
    · rename_i h; exact ⟨j, h, hj⟩
  · rintro ⟨j, h, hj⟩
    exact ⟨j, mem_portNumbers j, by rw [if_neg h]; exact hj⟩

theorem mem_sourceRegions {s : State} {a : Region} :
    a ∈ sourceRegions s ↔ ∃ (i : Fin 8) (r : Run), s.slots[i] = some r ∧ a = r.region := by
  simp only [sourceRegions, List.mem_filterMap, Option.map_eq_some_iff]
  constructor
  · rintro ⟨i, _, r, h, rfl⟩; exact ⟨i, r, h, rfl⟩
  · rintro ⟨i, r, h, rfl⟩; exact ⟨i, mem_slotNumbers i, r, h, rfl⟩

theorem mem_fencedBanks {s : State} {a : Region} :
    a ∈ fencedBanks s ↔ ∃ i : Fin 8, a ∈ portFenced s.ports[i] := by
  simp only [fencedBanks, List.mem_flatMap]
  exact ⟨fun ⟨i, _, h⟩ => ⟨i, h⟩, fun ⟨i, h⟩ => ⟨i, mem_portNumbers i, h⟩⟩

/-! ### The soft reset (R46, R162) -/

theorem setSlot_keeps (i : Fin 8) (r : Slot) (s : State) : setSlot i r s = { s with slots := (setSlot i r s).slots } :=
  rfl

theorem softResets_fold (l : List (Fin 8)) (hl : l.Nodup) (s : State) :
    let one (acc : State) (i : Fin 8) : State := setSlot i (softResetSlot (beingInserted i acc) acc.slots[i]) acc
    (l.foldl one s) = { s with slots := (l.foldl one s).slots } ∧
      ∀ j : Fin 8, (l.foldl one s).slots[j] =
        if j ∈ l then softResetSlot (beingInserted j s) s.slots[j] else s.slots[j] := by
  intro one
  induction l generalizing s with
  | nil => exact ⟨rfl, fun j => by simp⟩
  | cons i l ih =>
    rw [List.nodup_cons] at hl
    obtain ⟨h1, h2⟩ := ih hl.2 (one s i)
    refine ⟨?_, ?_⟩
    · rw [List.foldl_cons, h1]; rfl
    · intro j
      rw [List.foldl_cons, h2 j]
      have hb : beingInserted j (one s i) = beingInserted j s := rfl
      have hg : (one s i).slots[j] = if i = j then softResetSlot (beingInserted i s) s.slots[i] else s.slots[j] :=
        setSlot_get i j _ s
      rw [hb, hg]
      by_cases hj : i = j
      · subst hj; simp [hl.1]
      · simp [hj, Ne.symm hj]

/-- Everything `softResetRuns` does. -/
theorem softResetRuns_spec (s : State) :
    softResetRuns s = { s with rrPointer := 7, slots := (softResetRuns s).slots } ∧
      ∀ j : Fin 8, (softResetRuns s).slots[j] = softResetSlot (beingInserted j s) s.slots[j] := by
  obtain ⟨h1, h2⟩ := softResets_fold slotNumbers slotNumbers_nodup s
  have he : softResetRuns s = { slotNumbers.foldl
      (fun acc i => setSlot i (softResetSlot (beingInserted i acc) acc.slots[i]) acc) s with rrPointer := 7 } := rfl
  generalize slotNumbers.foldl (fun acc i => setSlot i (softResetSlot (beingInserted i acc) acc.slots[i]) acc) s = t
    at h1 h2 he
  rw [he]
  refine ⟨by rw [h1], fun j => ?_⟩
  show t.slots[j] = _
  rw [h2 j, if_pos (mem_slotNumbers j)]

end Sys2Proof.Machine
end

