-- ==== Sys2Proof/Laws/Frames.lean ====
section
/-! SUPPORT. What each shared operation leaves as it is: the engines change their own table, the log and the queues of
the RAU, and nothing else. -/

namespace Sys2Proof.Machine

open Sys2Proof

/-! ### What an operation of the part leaves -/

/-- A log that records of other kinds than LOG_OVERFLOW have been posted to. -/
def Postings (before after : List Record) : Prop := ∃ rs, PlainRecords rs ∧ after = rs.foldl postTo before

theorem Postings.refl (l : List Record) : Postings l l := ⟨[], plain_nil, rfl⟩

/-- What no operation of an engine, of the Roll Call Unit or of the Command Unit touches; and that the log only grows by
postings and the control queue only by offers, and that nothing is handed over. -/
structure CoreStep (s t : State) : Prop where
  pending : t.pending = s.pending
  resetLow : t.resetLow = s.resetLow
  straps : t.straps = s.straps
  refclk : t.refclk = s.refclk
  rx : t.rx = s.rx
  tx : t.tx = s.tx
  ringOut : t.ringOut = s.ringOut
  spi : t.spi = s.spi
  drive : t.drive = s.drive
  mem : t.mem = s.mem
  output : t.rau.output = s.rau.output
  gap : t.rau.gap = s.rau.gap
  inHold : t.rau.inHold = s.rau.inHold
  holdTimer : t.rau.holdTimer = s.rau.holdTimer
  passFifo : t.rau.passFifo = s.rau.passFifo
  reception : t.rau.reception = s.rau.reception
  log : Postings s.log t.log
  control : s.rau.controlQueue.length ≤ 16 → t.rau.controlQueue.length ≤ 16
  quiet : s.rollCall.silent = true → s.rau.controlQueue = [] → t.rau.controlQueue = []
  silent : s.rollCall.silent = true → t.rollCall.silent = true
  data : s.rau.dataQueue.length ≤ 8 → t.rau.dataQueue.length ≤ 8
  handedOver : s.rau.handover = none → t.rau.handover = none

/-- What no operation of the Run Engine or of the Port Engine touches. -/
structure EngineStep (s t : State) : Prop extends CoreStep s t where
  peers : t.peers = s.peers
  rollCall : t.rollCall = s.rollCall
  tagCounter : t.tagCounter = s.tagCounter
  rrPointer : t.rrPointer = s.rrPointer
  freeNext : t.freeNext = s.freeNext
  commandFifo : t.commandFifo = s.commandFifo
  logCopied : t.logCopied = s.logCopied

/-- What an operation of the Run Engine on slot `i` leaves. -/
structure RunStep (i : Fin 8) (s t : State) : Prop extends EngineStep s t where
  ports : t.ports = s.ports
  others : ∀ j : Fin 8, j ≠ i → t.slots[j] = s.slots[j]

/-- What an operation of the Port Engine on port `n` leaves. -/
structure PortStep (n : Nat) (s t : State) : Prop extends EngineStep s t where
  slots : t.slots = s.slots
  dataQueue : t.rau.dataQueue = s.rau.dataQueue
  threshold : t.rau.threshold = s.rau.threshold
  marking : t.rau.marking = s.rau.marking
  others : ∀ j : Fin 8, j.val ≠ n → t.ports[j] = s.ports[j]

theorem CoreStep.refl (s : State) : CoreStep s s := by
  constructor <;> first | rfl | exact .refl _ | exact fun h => h | exact fun _ h => h

theorem CoreStep.trans {s t u : State} (h : CoreStep s t) (k : CoreStep t u) : CoreStep s u where
  pending := k.pending.trans h.pending
  resetLow := k.resetLow.trans h.resetLow
  straps := k.straps.trans h.straps
  refclk := k.refclk.trans h.refclk
  rx := k.rx.trans h.rx
  tx := k.tx.trans h.tx
  ringOut := k.ringOut.trans h.ringOut
  spi := k.spi.trans h.spi
  drive := k.drive.trans h.drive
  mem := k.mem.trans h.mem
  output := k.output.trans h.output
  gap := k.gap.trans h.gap
  inHold := k.inHold.trans h.inHold
  holdTimer := k.holdTimer.trans h.holdTimer
  passFifo := k.passFifo.trans h.passFifo
  reception := k.reception.trans h.reception
  log := by
    obtain ⟨a, pa, ha⟩ := h.log
    obtain ⟨b, pb, hb⟩ := k.log
    exact ⟨a ++ b, pa.append pb, by rw [hb, ha, List.foldl_append]⟩
  control := fun x => k.control (h.control x)
  quiet := fun x y => k.quiet (h.silent x) (h.quiet x y)
  silent := fun x => k.silent (h.silent x)
  data := fun x => k.data (h.data x)
  handedOver := fun x => k.handedOver (h.handedOver x)

theorem EngineStep.refl (s : State) : EngineStep s s := by
  refine ⟨.refl s, ?_, ?_, ?_, ?_, ?_, ?_, ?_⟩ <;> rfl

theorem EngineStep.trans {s t u : State} (h : EngineStep s t) (k : EngineStep t u) : EngineStep s u where
  toCoreStep := h.toCoreStep.trans k.toCoreStep
  peers := k.peers.trans h.peers
  rollCall := k.rollCall.trans h.rollCall
  tagCounter := k.tagCounter.trans h.tagCounter
  rrPointer := k.rrPointer.trans h.rrPointer
  freeNext := k.freeNext.trans h.freeNext
  commandFifo := k.commandFifo.trans h.commandFifo
  logCopied := k.logCopied.trans h.logCopied

theorem RunStep.refl (i : Fin 8) (s : State) : RunStep i s s := ⟨.refl s, rfl, fun _ _ => rfl⟩

theorem RunStep.trans {i : Fin 8} {s t u : State} (h : RunStep i s t) (k : RunStep i t u) : RunStep i s u where
  toEngineStep := h.toEngineStep.trans k.toEngineStep
  ports := k.ports.trans h.ports
  others := fun j hj => (k.others j hj).trans (h.others j hj)

theorem PortStep.refl (n : Nat) (s : State) : PortStep n s s := ⟨.refl s, rfl, rfl, rfl, rfl, fun _ _ => rfl⟩

theorem PortStep.trans {n : Nat} {s t u : State} (h : PortStep n s t) (k : PortStep n t u) : PortStep n s u where
  toEngineStep := h.toEngineStep.trans k.toEngineStep
  slots := k.slots.trans h.slots
  dataQueue := k.dataQueue.trans h.dataQueue
  threshold := k.threshold.trans h.threshold
  marking := k.marking.trans h.marking
  others := fun j hj => (k.others j hj).trans (h.others j hj)

/-! ### The named operations -/

theorem offer_dataQueue (f : OwnFrame) (s : State) : (offer f s).rau.dataQueue = s.rau.dataQueue := by
  unfold offer; split <;> rfl

theorem offer_control (f : OwnFrame) (s : State) (h : s.rau.controlQueue.length ≤ 16) :
    (offer f s).rau.controlQueue.length ≤ 16 := by
  unfold offer
  split
  · rename_i hc
    simp only [canOffer, Bool.and_eq_true, decide_eq_true_eq] at hc
    have := hc.2
    simp only [setRau_rau, List.length_append, List.length_singleton]
    unfold Config.controlCapacity at this
    omega
  · exact h

theorem offer_silent (f : OwnFrame) (s : State) (h : s.rollCall.silent = true) : offer f s = s := by
  rw [offer, if_neg (by simp [canOffer, h])]

/-- The tables, the log and the queues of the RAU are all that an operation changes. -/
def EngineStep.Shape (s t : State) : Prop :=
  t = { s with
    slots := t.slots, ports := t.ports, log := t.log,
    rau := { s.rau with controlQueue := t.rau.controlQueue, dataQueue := t.rau.dataQueue, marking := t.rau.marking,
                        threshold := t.rau.threshold, handover := t.rau.handover } }

theorem EngineStep.ofShape {s t : State} (h : Shape s t) (log : Postings s.log t.log)
    (control : s.rau.controlQueue.length ≤ 16 → t.rau.controlQueue.length ≤ 16)
    (quiet : s.rollCall.silent = true → s.rau.controlQueue = [] → t.rau.controlQueue = [])
    (data : s.rau.dataQueue.length ≤ 8 → t.rau.dataQueue.length ≤ 8)
    (handedOver : s.rau.handover = none → t.rau.handover = none) : EngineStep s t := by
  unfold Shape at h
  refine ⟨⟨?_, ?_, ?_, ?_, ?_, ?_, ?_, ?_, ?_, ?_, ?_, ?_, ?_, ?_, ?_, ?_, log, control, quiet, ?_, data, handedOver⟩, ?_, ?_, ?_,
    ?_, ?_, ?_, ?_⟩
  case refine_17 => rw [h]; exact fun x => x
  all_goals rw [h]

theorem EngineStep.offer (f : OwnFrame) (s : State) : EngineStep s (offer f s) := by
  refine .ofShape ?_ (by rw [offer_log]; exact .refl _) (offer_control f s) (fun h k => by rw [offer_silent f s h]; exact k)
    (fun h => by rw [offer_dataQueue]; exact h) (fun h => by rw [offer_rau_handover]; exact h)
  unfold Shape Machine.offer
  split <;> rfl

theorem EngineStep.setSlot (i : Fin 8) (r : Slot) (s : State) : EngineStep s (Machine.setSlot i r s) :=
  .ofShape rfl (.refl _) (fun h => h) (fun _ h => h) (fun h => h) (fun h => h)

theorem EngineStep.setPort (i : Fin 8) (p : Port) (s : State) : EngineStep s (Machine.setPort i p s) :=
  .ofShape rfl (.refl _) (fun h => h) (fun _ h => h) (fun h => h) (fun h => h)

theorem EngineStep.post {r : Record} (hr : r.isOverflow = false) (s : State) : EngineStep s (Machine.post r s) :=
  .ofShape rfl ⟨[r], plain_one hr, rfl⟩ (fun h => h) (fun _ h => h) (fun h => h) (fun h => h)

theorem EngineStep.postAll {rs : List Record} (hr : PlainRecords rs) (s : State) : EngineStep s (Machine.postAll rs s) :=
  .ofShape rfl ⟨rs, hr, rfl⟩ (fun h => h) (fun _ h => h) (fun h => h) (fun h => h)

theorem EngineStep.clearHandover (s : State) : EngineStep s (Machine.clearHandover s) :=
  .ofShape rfl (.refl _) (fun h => h) (fun _ h => h) (fun h => h) (fun _ => rfl)

theorem setData_dataQueue (q : List DataEntry) (s : State) : (setData q s).rau.dataQueue = q := by
  unfold setData Rau.withData
  split
  · rfl
  · split <;> rfl

theorem EngineStep.setData {q : List DataEntry} {s : State} (hq : s.rau.dataQueue.length ≤ 8 → q.length ≤ 8) :
    EngineStep s (Machine.setData q s) := by
  have hd : s.rau.dataQueue.length ≤ 8 → (Machine.setData q s).rau.dataQueue.length ≤ 8 := by
    rw [setData_dataQueue]; exact hq
  have h : Machine.setData q s = { s with rau := s.rau.withData q } := rfl
  rw [h] at hd ⊢
  unfold Rau.withData at hd ⊢
  split at hd
  · rename_i h1
    rw [if_pos h1]
    exact .ofShape rfl (.refl _) (fun h => h) (fun _ h => h) hd (fun h => h)
  · rename_i h1
    rw [if_neg h1]
    split at hd
    · rename_i h2
      rw [if_pos h2]
      exact .ofShape rfl (.refl _) (fun h => h) (fun _ h => h) hd (fun h => h)
    · rename_i h2
      rw [if_neg h2]
      exact .ofShape rfl (.refl _) (fun h => h) (fun _ h => h) hd (fun h => h)

theorem RunStep.offer (i : Fin 8) (f : OwnFrame) (s : State) : RunStep i s (offer f s) :=
  ⟨.offer f s, by simp, fun _ _ => by simp⟩

theorem RunStep.setSlot (i : Fin 8) (r : Slot) (s : State) : RunStep i s (setSlot i r s) :=
  ⟨.setSlot i r s, rfl, fun _ hj => setSlot_get_of_ne (Ne.symm hj) r s⟩

theorem RunStep.post (i : Fin 8) {r : Record} (hr : r.isOverflow = false) (s : State) : RunStep i s (post r s) :=
  ⟨.post hr s, rfl, fun _ _ => rfl⟩

theorem RunStep.postAll (i : Fin 8) {rs : List Record} (hr : PlainRecords rs) (s : State) : RunStep i s (postAll rs s) :=
  ⟨.postAll hr s, rfl, fun _ _ => rfl⟩

theorem RunStep.setData (i : Fin 8) {q : List DataEntry} {s : State} (hq : s.rau.dataQueue.length ≤ 8 → q.length ≤ 8) :
    RunStep i s (setData q s) :=
  ⟨.setData hq, by simp, fun _ _ => by simp⟩

theorem RunStep.purge (i k : Fin 8) (s : State) : RunStep i s (purge k s) :=
  .setData i fun h => Nat.le_trans (List.length_filter_le _ _) h

theorem RunStep.dropBelow (i k : Fin 8) (n : Nat) (s : State) : RunStep i s (dropBelow k n s) :=
  .setData i fun h => Nat.le_trans (List.length_filter_le _ _) h

theorem PortStep.offer (n : Nat) (f : OwnFrame) (s : State) : PortStep n s (offer f s) := by
  refine ⟨.offer f s, by simp, ?_, ?_, ?_, fun _ _ => by simp⟩ <;> (unfold Machine.offer; split <;> rfl)

theorem PortStep.setPort (i : Fin 8) (p : Port) (s : State) : PortStep i.val s (setPort i p s) :=
  ⟨.setPort i p s, rfl, rfl, rfl, rfl, fun _ hj => setPort_get_of_ne (fun e => hj (by rw [e])) p s⟩

theorem PortStep.post (n : Nat) {r : Record} (hr : r.isOverflow = false) (s : State) : PortStep n s (post r s) :=
  ⟨.post hr s, rfl, rfl, rfl, rfl, fun _ _ => rfl⟩

theorem PortStep.postAll (n : Nat) {rs : List Record} (hr : PlainRecords rs) (s : State) : PortStep n s (postAll rs s) :=
  ⟨.postAll hr s, rfl, rfl, rfl, rfl, fun _ _ => rfl⟩

/-! ### The Run Engine -/

theorem RunStep.endRunNow (i : Fin 8) (r : Run) (result : RunResult) (reason : Option Byte) (s : State) :
    RunStep i s (endRunNow i r result reason s) := by
  refine RunStep.trans ?_ (.postAll i (endRun_plain i r result reason s) _)
  rw [endRun_eq]
  exact (RunStep.purge i i s).trans (.setSlot i _ _)

theorem RunStep.enterClosing (i : Fin 8) (r : Run) (s : State) : RunStep i s (enterClosing i r s) :=
  ((RunStep.purge i i s).trans (.setSlot i _ _)).trans (.offer i _ _)

theorem RunStep.closeOr (i : Fin 8) (r : Run) (s : State) : RunStep i s (closeOr i r s) := by
  unfold Machine.closeOr
  split
  · exact .enterClosing i r s
  · exact .setSlot i _ s

/-- A reply changes nothing where it names no slot, and otherwise what its operation changes. -/
theorem replyReaches_runStep {f : Fin 8 → Run → State → State} (hf : ∀ i r s, RunStep i s (f i r s)) (h : Header)
    (s : State) : replyReaches f h s = s ∨
      ∃ i r, findRun h.src h.port h.tag s = some (i, r) ∧ RunStep i s (replyReaches f h s) := by
  unfold replyReaches
  split
  · rename_i i r hr
    split
    · exact .inl rfl
    · exact .inr ⟨i, r, hr, hf i r s⟩
  · exact .inl rfl

theorem grantReaches_runStep (h : Header) (x : List Byte) (s : State) : grantReaches h x s = s ∨
    ∃ i r, findRun h.src h.port h.tag s = some (i, r) ∧ RunStep i s (grantReaches h x s) := by
  refine replyReaches_runStep (fun i r s => ?_) h s
  repeat' split
  all_goals first
    | exact .refl i s
    | exact .setSlot i _ s

theorem refuseReaches_runStep (h : Header) (x : List Byte) (s : State) : refuseReaches h x s = s ∨
    ∃ i r, findRun h.src h.port h.tag s = some (i, r) ∧ RunStep i s (refuseReaches h x s) := by
  refine replyReaches_runStep (fun i r s => ?_) h s
  repeat' split
  all_goals first
    | exact .refl i s
    | exact .endRunNow i r _ _ s

theorem takenReaches_runStep (h : Header) (s : State) : takenReaches h s = s ∨
    ∃ i r, findRun h.src h.port h.tag s = some (i, r) ∧ RunStep i s (takenReaches h s) := by
  refine replyReaches_runStep (fun i r s => ?_) h s
  dsimp only
  split
  · split
    · exact (RunStep.dropBelow i i _ s).trans (.closeOr i _ _)
    · exact .refl i s
  · split
    · exact (RunStep.purge i i s).trans (.closeOr i _ _)
    · exact .refl i s
  all_goals exact .refl i s

theorem resumeReaches_runStep (h : Header) (s : State) : resumeReaches h s = s ∨
    ∃ i r, findRun h.src h.port h.tag s = some (i, r) ∧ RunStep i s (resumeReaches h s) := by
  refine replyReaches_runStep (fun i r s => ?_) h s
  dsimp only
  repeat' split
  all_goals first
    | exact .refl i s
    | exact (RunStep.purge i i s).trans (.closeOr i _ _)
    | exact .enterClosing i _ s

theorem busyReaches_runStep (h : Header) (s : State) : busyReaches h s = s ∨
    ∃ i r, findRun h.src h.port h.tag s = some (i, r) ∧ RunStep i s (busyReaches h s) := by
  refine replyReaches_runStep (fun i r s => ?_) h s
  dsimp only
  repeat' split
  all_goals first
    | exact .refl i s
    | exact (RunStep.purge i i s).trans (.closeOr i _ _)

theorem haltedReaches_runStep (h : Header) (x : List Byte) (s : State) : haltedReaches h x s = s ∨
    ∃ i r, findRun h.src h.port h.tag s = some (i, r) ∧ RunStep i s (haltedReaches h x s) := by
  exact replyReaches_runStep (fun i r s => .endRunNow i r _ _ s) h s

theorem closedReaches_runStep (h : Header) (x : List Byte) (s : State) : closedReaches h x s = s ∨
    ∃ i r, findRun h.src h.port h.tag s = some (i, r) ∧ RunStep i s (closedReaches h x s) := by
  refine replyReaches_runStep (fun i r s => ?_) h s
  repeat' split
  all_goals first
    | exact .refl i s
    | exact .endRunNow i r _ _ s

theorem returnedReaches_runStep (h : Header) (s : State) : returnedReaches h s = s ∨
    ∃ i r, findRun h.dest h.port h.tag s = some (i, r) ∧ RunStep i s (returnedReaches h s) := by
  unfold returnedReaches
  split
  · split
    · rename_i i r hr
      split
      · exact .inl rfl
      · exact .inr ⟨i, r, hr, .endRunNow i r _ _ s⟩
    · exact .inl rfl
  · exact .inl rfl

theorem answerExpiresOpening_runStep (i : Fin 8) (s : State) : RunStep i s (answerExpiresOpening i s) := by
  unfold answerExpiresOpening
  repeat' split
  all_goals first
    | exact .refl i s
    | exact .endRunNow i _ _ _ s
    | exact (RunStep.setSlot i _ s).trans (.offer i _ _)

theorem answerExpiresStreaming_runStep (i : Fin 8) (s : State) : RunStep i s (answerExpiresStreaming i s) := by
  unfold answerExpiresStreaming
  repeat' split
  all_goals first
    | exact .refl i s
    | exact .endRunNow i _ _ _ s
    | exact (RunStep.purge i i s).trans (.setSlot i _ _)

theorem answerExpiresClosing_runStep (i : Fin 8) (s : State) : RunStep i s (answerExpiresClosing i s) := by
  unfold answerExpiresClosing
  repeat' split
  all_goals first
    | exact .refl i s
    | exact .endRunNow i _ _ _ s
    | exact (RunStep.setSlot i _ s).trans (.offer i _ _)

theorem probeExpires_runStep (i : Fin 8) (s : State) : RunStep i s (probeExpires i s) := by
  unfold probeExpires
  dsimp only
  split
  · split
    · split
      · rename_i hq
        refine (RunStep.setData i fun _ => ?_).trans (.setSlot i _ _)
        have := hq.2
        rw [List.length_append, List.length_singleton]
        unfold Config.dataCapacity at this
        omega
      · exact .setSlot i _ s
    · exact .refl i s
  · exact .refl i s

theorem pauseExpires_runStep (i : Fin 8) (s : State) : RunStep i s (pauseExpires i s) := by
  unfold pauseExpires
  repeat' split
  all_goals first
    | exact .refl i s
    | exact .endRunNow i _ _ _ s

theorem grantPlace_coreStep (s : State) : CoreStep s (grantPlace s) ∧ (grantPlace s).ports = s.ports := by
  unfold grantPlace
  split
  · rename_i i r _
    split
    · rename_i hq
      have h := (RunStep.setData i (q := s.rau.dataQueue ++ [{ slot := i, index := r.sent }]) (s := s) fun _ => by
        rw [List.length_append, List.length_singleton]; unfold Config.dataCapacity at hq; omega).trans (.setSlot i (some
        { r with sent := r.sent + 1, answer := if r.answer.isSome then r.answer else some s.answerTime }) _)
      refine ⟨⟨h.pending, h.resetLow, h.straps, h.refclk, h.rx, h.tx, h.ringOut, h.spi, h.drive, h.mem, h.output, h.gap, h.inHold,
        h.holdTimer, h.passFifo, h.reception, h.log, h.control, h.quiet, h.silent, h.data,
        h.handedOver⟩, h.ports⟩
    · exact ⟨.refl s, rfl⟩
  · exact ⟨.refl s, rfl⟩

theorem blockInsertionEnds_runStep (i : Fin 8) (s : State) : RunStep i s (blockInsertionEnds i s) := by
  unfold blockInsertionEnds
  repeat' split
  · exact (RunStep.setSlot i _ s).trans (.post i rfl _)
  · exact .setSlot i _ s
  · exact .refl i s
  · exact .refl i s

/-! ### The Port Engine -/

theorem PortStep.unbindNow (i : Fin 8) (p : OpenPort) (b : Binding) (c : Option BankId) (result : PortResult)
    (mode : PortMode) (s : State) : PortStep i.val s (unbindNow i p b c result mode s) :=
  (PortStep.setPort i _ s).trans (.postAll _ (unbind_plain i p b c result mode) _)

theorem PortStep.resumeUnlessSent (i : Fin 8) (p : OpenPort) (b : Binding) (c : Option BankId) (idle : Timer) (h : Header)
    (s : State) : PortStep i.val s (resumeUnlessSent i p b c idle h s) := by
  unfold Machine.resumeUnlessSent
  split
  · exact .refl _ s
  · exact (PortStep.setPort i _ s).trans (.offer _ _ _)

theorem PortStep.accept (i : Fin 8) (p : OpenPort) (b : Binding) (c : Option BankId) (idle : Timer) (h : Header)
    (trial : Word32) (s : State) : PortStep i.val s (accept i p b c idle h trial s) := by
  unfold Machine.accept
  repeat' split
  · exact .refl _ s
  · exact ((PortStep.setPort i _ s).trans (.offer _ _ _)).trans (.postAll _ (fillBank_plain _ _ _ _ _ _ _) _)
  all_goals exact .refl _ s

theorem PortStep.boundBlockEnds (i : Fin 8) (p : OpenPort) (b : Binding) (c : Option BankId) (idle : Timer) (h : Header)
    (cls : BlockClass) (intact : Bool) (s : State) : PortStep i.val s (boundBlockEnds i p b c idle h cls intact s) := by
  unfold Machine.boundBlockEnds
  repeat' split
  all_goals first
    | exact .refl _ s
    | exact .accept i p b c idle h _ s
    | exact .resumeUnlessSent i p b c idle h s
    | exact (PortStep.setPort i _ s).trans (.offer _ _ _)
    | exact .offer _ _ s

theorem openReaches_portStep (h : Header) (x : List Byte) (s : State) :
    PortStep h.port.toNat s (openReaches h x s) := by
  unfold openReaches
  split
  · exact .offer _ _ s
  · rename_i i p hp
    rw [(portOf_eq_some hp).1]
    dsimp only
    repeat' split
    all_goals first
      | exact .offer _ _ s
      | exact (PortStep.setPort i _ s).trans (.offer _ _ _)

theorem blockEnds_portStep (h : Header) (c : BlockClass) (e : BlockEnd) (s : State) :
    PortStep h.port.toNat s (blockEnds h c e s) := by
  have key : ∀ (i : Fin 8) (p : OpenPort), portOf h.port s = some (i, p) → ∀ b c' idle cls intact,
      PortStep h.port.toNat s (boundBlockEnds i p b c' idle h cls intact s) := fun i p hp b c' idle cls intact => by
    rw [(portOf_eq_some hp).1]; exact .boundBlockEnds i p b c' idle h cls intact s
  unfold blockEnds
  repeat' split
  all_goals first
    | exact .refl _ s
    | exact .offer _ _ s
    | exact key _ _ (by assumption) _ _ _ _ _

theorem finishReaches_portStep (h : Header) (x : List Byte) (s : State) :
    PortStep h.port.toNat s (finishReaches h x s) := by
  unfold finishReaches
  split
  · exact .offer _ _ s
  · rename_i i p hp
    rw [(portOf_eq_some hp).1]
    repeat' split
    all_goals first
      | exact .offer _ _ s
      | exact ((PortStep.offer _ _ s).trans (.setPort i _ _)).trans (.postAll _ (unbind_plain _ _ _ _ _ .listening) _)

theorem cancelReaches_portStep (h : Header) (s : State) : PortStep h.port.toNat s (cancelReaches h s) := by
  unfold cancelReaches
  split
  · exact .refl _ s
  · rename_i i p hp
    rw [(portOf_eq_some hp).1]
    repeat' split
    all_goals first
      | exact .refl _ s
      | exact .unbindNow i p _ _ _ _ s

theorem idleExpires_portStep (i : Fin 8) (s : State) : PortStep i.val s (idleExpires i s) := by
  unfold idleExpires
  repeat' split
  all_goals first
    | exact .refl _ s
    | exact .unbindNow i _ _ _ _ _ s

theorem blockHeader_portStep (h : Header) (s : State) : PortStep h.port.toNat s (blockHeader h s).2 := by
  unfold blockHeader
  split
  · exact .refl _ s
  · rename_i i p hp
    rw [(portOf_eq_some hp).1]
    repeat' split
    all_goals first
      | exact .refl _ s
      | exact .setPort i _ s

/-! ### The Roll Call Unit -/

theorem CoreStep.ofKept {s t : State} (h : KeptByEndings s t) : CoreStep s t where
  pending := h.pending
  resetLow := h.resetLow
  straps := h.straps
  refclk := h.refclk
  rx := h.rx
  tx := h.tx
  ringOut := h.ringOut
  spi := h.spi
  drive := h.drive
  mem := h.mem
  output := h.output
  gap := h.gap
  inHold := h.inHold
  holdTimer := h.holdTimer
  passFifo := h.passFifo
  reception := h.reception
  log := by rw [h.log]; exact .refl _
  control := by rw [h.controlQueue]; exact fun x => x
  quiet := by rw [h.controlQueue]; exact fun _ x => x
  silent := by rw [h.rollCall]; exact fun x => x
  data := fun x => Nat.le_trans h.dataQueue.length_le x
  handedOver := by rw [h.handover]; exact fun x => x

/-- The Roll Call Unit's own state changes, and SILENT is not left. -/
theorem CoreStep.setRollCall (r : RollCall) (s : State) (h : s.rollCall.silent = true → r.silent = true) :
    CoreStep s (setRollCall r s) := by
  refine ⟨?_, ?_, ?_, ?_, ?_, ?_, ?_, ?_, ?_, ?_, ?_, ?_, ?_, ?_, ?_, ?_, (.refl _), fun x => x, fun _ x => x, h,
    fun x => x, fun x => x⟩ <;> rfl

theorem CoreStep.setPeer (i : Fin 16) (p : Peer) (s : State) : CoreStep s (setPeer i p s) := .ofKept (.setPeer i p s)

/-- Postings and the free value's counter. -/
theorem CoreStep.postReports {l : List Report} (hl : ∀ p ∈ l, p.plain) (s : State) : CoreStep s (postReports l s) := by
  obtain ⟨rs, h, hm, -⟩ := postReports_spec l s
  have hp : PlainRecords rs := by
    intro r hr
    obtain ⟨p, hpl, hx⟩ := (hm r).1 hr
    obtain ⟨h1, h2, h3⟩ := hl p hpl
    rcases hx with hx | hx | hx
    · rw [hx]; exact h1
    · exact h2 r hx
    · exact h3 r hx
  rw [h]
  refine ⟨?_, ?_, ?_, ?_, ?_, ?_, ?_, ?_, ?_, ?_, ?_, ?_, ?_, ?_, ?_, ?_, ⟨rs, hp, rfl⟩, fun x => x, fun _ x => x,
    fun x => x, fun x => x, fun x => x⟩ <;>
    rfl

theorem CoreStep.offerBeacon (s : State) : CoreStep s (offerBeacon s) :=
  (EngineStep.offer (beaconFrame s) s).toCoreStep.trans (.setRollCall _ _ fun h => h)

theorem CoreStep.firstBeacon (s : State) : CoreStep s (firstBeacon s) := by
  unfold Machine.firstBeacon
  split
  · exact .refl s
  · exact (CoreStep.setRollCall { s.rollCall with stamp := some s.refclk } s fun h => h).trans (.offerBeacon _)

theorem CoreStep.beginBeacons (s : State) : CoreStep s (beginBeacons s) :=
  (CoreStep.firstBeacon s).trans (.setRollCall _ _ fun h => h)

theorem rollReaches_coreStep (h : Header) (x : List Byte) (s : State) : CoreStep s (rollReaches h x s) := by
  unfold rollReaches
  split
  · exact .refl s
  · dsimp only
    split
    · exact .refl s
    all_goals exact (CoreStep.setPeer _ _ s).trans (EngineStep.postAll (rollRecords_plain _ _ _ _ _ _) _).toCoreStep

theorem enterSilent_coreStep (s : State) : CoreStep s (enterSilent s) := by
  obtain ⟨z, tail, he, hk, -, -, -, -, -, hp⟩ := enterSilent_spec s
  rw [he]
  refine ⟨hk.pending, hk.resetLow, hk.straps, hk.refclk, hk.rx, hk.tx, hk.ringOut, hk.spi, hk.drive, hk.mem, hk.output,
    hk.gap, hk.inHold, hk.holdTimer, hk.passFifo, hk.reception,
    ⟨_, (plain_one (r := .duplicateStation) rfl).append hp, rfl⟩, ?_, ?_, ?_, fun x => Nat.le_trans hk.dataQueue.length_le x,
    fun x => hk.handover.trans x⟩
  · intro _
    show z.rau.controlQueue.length ≤ 16
    rw [hk.controlQueue]; exact Nat.zero_le _
  · intro _ _; exact hk.controlQueue
  · intro _
    show z.rollCall.silent = true
    rw [hk.rollCall]; rfl

theorem ownRollReaches_coreStep (x : List Byte) (s : State) : CoreStep s (ownRollReaches x s) := by
  unfold ownRollReaches
  split
  · exact .refl s
  · split
    · split
      · exact .refl s
      · unfold beaconReturns
        dsimp only
        split
        · exact (CoreStep.setRollCall _ s (by exact fun h => h)).trans (EngineStep.post rfl _).toCoreStep
        · exact .setRollCall _ s (by exact fun h => h)
    · exact enterSilent_coreStep s

theorem ringHealth_silent (r : RollCall) : (ringHealth r).1.silent = r.silent := by
  unfold ringHealth
  split
  · split <;> rfl
  · rfl

theorem ringHealth_plain (r : RollCall) : ∀ p ∈ (ringHealth r).2, p.plain := by
  unfold ringHealth
  intro p hp
  split at hp
  · split at hp
    · rw [List.mem_singleton] at hp
      rw [hp]; exact ⟨rfl, plain_nil, plain_nil⟩
    · cases hp
  · cases hp

theorem beaconPeriodExpires_coreStep (s : State) : CoreStep s (beaconPeriodExpires s) := by
  unfold beaconPeriodExpires
  split
  · dsimp only
    have h := CoreStep.ofKept (presenceCheck_spec s).1
    have hp := presenceCheck_plain s
    generalize presenceCheck s = c at *
    split
    · exact (h.trans (.postReports hp _)).trans (.setRollCall _ _ (by exact fun x => x))
    · have hg := ringHealth_silent c.1.rollCall
      have hq := ringHealth_plain c.1.rollCall
      generalize ringHealth c.1.rollCall = g at *
      have hpq : ∀ p ∈ c.2 ++ g.2, p.plain := fun p hm => (List.mem_append.1 hm).elim (hp p) (hq p)
      exact (((h.trans (.setRollCall g.1 _ fun x => by rw [hg]; exact x)).trans (.postReports hpq _)).trans
        (.offerBeacon _)).trans (.setRollCall _ _ (by exact fun x => x))
  · exact .refl s

/-! ### Deliveries (R52, R100) -/

theorem CoreStep.ofRun {s t : State} {p : Fin 8 → Run → Prop} (h : t = s ∨ ∃ i r, p i r ∧ RunStep i s t) :
    EngineStep s t := by
  rcases h with h | ⟨_, _, _, h⟩
  · rw [h]; exact .refl s
  · exact h.toEngineStep

theorem frameReaches_engineStep (k : Kind) (h : Header) (x : List Byte) (s : State) :
    EngineStep s (frameReaches k h x s) := by
  unfold frameReaches
  cases k with
  | open_ => exact (openReaches_portStep h x s).toEngineStep
  | finish => exact (finishReaches_portStep h x s).toEngineStep
  | cancel => exact (cancelReaches_portStep h s).toEngineStep
  | grant => exact CoreStep.ofRun (grantReaches_runStep h x s)
  | refuse => exact CoreStep.ofRun (refuseReaches_runStep h x s)
  | taken => exact CoreStep.ofRun (takenReaches_runStep h s)
  | resume => exact CoreStep.ofRun (resumeReaches_runStep h s)
  | busy => exact CoreStep.ofRun (busyReaches_runStep h s)
  | halted => exact CoreStep.ofRun (haltedReaches_runStep h x s)
  | closed => exact CoreStep.ofRun (closedReaches_runStep h x s)
  | block => exact .refl s
  | roll => exact .refl s

/-- An engine's part of a delivery, or none while the station is SILENT. -/
theorem delivered_engineStep {f : State → State} (hf : ∀ s, EngineStep s (f s)) (s : State) :
    EngineStep s (delivered f s) := by
  unfold delivered
  split
  · exact .clearHandover s
  · exact (EngineStep.clearHandover s).trans (hf _)

theorem deliverPending_coreStep (s : State) : CoreStep s (deliverPending s) := by
  unfold deliverPending
  split
  · exact .refl s
  · exact (delivered_engineStep (frameReaches_engineStep _ _ _) s).toCoreStep
  · exact (delivered_engineStep (fun s => (blockEnds_portStep _ _ _ s).toEngineStep) s).toCoreStep
  · exact (delivered_engineStep (fun s => CoreStep.ofRun (returnedReaches_runStep _ s)) s).toCoreStep
  · exact (EngineStep.clearHandover s).toCoreStep.trans (rollReaches_coreStep _ _ _)
  · exact (EngineStep.clearHandover s).toCoreStep.trans (ownRollReaches_coreStep _ _)

/-! ### The Command Unit -/

theorem EngineStep.reject (r : List Byte) (reason : RejectReason) (s : State) : EngineStep s (reject r reason s) :=
  .post rfl s

theorem CoreStep.beginRun (i : Fin 8) (a : StartRunArgs) (s : State) : CoreStep s (beginRun i a s) := by
  unfold Machine.beginRun
  refine CoreStep.trans ?_ (EngineStep.offer _ _).toCoreStep
  refine ⟨?_, ?_, ?_, ?_, ?_, ?_, ?_, ?_, ?_, ?_, ?_, ?_, ?_, ?_, ?_, ?_, (.refl _), fun x => x, fun _ x => x,
    fun x => x, fun x => x, fun x => x⟩ <;>
    rfl

theorem startRunTaken_coreStep (r : List Byte) (s : State) : CoreStep s (startRunTaken r s) := by
  unfold startRunTaken
  dsimp only
  repeat' split
  all_goals first
    | exact (EngineStep.reject r _ s).toCoreStep
    | exact .beginRun _ _ s

theorem cancelRunTaken_engineStep (r : List Byte) (s : State) : EngineStep s (cancelRunTaken r s) := by
  unfold cancelRunTaken
  repeat' split
  all_goals first
    | exact .reject r _ s
    | exact (EngineStep.offer _ s).trans (RunStep.endRunNow _ _ _ _ _).toEngineStep

theorem openPortTaken_engineStep (r : List Byte) (s : State) : EngineStep s (openPortTaken r s) := by
  unfold openPortTaken
  dsimp only
  repeat' split
  all_goals first
    | exact .reject r _ s
    | exact .setPort _ _ s

theorem EngineStep.releaseTo (i : Fin 8) (p : OpenPort) (k : BankId) (base : Nat) (s : State) :
    EngineStep s (releaseTo i p k base s) := by
  unfold Machine.releaseTo
  dsimp only
  split
  · split
    · exact (EngineStep.setPort _ _ s).trans (.offer _ _)
    · exact .setPort _ _ s
  all_goals exact .setPort _ _ s

/-- A command on an open port does what its own operation does, or is rejected. -/
theorem onOpenPort_engineStep (r : List Byte) {f : Fin 8 → OpenPort → State → State}
    (hf : ∀ i p s, EngineStep s (f i p s)) (s : State) : EngineStep s (onOpenPort r f s) := by
  unfold onOpenPort
  repeat' split
  all_goals first
    | exact .reject r _ s
    | exact hf _ _ s

theorem releaseBankTaken_engineStep (r : List Byte) (s : State) : EngineStep s (releaseBankTaken r s) := by
  refine onOpenPort_engineStep r (fun i p s => ?_) s
  dsimp only
  repeat' split
  all_goals first
    | exact .reject r _ s
    | exact .releaseTo _ _ _ _ s

theorem EngineStep.haltNow (i : Fin 8) (p : OpenPort) (s : State) : EngineStep s (haltNow i p s) := by
  unfold Machine.haltNow
  split
  · exact (EngineStep.offer _ s).trans (PortStep.unbindNow _ _ _ _ _ _ _).toEngineStep
  all_goals exact .setPort _ _ s

theorem EngineStep.closeNow (i : Fin 8) (p : OpenPort) (s : State) : EngineStep s (closeNow i p s) := by
  unfold Machine.closeNow
  split
  · exact ((EngineStep.offer _ s).trans (.setPort _ _ _)).trans (.post rfl _)
  all_goals exact .setPort _ _ s

theorem haltPortTaken_engineStep (r : List Byte) (s : State) : EngineStep s (haltPortTaken r s) := by
  refine onOpenPort_engineStep r (fun i p s => ?_) s
  split
  · exact .reject r _ s
  · exact .haltNow i p s

theorem unhaltPortTaken_engineStep (r : List Byte) (s : State) : EngineStep s (unhaltPortTaken r s) := by
  unfold unhaltPortTaken
  split
  · exact .reject r _ s
  · refine onOpenPort_engineStep r (fun i p s => ?_) s
    split
    · exact .setPort i _ s
    · exact .reject r _ s

theorem closePortTaken_engineStep (r : List Byte) (s : State) : EngineStep s (closePortTaken r s) :=
  onOpenPort_engineStep r (fun i p s => .closeNow i p s) s

/-- A soft reset's result, field by field. -/
theorem softResetTaken_eq (s : State) : softResetTaken s =
    { s with log := [.softResetDone], logCopied := none, rrPointer := 7, slots := (softResetRuns s).slots,
             ports := Vector.replicate 8 none,
             rau := { s.rau with controlQueue := [], dataQueue := [], marking := false, threshold := none } } := by
  obtain ⟨h, -⟩ := softResetRuns_spec s
  rw [softResetTaken]
  generalize softResetRuns s = q at *
  rw [h]; rfl

/-! ### The Ring Access Unit -/

theorem blockHeader_eq (h : Header) (s : State) :
    (blockHeader h s).2 = { s with ports := (blockHeader h s).2.ports } := by
  unfold blockHeader
  repeat' split
  all_goals rfl

theorem stripOwn_eq (h : Header) (s : State) : (stripOwn h s).2 = { s with ports := (stripOwn h s).2.ports } := by
  unfold stripOwn
  repeat' split
  · rfl
  · exact blockHeader_eq h s
  · rfl

theorem decide98_eq (h : Header) (s : State) : (decide98 h s).2 = { s with ports := (decide98 h s).2.ports } := by
  unfold decide98
  repeat' split
  · exact stripOwn_eq h s
  all_goals rfl

theorem enterPass_eq (bs : List Byte) (r : Rau) :
    enterPass bs r = { r with passFifo := (enterPass bs r).passFifo, reception := (enterPass bs r).reception } := by
  unfold enterPass
  dsimp only
  split <;> rfl

/-- What a header decision can change. -/
def DecisionShape (s t : State) : Prop :=
  t = { s with
    ports := t.ports,
    rau := { s.rau with reception := t.rau.reception, passFifo := t.rau.passFifo, inHold := t.rau.inHold,
                        holdTimer := t.rau.holdTimer } }

theorem decideHeader_shape (q : Reception) (s : State) : DecisionShape s (decideHeader q s) := by
  unfold decideHeader DecisionShape
  dsimp only
  split
  · have hd := decide98_eq (headerOf q.header) (setRau (s.rau.yieldOn s.straps.stn (headerOf q.header).flags) s)
    have hy := yieldOn_eq s.rau s.straps.stn (headerOf q.header).flags
    generalize s.rau.yieldOn s.straps.stn (headerOf q.header).flags = y at *
    generalize decide98 (headerOf q.header) (setRau y s) = d at *
    rw [hd]
    split
    · have he := enterPass_eq (forwardHeader (headerOf q.header) (setRau y s)).bytes
        { y with reception := some { q with decision := some d.1 } }
      generalize (forwardHeader (headerOf q.header) (setRau y s)).bytes = bs at *
      dsimp only [setRau]
      generalize enterPass bs { y with reception := some { q with decision := some d.1 } } = e at *
      rw [he, hy]
    · dsimp only [setRau]
      rw [hy]
  · rfl

theorem decidePending_shape (s : State) : DecisionShape s (decidePending s) := by
  unfold decidePending
  split
  · split
    · exact decideHeader_shape _ s
    · rfl
  · rfl

/-- What a symbol handed to the RAU can change. -/
def SymbolShape (s t : State) : Prop :=
  t = { s with
    mem := t.mem,
    rau := { s.rau with reception := t.rau.reception, passFifo := t.rau.passFifo, handover := t.rau.handover } }

theorem endFrame_eq (own : Byte) (q : Reception) (r : Rau) :
    endFrame own q r = { r with reception := none, passFifo := (endFrame own q r).passFifo,
                                handover := (endFrame own q r).handover } := by
  unfold endFrame Rau.handing
  dsimp only
  repeat' split
  all_goals rfl

theorem passByte_shape (b : Byte) (q : Reception) (s : State) : SymbolShape s (passByte b q s) := by
  unfold passByte
  split
  · rfl
  · unfold SymbolShape
    rw [abandon_eq]; rfl

/-- What the bank writer answers: at most the next byte of the target is written, within its limit. -/
theorem bankWrite_ok {b : Byte} {w w' : BankWrite} {s t : State} (h : bankWrite b w s = .ok (w', t)) :
    w'.target = w.target ∧ w'.limit = w.limit ∧ t = { s with mem := t.mem } ∧
      (t.mem = s.mem ∨ t.mem = s.mem.write (w.target + w.written) b ∧ w.target + w.written < Config.memoryBytes) := by
  unfold bankWrite writeByte at h
  by_cases h1 : w.written < w.limit
  · rw [if_pos h1] at h
    by_cases h2 : w.target + w.written < Config.memoryBytes
    · rw [if_pos h2] at h
      cases h
      exact ⟨rfl, rfl, rfl, .inr ⟨rfl, h2⟩⟩
    · rw [if_neg h2] at h; cases h
  · rw [if_neg h1] at h
    cases h
    exact ⟨rfl, rfl, rfl, .inl rfl⟩

theorem bodyByte_shape {b : Byte} {d : Decision} {q : Reception} {s t : State} (h : bodyByte b d q s = .ok t) :
    SymbolShape s t := by
  unfold bodyByte at h
  dsimp only at h
  repeat' split at h
  all_goals first
    | (cases h; exact passByte_shape _ _ _)
    | (cases h; rfl)
    | (cases h; unfold SymbolShape; rw [abandon_eq]; rfl)
    | skip
  · rename_i hw
    obtain ⟨-, -, hs, -⟩ := bankWrite_ok hw
    cases h
    unfold SymbolShape
    rw [hs]; rfl
  · cases h

theorem symbolToRau_shape {sym : Symbol} {s t : State} (h : symbolToRau sym s = .ok t) : SymbolShape s t := by
  unfold symbolToRau dataByte at h
  repeat' split at h
  all_goals first
    | exact bodyByte_shape h
    | (cases h; rfl)
    | (cases h; unfold SymbolShape; rw [abandon_eq]; rfl)
    | (cases h; unfold SymbolShape; rw [endFrame_eq]; rfl)

/-- What the loss of the link can change. -/
theorem linkDown_keeps (s : State) : linkDown s =
    { s with rx := (linkDown s).rx, log := (linkDown s).log,
             rau := { s.rau with reception := (linkDown s).rau.reception, passFifo := (linkDown s).rau.passFifo,
                                 handover := (linkDown s).rau.handover } } := by
  unfold linkDown
  dsimp only
  split
  · rw [abandon_eq]; rfl
  · rfl

theorem countInUp_keeps (sym : Symbol) (s : State) : countInUp sym s =
    { s with rx := (countInUp sym s).rx, log := (countInUp sym s).log,
             rau := { s.rau with reception := (countInUp sym s).rau.reception, passFifo := (countInUp sym s).rau.passFifo,
                                 handover := (countInUp sym s).rau.handover } } := by
  unfold countInUp
  dsimp only
  split
  · exact linkDown_keeps s
  · rfl

/-! ### A frame taken by its engine, or none -/

theorem RunStep.clearHandover (i : Fin 8) (s : State) : RunStep i s (clearHandover s) :=
  ⟨.clearHandover s, rfl, fun _ _ => rfl⟩

theorem PortStep.clearHandover (n : Nat) (s : State) : PortStep n s (clearHandover s) :=
  ⟨.clearHandover s, rfl, rfl, rfl, rfl, fun _ _ => rfl⟩

/-- A frame delivered to the Run Engine changes no other slot than the one it names. -/
theorem delivered_run {f : State → State} {station port tag : Byte}
    (hf : ∀ s, f s = s ∨ ∃ i r, findRun station port tag s = some (i, r) ∧ RunStep i s (f s)) (s : State) :
    EngineStep s (delivered f s) ∧ (delivered f s).ports = s.ports ∧
      ∀ j : Fin 8, (∀ r, findRun station port tag s ≠ some (j, r)) → (delivered f s).slots[j] = s.slots[j] := by
  unfold delivered
  split
  · exact ⟨.clearHandover s, rfl, fun _ _ => rfl⟩
  · rcases hf (clearHandover s) with h | ⟨i, r, hr, h⟩
    · rw [h]; exact ⟨.clearHandover s, rfl, fun _ _ => rfl⟩
    · have k := (RunStep.clearHandover i s).trans h
      refine ⟨k.toEngineStep, k.ports, fun j hj => k.others j ?_⟩
      rintro rfl
      exact hj r hr

/-- A frame delivered to the Port Engine changes no other port than the one it names. -/
theorem delivered_port {f : State → State} {n : Nat} (hf : ∀ s, PortStep n s (f s)) (s : State) :
    PortStep n s (delivered f s) := by
  unfold delivered
  split
  · exact .clearHandover n s
  · exact (PortStep.clearHandover n s).trans (hf _)

/-- The record at the head of the command FIFO is taken. -/
theorem CoreStep.takeRecord (rest : List (List Byte)) (s : State) : CoreStep s { s with commandFifo := rest } := by
  refine ⟨?_, ?_, ?_, ?_, ?_, ?_, ?_, ?_, ?_, ?_, ?_, ?_, ?_, ?_, ?_, ?_, (.refl _), fun x => x, fun _ x => x,
    fun x => x, fun x => x, fun x => x⟩ <;>
    rfl

/-- A command of the Command Unit leaves what its operation leaves. -/
theorem takeCommand_coreStep (test : Byte → Bool) {f : List Byte → State → State} (hf : ∀ r s, CoreStep s (f r s))
    (s : State) : CoreStep s (takeCommand test f s) := by
  rcases takeCommand_cases test f s with h | ⟨r, rest, -, -, h⟩
  · rw [h]; exact .refl s
  · rw [h]; exact (CoreStep.takeRecord rest s).trans (hf r _)

/-- The commands of the engines, of the Roll Call Unit and of the Command Unit, but for SOFT_RESET. -/
def coreCommand : Instr → Bool
  | .openFrame | .finishFrame | .cancelFrame | .blockFrame | .grantFrame | .refuseFrame | .takenFrame | .resumeFrame
  | .busyFrame | .haltedFrame | .closedFrame | .returnedFrame | .rollFrame | .ownBeacon | .beaconPeriodExpiry
  | .answerExpiryOpening _ | .answerExpiryStreaming _ | .answerExpiryClosing _ | .probeTimerExpiry _
  | .pauseTimerExpiry _ | .idleTimerExpiry _ | .dataQueueGrant | .startRun | .cancelRun | .openPort | .releaseBank
  | .haltPort | .unhaltPort | .closePort | .unknownCommand => true
  | _ => false

theorem exec_coreStep {i : Instr} {s t : State} (hi : coreCommand i = true) (h : exec i s = .next t) : CoreStep s t := by
  have port : ∀ {n : Nat} {f : State → State}, (∀ s, PortStep n s (f s)) → CoreStep s (delivered f s) :=
    fun hf => (delivered_port hf s).toCoreStep
  have run : ∀ {f : State → State} {a b c : Byte},
      (∀ s, f s = s ∨ ∃ i r, findRun a b c s = some (i, r) ∧ RunStep i s (f s)) → CoreStep s (delivered f s) :=
    fun hf => (delivered_run hf s).1.toCoreStep
  cases i <;> first | (cases hi; done) | skip
  case openFrame =>
    change execOpenFrame s = .next t at h
    unfold execOpenFrame at h
    split at h <;> cases h
    · exact port (openReaches_portStep _ _)
    · exact .refl s
  case finishFrame =>
    change execFinishFrame s = .next t at h
    unfold execFinishFrame at h
    split at h <;> cases h
    · exact port (finishReaches_portStep _ _)
    · exact .refl s
  case cancelFrame =>
    change execCancelFrame s = .next t at h
    unfold execCancelFrame at h
    split at h <;> cases h
    · exact port (cancelReaches_portStep _)
    · exact .refl s
  case blockFrame =>
    change execBlockFrame s = .next t at h
    unfold execBlockFrame at h
    split at h <;> cases h
    · exact port (blockEnds_portStep _ _ _)
    · exact .refl s
  case grantFrame =>
    change execGrantFrame s = .next t at h
    unfold execGrantFrame at h
    split at h <;> cases h
    · exact run (grantReaches_runStep _ _)
    · exact .refl s
  case refuseFrame =>
    change execRefuseFrame s = .next t at h
    unfold execRefuseFrame at h
    split at h <;> cases h
    · exact run (refuseReaches_runStep _ _)
    · exact .refl s
  case takenFrame =>
    change execTakenFrame s = .next t at h
    unfold execTakenFrame at h
    split at h <;> cases h
    · exact run (takenReaches_runStep _)
    · exact .refl s
  case resumeFrame =>
    change execResumeFrame s = .next t at h
    unfold execResumeFrame at h
    split at h <;> cases h
    · exact run (resumeReaches_runStep _)
    · exact .refl s
  case busyFrame =>
    change execBusyFrame s = .next t at h
    unfold execBusyFrame at h
    split at h <;> cases h
    · exact run (busyReaches_runStep _)
    · exact .refl s
  case haltedFrame =>
    change execHaltedFrame s = .next t at h
    unfold execHaltedFrame at h
    split at h <;> cases h
    · exact run (haltedReaches_runStep _ _)
    · exact .refl s
  case closedFrame =>
    change execClosedFrame s = .next t at h
    unfold execClosedFrame at h
    split at h <;> cases h
    · exact run (closedReaches_runStep _ _)
    · exact .refl s
  case returnedFrame =>
    change execReturnedFrame s = .next t at h
    unfold execReturnedFrame at h
    split at h <;> cases h
    · exact run (returnedReaches_runStep _)
    · exact .refl s
  case rollFrame =>
    change execRollFrame s = .next t at h
    unfold execRollFrame at h
    split at h <;> cases h
    · exact (EngineStep.clearHandover s).toCoreStep.trans (rollReaches_coreStep _ _ _)
    · exact .refl s
  case ownBeacon =>
    change execOwnBeacon s = .next t at h
    unfold execOwnBeacon at h
    split at h <;> cases h
    · exact (EngineStep.clearHandover s).toCoreStep.trans (ownRollReaches_coreStep _ _)
    · exact .refl s
  case beaconPeriodExpiry =>
    cases h; exact beaconPeriodExpires_coreStep s
  case answerExpiryOpening n =>
    cases h; exact (answerExpiresOpening_runStep n s).toCoreStep
  case answerExpiryStreaming n =>
    cases h; exact (answerExpiresStreaming_runStep n s).toCoreStep
  case answerExpiryClosing n =>
    cases h; exact (answerExpiresClosing_runStep n s).toCoreStep
  case probeTimerExpiry n =>
    cases h; exact (probeExpires_runStep n s).toCoreStep
  case pauseTimerExpiry n =>
    cases h; exact (pauseExpires_runStep n s).toCoreStep
  case idleTimerExpiry n =>
    cases h; exact (idleExpires_portStep n s).toCoreStep
  case dataQueueGrant =>
    cases h; exact (grantPlace_coreStep s).1
  case startRun =>
    cases h; exact takeCommand_coreStep _ startRunTaken_coreStep s
  case cancelRun =>
    cases h; exact takeCommand_coreStep _ (fun r s => (cancelRunTaken_engineStep r s).toCoreStep) s
  case openPort =>
    cases h; exact takeCommand_coreStep _ (fun r s => (openPortTaken_engineStep r s).toCoreStep) s
  case releaseBank =>
    cases h; exact takeCommand_coreStep _ (fun r s => (releaseBankTaken_engineStep r s).toCoreStep) s
  case haltPort =>
    cases h; exact takeCommand_coreStep _ (fun r s => (haltPortTaken_engineStep r s).toCoreStep) s
  case unhaltPort =>
    cases h; exact takeCommand_coreStep _ (fun r s => (unhaltPortTaken_engineStep r s).toCoreStep) s
  case closePort =>
    cases h; exact takeCommand_coreStep _ (fun r s => (closePortTaken_engineStep r s).toCoreStep) s
  case unknownCommand =>
    cases h; exact takeCommand_coreStep _ (fun r s => (EngineStep.reject r _ s).toCoreStep) s

/-! ### Commands that may fault -/

theorem exec_symbolInUp_cases {sym : Symbol} {s t : State} (h : exec (.symbolInUp sym) s = .next t) :
    t = s ∨ ∃ u, symbolToRau sym (settle s) = .ok u ∧ t = countInUp sym u := by
  change execSymbolInUp sym s = _ at h
  unfold execSymbolInUp takeInUp at h
  split at h
  · cases hu : symbolToRau sym (settle s) with
    | error f => rw [hu] at h; cases h
    | ok u => rw [hu] at h; cases h; exact .inr ⟨u, rfl, rfl⟩
  · cases h; exact .inl rfl


theorem exec_insertionStart_cases {s t : State} (h : exec .insertionStart s = .next t) :
    t = s ∨ (insertionOpen s = true ∧ ((∃ f rest, s.rau.controlQueue = f :: rest ∧ t = insertControl f rest s) ∨
      ∃ e rest r p, s.rau.controlQueue = [] ∧ s.rau.dataQueue = e :: rest ∧ s.slots[e.slot] = some r ∧
        readBytes (r.base + e.index * r.size) r.size s = .ok p ∧
        t = setSlot e.slot (some (r.fold e.index p)) (setRau
            { s.rau.afterDataInsertion rest with output := .inserting (some (e.slot, e.index)) (leadSymbols s.rau.gap ++ (blockBytes r e.index p s).map .data) } s))) := by
  change outcome (startInsertion s) = _ at h
  unfold startInsertion at h
  split at h
  · rename_i ho
    split at h
    · rename_i f rest hq; cases h; exact .inr ⟨ho, .inl ⟨f, rest, hq, rfl⟩⟩
    · rename_i hq
      split at h
      · rename_i e rest hd
        split at h
        · cases h; exact .inl rfl
        · split at h
          · rename_i r hr
            unfold insertBlock at h
            cases hp : readBytes (r.base + e.index * r.size) r.size s with
            | error f => rw [hp] at h; cases h
            | ok p => rw [hp] at h; cases h; exact .inr ⟨ho, .inr ⟨e, rest, r, p, hq, hd, hr, hp, rfl⟩⟩
          · cases h; exact .inl rfl
      · cases h; exact .inl rfl
  · cases h; exact .inl rfl

end Sys2Proof.Machine
end

