-- ==== Sys2Proof/Laws/Memory.lean ====
section
/-! SUPPORT. Block memory: what a read gives after a write, and that every operation keeps the canonical form. -/

namespace Sys2Proof.Machine

open Sys2Proof

/-! ### The canonical form -/

theorem wfFrom_mono {m : Memory} {lo hi : Nat} (h : lo ≤ hi) (hm : m.wfFrom hi = true) : m.wfFrom lo = true := by
  cases m with
  | nil => rfl
  | cons c m => obtain ⟨k, v⟩ := c; simp_all [Memory.wfFrom]; omega

theorem wfFrom_write {m : Memory} {lo : Nat} (hm : m.wfFrom lo = true) (a : Nat) (b : Byte) (ha : lo ≤ a)
    (hb : a < Config.memoryBytes) : (m.write a b).wfFrom lo = true := by
  induction m generalizing lo with
  | nil =>
    simp only [Memory.write]
    split
    · rfl
    · simp_all [Memory.wfFrom]
  | cons c m ih =>
    obtain ⟨k, v⟩ := c
    simp only [Memory.wfFrom, Bool.and_eq_true, decide_eq_true_eq, bne_iff_ne, ne_eq] at hm
    simp only [Memory.write]
    split
    · split
      · simp_all [Memory.wfFrom]
      · simp_all [Memory.wfFrom]
    · split
      · split
        · exact wfFrom_mono (by omega) hm.2
        · simp_all [Memory.wfFrom]
      · have := ih hm.2 (by omega)
        simp_all [Memory.wfFrom]

theorem wf_nil : Memory.wf [] = true := rfl

theorem wf_write {m : Memory} (hm : m.wf = true) (a : Nat) (b : Byte) (ha : a < Config.memoryBytes) :
    (m.write a b).wf = true := wfFrom_write hm a b (Nat.zero_le a) ha

/-- What `writeByte` can do: a next memory in canonical form, within the memory. -/
theorem writeByte_ok {a : Nat} {b : Byte} {s t : State} (h : writeByte a b s = .ok t) :
    t = { s with mem := s.mem.write a b } ∧ a < Config.memoryBytes := by
  unfold writeByte at h
  split at h
  · exact ⟨by cases h; rfl, by assumption⟩
  · cases h

theorem writeByte_of_lt {a : Nat} (b : Byte) (s : State) (h : a < Config.memoryBytes) :
    writeByte a b s = .ok { s with mem := s.mem.write a b } := if_pos h

theorem readByte_of_lt {a : Nat} (s : State) (h : a < Config.memoryBytes) : readByte a s = .ok (s.mem.read a) := if_pos h

theorem readBytes_of_le {a n : Nat} (s : State) (h : a + n ≤ Config.memoryBytes) :
    readBytes a n s = .ok (s.mem.bytesFrom a n) := if_pos h

/-! ### Reads -/

theorem read_write_self (m : Memory) (a : Nat) (b : Byte) (hm : m.wf = true) : (m.write a b).read a = b := by
  have low : ∀ (l : Memory) (lo x : Nat), l.wfFrom lo = true → x < lo → l.read x = 0 := by
    intro l
    induction l with
    | nil => intros; rfl
    | cons c l ih =>
      obtain ⟨k, v⟩ := c
      intro lo x h hx
      simp only [Memory.wfFrom, Bool.and_eq_true, decide_eq_true_eq, bne_iff_ne, ne_eq] at h
      simp only [Memory.read]
      rw [if_neg (by omega)]
      exact ih _ _ h.2 (by omega)
  unfold Memory.wf at hm
  generalize 0 = lo at hm
  induction m generalizing lo with
  | nil => simp only [Memory.write]; split <;> simp_all [Memory.read]
  | cons c m ih =>
    obtain ⟨k, v⟩ := c
    have hm' := hm
    simp only [Memory.wfFrom, Bool.and_eq_true, decide_eq_true_eq, bne_iff_ne, ne_eq] at hm
    simp only [Memory.write]
    split
    · split
      · subst_vars
        simp only [Memory.read]
        rw [if_neg (by omega)]
        exact low _ _ _ hm.2 (by omega)
      · simp [Memory.read]
    · split
      · split
        · subst_vars; exact low _ _ _ hm.2 (by omega)
        · simp [Memory.read]
      · simp only [Memory.read]
        rw [if_neg (by assumption)]
        exact ih _ hm.2

theorem read_write_ne (m : Memory) {a x : Nat} (b : Byte) (h : x ≠ a) : (m.write a b).read x = m.read x := by
  induction m with
  | nil => simp only [Memory.write]; split <;> simp [Memory.read, h]
  | cons c m ih =>
    obtain ⟨k, v⟩ := c
    simp only [Memory.write]
    split
    · split <;> simp [Memory.read, h]
    · split
      · split <;> (subst_vars; simp [Memory.read, h])
      · simp [Memory.read, ih]

end Sys2Proof.Machine
end

