-- ==== Sys2Proof/Laws/Ops.lean ====
section
/-! SUPPORT. What the named operations over the log do to the order that R166 asks of it. -/

namespace Sys2Proof.Machine

open Sys2Proof

/-! ### The log (R164 to R169) -/

theorem isOverflow_iff (r : Record) : r.isOverflow = true ↔ ∃ n, r = .logOverflow n := by
  cases r <;> simp [Record.isOverflow]

/-- The three cases of one posting (R166). -/
theorem postTo_cases (l : List Record) (r : Record) :
    (∃ front n, l = front ++ [.logOverflow n] ∧ postTo l r = front ++ [.logOverflow (bumpLost n)]) ∨
      ((∀ n, l.getLast? ≠ some (.logOverflow n)) ∧ l.length < 31 ∧ postTo l r = l ++ [r]) ∨
      ((∀ n, l.getLast? ≠ some (.logOverflow n)) ∧ 31 ≤ l.length ∧ postTo l r = l ++ [.logOverflow 1]) := by
  unfold postTo
  split
  · rename_i n hl
    obtain ⟨front, rfl⟩ : ∃ front, l = front ++ [.logOverflow n] := by
      rw [List.getLast?_eq_some_iff] at hl; exact hl
    exact .inl ⟨front, n, rfl, by simp⟩
  · rename_i hn
    split
    · rename_i h; exact .inr (.inl ⟨hn, h, rfl⟩)
    · rename_i h; exact .inr (.inr ⟨hn, Nat.le_of_not_lt h, rfl⟩)

theorem logOk_nil : LogOk [] := by
  refine ⟨Nat.zero_le _, by simp, by simp, by simp⟩

/-- Without a LOG_OVERFLOW as its newest record a log in order holds none. -/
theorem LogOk.plain {l : List Record} (h : LogOk l) (hn : ∀ n, l.getLast? ≠ some (.logOverflow n)) :
    ∀ r ∈ l, r.isOverflow = false := by
  intro r hr
  by_cases hl : l = []
  · rw [hl] at hr; cases hr
  · rw [← List.dropLast_append_getLast hl, List.mem_append, List.mem_singleton] at hr
    rcases hr with hr | hr
    · exact h.2.1 r hr
    · cases hc : r.isOverflow with
      | false => rfl
      | true =>
        obtain ⟨n, hn'⟩ := (isOverflow_iff r).1 hc
        exact absurd (by rw [List.getLast?_eq_getLast_of_ne_nil hl, ← hr, hn']) (hn n)

/-- A posting of a record of any other kind keeps the log in order. -/
theorem LogOk.postTo {l : List Record} (h : LogOk l) {r : Record} (hr : r.isOverflow = false) : LogOk (postTo l r) := by
  rcases postTo_cases l r with ⟨front, n, rfl, he⟩ | ⟨hn, hl, he⟩ | ⟨hn, hl, he⟩
  · rw [he]
    obtain ⟨h1, h2, h3, -⟩ := h
    have hb := h3 n (by simp)
    refine ⟨by simpa using h1, by simpa using h2, ?_, ?_⟩
    · intro m hm
      rw [List.getLast?_append] at hm
      simp only [List.getLast?_singleton, Option.some_or, Option.some.injEq, Record.logOverflow.injEq] at hm
      rw [← hm]
      unfold bumpLost
      split <;> omega
    · intro hx
      have := hx (.logOverflow (bumpLost n)) (by simp)
      simp [Record.isOverflow] at this
  · rw [he]
    have hp := h.plain hn
    refine ⟨by rw [List.length_append, List.length_singleton]; omega, by simpa using hp, ?_, ?_⟩
    · intro m hm
      rw [List.getLast?_append] at hm
      simp only [List.getLast?_singleton, Option.some_or, Option.some.injEq] at hm
      rw [hm] at hr; simp [Record.isOverflow] at hr
    · intro _; rw [List.length_append, List.length_singleton]; omega
  · rw [he]
    have hp := h.plain hn
    have hle := h.2.2.2 hp
    refine ⟨by rw [List.length_append, List.length_singleton]; omega, by simpa using hp, ?_, ?_⟩
    · intro m hm
      rw [List.getLast?_append] at hm
      simp only [List.getLast?_singleton, Option.some_or, Option.some.injEq, Record.logOverflow.injEq] at hm
      omega
    · intro hx
      have := hx (.logOverflow 1) (by simp)
      simp [Record.isOverflow] at this

/-- Removing the oldest record keeps the log in order. -/
theorem LogOk.tail {l : List Record} (h : LogOk l) : LogOk l.tail := by
  cases l with
  | nil => exact h
  | cons a l =>
    obtain ⟨h1, h2, h3, h4⟩ := h
    cases l with
    | nil => exact logOk_nil
    | cons b l =>
      rw [List.tail_cons]
      refine ⟨?_, ?_, ?_, ?_⟩
      · simp only [List.length_cons] at h1 ⊢; omega
      · intro r hr; exact h2 r (by rw [List.dropLast_cons_cons]; exact List.mem_cons_of_mem _ hr)
      · intro n hn; exact h3 n (by rw [List.getLast?_cons_cons]; exact hn)
      · intro _; simp only [List.length_cons] at h1 ⊢; omega

end Sys2Proof.Machine
end

