-- ==== Sys2Proof/Laws/Order.lean ====
section
/-! SUPPORT. The order in which the records of one event are posted (R126, R130, R165; log 8): each block's records in
its own order, and a report's record before those it causes. -/

namespace Sys2Proof.Machine

open Sys2Proof

/-! ### The records of a report -/

/-- A report's records are told apart by the block that posts them. -/
structure Report.apart (p : Report) : Prop where
  record : p.record.ofRunEngine = false ∧ p.record.ofPortEngine = false
  runs : ∀ r ∈ p.runs, r.ofRunEngine = true ∧ r.ofPortEngine = false
  ports : ∀ r ∈ p.ports, r.ofRunEngine = false ∧ r.ofPortEngine = true

/-- A posting order of what an event leaves: each block's own order, and every caused record after its report's. -/
structure InOrder (reports : List Report) (runs ports rs : List Record) : Prop where
  runs : rs.filter Record.ofRunEngine = runs ++ reports.flatMap Report.runs
  ports : rs.filter Record.ofPortEngine = ports ++ reports.flatMap Report.ports
  others : (rs.filter fun r => !r.ofRunEngine && !r.ofPortEngine) = reports.map Report.record
  after : ∀ p ∈ reports, ∀ r, r ∈ p.runs ∨ r ∈ p.ports → [p.record, r].Sublist rs

theorem weave_order (fuel n : Nat) (reports : List Report) (runs ports : List Record)
    (h : Report.total reports + runs.length + ports.length ≤ fuel) (ha : ∀ p ∈ reports, p.apart)
    (hr : ∀ r ∈ runs, r.ofRunEngine = true ∧ r.ofPortEngine = false)
    (hp : ∀ r ∈ ports, r.ofRunEngine = false ∧ r.ofPortEngine = true) :
    InOrder reports runs ports (weave fuel n reports runs ports).1 := by
  induction fuel generalizing n reports runs ports with
  | zero =>
    have h1 : reports = [] := by
      cases reports with
      | nil => rfl
      | cons p l => rw [total_cons] at h; omega
    have h2 : runs = [] := List.eq_nil_of_length_eq_zero (by omega)
    have h3 : ports = [] := List.eq_nil_of_length_eq_zero (by omega)
    subst h1 h2 h3
    constructor <;> simp [weave]
  | succ fuel ih =>
    simp only [weave]
    generalize hn : (if (turns reports runs ports).length ≤ 1 then n else n + 1) = n'
    generalize ht : (if (turns reports runs ports).length ≤ 1 then (turns reports runs ports).headD .rollCall
      else (turns reports runs ports).getD (Config.postChoice n % (turns reports runs ports).length) .rollCall) = t
    by_cases he : turns reports runs ports = []
    · obtain ⟨h1, h2, h3⟩ := turns_nil _ _ _ he
      subst h1 h2 h3
      have : t = .rollCall := by rw [← ht]; rfl
      subst this
      constructor <;> simp
    · have hm := turn_mem n _ he
      rw [ht] at hm
      obtain ⟨m1, m2, m3⟩ := turns_mem hm
      clear ht hm he hn
      cases t with
      | rollCall =>
        cases reports with
        | nil => exact absurd rfl (m1 rfl)
        | cons p rest =>
          dsimp only
          rw [total_cons] at h
          have ap := ha p (List.mem_cons_self ..)
          have hk := ih n' rest (runs ++ p.runs) (ports ++ p.ports) (by simp only [List.length_append]; omega)
            (fun q hq => ha q (List.mem_cons_of_mem _ hq))
            (fun r hx => (List.mem_append.1 hx).elim (hr r) (ap.runs r))
            (fun r hx => (List.mem_append.1 hx).elim (hp r) (ap.ports r))
          have hmem := fun r => weave_mem fuel n' rest (runs ++ p.runs) (ports ++ p.ports)
            (by simp only [List.length_append]; omega) r
          constructor
          · rw [List.filter_cons_of_neg (by simp [ap.record.1]), hk.runs]; simp
          · rw [List.filter_cons_of_neg (by simp [ap.record.2]), hk.ports]; simp
          · rw [List.filter_cons_of_pos (by simp [ap.record]), hk.others]; rfl
          · intro q hq r hx
            rcases List.mem_cons.1 hq with rfl | hq
            · refine List.Sublist.cons_cons _ (List.singleton_sublist.2 ((hmem r).2 ?_))
              simp only [Left, List.mem_append]; tauto
            · exact (hk.after q hq r hx).cons _
      | runEngine =>
        cases runs with
        | nil => exact absurd rfl (m2 rfl)
        | cons x rest =>
          dsimp only
          have hx := hr x (List.mem_cons_self ..)
          have hk := ih n' reports rest ports (by simp only [List.length_cons] at h; omega) ha
            (fun r hr' => hr r (List.mem_cons_of_mem _ hr')) hp
          constructor
          · rw [List.filter_cons_of_pos (by simp [hx]), hk.runs]; rfl
          · rw [List.filter_cons_of_neg (by simp [hx]), hk.ports]
          · rw [List.filter_cons_of_neg (by simp [hx]), hk.others]
          · exact fun q hq r hx => (hk.after q hq r hx).cons _
      | portEngine =>
        cases ports with
        | nil => exact absurd rfl (m3 rfl)
        | cons x rest =>
          dsimp only
          have hx := hp x (List.mem_cons_self ..)
          have hk := ih n' reports runs rest (by simp only [List.length_cons] at h; omega) ha hr
            (fun r hr' => hp r (List.mem_cons_of_mem _ hr'))
          constructor
          · rw [List.filter_cons_of_neg (by simp [hx]), hk.runs]
          · rw [List.filter_cons_of_pos (by simp [hx]), hk.ports]; rfl
          · rw [List.filter_cons_of_neg (by simp [hx]), hk.others]
          · exact fun q hq r hx => (hk.after q hq r hx).cons _

/-- Everything `postReports` does, with the order of what it posts. -/
theorem postReports_order (reports : List Report) (s : State) (ha : ∀ p ∈ reports, p.apart) :
    ∃ rs, postReports reports s =
        { s with log := rs.foldl postTo s.log, freeNext := (postReports reports s).freeNext } ∧
      InOrder reports [] [] rs ∧
      (∀ r, r ∈ rs ↔ ∃ p ∈ reports, r = p.record ∨ r ∈ p.runs ∨ r ∈ p.ports) ∧
      (∀ p rest, reports = p :: rest → ∃ tail, rs = p.record :: tail) := by
  refine ⟨(weave (Report.total reports) s.freeNext reports [] []).1, rfl,
    weave_order _ _ _ _ _ (by simp) ha (by simp) (by simp), ?_, ?_⟩
  · intro r
    rw [weave_mem _ _ _ _ _ (by simp)]
    simp [Left]
  · rintro p rest rfl
    have : Report.total (p :: rest) = (p.runs.length + p.ports.length + Report.total rest) + 1 := by
      rw [total_cons]; omega
    rw [this]
    exact weave_head _ _ _ _

/-! ### What a slot and a port become, in the words of Safety -/

theorem slotAfterEnding_eq (i : Fin 8) (b : Bool) (ends : Run → Bool) (result : RunResult) (slot : Slot) :
    slotAfterEnding i b ends result slot =
      if endsAt ends slot = true then (endedSlot b result slot, endedRecords i b result slot) else (slot, []) := by
  cases slot with
  | none => simp [slotAfterEnding, endsAt]
  | some r =>
    by_cases h : r.phase = .ending
    · simp [slotAfterEnding, endsAt, h]
    · cases ht : ends r
      · simp [slotAfterEnding, endsAt, ht]
      · cases b <;> simp [slotAfterEnding, endsAt, h, ht, endedSlot, endedRecords, Run.stopped, Run.endRecord]

theorem portAfterEnding_eq (i : Fin 8) (ends : Binding → Bool) (result : PortResult) (port : Port) :
    portAfterEnding i ends result port = if unbindsAt ends port = true then unboundPort i result port else (port, []) := by
  cases port with
  | none => simp [portAfterEnding, unbindsAt]
  | some p =>
    cases hm : p.mode with
    | listening => simp [portAfterEnding, unbindsAt, hm]
    | halted => simp [portAfterEnding, unbindsAt, hm]
    | bound b current idle =>
      cases ht : ends b
      · simp [portAfterEnding, unbindsAt, hm, ht]
      · cases current with
        | none => simp [portAfterEnding, unbindsAt, unboundPort, unbind, closeCurrent, hm, ht, Binding.endRecord]
        | some k =>
          cases hc : (p.bank k).content with
          | free =>
            simp [portAfterEnding, unbindsAt, unboundPort, unbind, closeCurrent, closeBank, hm, ht, hc, Binding.endRecord]
            cases k <;> exact ⟨rfl, rfl⟩
          | full o n =>
            simp [portAfterEnding, unbindsAt, unboundPort, unbind, closeCurrent, closeBank, hm, ht, hc, Binding.endRecord]
            cases k <;> exact ⟨rfl, rfl⟩
          | filling o n =>
            by_cases hn : n = 0 <;>
              simp [portAfterEnding, unbindsAt, unboundPort, unbind, closeCurrent, closeBank, hm, ht, hc, hn,
                Binding.endRecord, bankFullRecord]

/-! ### Which block posts the records of an ending -/

theorem endedRecords_ofRunEngine (i : Fin 8) (b : Bool) (result : RunResult) (slot : Slot) :
    ∀ r ∈ endedRecords i b result slot, r.ofRunEngine = true ∧ r.ofPortEngine = false := by
  unfold endedRecords
  split
  · split
    · simp
    · intro r hr; rw [List.mem_singleton] at hr; subst hr; exact ⟨rfl, rfl⟩
  · simp

theorem unboundPort_ofPortEngine (i : Fin 8) (result : PortResult) (port : Port) :
    ∀ r ∈ (unboundPort i result port).2, r.ofRunEngine = false ∧ r.ofPortEngine = true := by
  intro r hr
  unfold unboundPort unbind closeCurrent closeBank at hr
  dsimp only at hr
  repeat' split at hr
  all_goals
    simp only [List.mem_append, List.mem_singleton, List.not_mem_nil, false_or] at hr
  all_goals first
    | (subst hr; exact ⟨rfl, rfl⟩)
    | (rcases hr with rfl | rfl <;> exact ⟨rfl, rfl⟩)

theorem endRunsWhere_ofRunEngine (test : Run → Bool) (result : RunResult) (s : State) :
    ∀ r ∈ (endRunsWhere test result s).2, r.ofRunEngine = true ∧ r.ofPortEngine = false := by
  rw [(endRunsWhere_spec test result s).2.2.2.2]
  intro r hr
  obtain ⟨i, -, hr⟩ := List.mem_flatMap.1 hr
  split at hr
  · exact endedRecords_ofRunEngine _ _ _ _ r hr
  · cases hr

theorem unbindWhere_ofPortEngine (test : Binding → Bool) (result : PortResult) (s : State) :
    ∀ r ∈ (unbindWhere test result s).2, r.ofRunEngine = false ∧ r.ofPortEngine = true := by
  rw [(unbindWhere_spec test result s).2.2.2.2.2]
  intro r hr
  obtain ⟨i, -, hr⟩ := List.mem_flatMap.1 hr
  split at hr
  · exact unboundPort_ofPortEngine _ _ _ r hr
  · cases hr

/-- The loss of a peer: its records are told apart, and they are those of the runs to it and the bindings from it, in
slot-number and port-number order. -/
theorem losePeer_order (j : Fin 16) (s : State) :
    (losePeer j s).2.apart ∧ (losePeer j s).2.record = .peerLost j ∧
      (losePeer j s).2.runs = slotNumbers.flatMap (fun i =>
        (slotAfterEnding i (beingInserted i s) (runTo j) .peerLost s.slots[i]).2) ∧
      (losePeer j s).2.ports = portNumbers.flatMap (fun i =>
        (portAfterEnding i (boundFrom j) .peerLost s.ports[i]).2) := by
  obtain ⟨-, -, -, -, h1, h2, h3⟩ := losePeer_spec j s
  have he : (losePeer j s).2 =
      { record := .peerLost j, runs := (endRunsWhere (runTo j) .peerLost s).2,
        ports := (unbindWhere (boundFrom j) .peerLost (endRunsWhere (runTo j) .peerLost s).1).2 } := rfl
  have a1 := endRunsWhere_ofRunEngine (runTo j) .peerLost s
  have a2 := unbindWhere_ofPortEngine (boundFrom j) .peerLost (endRunsWhere (runTo j) .peerLost s).1
  have ha : (losePeer j s).2.apart := by
    clear h1 h2 h3
    generalize (endRunsWhere (runTo j) .peerLost s).2 = x at he a1
    generalize (unbindWhere (boundFrom j) .peerLost (endRunsWhere (runTo j) .peerLost s).1).2 = y at he a2
    rw [he]
    exact ⟨⟨rfl, rfl⟩, a1, a2⟩
  refine ⟨ha, h1, ?_, ?_⟩
  · rw [h2]
    refine List.flatMap_congr fun i _ => ?_
    rw [slotAfterEnding_eq]; split <;> rfl
  · rw [h3]
    refine List.flatMap_congr fun i _ => ?_
    rw [portAfterEnding_eq]; split <;> rfl

/-- Everything `enterSilent` does, with the order of what it posts. -/
theorem enterSilent_order (s : State) : ∃ z tail,
    enterSilent s =
      { z with log := (.duplicateStation :: tail).foldl postTo s.log, freeNext := (enterSilent s).freeNext } ∧
    KeptByEndings (silenced s) z ∧ z.peers = s.peers ∧
    (∀ i : Fin 8, z.slots[i] = (slotAfterEnding i (beingInserted i s) (fun _ => true) .silenced s.slots[i]).1) ∧
    (∀ i : Fin 8, z.ports[i] = (portAfterEnding i (fun _ => true) .silenced s.ports[i]).1) ∧
    tail.filter Record.ofRunEngine = slotNumbers.flatMap (fun i =>
      (slotAfterEnding i (beingInserted i s) (fun _ => true) .silenced s.slots[i]).2) ∧
    tail.filter Record.ofPortEngine = portNumbers.flatMap (fun i =>
      (portAfterEnding i (fun _ => true) .silenced s.ports[i]).2) ∧
    ∀ r ∈ tail, r.ofRunEngine = true ∨ r.ofPortEngine = true := by
  have a1 := endRunsWhere_ofRunEngine (fun _ => true) .silenced (silenced s)
  have a2 := unbindWhere_ofPortEngine (fun _ => true) .silenced (endRunsWhere (fun _ => true) .silenced (silenced s)).1
  obtain ⟨k1, p1, q1, sl1, r1⟩ := endRunsWhere_spec (fun _ => true) .silenced (silenced s)
  obtain ⟨k2, _, p2, q2, sl2, r2⟩ :=
    unbindWhere_spec (fun _ => true) .silenced (endRunsWhere (fun _ => true) .silenced (silenced s)).1
  have he : enterSilent s = postReports [
      { record := .duplicateStation,
        runs := (endRunsWhere (fun _ => true) .silenced (silenced s)).2,
        ports := (unbindWhere (fun _ => true) .silenced (endRunsWhere (fun _ => true) .silenced (silenced s)).1).2 }]
      (unbindWhere (fun _ => true) .silenced (endRunsWhere (fun _ => true) .silenced (silenced s)).1).1 := rfl
  generalize endRunsWhere (fun _ => true) .silenced (silenced s) = w at *
  generalize unbindWhere (fun _ => true) .silenced w.1 = z at *
  obtain ⟨rs, hpr, ho, hmem, hhead⟩ :=
    postReports_order [{ record := .duplicateStation, runs := w.2, ports := z.2 }] z.1
      (by intro p hp; rw [List.mem_singleton] at hp; subst hp; exact ⟨⟨rfl, rfl⟩, a1, a2⟩)
  obtain ⟨tail, htl⟩ := hhead _ _ rfl
  subst htl
  have kk := k1.trans k2
  have o1 := ho.runs
  have o2 := ho.ports
  have o3 := ho.others
  rw [List.filter_cons_of_neg (by simp [Record.ofRunEngine])] at o1
  rw [List.filter_cons_of_neg (by simp [Record.ofPortEngine])] at o2
  rw [List.filter_cons_of_pos (by simp [Record.ofRunEngine, Record.ofPortEngine])] at o3
  simp only [List.flatMap_cons, List.flatMap_nil, List.append_nil, List.nil_append] at o1 o2
  simp only [List.map_cons, List.map_nil, List.cons.injEq, true_and, List.filter_eq_nil_iff] at o3
  refine ⟨z.1, tail, by rw [he, hpr, kk.log]; rfl, kk, q2.trans q1, ?_, ?_, ?_, ?_, ?_⟩
  · intro i; rw [p2, sl1 i, slotAfterEnding_eq]; simp only [apply_ite Prod.fst]; rfl
  · intro i; rw [sl2 i, p1, portAfterEnding_eq]; simp only [apply_ite Prod.fst]; rfl
  · rw [o1, r1]
    refine List.flatMap_congr fun i _ => ?_
    rw [slotAfterEnding_eq]; simp only [apply_ite Prod.snd]; rfl
  · rw [o2, r2, p1]
    refine List.flatMap_congr fun i _ => ?_
    rw [portAfterEnding_eq]; simp only [apply_ite Prod.snd]; rfl
  · intro r hr
    have := o3 r hr
    cases h1 : r.ofRunEngine <;> cases h2 : r.ofPortEngine <;> simp_all

end Sys2Proof.Machine
end

