-- ==== Sys2Proof/Laws/PerInstr.lean ====
section
/-! SUPPORT. The one family of statements about the syntax of every command: which commands are well formed. -/

namespace Sys2Proof
namespace Laws

/-- A command is well formed exactly where it is not a TRANSACTION_IGNORED with one of the five transaction codes. -/
def WellFormed.Statement (i : Instr) : Prop :=
  i.wf = true ↔ ∀ code, i = .transactionIgnored code → code ∉ transactionCodes

/-- The statement, for a command that is no TRANSACTION_IGNORED. -/
theorem wellFormed_other {i : Instr} (h : i.wf = true) (hi : ∀ code, i ≠ .transactionIgnored code) :
    WellFormed.Statement i := ⟨fun _ code e => absurd e (hi code), fun _ => h⟩

theorem WellFormed.resetNAsserted : WellFormed.Statement .resetNAsserted := wellFormed_other rfl nofun
theorem WellFormed.resetNReleased (stn rsz : BitVec 4) (tcl : BitVec 2) (csLow : Bool) : WellFormed.Statement (.resetNReleased stn rsz tcl csLow) :=
  wellFormed_other rfl nofun
theorem WellFormed.startPeriodExpiry : WellFormed.Statement .startPeriodExpiry := wellFormed_other rfl nofun
theorem WellFormed.symbolInDown (sym : Symbol) : WellFormed.Statement (.symbolInDown sym) := wellFormed_other rfl nofun
theorem WellFormed.symbolInAlign (sym : Symbol) : WellFormed.Statement (.symbolInAlign sym) :=
  wellFormed_other rfl nofun
theorem WellFormed.symbolInUp (sym : Symbol) : WellFormed.Statement (.symbolInUp sym) := wellFormed_other rfl nofun
theorem WellFormed.quietTimerExpiry : WellFormed.Statement .quietTimerExpiry := wellFormed_other rfl nofun
theorem WellFormed.headerDecision : WellFormed.Statement .headerDecision := wellFormed_other rfl nofun
theorem WellFormed.openFrame : WellFormed.Statement .openFrame := wellFormed_other rfl nofun
theorem WellFormed.finishFrame : WellFormed.Statement .finishFrame := wellFormed_other rfl nofun
theorem WellFormed.cancelFrame : WellFormed.Statement .cancelFrame := wellFormed_other rfl nofun
theorem WellFormed.blockFrame : WellFormed.Statement .blockFrame := wellFormed_other rfl nofun
theorem WellFormed.grantFrame : WellFormed.Statement .grantFrame := wellFormed_other rfl nofun
theorem WellFormed.refuseFrame : WellFormed.Statement .refuseFrame := wellFormed_other rfl nofun
theorem WellFormed.takenFrame : WellFormed.Statement .takenFrame := wellFormed_other rfl nofun
theorem WellFormed.resumeFrame : WellFormed.Statement .resumeFrame := wellFormed_other rfl nofun
theorem WellFormed.busyFrame : WellFormed.Statement .busyFrame := wellFormed_other rfl nofun
theorem WellFormed.haltedFrame : WellFormed.Statement .haltedFrame := wellFormed_other rfl nofun
theorem WellFormed.closedFrame : WellFormed.Statement .closedFrame := wellFormed_other rfl nofun
theorem WellFormed.returnedFrame : WellFormed.Statement .returnedFrame := wellFormed_other rfl nofun
theorem WellFormed.rollFrame : WellFormed.Statement .rollFrame := wellFormed_other rfl nofun
theorem WellFormed.ownBeacon : WellFormed.Statement .ownBeacon := wellFormed_other rfl nofun
theorem WellFormed.beaconPeriodExpiry : WellFormed.Statement .beaconPeriodExpiry := wellFormed_other rfl nofun
theorem WellFormed.answerExpiryOpening (slot : Fin 8) : WellFormed.Statement (.answerExpiryOpening slot) :=
  wellFormed_other rfl nofun
theorem WellFormed.answerExpiryStreaming (slot : Fin 8) : WellFormed.Statement (.answerExpiryStreaming slot) :=
  wellFormed_other rfl nofun
theorem WellFormed.answerExpiryClosing (slot : Fin 8) : WellFormed.Statement (.answerExpiryClosing slot) :=
  wellFormed_other rfl nofun
theorem WellFormed.probeTimerExpiry (slot : Fin 8) : WellFormed.Statement (.probeTimerExpiry slot) :=
  wellFormed_other rfl nofun
theorem WellFormed.pauseTimerExpiry (slot : Fin 8) : WellFormed.Statement (.pauseTimerExpiry slot) :=
  wellFormed_other rfl nofun
theorem WellFormed.idleTimerExpiry (port : Fin 8) : WellFormed.Statement (.idleTimerExpiry port) :=
  wellFormed_other rfl nofun
theorem WellFormed.dataQueueGrant : WellFormed.Statement .dataQueueGrant := wellFormed_other rfl nofun
theorem WellFormed.forwardStart : WellFormed.Statement .forwardStart := wellFormed_other rfl nofun
theorem WellFormed.forwardEnd : WellFormed.Statement .forwardEnd := wellFormed_other rfl nofun
theorem WellFormed.insertionStart : WellFormed.Statement .insertionStart := wellFormed_other rfl nofun
theorem WellFormed.insertionEnd : WellFormed.Statement .insertionEnd := wellFormed_other rfl nofun
theorem WellFormed.yieldThresholdExpiry : WellFormed.Statement .yieldThresholdExpiry := wellFormed_other rfl nofun
theorem WellFormed.yieldHoldExpiry : WellFormed.Statement .yieldHoldExpiry := wellFormed_other rfl nofun
theorem WellFormed.command (bytes : List Byte) : WellFormed.Statement (.command bytes) := wellFormed_other rfl nofun
theorem WellFormed.startRun : WellFormed.Statement .startRun := wellFormed_other rfl nofun
theorem WellFormed.cancelRun : WellFormed.Statement .cancelRun := wellFormed_other rfl nofun
theorem WellFormed.openPort : WellFormed.Statement .openPort := wellFormed_other rfl nofun
theorem WellFormed.releaseBank : WellFormed.Statement .releaseBank := wellFormed_other rfl nofun
theorem WellFormed.haltPort : WellFormed.Statement .haltPort := wellFormed_other rfl nofun
theorem WellFormed.unhaltPort : WellFormed.Statement .unhaltPort := wellFormed_other rfl nofun
theorem WellFormed.closePort : WellFormed.Statement .closePort := wellFormed_other rfl nofun
theorem WellFormed.softReset : WellFormed.Statement .softReset := wellFormed_other rfl nofun
theorem WellFormed.unknownCommand : WellFormed.Statement .unknownCommand := wellFormed_other rfl nofun
theorem WellFormed.logRead : WellFormed.Statement .logRead := wellFormed_other rfl nofun
theorem WellFormed.logReadDone : WellFormed.Statement .logReadDone := wellFormed_other rfl nofun
theorem WellFormed.memWrite (addr : BitVec 24) (len : Word16) : WellFormed.Statement (.memWrite addr len) :=
  wellFormed_other rfl nofun
theorem WellFormed.memWriteData (b : Byte) : WellFormed.Statement (.memWriteData b) := wellFormed_other rfl nofun
theorem WellFormed.memWriteClose : WellFormed.Statement .memWriteClose := wellFormed_other rfl nofun
theorem WellFormed.memRead (addr : BitVec 24) (len : Word16) : WellFormed.Statement (.memRead addr len) :=
  wellFormed_other rfl nofun
theorem WellFormed.memReadData : WellFormed.Statement .memReadData := wellFormed_other rfl nofun
theorem WellFormed.inspect (target index : Byte) : WellFormed.Statement (.inspect target index) :=
  wellFormed_other rfl nofun
theorem WellFormed.transactionIgnored (code : Byte) : WellFormed.Statement (.transactionIgnored code) :=
  ⟨fun h c e => by cases e; simpa [Instr.wf] using h, fun h => by simpa [Instr.wf] using h _ rfl⟩
theorem WellFormed.transactionEnd : WellFormed.Statement .transactionEnd := wellFormed_other rfl nofun

end Laws
end Sys2Proof
end

