-- ==== Sys2Proof/Laws/Runs.lean ====
section
/-! SUPPORT. What every operation leaves of the order of the Run Table and the data queue (R16, R108). -/

namespace Sys2Proof.Machine

set_option linter.unusedVariables false

open Sys2Proof

theorem runsOk_congr {s t : State} (h : RunsOk s) (h1 : t.slots = s.slots) (h2 : t.rau.dataQueue = s.rau.dataQueue)
    (h3 : ∀ i, beingInserted i s = true → beingInserted i t = true) : RunsOk t := by
  obtain ⟨a, b, c, d⟩ := h
  refine ⟨?_, by rw [h2]; exact b, ?_, by rw [h2]; exact d⟩
  · intro i r hr; rw [h1] at hr
    exact ⟨(a i r hr).1, fun x => h3 i ((a i r hr).2 x)⟩
  · intro e he
    rw [h2] at he
    unfold entryOk; rw [h1]; exact c e he

theorem runsOk_of {s t : State} {i : Fin 8} (h : RunsOk s) (others : ∀ j : Fin 8, j ≠ i → t.slots[j] = s.slots[j])
    (out : t.rau.output = s.rau.output) (sub : t.rau.dataQueue.Sublist s.rau.dataQueue)
    (new : ∀ r', t.slots[i] = some r' → RunOk r' ∧ (r'.phase = .ending → beingInserted i s = true))
    (ent : ∀ e ∈ t.rau.dataQueue, e.slot = i → entryOk t e) : RunsOk t := by
  obtain ⟨a, b, c, d⟩ := h
  refine ⟨?_, Nat.le_trans sub.length_le b, ?_, d.sublist sub⟩
  · intro j r hr
    rw [beingInserted_congr out]
    by_cases hj : j = i
    · subst hj; exact new r hr
    · rw [others j hj] at hr; exact a j r hr
  · intro e he
    by_cases hj : e.slot = i
    · exact ent e he hj
    · unfold entryOk; rw [others _ hj]; exact c e (sub.subset he)

theorem purge_queue (i : Fin 8) (s : State) : (purge i s).rau.dataQueue = s.rau.dataQueue.filter fun e => e.slot ≠ i :=
  setData_dataQueue _ s

theorem purge_output_eq (i : Fin 8) (s : State) : (purge i s).rau.output = s.rau.output := (RunStep.purge i i s).output

theorem runsOk_purge_set {s : State} {i : Fin 8} {slot : Slot} (h : RunsOk s)
    (new : ∀ r', slot = some r' → RunOk r' ∧ (r'.phase = .ending → beingInserted i s = true)) :
    RunsOk (setSlot i slot (purge i s)) := by
  refine runsOk_of (i := i) h ?_ (purge_output_eq i s) ?_ ?_ ?_
  · intro j hj
    exact ((RunStep.purge i i s).trans (.setSlot i slot _)).others j hj
  · show (purge i s).rau.dataQueue.Sublist _
    rw [purge_queue]; exact List.filter_sublist
  · intro r' hr
    rw [setSlot_get, if_pos rfl] at hr; exact new r' hr
  · intro e he hj
    have he : e ∈ (purge i s).rau.dataQueue := he
    rw [purge_queue, List.mem_filter] at he
    simp [hj] at he

theorem runsOk_offer {s : State} (f : OwnFrame) (h : RunsOk s) : RunsOk (offer f s) :=
  runsOk_congr h (by simp) (offer_dataQueue f s)
      (fun i => by rw [beingInserted_congr (EngineStep.offer f s).output]; exact id)

theorem runsOk_ended {r : Run} (h : RunOk r)
    (o : Option (RunResult × Option Byte)) : RunOk { r.stopped with phase := .ending, owed := o } := by
  obtain ⟨h1, h2, h3, h4, h5, h6, h7, h8, h9, h10, h11, h12, h13, h14, h15, h16, h17, h18⟩ := h
  exact ⟨h1, h2, h3, h4, h5, h6, h7, h8, h9, h10, h11, h12, h13, h14, h15, h16, h17, rfl, rfl, rfl⟩

theorem runsOk_endRun {s : State} {i : Fin 8} {r : Run} (h : RunsOk s) (hr : s.slots[i] = some r) (a : RunResult)
    (b : Option Byte) :
    RunsOk (endRun i r a b s).1 := by
  rw [endRun_eq]
  refine runsOk_purge_set h ?_
  intro r' e
  split at e
  · rename_i hb; cases e; exact ⟨runsOk_ended (h.1 i r hr).1 _, fun _ => hb⟩
  · cases e

theorem runsOk_postAll {s : State} (rs : List Record) (h : RunsOk s) : RunsOk (postAll rs s) := h

theorem runsOk_endRunNow {s : State} {i : Fin 8} {r : Run} (h : RunsOk s) (hr : s.slots[i] = some r) (a : RunResult)
    (b : Option Byte) :
    RunsOk (endRunNow i r a b s) := runsOk_postAll _ (runsOk_endRun h hr a b)

/-- What CLOSING leaves of a run (R35). -/
def closingOf (r : Run) (t : Nat) : Run :=
    { r with phase := .closing, probe := none, pause := none, attempts := 1, answer := some t }

theorem purge_purge_set (i : Fin 8) (x : Slot)
    (s : State) : setSlot i x (purge i (purge i s)) = setSlot i x (purge i s) := by
  rw [purge_purge]

theorem purge_dropBelow_queue (i : Fin 8) (n : Nat)
    (s : State) : (purge i (dropBelow i n s)).rau.dataQueue = (purge i s).rau.dataQueue := by
  rw [purge_queue, purge_queue, dropBelow, setData_dataQueue, List.filter_filter]
  apply List.filter_congr
  intro e _
  by_cases h : e.slot = i <;> simp [h]

theorem runsOk_enterClosing {s : State} {i : Fin 8} {r : Run} (h : RunsOk s) (hr : ∀ t, RunOk (closingOf r t)) :
    RunsOk (enterClosing i r s) := by
  unfold enterClosing
  apply runsOk_offer
  refine runsOk_purge_set h ?_
  intro r' e; cases e
  exact ⟨hr _, by intro h; cases h⟩

theorem runsOk_purge {s : State} (i : Fin 8) (h : RunsOk s) (hs : ∀ r, s.slots[i] = some r → RunOk r ∧
    (r.phase = .ending → beingInserted i s = true)) : RunsOk (purge i s) := by
  have := runsOk_purge_set (slot := s.slots[i]) h hs
  refine runsOk_congr this ?_ rfl (fun _ x => x)
  rw [setSlot_slots]
  have : (purge i s).slots = s.slots := by simp
  rw [this]
  ext j hj : 1
  simp only [Fin.getElem_fin, Vector.getElem_set]
  split
  · rename_i h; subst h; rfl
  · rfl

/-- A run that closes or goes on, its queued entries purged. -/
theorem runsOk_closeOr_purge {s : State} {i : Fin 8} {r r1 : Run} (h : RunsOk s)
    (hc : r1.taken = r1.count → ∀ t, RunOk (closingOf r1 t)) (hn : r1.taken ≠ r1.count → RunOk r1 ∧
        r1.phase ≠ .ending) :
    RunsOk (closeOr i r1 (purge i s)) := by
  unfold closeOr
  split
  · rename_i he
    unfold enterClosing
    rw [purge_purge]
    apply runsOk_offer
    refine runsOk_purge_set h ?_
    intro r' e; cases e
    exact ⟨hc he _, by intro h; cases h⟩
  · rename_i he
    refine runsOk_purge_set h ?_
    intro r' e; cases e
    exact ⟨(hn he).1, fun x => absurd x (hn he).2⟩

/-! ### Replies (R20 to R40) -/

theorem distance_lt (r : Run) (x : Byte) : r.distance x < 8 := Nat.mod_lt _ (by decide)

theorem runOk_of_eq {r q : Run} (h : RunOk r) (e1 : q.size = r.size) (e2 : q.count = r.count) (e3 : q.base = r.base)
    (e4 : q.window = r.window) (e5 : q.dest = r.dest) (e6 : q.port = r.port) (e7 : q.granted = r.granted)
        (e8 : q.digestIndex = r.digestIndex)
    (t1 : r.taken ≤ q.taken) (t2 : q.taken ≤ q.sent) (t3 : q.sent ≤ r.sent) (a1 : 1 ≤ q.attempts)
        (a2 : q.attempts ≤ 4) (b : q.timeouts ≤ 7) (p : q.phaseOk) : RunOk q := by
  obtain ⟨h1, h2, h3, h4, h5, h6, h7, h8, h9, h10, h11, h12, h13, h14, h15, h16, h17, h18⟩ := h
  unfold RunOk
  rw [e1, e2, e3, e4, e5, e6, e7, e8]
  exact ⟨h1, h2, h3, h4, h5, h6, h7, h8, h9, t2, by omega, by omega, h13, h14, a1, a2, b, p⟩

theorem replyReaches_runsOk {f : Fin 8 → Run → State → State} (hf : ∀ i r s, RunsOk s → s.slots[i] = some r →
    r.phase ≠ .ending → RunsOk (f i r s)) (h : Header) (s : State) (hs : RunsOk s) :
    RunsOk (replyReaches f h s) := by
  rcases replyReaches_cases f h s with hx | ⟨i, r, h1, h2, hx⟩
  · rw [hx]; exact hs
  · rw [hx]
    exact hf i r s hs (findRun_eq_some.1 h1).1 h2

theorem grantReaches_runsOk (h : Header) (x : List Byte) (s : State) (hs : RunsOk s) : RunsOk (grantReaches h x s) := by
  refine replyReaches_runsOk (fun i r s hs hr hn => ?_) h s hs
  split
  · rename_i hp
    obtain ⟨hk, -⟩ := hs.1 i r hr
    have hk0 := hk
    obtain ⟨h1, h2, h3, h4, h5, h6, h7, h8, h9, h10, h11, h12, h13, h14, h15, h16, h17, h18⟩ := hk
    unfold Run.phaseOk at h18; rw [hp] at h18; dsimp only at h18
    obtain ⟨p1, p2, p3, p4, p5, p6, p7⟩ := h18
    have hc : 1 ≤ clampWindow r.window (byteAt x 0).toNat ∧ clampWindow r.window (byteAt x 0).toNat ≤ r.window := by
      unfold clampWindow; omega
    refine runsOk_of (i := i) hs ((RunStep.setSlot i _ s).others) rfl (.refl _) ?_ ?_
    · intro r' e
      rw [setSlot_get, if_pos rfl] at e; cases e
      refine ⟨⟨h1, h2, h3, h4, h5, h6, h7, h8, h9, h10, h11, ?_, ?_, h14, h15, h16, h17, ?_⟩, by intro h; cases h⟩
      · show r.sent ≤ r.taken + _; omega
      · intro g hg; cases hg; exact hc
      · exact ⟨rfl, by show r.taken < r.count; omega, ⟨fun h => Bool.noConfusion h, fun h => absurd (show r.taken < r.sent from h) (by omega)⟩, p5, p6, p7⟩
    · intro e he hj
      obtain ⟨ej, ei⟩ := e; dsimp only at hj; subst hj
      obtain ⟨q, hq, hph, -⟩ := hs.2.2.1 _ he
      rw [hr] at hq; cases hq
      rw [hp] at hph; rcases hph with h | h <;> cases h
  all_goals exact hs

theorem refuseReaches_runsOk (h : Header) (x : List Byte) (s : State)
    (hs : RunsOk s) : RunsOk (refuseReaches h x s) := by
  refine replyReaches_runsOk (fun i r s hs hr hn => ?_) h s hs
  split
  · exact runsOk_endRunNow hs hr _ _
  all_goals exact hs

theorem haltedReaches_runsOk (h : Header) (x : List Byte) (s : State) (hs : RunsOk s) : RunsOk (haltedReaches h x s) :=
  replyReaches_runsOk (fun i r s hs hr hn => runsOk_endRunNow hs hr _ _) h s hs

theorem closedReaches_runsOk (h : Header) (x : List Byte) (s : State)
    (hs : RunsOk s) : RunsOk (closedReaches h x s) := by
  refine replyReaches_runsOk (fun i r s hs hr hn => ?_) h s hs
  split
  · split <;> exact runsOk_endRunNow hs hr _ _
  all_goals exact hs

theorem returnedReaches_runsOk (h : Header) (s : State) (hs : RunsOk s) : RunsOk (returnedReaches h s) := by
  unfold returnedReaches
  split
  · split
    · rename_i i r hf
      split
      · exact hs
      · exact runsOk_endRunNow hs (findRun_eq_some.1 hf).1 _ _
    · exact hs
  · exact hs

theorem acknowledge_timeouts (r : Run) (d : Nat) (h : r.timeouts ≤ 7) : (r.acknowledge d).timeouts ≤ 7 := by
  unfold Run.acknowledge; dsimp only; split <;> omega

theorem closeOr_eq {i : Fin 8} {r : Run} {s : State} (h : r.taken = r.count) : closeOr i r s = enterClosing i r s :=
    if_pos h

theorem closeOr_ne {i : Fin 8} {r : Run} {s : State}
    (h : r.taken ≠ r.count) : closeOr i r s = setSlot i (some r) s := if_neg h

theorem takenReaches_runsOk (h : Header) (s : State) (hs : RunsOk s) : RunsOk (takenReaches h s) := by
  refine replyReaches_runsOk (fun i r s hs hr hn => ?_) h s hs
  obtain ⟨hk, -⟩ := hs.1 i r hr
  have hk0 := hk
  obtain ⟨h1, h2, h3, h4, h5, h6, h7, h8, h9, h10, h11, h12, h13, h14, h15, h16, h17, h18⟩ := hk
  have ht := acknowledge_timeouts r (r.distance h.seq + 1) h17
  have gk : ∀ g : Option Nat, r.granted.isSome = true → r.granted = g → g.isSome = true :=
      fun g a b => by rw [← b]; exact a
  dsimp only
  split
  · rename_i hp
    unfold Run.phaseOk at h18; rw [hp] at h18; dsimp only at h18
    obtain ⟨p1, p2, p3, p4, p5, p6⟩ := h18
    split
    · rename_i hd
      unfold Run.outstanding at hd
      by_cases he : r.taken + (r.distance h.seq + 1) = r.count
      · rw [closeOr_eq he]
        unfold enterClosing
        apply runsOk_offer
        rw [show setSlot i _ (purge i (dropBelow i _ s)) = setSlot i _ (purge i (dropBelow i _ s)) from rfl]
        have hc := runsOk_purge_set (i := i) (slot :=
            some { { (r.acknowledge (r.distance h.seq + 1)) with answer := if (r.acknowledge (r.distance h.seq + 1)).taken < (r.acknowledge (r.distance h.seq + 1)).sent then some s.answerTime else none } with phase := .closing, probe := none, pause := none, attempts := 1, answer := some (dropBelow i (r.acknowledge (r.distance h.seq + 1)).taken s).answerTime }) hs (by
          intro r' e; cases e
          refine ⟨runOk_of_eq hk0 rfl rfl rfl rfl rfl rfl rfl rfl (Nat.le_add_right _ _) ?_ (Nat.le_refl _)
              (Nat.le_refl 1) (by show 1 ≤ 4; decide) ht ?_, by intro h; cases h⟩
          · show r.taken + (r.distance h.seq + 1) ≤ r.sent; omega
          · exact ⟨p1, he, rfl, rfl, rfl, p6⟩)
        refine runsOk_congr hc ?_ ?_ ?_
        · simp
        · exact purge_dropBelow_queue _ _ _
        · intro j hj
          refine (beingInserted_congr ?_ j).trans hj
          show (purge i (dropBelow i _ s)).rau.output = (purge i s).rau.output
          rw [purge_output_eq, purge_output_eq]; exact (RunStep.dropBelow i i _ s).output
      · rw [closeOr_ne he]
        refine runsOk_of (i := i) hs (((RunStep.dropBelow i i _ s).trans (.setSlot i _ _)).others)
            ((RunStep.dropBelow i i _ s).output) ?_ ?_ ?_
        · show (dropBelow i _ s).rau.dataQueue.Sublist _
          rw [dropBelow, setData_dataQueue]; exact List.filter_sublist
        · intro r' e
          rw [setSlot_get, if_pos rfl] at e; cases e
          refine ⟨runOk_of_eq hk0 rfl rfl rfl rfl rfl rfl rfl rfl (Nat.le_add_right _ _) ?_ (Nat.le_refl _) h15 h16
              ht ?_, fun x => absurd (show r.phase = .ending from x) hn⟩
          · show r.taken + (r.distance h.seq + 1) ≤ r.sent; omega
          · unfold Run.phaseOk
            rw [show ({ (r.acknowledge (r.distance h.seq + 1)) with answer := _ } : Run).phase = .streaming from hp]
            refine ⟨p1, ?_, ?_, p4, p5, p6⟩
            · show r.taken + (r.distance h.seq + 1) < r.count; omega
            · show (if r.taken + (r.distance h.seq + 1) < r.sent then some s.answerTime else none).isSome = true ↔
                  r.taken + (r.distance h.seq + 1) < r.sent
              split <;> simp_all
        · intro e hem hj
          have hem : e ∈ (dropBelow i (r.acknowledge (r.distance h.seq + 1)).taken s).rau.dataQueue := hem
          rw [dropBelow, setData_dataQueue, List.mem_filter] at hem
          obtain ⟨ej, ei⟩ := e; dsimp only at hj; subst hj
          obtain ⟨q, hq, hph, hlo, hhi⟩ := hs.2.2.1 _ hem.1
          rw [hr] at hq; cases hq
          have hge := hem.2
          simp only [true_and, Nat.not_lt] at hge
          refine ⟨_, (by rw [setSlot_get, if_pos rfl]), ?_⟩
          exact ⟨.inl hp, of_decide_eq_true hge, hhi⟩
    · exact hs
  · rename_i hp
    unfold Run.phaseOk at h18; rw [hp] at h18; dsimp only at h18
    obtain ⟨p1, p2, p3, p4, p5, p6, p7⟩ := h18
    split
    · rename_i hd
      unfold Run.outstanding at hd
      have hb : r.taken + (r.distance h.seq + 1) ≤ r.sent := by omega
      refine runsOk_closeOr_purge (r := r) hs ?_ ?_
      · intro he t
        exact runOk_of_eq hk0 rfl rfl rfl rfl rfl rfl rfl rfl (Nat.le_add_right _ _) hb (Nat.le_refl _)
            (Nat.le_refl 1) (by show 1 ≤ 4; decide) ht ⟨p1, he, rfl, rfl, rfl, p7⟩
      · intro he
        have he : r.taken + (r.distance h.seq + 1) ≠ r.count := he
        refine ⟨runOk_of_eq hk0 rfl rfl rfl rfl rfl rfl rfl rfl (Nat.le_add_right _ _) hb (Nat.le_refl _) h15 h16 ht
            ⟨p1, ?_, ?_, rfl, rfl, p7⟩, by intro h; cases h⟩
        · show r.taken + (r.distance h.seq + 1) < r.count; omega
        · refine ⟨fun h => Bool.noConfusion h, ?_⟩
          show r.taken + (r.distance h.seq + 1) < r.sent → _
          omega
    · exact hs
  all_goals exact hs

theorem rew_taken (r : Run) (d : Nat) : ((r.acknowledge d).rewound).taken = r.taken + d ∧
    ((r.acknowledge d).rewound).sent = r.taken + d := ⟨rfl, rfl⟩

theorem runOk_rewound {r q : Run} {d : Nat} (hk0 : RunOk r) (hd : d ≤ r.sent - r.taken) (e1 : q.size = r.size)
    (e2 : q.count = r.count) (e3 : q.base = r.base)
    (e4 : q.window = r.window) (e5 : q.dest = r.dest) (e6 : q.port = r.port) (e7 : q.granted = r.granted)
        (e8 : q.digestIndex = r.digestIndex)
    (t1 : q.taken = r.taken + d) (t2 : q.sent = r.taken + d) (a1 : 1 ≤ q.attempts) (a2 : q.attempts ≤ 4)
        (b : q.timeouts ≤ 7) (p : q.phaseOk) : RunOk q :=
  runOk_of_eq hk0 e1 e2 e3 e4 e5 e6 e7 e8 (by omega) (by omega) (by have := hk0.2.2.2.2.2.2.2.2.2.1; omega) a1 a2 b p

theorem resumeReaches_runsOk (h : Header) (s : State) (hs : RunsOk s) : RunsOk (resumeReaches h s) := by
  refine replyReaches_runsOk (fun i r s hs hr hn => ?_) h s hs
  obtain ⟨hk, -⟩ := hs.1 i r hr
  have hk0 := hk
  obtain ⟨h1, h2, h3, h4, h5, h6, h7, h8, h9, h10, h11, h12, h13, h14, h15, h16, h17, h18⟩ := hk
  have ht := acknowledge_timeouts r (r.distance h.seq) h17
  dsimp only
  split
  · rename_i hp
    unfold Run.phaseOk at h18; rw [hp] at h18; dsimp only at h18
    obtain ⟨p1, p2, p3, p4, p5, p6⟩ := h18
    split
    · rename_i hd
      unfold Run.outstanding at hd
      refine runsOk_closeOr_purge (r := r) hs ?_ ?_
      · intro he t
        exact runOk_rewound hk0 hd rfl rfl rfl rfl rfl rfl rfl rfl rfl rfl (Nat.le_refl 1)
            (by show 1 ≤ 4; decide) ht ⟨p1, he, rfl, rfl, rfl, p6⟩
      · intro he
        have he : r.taken + r.distance h.seq ≠ r.count := he
        refine ⟨runOk_rewound hk0 hd rfl rfl rfl rfl rfl rfl rfl rfl rfl rfl h15 h16 ht ?_,
            fun x => absurd (show r.phase = .ending from x) hn⟩
        unfold Run.phaseOk
        rw [show ((r.acknowledge (r.distance h.seq)).rewound).phase = .streaming from hp]
        refine ⟨p1, ?_, ⟨fun h => Bool.noConfusion h, ?_⟩, p4, p5, p6⟩
        · show r.taken + r.distance h.seq < r.count; omega
        · show r.taken + r.distance h.seq < r.taken + r.distance h.seq → _; omega
    · exact hs
  · rename_i hp
    unfold Run.phaseOk at h18; rw [hp] at h18; dsimp only at h18
    obtain ⟨p1, p2, p3, p4, p5, p6, p7⟩ := h18
    split
    · rename_i hd
      unfold Run.outstanding at hd
      refine runsOk_closeOr_purge (r := r) hs ?_ ?_
      · intro he t
        exact runOk_rewound hk0 hd rfl rfl rfl rfl rfl rfl rfl rfl rfl rfl (Nat.le_refl 1)
            (by show 1 ≤ 4; decide) ht ⟨p1, he, rfl, rfl, rfl, p7⟩
      · intro he
        have he : r.taken + r.distance h.seq ≠ r.count := he
        refine ⟨runOk_rewound hk0 hd rfl rfl rfl rfl rfl rfl rfl rfl rfl rfl h15 h16 ht ⟨p1, ?_,
            ⟨fun h => Bool.noConfusion h, ?_⟩, rfl, rfl, p7⟩, by intro h; cases h⟩
        · show r.taken + r.distance h.seq < r.count; omega
        · show r.taken + r.distance h.seq < r.taken + r.distance h.seq → _; omega
    · exact hs
  · rename_i hp
    unfold Run.phaseOk at h18; rw [hp] at h18; dsimp only at h18
    obtain ⟨p1, p2, p3, p4, p5, p6⟩ := h18
    split
    · exact runsOk_enterClosing hs fun t => runOk_rewound (d :=
          0) hk0 (Nat.zero_le _) rfl rfl rfl rfl rfl rfl rfl rfl rfl rfl (Nat.le_refl 1)
          (by show 1 ≤ 4; decide) h17 ⟨p1, p2, rfl, rfl, rfl, p6⟩
    · exact hs
  all_goals exact hs

theorem busyReaches_runsOk (h : Header) (s : State) (hs : RunsOk s) : RunsOk (busyReaches h s) := by
  refine replyReaches_runsOk (fun i r s hs hr hn => ?_) h s hs
  obtain ⟨hk, -⟩ := hs.1 i r hr
  have hk0 := hk
  obtain ⟨h1, h2, h3, h4, h5, h6, h7, h8, h9, h10, h11, h12, h13, h14, h15, h16, h17, h18⟩ := hk
  have ht := acknowledge_timeouts r (r.distance h.seq) h17
  dsimp only
  split
  · rename_i hp
    unfold Run.phaseOk at h18; rw [hp] at h18; dsimp only at h18
    obtain ⟨p1, p2, p3, p4, p5, p6⟩ := h18
    split
    · rename_i hd
      unfold Run.outstanding at hd
      refine runsOk_closeOr_purge (r := r) hs ?_ ?_
      · intro he t
        exact runOk_rewound hk0 hd rfl rfl rfl rfl rfl rfl rfl rfl rfl rfl (Nat.le_refl 1)
            (by show 1 ≤ 4; decide) ht ⟨p1, he, rfl, rfl, rfl, p6⟩
      · intro he
        have he : r.taken + r.distance h.seq ≠ r.count := he
        refine ⟨runOk_rewound hk0 hd rfl rfl rfl rfl rfl rfl rfl rfl rfl rfl h15 h16 ht ⟨p1, ?_, ?_, rfl, rfl, rfl,
            p6⟩, by intro h; cases h⟩
        · show r.taken + r.distance h.seq < r.count; omega
        · show r.taken + r.distance h.seq ≤ r.taken + r.distance h.seq + 1; omega
    · exact hs
  · rename_i hp
    unfold Run.phaseOk at h18; rw [hp] at h18; dsimp only at h18
    obtain ⟨p1, p2, p3, p4, p5, p6, p7⟩ := h18
    split
    · rename_i hd
      unfold Run.outstanding at hd
      refine runsOk_closeOr_purge (r := r) hs ?_ ?_
      · intro he t
        exact runOk_rewound hk0 hd rfl rfl rfl rfl rfl rfl rfl rfl rfl rfl (Nat.le_refl 1)
            (by show 1 ≤ 4; decide) ht ⟨p1, he, rfl, rfl, rfl, p7⟩
      · intro he
        have he : r.taken + r.distance h.seq ≠ r.count := he
        refine ⟨runOk_rewound hk0 hd rfl rfl rfl rfl rfl rfl rfl rfl rfl rfl h15 h16 ht ?_,
            fun x => absurd (show r.phase = .ending from x) hn⟩
        unfold Run.phaseOk
        rw [show ((r.acknowledge (r.distance h.seq)).rewound).phase = .paused from hp]
        refine ⟨p1, ?_, ?_, rfl, p5, p6, p7⟩
        · show r.taken + r.distance h.seq < r.count; omega
        · show r.taken + r.distance h.seq ≤ r.taken + r.distance h.seq + 1; omega
    · exact hs
  all_goals exact hs

theorem runsOk_same {s t : State} (hs : RunsOk s) (h1 : t.slots = s.slots) (h2 : t.rau.dataQueue = s.rau.dataQueue)
    (h3 : t.rau.output = s.rau.output) : RunsOk t :=
  runsOk_congr hs h1 h2 fun i => by rw [beingInserted_congr h3]; exact id

theorem runsOk_portStep {n : Nat} {s t : State} (hs : RunsOk s) (k : PortStep n s t) : RunsOk t :=
  runsOk_same hs k.slots k.dataQueue k.output

/-- A run is replaced by one of the same state and counts. -/
theorem runsOk_setSlot {s : State} {i : Fin 8} {r q : Run} (hs : RunsOk s) (hr : s.slots[i] = some r) (hq : RunOk q)
    (hn : q.phase ≠ .ending) (hph : q.phase = r.phase) (ht : q.taken = r.taken)
        (hse : q.sent = r.sent) : RunsOk (setSlot i (some q) s) := by
  refine runsOk_of (i := i) hs ((RunStep.setSlot i _ s).others) rfl (.refl _) ?_ ?_
  · intro r' e
    rw [setSlot_get, if_pos rfl] at e; cases e
    exact ⟨hq, fun x => absurd x hn⟩
  · intro e he hj
    obtain ⟨ej, ei⟩ := e; dsimp only at hj; subst hj
    obtain ⟨p, hp, hph', hlo, hhi⟩ := hs.2.2.1 _ he
    rw [hr] at hp; cases hp
    exact ⟨q, by rw [setSlot_get, if_pos rfl], by rw [hph]; exact hph', by rw [ht]; exact hlo, by rw [hse]; exact hhi⟩

theorem answerExpiresOpening_runsOk (i : Fin 8) (s : State) (hs : RunsOk s) : RunsOk (answerExpiresOpening i s) := by
  unfold answerExpiresOpening
  split
  · rename_i r hr
    split
    · rename_i hp
      split
      · rename_i ha
        have ha : r.attempts < 4 := ha
        apply runsOk_offer
        obtain ⟨hk, -⟩ := hs.1 i r hr
        obtain ⟨h1, h2, h3, h4, h5, h6, h7, h8, h9, h10, h11, h12, h13, h14, h15, h16, h17, h18⟩ := hk
        unfold Run.phaseOk at h18; rw [hp.1] at h18; dsimp only at h18
        obtain ⟨p1, p2, p3, p4, p5, p6, p7⟩ := h18
        refine runsOk_setSlot hs hr ⟨h1, h2, h3, h4, h5, h6, h7, h8, h9, h10, h11, h12, h13, h14, ?_, ?_, h17,
            ?_⟩ ?_ rfl rfl rfl
        · show 1 ≤ r.attempts + 1; omega
        · show r.attempts + 1 ≤ 4; omega
        · unfold Run.phaseOk
          rw [show ({ r with attempts := _, answer := _ } : Run).phase = .opening from hp.1]
          exact ⟨p1, p2, p3, rfl, p5, p6, p7⟩
        · show r.phase ≠ _; rw [hp.1]; exact fun h => nomatch h
      · exact runsOk_endRunNow hs hr _ _
    · exact hs
  · exact hs

theorem answerExpiresClosing_runsOk (i : Fin 8) (s : State) (hs : RunsOk s) : RunsOk (answerExpiresClosing i s) := by
  unfold answerExpiresClosing
  split
  · rename_i r hr
    split
    · rename_i hp
      split
      · rename_i ha
        have ha : r.attempts < 4 := ha
        apply runsOk_offer
        obtain ⟨hk, -⟩ := hs.1 i r hr
        obtain ⟨h1, h2, h3, h4, h5, h6, h7, h8, h9, h10, h11, h12, h13, h14, h15, h16, h17, h18⟩ := hk
        unfold Run.phaseOk at h18; rw [hp.1] at h18; dsimp only at h18
        obtain ⟨p1, p2, p3, p4, p5, p6⟩ := h18
        refine runsOk_setSlot hs hr ⟨h1, h2, h3, h4, h5, h6, h7, h8, h9, h10, h11, h12, h13, h14, ?_, ?_, h17,
            ?_⟩ ?_ rfl rfl rfl
        · show 1 ≤ r.attempts + 1; omega
        · show r.attempts + 1 ≤ 4; omega
        · unfold Run.phaseOk
          rw [show ({ r with attempts := _, answer := _ } : Run).phase = .closing from hp.1]
          exact ⟨p1, p2, rfl, p4, p5, p6⟩
        · show r.phase ≠ _; rw [hp.1]; exact fun h => nomatch h
      · exact runsOk_endRunNow hs hr _ _
    · exact hs
  · exact hs

theorem answerExpiresStreaming_runsOk (i : Fin 8) (s : State)
    (hs : RunsOk s) : RunsOk (answerExpiresStreaming i s) := by
  unfold answerExpiresStreaming
  split
  · rename_i r hr
    split
    · rename_i hp
      split
      · rename_i ha
        have ha : r.timeouts + 1 < 8 := ha
        obtain ⟨hk, -⟩ := hs.1 i r hr
        have hk0 := hk
        obtain ⟨h1, h2, h3, h4, h5, h6, h7, h8, h9, h10, h11, h12, h13, h14, h15, h16, h17, h18⟩ := hk
        unfold Run.phaseOk at h18; rw [hp.1] at h18; dsimp only at h18
        obtain ⟨p1, p2, p3, p4, p5, p6⟩ := h18
        refine runsOk_purge_set hs ?_
        intro r' e; cases e
        refine ⟨runOk_of_eq hk0 rfl rfl rfl rfl rfl rfl rfl rfl (Nat.le_refl _) (Nat.le_refl _) h10 h15 h16 ?_ ?_,
            fun x => ?_⟩
        · show r.timeouts + 1 ≤ 7; omega
        · unfold Run.phaseOk
          rw [show ({ r.rewound with timeouts := _ } : Run).phase = .streaming from hp.1]
          exact ⟨p1, p2, ⟨fun h => Bool.noConfusion h, fun h => absurd (show r.taken < r.taken from h) (by omega)⟩,
              p4, p5, p6⟩
        · have x : r.phase = .ending := x
          rw [hp.1] at x; cases x
      · exact runsOk_endRunNow hs hr _ _
    · exact hs
  · exact hs

theorem pauseExpires_runsOk (i : Fin 8) (s : State) (hs : RunsOk s) : RunsOk (pauseExpires i s) := by
  unfold pauseExpires
  split
  · rename_i r hr
    split
    · exact runsOk_endRunNow hs hr _ _
    · exact hs
  · exact hs

/-- One more entry of a run joins the data queue, behind its others. -/
theorem runsOk_append {s t : State} {i : Fin 8} {r q : Run} {n : Nat} (hs : RunsOk s) (hr : s.slots[i] = some r)
    (hlen : s.rau.dataQueue.length < 8) (hd : t.rau.dataQueue = s.rau.dataQueue ++ [{ slot := i, index := n }])
    (ho : t.rau.output = s.rau.output) (hsl : t.slots = (setSlot i (some q) s).slots)
    (hq : RunOk q) (hph : q.phase = .streaming ∨ q.phase = .paused) (ht : q.taken = r.taken) (hse : r.sent ≤ q.sent)
        (hlo : q.taken ≤ n) (hhi : n < q.sent)
    (hinc : ∀ e ∈ s.rau.dataQueue, e.slot = i → e.index < n) : RunsOk t := by
  have hget : t.slots[i] = some q := by rw [hsl, setSlot_get, if_pos rfl]
  have hoth : ∀ j : Fin 8, j ≠ i → t.slots[j] = s.slots[j] :=
      fun j hj => by rw [hsl]; exact (RunStep.setSlot i _ s).others j hj
  refine ⟨?_, ?_, ?_, ?_⟩
  · intro j r' hj
    rw [beingInserted_congr ho]
    by_cases h : j = i
    · subst h; rw [hget] at hj; cases hj
      exact ⟨hq, fun x => by rcases hph with h | h <;> rw [h] at x <;> cases x⟩
    · rw [hoth j h] at hj; exact hs.1 j r' hj
  · rw [hd, List.length_append, List.length_singleton]; omega
  · intro e he
    rw [hd, List.mem_append, List.mem_singleton] at he
    rcases he with he | rfl
    · by_cases h : e.slot = i
      · obtain ⟨ej, ei⟩ := e; dsimp only at h; subst h
        obtain ⟨p, hp, -, hlo', hhi'⟩ := hs.2.2.1 _ he
        rw [hr] at hp; cases hp
        exact ⟨q, hget, hph, by rw [ht]; exact hlo', by exact Nat.lt_of_lt_of_le hhi' hse⟩
      · unfold entryOk; rw [hoth _ h]; exact hs.2.2.1 e he
    · exact ⟨q, hget, hph, hlo, hhi⟩
  · rw [hd, List.pairwise_append]
    refine ⟨hs.2.2.2, List.pairwise_singleton _ _, ?_⟩
    intro a ha b hb
    rw [List.mem_singleton] at hb; subst hb
    exact fun h => hinc a ha h

theorem probeExpires_runsOk (i : Fin 8) (s : State) (hs : RunsOk s) : RunsOk (probeExpires i s) := by
  unfold probeExpires
  split
  · rename_i r hr
    split
    · rename_i hp
      obtain ⟨hk, -⟩ := hs.1 i r hr
      obtain ⟨h1, h2, h3, h4, h5, h6, h7, h8, h9, h10, h11, h12, h13, h14, h15, h16, h17, h18⟩ := hk
      unfold Run.phaseOk at h18; rw [hp.1] at h18; dsimp only at h18
      obtain ⟨p1, p2, p3, p4, p5, p6, p7⟩ := h18
      dsimp only
      split
      · rename_i hc
        refine runsOk_append (i := i) (r := r) (n := r.taken) hs hr hc.2 (setData_dataQueue _ _) ?_ ?_ (q :=
            { r with probe := some (Config.probeTime s.straps.tcl), sent := r.taken + 1 }) ?_ (.inr hp.1) rfl p3
            (Nat.le_refl _) (Nat.lt_succ_self _) ?_
        · exact (EngineStep.setData (s := s) (q := s.rau.dataQueue ++ [{ slot := i, index := r.taken }])
              (fun _ => by have := hc.2; unfold Config.dataCapacity at this; simp; omega)).output
        · simp
        · obtain ⟨g, hg⟩ := Option.isSome_iff_exists.1 p1
          have hgg := h13 g hg
          refine ⟨h1, h2, h3, h4, h5, h6, h7, h8, h9, Nat.le_succ _, p2, ?_, h13, h14, h15, h16, h17, ?_⟩
          · show r.taken + 1 ≤ r.taken + r.granted.getD 0
            rw [hg]; simp; omega
          · unfold Run.phaseOk
            rw [show ({ r with probe := _, sent := _ } : Run).phase = .paused from hp.1]
            exact ⟨p1, p2, Nat.le_refl _, p4, rfl, p6, p7⟩
        · intro e he hj
          obtain ⟨ej, ei⟩ := e; dsimp only at hj; subst hj
          obtain ⟨p, hp', -, hlo, hhi⟩ := hs.2.2.1 _ he
          rw [hr] at hp'; cases hp'
          have hlo : r.taken ≤ ei := hlo
          have hhi : ei < r.sent := hhi
          have : ei = r.taken := by omega
          subst this
          exact absurd he hc.1
      · refine runsOk_setSlot hs hr ⟨h1, h2, h3, h4, h5, h6, h7, h8, h9, h10, h11, h12, h13, h14, h15, h16, h17,
            ?_⟩ ?_ rfl rfl rfl
        · unfold Run.phaseOk
          rw [show ({ r with probe := _ } : Run).phase = .paused from hp.1]
          exact ⟨p1, p2, p3, p4, rfl, p6, p7⟩
        · show r.phase ≠ _; rw [hp.1]; exact fun h => nomatch h
    · exact hs
  · exact hs

theorem grantPlace_runsOk (s : State) (hs : RunsOk s) : RunsOk (grantPlace s) := by
  unfold grantPlace
  split
  · rename_i i r hn
    obtain ⟨j, -, hj⟩ := List.exists_of_findSome?_eq_some hn
    split at hj
    · rename_i q hq
      split at hj
      · rename_i hw
        cases hj
        split
        · rename_i hc
          obtain ⟨hk, -⟩ := hs.1 i r hq
          obtain ⟨h1, h2, h3, h4, h5, h6, h7, h8, h9, h10, h11, h12, h13, h14, h15, h16, h17, h18⟩ := hk
          unfold Run.wants at hw
          simp only [Bool.and_eq_true, decide_eq_true_eq] at hw
          obtain ⟨⟨hp, hw1⟩, hw2⟩ := hw
          unfold Run.phaseOk at h18; rw [hp] at h18; dsimp only at h18
          obtain ⟨p1, p2, p3, p4, p5, p6⟩ := h18
          dsimp only
          refine runsOk_append (i := i) (r := r) (n := r.sent) hs hq hc (setData_dataQueue _ _) ?_ ?_ (q :=
              { r with sent := r.sent + 1, answer := if r.answer.isSome then r.answer else some s.answerTime }) ?_
              (.inl hp) rfl (Nat.le_succ _) h10 (Nat.lt_succ_self _) ?_
          · exact (EngineStep.setData (s := s) (q := s.rau.dataQueue ++ [{ slot := i, index := r.sent }])
                (fun _ => by have := hc; unfold Config.dataCapacity at this; simp; omega)).output
          · simp
          · refine ⟨h1, h2, h3, h4, h5, h6, h7, h8, h9, Nat.le_succ_of_le h10, hw1, ?_, h13, h14, h15, h16, h17, ?_⟩
            · show r.sent + 1 ≤ r.taken + r.granted.getD 0; omega
            · unfold Run.phaseOk
              rw [show ({ r with sent := _, answer := _ } : Run).phase = .streaming from hp]
              refine ⟨p1, p2, ⟨fun _ => ?_, fun _ => ?_⟩, p4, p5, p6⟩
              · show r.taken < r.sent + 1; omega
              · show (if r.answer.isSome then r.answer else some s.answerTime).isSome = true
                split
                · assumption
                · rfl
          · intro e he hj
            obtain ⟨ej, ei⟩ := e; dsimp only at hj; subst hj
            obtain ⟨p, hp', -, hlo, hhi⟩ := hs.2.2.1 _ he
            rw [hq] at hp'; cases hp'
            exact hhi
        · exact hs
      · cases hj
    · cases hj
  · exact hs

theorem postReports_runsOk (l : List Report) (s : State) (h : RunsOk s) : RunsOk (postReports l s) :=
    runsOk_same h rfl rfl rfl

theorem setRollCall_runsOk (l : RollCall) (s : State) (h : RunsOk s) : RunsOk (setRollCall l s) :=
    runsOk_same h rfl rfl rfl

theorem setPeer_runsOk (i : Fin 16) (l : Peer) (s : State) (h : RunsOk s) : RunsOk (setPeer i l s) :=
    runsOk_same h rfl rfl rfl

theorem setPort_runsOk (i : Fin 8) (l : Port) (s : State) (h : RunsOk s) : RunsOk (setPort i l s) :=
    runsOk_same h rfl rfl rfl

theorem control_runsOk (l : List OwnFrame) (s : State)
    (h : RunsOk s) : RunsOk (setRau { s.rau with controlQueue := l } s) := runsOk_same h rfl rfl rfl

theorem clearHandover_runsOk (s : State) (h : RunsOk s) : RunsOk (clearHandover s) := runsOk_same h rfl rfl rfl

theorem post_runsOk (r : Record) (s : State) (h : RunsOk s) : RunsOk (post r s) := runsOk_same h rfl rfl rfl

theorem endRunsWhere_runsOk (test : Run → Bool) (result : RunResult) (s : State)
    (hs : RunsOk s) : RunsOk (endRunsWhere test result s).1 := by
  unfold endRunsWhere
  generalize slotNumbers = l
  have : ∀ acc : State × List Record, RunsOk acc.1 → RunsOk (l.foldl (endRunIf test result) acc).1 := by
    induction l with
    | nil => exact fun _ h => h
    | cons i l ih =>
      intro acc h
      refine ih _ ?_
      unfold endRunIf
      split
      · rename_i r hr
        split
        · exact runsOk_endRun h hr _ _
        · exact h
      · exact h
  exact this _ hs

theorem unbindWhere_runsOk (test : Binding → Bool) (result : PortResult) (s : State)
    (hs : RunsOk s) : RunsOk (unbindWhere test result s).1 := by
  unfold unbindWhere
  generalize portNumbers = l
  have : ∀ acc : State × List Record, RunsOk acc.1 → RunsOk (l.foldl (unbindIf test result) acc).1 := by
    induction l with
    | nil => exact fun _ h => h
    | cons i l ih =>
      intro acc h
      refine ih _ ?_
      unfold unbindIf
      repeat' split
      all_goals exact h
  exact this _ hs

theorem losePeer_runsOk (i : Fin 16) (s : State) (hs : RunsOk s) : RunsOk (losePeer i s).1 := by
  unfold losePeer
  extract_lets st e u
  have h1 : RunsOk e.1 := endRunsWhere_runsOk (fun r => r.dest = st) .peerLost s hs
  clear_value e
  have h2 : RunsOk u.1 := unbindWhere_runsOk (fun b => b.source = st) .peerLost e.1 h1
  clear_value u
  exact h2

theorem presenceCheck_runsOk (s : State) (hs : RunsOk s) : RunsOk (presenceCheck s).1 := by
  unfold presenceCheck
  generalize stationNumbers = l
  have : ∀ acc : State × List Report, RunsOk acc.1 → RunsOk (l.foldl presenceAt acc).1 := by
    induction l with
    | nil => exact fun _ h => h
    | cons i l ih =>
      intro acc h
      refine ih _ ?_
      unfold presenceAt
      extract_lets c s1
      have h2 : RunsOk s1 := setPeer_runsOk _ _ _ h
      clear_value s1
      split
      · with_reducible exact losePeer_runsOk i s1 h2
      · exact h2
  exact this _ hs

theorem offerBeacon_runsOk (s : State) (hs : RunsOk s) : RunsOk (offerBeacon s) := by
  unfold offerBeacon
  exact setRollCall_runsOk _ _ (runsOk_offer _ hs)

theorem enterSilent_runsOk (s : State) (hs : RunsOk s) : RunsOk (enterSilent s) := by
  unfold enterSilent
  exact postReports_runsOk _ _ (unbindWhere_runsOk _ _ _ (endRunsWhere_runsOk _ _ _ (control_runsOk _ _
      (setRollCall_runsOk _ _ hs))))

theorem ownRollReaches_runsOk (x : List Byte) (s : State) (hs : RunsOk s) : RunsOk (ownRollReaches x s) := by
  unfold ownRollReaches
  split
  · exact hs
  · split
    · split
      · exact hs
      · unfold beaconReturns
        dsimp only
        split
        · exact post_runsOk _ _ (setRollCall_runsOk _ _ hs)
        · exact setRollCall_runsOk _ _ hs
    · exact enterSilent_runsOk s hs

theorem rollReaches_runsOk (h : Header) (x : List Byte) (s : State) (hs : RunsOk s) : RunsOk (rollReaches h x s) := by
  have k := rollReaches_coreStep h x s
  refine runsOk_same hs ?_ ?_ k.output <;> (unfold rollReaches; dsimp only; repeat' split) <;> rfl

theorem beaconPeriodExpires_runsOk (s : State) (hs : RunsOk s) : RunsOk (beaconPeriodExpires s) := by
  unfold beaconPeriodExpires
  split
  · dsimp only
    have h := presenceCheck_runsOk s hs
    split
    · exact setRollCall_runsOk _ _ (postReports_runsOk _ _ h)
    · exact setRollCall_runsOk _ _ (offerBeacon_runsOk _ (postReports_runsOk _ _ (setRollCall_runsOk _ _ h)))
  · exact hs

theorem delivered_runsOk {f : State → State} (hf : ∀ s, RunsOk s → RunsOk (f s)) (s : State)
    (hs : RunsOk s) : RunsOk (delivered f s) := by
  unfold delivered
  split
  · exact hs
  · exact hf _ hs

theorem frameReaches_runsOk (k : Kind) (h : Header) (x : List Byte) (s : State)
    (hs : RunsOk s) : RunsOk (frameReaches k h x s) := by
  cases k
  case open_ => exact runsOk_portStep hs (openReaches_portStep h x s)
  case finish => exact runsOk_portStep hs (finishReaches_portStep h x s)
  case cancel => exact runsOk_portStep hs (cancelReaches_portStep h s)
  case grant => exact grantReaches_runsOk h x s hs
  case refuse => exact refuseReaches_runsOk h x s hs
  case taken => exact takenReaches_runsOk h s hs
  case resume => exact resumeReaches_runsOk h s hs
  case busy => exact busyReaches_runsOk h s hs
  case halted => exact haltedReaches_runsOk h x s hs
  case closed => exact closedReaches_runsOk h x s hs
  all_goals exact hs

theorem deliverPending_runsOk (s : State) (hs : RunsOk s) : RunsOk (deliverPending s) := by
  unfold deliverPending
  repeat' split
  · exact hs
  · exact delivered_runsOk (frameReaches_runsOk _ _ _) s hs
  · exact delivered_runsOk (fun t ht => runsOk_portStep ht (blockEnds_portStep _ _ _ t)) s hs
  · exact delivered_runsOk (returnedReaches_runsOk _) s hs
  · exact rollReaches_runsOk _ _ _ (clearHandover_runsOk _ hs)
  · exact ownRollReaches_runsOk _ _ (clearHandover_runsOk _ hs)

theorem decidePending_runsOk (s : State) (hs : RunsOk s) : RunsOk (decidePending s) := by
  have h := decidePending_shape s
  exact runsOk_same hs (by rw [h]) (by rw [h]) (by rw [h])

theorem settle_runsOk (s : State) (hs : RunsOk s) : RunsOk (settle s) :=
    decidePending_runsOk _ (deliverPending_runsOk s hs)

theorem tick_runsOk (s : State) (hs : RunsOk s) : RunsOk (tick s) := by
  have ht : RunsOk (tickTimers s) := by
    obtain ⟨a, b, c, d⟩ := hs
    have get : ∀ i : Fin 8, (tickTimers s).slots[i] = tickSlot s.slots[i] := fun i => by
      unfold tickTimers; simp [mapTable]
    refine ⟨?_, b, ?_, d⟩
    · intro i r hr
      rw [get] at hr
      cases hs : s.slots[i] with
      | none => rw [hs] at hr; cases hr
      | some q =>
        rw [hs] at hr; cases hr
        obtain ⟨hk, he⟩ := a i q hs
        refine ⟨?_, he⟩
        obtain ⟨h1, h2, h3, h4, h5, h6, h7, h8, h9, h10, h11, h12, h13, h14, h15, h16, h17, h18⟩ := hk
        refine ⟨h1, h2, h3, h4, h5, h6, h7, h8, h9, h10, h11, h12, h13, h14, h15, h16, h17, ?_⟩
        unfold Run.phaseOk at h18 ⊢
        revert h18
        cases hph : q.phase <;> simp [Timer.tick]
    · intro e he
      obtain ⟨r, hr, h⟩ := c e he
      exact ⟨{ r with answer := r.answer.tick, probe := r.probe.tick, pause := r.pause.tick }, by rw [get, hr]; rfl, h⟩
  have hb : RunsOk (tickSymbol (tickTimers s)) := by
    unfold tickSymbol
    split
    · exact ht
    · unfold emitSymbol
      split
      · exact ht
      · exact ht
      · split
        · exact ht
        · unfold emitForwarded
          rename_i ho
          have : ∀ t : State, t.slots = (tickTimers s).slots → t.rau.dataQueue = (tickTimers s).rau.dataQueue →
              RunsOk t := by
            intro t h1 h2
            refine runsOk_congr ht h1 h2 ?_
            intro i hi
            unfold beingInserted at hi; rw [ho] at hi; cases hi
          repeat' split
          all_goals exact this _ rfl rfl
        · unfold emitInserted
          rename_i b l ho
          split
          · refine runsOk_congr ht rfl rfl ?_
            intro i hi
            unfold beingInserted at hi; rw [ho] at hi
            cases b <;> exact hi
          · exact ht
  obtain ⟨p, q, h, -⟩ := tickBus_spec (tickSymbol (tickTimers s))
  unfold tick
  rw [h]
  exact hb

theorem beginRun_runsOk {i : Fin 8} {a : StartRunArgs} {s : State} (hs : RunsOk s) (hfree : s.slots[i] = none)
    (hb : startRunBad a s.own = false) : RunsOk (beginRun i a s) := by
  unfold beginRun
  apply runsOk_offer
  unfold startRunBad at hb
  simp only [Bool.or_eq_false_iff, decide_eq_false_iff_not, Nat.not_le, not_not] at hb
  obtain ⟨⟨⟨⟨⟨⟨⟨b1, b2⟩, b3⟩, b4⟩, b5⟩, b6⟩, b7⟩, b8⟩ := hb
  have hsz : sizeOk a.size := by
    have := mt (badSize_iff a.size).2 (by simp [b1]); unfold sizeOk; omega
  have hw : 1 ≤ a.window ∧ a.window ≤ 4 := by
    have := mt (badWindow_iff a.window).2 (by simp [b3]); omega
  have hp : a.base + a.count * a.size ≤ 131072 := by
    have := mt (pastEnd_iff a.region).2 (by simp [b8]); exact Nat.not_lt.1 this
  have hc : a.count ≤ 65535 := by
    have : 16 ≤ a.size := hsz.1
    by_contra hx
    have : 65536 * 16 ≤ a.count * a.size := Nat.mul_le_mul (by omega) this
    omega
  refine runsOk_of (i := i) hs ((RunStep.setSlot i _ s).others) rfl (.refl _) ?_ ?_
  · intro r' e
    have e : (setSlot i _ s).slots[i] = some r' := e
    rw [setSlot_get, if_pos rfl] at e; cases e
    refine ⟨⟨hsz, by show 1 ≤ a.count; omega, hc, b7, hp, hw.1, hw.2, b5, b4, Nat.le_refl _, Nat.zero_le _, Nat.zero_le _, (by intro g h; cases h), Nat.zero_le _, Nat.le_refl _, by show 1 ≤ 4; decide, Nat.zero_le _, rfl, rfl, rfl, rfl, rfl, rfl, rfl⟩, by intro h; cases h⟩
  · intro e he hj
    obtain ⟨ej, ei⟩ := e; dsimp only at hj; subst hj
    obtain ⟨q, hq, -⟩ := hs.2.2.1 _ he
    rw [hfree] at hq; cases hq

theorem startRunTaken_runsOk (r : List Byte) (s : State) (hs : RunsOk s) : RunsOk (startRunTaken r s) := by
  unfold startRunTaken
  dsimp only
  split
  · exact post_runsOk _ _ hs
  · split
    · exact post_runsOk _ _ hs
    · split
      · exact post_runsOk _ _ hs
      · rename_i h
        split
        · exact post_runsOk _ _ hs
        · rename_i hb
          split
          · exact post_runsOk _ _ hs
          · split
            · exact post_runsOk _ _ hs
            · exact beginRun_runsOk hs (by simpa using h) (by simpa using hb)

theorem cancelRunTaken_runsOk (r : List Byte) (s : State) (hs : RunsOk s) : RunsOk (cancelRunTaken r s) := by
  unfold cancelRunTaken
  split
  · exact post_runsOk _ _ hs
  · split
    · exact post_runsOk _ _ hs
    · rename_i q hq
      split
      · exact post_runsOk _ _ hs
      · refine runsOk_endRunNow (runsOk_offer _ hs) ?_ _ _
        rw [offer_slots]; exact hq

theorem softResetTaken_runsOk (s : State) (hs : RunsOk s) : RunsOk (softResetTaken s) := by
  rw [softResetTaken_eq]
  obtain ⟨-, hg⟩ := softResetRuns_spec s
  refine ⟨?_, Nat.zero_le _, (by intro e he; cases he), List.Pairwise.nil⟩
  intro i r hr
  have hr : (softResetRuns s).slots[i] = some r := hr
  rw [hg] at hr
  cases hsl : s.slots[i] with
  | none => rw [hsl] at hr; cases hr
  | some q =>
    rw [hsl] at hr
    cases hb : beingInserted i s with
    | false => rw [hb] at hr; cases hr
    | true =>
      rw [hb] at hr; cases hr
      exact ⟨runsOk_ended (hs.1 i q hsl).1 none, fun _ => hb⟩

theorem exec_insertionStart_runsOk {s t : State} (hs : RunsOk s) (h : exec .insertionStart s = .next t) : RunsOk t := by
  rcases exec_insertionStart_cases h with h | ⟨ho, ⟨f, rest, hq, h⟩ | ⟨e, rest, r, p, hq, hd, hr, hp, h⟩⟩ <;> rw [h]
  · exact hs
  · refine runsOk_congr hs rfl rfl ?_
    intro i hi
    unfold insertionOpen at ho
    simp only [Bool.and_eq_true, decide_eq_true_eq] at ho
    unfold beingInserted at hi; rw [ho.1.1.2] at hi; cases hi
  · have hfree : s.rau.output = .free := by
      unfold insertionOpen at ho
      simp only [Bool.and_eq_true, decide_eq_true_eq] at ho
      exact ho.1.1.2
    have notend : ∀ (i : Fin 8) q, s.slots[i] = some q → q.phase ≠ .ending := by
      intro i q hq hx
      have := (hs.1 i q hq).2 hx
      unfold beingInserted at this; rw [hfree] at this; cases this
    obtain ⟨a, b, c, d⟩ := hs
    obtain ⟨ej, ei⟩ := e
    have hentry := c ⟨ej, ei⟩ (by rw [hd]; exact List.mem_cons_self)
    obtain ⟨q, hq', hph, hlo, hhi⟩ := hentry
    have hr : s.slots[ej] = some r := hr
    have hq' : s.slots[ej] = some q := hq'
    rw [hr] at hq'; cases hq'
    have hfold : RunOk (r.fold ei p) ∧ (r.fold ei p).phase = r.phase ∧ (r.fold ei p).taken = r.taken ∧
        (r.fold ei p).sent = r.sent := by
      unfold Run.fold
      split
      · rename_i hx
        obtain ⟨hk, -⟩ := a ej r hr
        obtain ⟨h1, h2, h3, h4, h5, h6, h7, h8, h9, h10, h11, h12, h13, h14, h15, h16, h17, h18⟩ := hk
        refine ⟨⟨h1, h2, h3, h4, h5, h6, h7, h8, h9, h10, h11, h12, h13, ?_, h15, h16, h17, h18⟩, rfl, rfl, rfl⟩
        show r.digestIndex + 1 ≤ r.count
        have hhi : ei < r.sent := hhi
        omega
      · exact ⟨(a ej r hr).1, rfl, rfl, rfl⟩
    have hget : ∀ j : Fin 8,
        (setSlot ej (some (r.fold ei p)) s).slots[j] = if ej = j then some (r.fold ei p) else s.slots[j] :=
        fun j => setSlot_get ej j _ s
    refine ⟨?_, ?_, ?_, ?_⟩
    · intro j q hq
      have hq : (setSlot ej (some (r.fold ei p)) s).slots[j] = some q := hq
      rw [hget] at hq
      split at hq
      · cases hq
        exact ⟨hfold.1, fun x => by rw [hfold.2.1] at x; exact absurd x (notend ej r hr)⟩
      · exact ⟨(a j q hq).1, fun x => absurd x (notend j q hq)⟩
    · rw [hd] at b; simp only [List.length_cons] at b; show rest.length ≤ 8; omega
    · intro e he
      have he : e ∈ rest := he
      obtain ⟨q, hq, h1, h2, h3⟩ := c e (by rw [hd]; exact List.mem_cons_of_mem _ he)
      by_cases hj : ej = e.slot
      · subst hj
        rw [hr] at hq; cases hq
        refine ⟨r.fold ei p, ?_,
            by rw [hfold.2.1]; exact h1, by rw [hfold.2.2.1]; exact h2, by rw [hfold.2.2.2]; exact h3⟩
        exact (hget e.slot).trans (if_pos rfl)
      · refine ⟨q, ?_, h1, h2, h3⟩
        exact (hget e.slot).trans ((if_neg hj).trans hq)
    · rw [hd] at d; exact (List.pairwise_cons.1 d).2

theorem runsOk_blockEnded {s t : State} {i : Fin 8} {n : Nat} {l : List Symbol} {r : Run} (hs : RunsOk s)
    (ho : s.rau.output = .inserting (some (i, n)) l)
    (hr : s.slots[i] = some r) (hp : r.phase = .ending) (h1 : t.slots = (setSlot i none s).slots)
        (h2 : t.rau.dataQueue = s.rau.dataQueue) : RunsOk t := by
  have hbi : ∀ j : Fin 8, beingInserted j s = decide (i = j) := fun j => by unfold beingInserted; rw [ho]
  obtain ⟨a, b, c, d⟩ := hs
  have hget : ∀ j : Fin 8, t.slots[j] = if i = j then none else s.slots[j] :=
      fun j => by rw [h1]; exact setSlot_get i j _ s
  refine ⟨?_, by rw [h2]; exact b, ?_, by rw [h2]; exact d⟩
  · intro j q hq
    rw [hget] at hq
    split at hq
    · cases hq
    · rename_i hj
      refine ⟨(a j q hq).1, fun x => ?_⟩
      have := (a j q hq).2 x
      rw [hbi j] at this
      exact absurd (of_decide_eq_true this) hj
  · intro e he
    rw [h2] at he
    obtain ⟨q, hq, hph, hh⟩ := c e he
    obtain ⟨ej, ei⟩ := e
    have hq : s.slots[ej] = some q := hq
    refine ⟨q, ?_, hph, hh⟩
    show t.slots[ej] = some q
    rw [hget, if_neg]
    · exact hq
    · rintro rfl
      rw [hr] at hq; cases hq
      rw [hp] at hph; rcases hph with h | h <;> cases h

theorem runsOk_noEnding {s t : State} (hs : RunsOk s)
    (hn : ∀ (i : Fin 8) r, s.slots[i] = some r → r.phase = .ending → False) (h1 : t.slots = s.slots)
        (h2 : t.rau.dataQueue = s.rau.dataQueue) : RunsOk t := by
  obtain ⟨a, b, c, d⟩ := hs
  refine ⟨?_, by rw [h2]; exact b, ?_, by rw [h2]; exact d⟩
  · intro j q hq
    rw [h1] at hq
    exact ⟨(a j q hq).1, fun x => (hn j q hq x).elim⟩
  · intro e he
    rw [h2] at he; unfold entryOk; rw [h1]; exact c e he

theorem exec_insertionEnd_runsOk {s t : State} (hs : RunsOk s) (h : exec .insertionEnd s = .next t) : RunsOk t := by
  cases h
  unfold endInsertion
  split
  · rename_i block ho
    dsimp only
    split
    · rename_i i n
      have hbi : ∀ j : Fin 8, beingInserted j s = decide (i = j) := fun j => by unfold beingInserted; rw [ho]
      have key : ∀ z : State, z.slots = s.slots → z.rau.dataQueue = s.rau.dataQueue →
          RunsOk (blockInsertionEnds i z) := by
        intro z hz1 hz2
        unfold blockInsertionEnds
        have hset : (setSlot i none z).slots = (setSlot i none s).slots := by rw [setSlot_slots, setSlot_slots, hz1]
        split
        · rename_i r hr
          rw [hz1] at hr
          split
          · rename_i hp
            split
            · exact runsOk_blockEnded hs ho hr hp hset hz2
            · exact runsOk_blockEnded hs ho hr hp hset hz2
          · rename_i hp
            refine runsOk_noEnding hs ?_ hz1 hz2
            intro j q hq hx
            have := (hs.1 j q hq).2 hx
            rw [hbi j] at this
            have := of_decide_eq_true this
            subst this
            rw [hr] at hq; cases hq; exact hp hx
        · rename_i hr
          rw [hz1] at hr
          refine runsOk_noEnding hs ?_ hz1 hz2
          intro j q hq hx
          have := (hs.1 j q hq).2 hx
          rw [hbi j] at this
          have := of_decide_eq_true this
          subst this
          rw [hr] at hq; cases hq
      exact key _ rfl rfl
    · refine runsOk_noEnding hs ?_ rfl rfl
      intro j q hq hx
      have := (hs.1 j q hq).2 hx
      unfold beingInserted at this; rw [ho] at this; cases this
  all_goals exact hs

theorem takeCommand_runsOk {test : Byte → Bool} {f : List Byte → State → State} (hf : ∀ r s, RunsOk s →
    RunsOk (f r s)) (s : State) (hs : RunsOk s) :
    RunsOk (takeCommand test f s) := by
  rcases takeCommand_cases test f s with h | ⟨r, rest, -, -, h⟩
  · rw [h]; exact hs
  · rw [h]; exact hf r _ (runsOk_same hs rfl rfl rfl)

theorem onOpenPort_runsOk {r : List Byte} {f : Fin 8 → OpenPort → State → State} (hf : ∀ i p s, RunsOk s →
    RunsOk (f i p s)) (s : State) (hs : RunsOk s) : RunsOk (onOpenPort r f s) := by
  unfold onOpenPort
  repeat' split
  · exact post_runsOk _ _ hs
  · exact post_runsOk _ _ hs
  · exact hf _ _ _ hs

theorem runsOk_engineStep {s t : State} (hs : RunsOk s) (k : EngineStep s t) (h1 : t.slots = s.slots)
    (h2 : t.rau.dataQueue = s.rau.dataQueue) : RunsOk t :=
  runsOk_same hs h1 h2 k.output

theorem openPortTaken_runsOk (r : List Byte) (s : State) (hs : RunsOk s) : RunsOk (openPortTaken r s) := by
  refine runsOk_engineStep hs (openPortTaken_engineStep r s) ?_ ?_ <;> (unfold openPortTaken; dsimp only; repeat'
      split) <;> rfl

theorem releaseBankTaken_runsOk (r : List Byte) (s : State) (hs : RunsOk s) : RunsOk (releaseBankTaken r s) := by
  unfold releaseBankTaken
  refine onOpenPort_runsOk (fun i p s hs => ?_) s hs
  dsimp only
  split
  · exact post_runsOk _ _ hs
  split
  · exact post_runsOk _ _ hs
  split
  · exact post_runsOk _ _ hs
  split
  · exact post_runsOk _ _ hs
  refine runsOk_engineStep hs (EngineStep.releaseTo _ _ _ _ _) ?_ ?_
  · unfold releaseTo; dsimp only; repeat' split
    all_goals simp
  · unfold releaseTo; dsimp only; repeat' split
    all_goals first
      | rfl
      | exact (offer_dataQueue _ _)

theorem haltPortTaken_runsOk (r : List Byte) (s : State) (hs : RunsOk s) : RunsOk (haltPortTaken r s) := by
  unfold haltPortTaken
  refine onOpenPort_runsOk (fun i p s hs => ?_) s hs
  split
  · exact post_runsOk _ _ hs
  refine runsOk_engineStep hs (EngineStep.haltNow _ _ _) ?_ ?_
  · unfold haltNow; split <;> simp [unbindNow, posting]
  · unfold haltNow; split
    · exact (offer_dataQueue _ _)
    · rfl
    · rfl

theorem unhaltPortTaken_runsOk (r : List Byte) (s : State) (hs : RunsOk s) : RunsOk (unhaltPortTaken r s) := by
  unfold unhaltPortTaken
  split
  · exact post_runsOk _ _ hs
  refine onOpenPort_runsOk (fun i p s hs => ?_) s hs
  split
  · exact setPort_runsOk _ _ _ hs
  · exact post_runsOk _ _ hs

theorem closePortTaken_runsOk (r : List Byte) (s : State) (hs : RunsOk s) : RunsOk (closePortTaken r s) := by
  unfold closePortTaken
  refine onOpenPort_runsOk (fun i p s hs => ?_) s hs
  refine runsOk_engineStep hs (EngineStep.closeNow _ _ _) ?_ ?_
  · unfold closeNow; repeat' split
    all_goals simp
  · unfold closeNow; repeat' split
    all_goals first
      | rfl
      | exact (offer_dataQueue _ _)

theorem reset_runsOk : RunsOk State.reset := by
  have get : ∀ i : Fin 8, State.reset.slots[i] = none := by decide
  refine ⟨?_, Nat.zero_le _, (by intro e he; cases he), List.Pairwise.nil⟩
  intro i r h; rw [get] at h; cases h



end Sys2Proof.Machine
end

