-- ==== Sys2Proof/Laws/Regions.lean ====
section
/-! SUPPORT. What every operation leaves of the regions of slots and banks, and of the order of the Port Table
(R48 to R50, R87, R91, R93). -/

namespace Sys2Proof.Machine

set_option linter.unusedVariables false

open Sys2Proof


/-- Every run of the second state is one of the first, with its source region. -/
def SlotsFrom (s t : State) : Prop := ∀ i : Fin 8, ∀ q, t.slots[i] = some q → ∃ r, s.slots[i] = some r ∧
    q.base = r.base ∧ q.count = r.count ∧ q.size = r.size

theorem SlotsFrom.of {s t : State} (h : t.slots = s.slots) : SlotsFrom s t := fun i q hq => ⟨q,
    by rw [← h]; exact hq, rfl, rfl, rfl⟩

theorem SlotsFrom.trans {s t u : State} (h : SlotsFrom s t) (k : SlotsFrom t u) : SlotsFrom s u := by
  intro i q hq
  obtain ⟨r, hr, a, b, c⟩ := k i q hq
  obtain ⟨x, hx, d, e, f⟩ := h i r hr
  exact ⟨x, hx, a.trans d, b.trans e, c.trans f⟩

theorem SlotsFrom.set {s : State} {i : Fin 8} {x : Slot} (h : ∀ q, x = some q → ∃ r, s.slots[i] = some r ∧
    q.base = r.base ∧ q.count = r.count ∧ q.size = r.size) :
    SlotsFrom s (setSlot i x s) := by
  intro j q hq
  rw [setSlot_get] at hq
  split at hq
  · rename_i hj; subst hj; exact h q hq
  · exact ⟨q, hq, rfl, rfl, rfl⟩

theorem SlotsFrom.put {s z : State} {i : Fin 8} {r q : Run} (hr : s.slots[i] = some r) (hz : z.slots = s.slots)
    (h : q.base = r.base ∧ q.count = r.count ∧ q.size = r.size) :
    SlotsFrom s (setSlot i (some q) z) :=
  (SlotsFrom.of hz).trans (.set (fun x hx => by cases hx; exact ⟨r, by rw [hz]; exact hr, h⟩))

theorem purge_slots_eq (i : Fin 8) (s : State) : (purge i s).slots = s.slots := by simp

theorem endRun_slotsFrom {s : State} {i : Fin 8} {r : Run} (hr : s.slots[i] = some r) (a : RunResult)
    (b : Option Byte) : SlotsFrom s (endRun i r a b s).1 := by
  rw [endRun_eq]
  refine (SlotsFrom.of (purge_slots_eq i s)).trans (.set ?_)
  intro q hq
  rw [purge_slots_eq]
  split at hq
  · cases hq; exact ⟨r, hr, rfl, rfl, rfl⟩
  · cases hq

theorem endRunNow_slotsFrom {s : State} {i : Fin 8} {r : Run} (hr : s.slots[i] = some r) (a : RunResult)
    (b : Option Byte) : SlotsFrom s (endRunNow i r a b s) :=
  (endRun_slotsFrom hr a b).trans (.of rfl)

theorem offer_slotsFrom (f : OwnFrame) (s : State) : SlotsFrom s (offer f s) := .of (by simp)

theorem enterClosing_slotsFrom {s z : State} {i : Fin 8} {r q : Run} (hr : s.slots[i] = some r)
    (hz : z.slots = s.slots) (h : q.base = r.base ∧ q.count = r.count ∧ q.size = r.size) :
    SlotsFrom s (enterClosing i q z) := by
  unfold enterClosing
  have hz' : (purge i z).slots = s.slots := by rw [purge_slots_eq, hz]
  refine SlotsFrom.trans ?_ (offer_slotsFrom _ _)
  exact SlotsFrom.put hr hz' h

theorem closeOr_slotsFrom {s z : State} {i : Fin 8} {r q : Run} (hr : s.slots[i] = some r) (hz : z.slots = s.slots)
    (h : q.base = r.base ∧ q.count = r.count ∧ q.size = r.size) :
    SlotsFrom s (closeOr i q z) := by
  by_cases he : q.taken = q.count
  · rw [closeOr_eq he]; exact enterClosing_slotsFrom hr hz h
  · rw [closeOr_ne he]; exact .put hr hz h

theorem replyReaches_slotsFrom {f : Fin 8 → Run → State → State} (hf : ∀ i r s, s.slots[i] = some r →
    SlotsFrom s (f i r s)) (h : Header) (s : State) : SlotsFrom s (replyReaches f h s) := by
  rcases replyReaches_cases f h s with hx | ⟨i, r, h1, h2, hx⟩
  · rw [hx]; exact .of rfl
  · rw [hx]; exact hf i r s (findRun_eq_some.1 h1).1

theorem grantReaches_slotsFrom (h x s) : SlotsFrom s (grantReaches h x s) := replyReaches_slotsFrom (fun i r s hr => by
  split
  · exact .put hr rfl ⟨rfl, rfl, rfl⟩
  all_goals exact .of rfl) h s

theorem refuseReaches_slotsFrom (h x s) : SlotsFrom s (refuseReaches h x s) :=
    replyReaches_slotsFrom (fun i r s hr => by
  split
  · exact endRunNow_slotsFrom hr _ _
  all_goals exact .of rfl) h s

theorem haltedReaches_slotsFrom (h x s) : SlotsFrom s (haltedReaches h x s) :=
    replyReaches_slotsFrom (fun i r s hr => endRunNow_slotsFrom hr _ _) h s

theorem closedReaches_slotsFrom (h x s) : SlotsFrom s (closedReaches h x s) :=
    replyReaches_slotsFrom (fun i r s hr => by
  split
  · split <;> exact endRunNow_slotsFrom hr _ _
  all_goals exact .of rfl) h s

theorem dropBelow_slots_eq (i : Fin 8) (n) (s : State) : (dropBelow i n s).slots = s.slots := by simp

theorem takenReaches_slotsFrom (h s) : SlotsFrom s (takenReaches h s) := replyReaches_slotsFrom (fun i r s hr => by
  dsimp only
  repeat' split
  all_goals first
    | exact .of rfl
    | exact closeOr_slotsFrom hr (purge_slots_eq _ _) ⟨rfl, rfl, rfl⟩
    | exact closeOr_slotsFrom hr (dropBelow_slots_eq _ _ _) ⟨rfl, rfl, rfl⟩) h s

theorem resumeReaches_slotsFrom (h s) : SlotsFrom s (resumeReaches h s) := replyReaches_slotsFrom (fun i r s hr => by
  dsimp only
  repeat' split
  all_goals first
    | exact .of rfl
    | exact closeOr_slotsFrom hr (purge_slots_eq _ _) ⟨rfl, rfl, rfl⟩
    | exact enterClosing_slotsFrom hr rfl ⟨rfl, rfl, rfl⟩) h s

theorem busyReaches_slotsFrom (h s) : SlotsFrom s (busyReaches h s) := replyReaches_slotsFrom (fun i r s hr => by
  dsimp only
  repeat' split
  all_goals first
    | exact .of rfl
    | exact closeOr_slotsFrom hr (purge_slots_eq _ _) ⟨rfl, rfl, rfl⟩) h s

theorem returnedReaches_slotsFrom (h s) : SlotsFrom s (returnedReaches h s) := by
  unfold returnedReaches
  repeat' split
  all_goals first
    | exact .of rfl
    | (rename_i i r hf _; exact endRunNow_slotsFrom (findRun_eq_some.1 hf).1 _ _)

theorem answerExpiresOpening_slotsFrom (i s) : SlotsFrom s (answerExpiresOpening i s) := by
  unfold answerExpiresOpening
  split
  · rename_i r hr
    repeat' split
    · refine SlotsFrom.trans ?_ (offer_slotsFrom _ _)
      exact SlotsFrom.put hr rfl ⟨rfl, rfl, rfl⟩
    · exact endRunNow_slotsFrom hr _ _
    · exact .of rfl
  · exact .of rfl

theorem answerExpiresClosing_slotsFrom (i s) : SlotsFrom s (answerExpiresClosing i s) := by
  unfold answerExpiresClosing
  split
  · rename_i r hr
    repeat' split
    · refine SlotsFrom.trans ?_ (offer_slotsFrom _ _)
      exact SlotsFrom.put hr rfl ⟨rfl, rfl, rfl⟩
    · exact endRunNow_slotsFrom hr _ _
    · exact .of rfl
  · exact .of rfl

theorem answerExpiresStreaming_slotsFrom (i s) : SlotsFrom s (answerExpiresStreaming i s) := by
  unfold answerExpiresStreaming
  split
  · rename_i r hr
    repeat' split
    · exact .put hr (purge_slots_eq _ _) ⟨rfl, rfl, rfl⟩
    · exact endRunNow_slotsFrom hr _ _
    · exact .of rfl
  · exact .of rfl

theorem pauseExpires_slotsFrom (i s) : SlotsFrom s (pauseExpires i s) := by
  unfold pauseExpires
  split
  · rename_i r hr
    split
    · exact endRunNow_slotsFrom hr _ _
    · exact .of rfl
  · exact .of rfl

theorem setData_slots_eq (q) (s : State) : (setData q s).slots = s.slots := by simp

theorem probeExpires_slotsFrom (i s) : SlotsFrom s (probeExpires i s) := by
  unfold probeExpires
  split
  · rename_i r hr
    dsimp only
    repeat' split
    · exact .put hr (setData_slots_eq _ _) ⟨rfl, rfl, rfl⟩
    · exact .put hr rfl ⟨rfl, rfl, rfl⟩
    · exact .of rfl
  · exact .of rfl

theorem grantPlace_slotsFrom (s) : SlotsFrom s (grantPlace s) := by
  unfold grantPlace
  split
  · rename_i i r hn
    obtain ⟨j, -, hj⟩ := List.exists_of_findSome?_eq_some hn
    split at hj
    · rename_i q hq
      split at hj
      · cases hj
        split
        · exact (SlotsFrom.put (q :=
              { r with sent := r.sent + 1, answer := if r.answer.isSome then r.answer else some s.answerTime }) hq
              (setData_slots_eq (s.rau.dataQueue ++ [{ slot := i, index := r.sent }]) s) ⟨rfl, rfl,
              rfl⟩).trans (.of rfl)
        · exact .of rfl
      · cases hj
    · cases hj
  · exact .of rfl

theorem endRunsWhere_slotsFrom (test result s) : SlotsFrom s (endRunsWhere test result s).1 := by
  unfold endRunsWhere
  generalize slotNumbers = l
  have : ∀ acc : State × List Record, SlotsFrom s acc.1 → SlotsFrom s (l.foldl (endRunIf test result) acc).1 := by
    induction l with
    | nil => exact fun _ h => h
    | cons i l ih =>
      intro acc h
      refine ih _ ?_
      unfold endRunIf
      split
      · rename_i r hr
        split
        · exact h.trans (endRun_slotsFrom hr _ _)
        · exact h
      · exact h
  exact this _ (.of rfl)

/-! ### The Port Table -/

/-- A port that keeps its regions, its FULL banks and its order. -/
structure PortFrom (p q : OpenPort) : Prop where
  ok : PortOk p → PortOk q
  size : q.maxSize = p.maxSize
  base : ∀ k, (q.bank k).base = (p.bank k).base
  cap : ∀ k, (q.bank k).capacity = (p.bank k).capacity
  full : ∀ k, (p.bank k).isFull = true → (q.bank k).isFull = true

theorem PortFrom.refl (p) : PortFrom p p := ⟨id, rfl, fun _ => rfl, fun _ => rfl, fun _ => id⟩

theorem PortFrom.trans {p q r} (h : PortFrom p q) (k : PortFrom q r) : PortFrom p r :=
  ⟨fun x => k.ok (h.ok x), k.size.trans h.size, fun i => (k.base i).trans (h.base i),
      fun i => (k.cap i).trans (h.cap i), fun i x => k.full i (h.full i x)⟩

/-- Every open port of the second state is one of the first. -/
def PortsFrom (s t : State) : Prop := ∀ i : Fin 8, ∀ q, t.ports[i] = some q → ∃ p, s.ports[i] = some p ∧ PortFrom p q

theorem PortsFrom.of {s t : State} (h : t.ports = s.ports) : PortsFrom s t := fun i q hq => ⟨q,
    by rw [← h]; exact hq, .refl q⟩

theorem PortsFrom.trans {s t u : State} (h : PortsFrom s t) (k : PortsFrom t u) : PortsFrom s u := by
  intro i q hq
  obtain ⟨r, hr, a⟩ := k i q hq
  obtain ⟨x, hx, d⟩ := h i r hr
  exact ⟨x, hx, d.trans a⟩

theorem PortsFrom.set {s : State} {i : Fin 8} {x : Port} (h : ∀ q, x = some q → ∃ p, s.ports[i] = some p ∧
    PortFrom p q) : PortsFrom s (setPort i x s) := by
  intro j q hq
  rw [setPort_get] at hq
  split at hq
  · rename_i hj; subst hj; exact h q hq
  · exact ⟨q, hq, .refl q⟩

theorem PortsFrom.put {s z : State} {i : Fin 8} {p q : OpenPort} (hp : s.ports[i] = some p) (hz : z.ports = s.ports)
    (h : PortFrom p q) : PortsFrom s (setPort i (some q) z) :=
  (PortsFrom.of hz).trans (.set (fun x hx => by cases hx; exact ⟨p, by rw [hz]; exact hp, h⟩))

theorem PortFrom.region_eq {p q : OpenPort} (h : PortFrom p q)
    (k : BankId) : q.region (q.bank k) = p.region (p.bank k) := by
  unfold OpenPort.region bankRegion; rw [h.size, h.base, h.cap]

theorem regionsOk_from {s t : State} (hs : RegionsOk s) (h1 : SlotsFrom s t) (h2 : PortsFrom s t) : RegionsOk t := by
  obtain ⟨a, b, c, d⟩ := hs
  have pr : ∀ i : Fin 8, ∀ x ∈ portRegions t.ports[i], x ∈ portRegions s.ports[i] := by
    intro i x hx
    cases ht : t.ports[i] with
    | none => rw [ht] at hx; cases hx
    | some q =>
      obtain ⟨p, hp, hle⟩ := h2 i q ht
      rw [ht] at hx; rw [hp]
      have e1 := PortFrom.region_eq hle .a
      have e2 := PortFrom.region_eq hle .b
      simp only [OpenPort.bank] at e1 e2
      simp only [portRegions, e1, e2] at hx ⊢
      exact hx
  have fr : ∀ x ∈ fencedBanks t, x ∈ fencedBanks s := by
    intro x hx
    unfold fencedBanks at hx ⊢
    rw [List.mem_flatMap] at hx ⊢
    obtain ⟨i, hi, hx⟩ := hx
    refine ⟨i, hi, ?_⟩
    cases ht : t.ports[i] with
    | none => rw [ht] at hx; cases hx
    | some q =>
      obtain ⟨p, hp, hle⟩ := h2 i q ht
      rw [ht] at hx; rw [hp]
      have e1 := PortFrom.region_eq hle .a
      have e2 := PortFrom.region_eq hle .b
      have f1 := hle.full .a
      have f2 := hle.full .b
      simp only [OpenPort.bank] at e1 e2 f1 f2
      simp only [portFenced, List.mem_map, List.mem_filter, List.mem_cons, List.not_mem_nil, or_false] at hx ⊢
      obtain ⟨k, ⟨hk, hf⟩, rfl⟩ := hx
      rcases hk with rfl | rfl
      · refine ⟨p.bankA, ⟨.inl rfl, ?_⟩, e1.symm⟩
        cases h : p.bankA.isFull with
        | false => rfl
        | true => rw [f1 h] at hf; cases hf
      · refine ⟨p.bankB, ⟨.inr rfl, ?_⟩, e2.symm⟩
        cases h : p.bankB.isFull with
        | false => rfl
        | true => rw [f2 h] at hf; cases hf
  have sr : ∀ x ∈ sourceRegions t, x ∈ sourceRegions s := by
    intro x hx
    rw [mem_sourceRegions] at hx ⊢
    obtain ⟨i, r, hr, rfl⟩ := hx
    obtain ⟨q, hq, h1, h2, h3⟩ := h1 i r hr
    exact ⟨i, q, hq, by unfold Run.region; rw [h1, h2, h3]⟩
  refine ⟨?_, ?_, ?_, ?_⟩
  · intro i q hq
    obtain ⟨p, hp, hle⟩ := h2 i q hq
    obtain ⟨x, y⟩ := a i p hp
    refine ⟨hle.ok x, ?_⟩
    have e1 := PortFrom.region_eq hle .a
    have e2 := PortFrom.region_eq hle .b
    simp only [OpenPort.bank] at e1 e2
    rw [e1, e2]; exact y
  · exact fun i j hij x hx y hy => b i j hij x (pr i x hx) y (pr j y hy)
  · exact fun x hx y hy => c x (fr x hx) y (sr y hy)
  · intro i r hr
    obtain ⟨q, hq, h1, h2, h3⟩ := h1 i r hr
    rw [h2, h3]; exact d i q hq

theorem bankId_other (k : BankId) : k.other ≠ k ∧ k.other.other = k := by cases k <;> decide

/-- The order of a port, bank by bank. -/
theorem portOk_iff (p : OpenPort) : PortOk p ↔ sizeOk p.maxSize ∧ 1 ≤ p.maxWindow ∧ p.maxWindow ≤ 4 ∧ (∀ k,
    BankOk p (p.bank k)) ∧ p.modeOk := by
  unfold PortOk
  constructor
  · rintro ⟨a, b, c, d, e, f⟩; exact ⟨a, b, c, fun k => by cases k; exacts [d, e], f⟩
  · rintro ⟨a, b, c, d, f⟩; exact ⟨a, b, c, d .a, d .b, f⟩

/-- No bank is FILLING at a port with no binding. -/
theorem modeOk_unbound (p : OpenPort) (h : p.mode = .listening ∨ p.mode = .halted) : p.modeOk ↔ ∀ k,
    (p.bank k).notFilling := by
  unfold OpenPort.modeOk
  rcases h with h | h <;> rw [h] <;> exact ⟨fun ⟨a, b⟩ k => by cases k; exacts [a, b], fun h => ⟨h .a, h .b⟩⟩

theorem modeOk_bound {p : OpenPort} {b c idle} (h : p.mode = .bound b c idle) : p.modeOk ↔ sizeOk b.size ∧
    b.size ≤ p.maxSize ∧ 1 ≤ b.count ∧ 1 ≤ b.granted ∧ b.granted ≤ p.maxWindow ∧ idle.isSome ∧
    (∀ k, if c = some k then (p.bank k).fillingFor b.owner else (p.bank k).notFilling) := by
  unfold OpenPort.modeOk; rw [h]
  dsimp only
  cases c with
  | none => simp only [reduceCtorEq, if_false]
            refine ⟨fun ⟨a, b, c, d, e, f, g1, g2⟩ => ⟨a, b, c, d, e, f, fun k => by cases k; exacts [g1, g2]⟩,
                fun ⟨a, b, c, d, e, f, g⟩ => ⟨a, b, c, d, e, f, g .a, g .b⟩⟩
  | some j =>
    refine ⟨fun ⟨a, b, c, d, e, f, g1, g2⟩ => ⟨a, b, c, d, e, f, fun k => ?_⟩, fun ⟨a, b, c, d, e, f, g⟩ => ⟨a, b, c,
        d, e, f, ?_, ?_⟩⟩
    · by_cases hj : j = k
      · subst hj; rw [if_pos rfl]; exact g1
      · rw [if_neg (by intro h; cases h; exact hj rfl)]
        have : k = j.other := by cases j <;> cases k <;> first | rfl | exact absurd rfl hj
        rw [this]; exact g2
    · have := g j; rw [if_pos rfl] at this; exact this
    · have := g j.other; rw [if_neg] at this
      · exact this
      · intro h; injection h with h; exact (bankId_other j).1 h.symm

/-- The bound run goes on with another record of it. -/
theorem rebound_portFrom {p : OpenPort} {b b' c idle idle'} (hm : p.mode = .bound b c idle) (h1 : b'.owner = b.owner)
    (h2 : b'.count = b.count) (h3 : b'.granted = b.granted)
    (h4 : idle.isSome → idle'.isSome) : PortFrom p { p with mode := .bound b' c idle' } := by
  refine ⟨?_, rfl, fun k => by cases k <;> rfl, fun k => by cases k <;> rfl, fun k => by cases k <;> exact id⟩
  intro h
  rw [portOk_iff] at h ⊢
  obtain ⟨a1, a2, a3, a4, a5⟩ := h
  refine ⟨a1, a2, a3, fun k => by have := a4 k; cases k <;> exact this, ?_⟩
  rw [modeOk_bound hm] at a5
  obtain ⟨x1, x2, x3, x4, x5, x6, x7⟩ := a5
  have hsz : b'.size = b.size := congrArg Owner.size h1
  rw [modeOk_bound (b := b') (c := c) (idle := idle') rfl, hsz, h2, h3, h1]
  exact ⟨x1, x2, x3, x4, x5, h4 x6, fun k => by have := x7 k; cases k <;> exact this⟩

theorem note_portFrom {p : OpenPort} (n : Option Note) : PortFrom p { p with note := n } :=
  ⟨id, rfl, fun k => by cases k <;> rfl, fun k => by cases k <;> rfl, fun k => by cases k <;> exact id⟩

theorem setBank_bank (p : OpenPort) (k j : BankId)
    (b : Bank) : (p.setBank k b).bank j = if k = j then b else p.bank j := by
  cases k <;> cases j <;> rfl

theorem setBank_maxSize_eq (p : OpenPort) (k : BankId) (b : Bank) : (p.setBank k b).maxSize = p.maxSize :=
    by cases k <;> rfl

theorem setBank_maxWindow_eq (p : OpenPort) (k : BankId) (b : Bank) : (p.setBank k b).maxWindow = p.maxWindow :=
    by cases k <;> rfl

theorem withMode_bank (p : OpenPort) (m : PortMode)
    (k : BankId) : ({ p with mode := m } : OpenPort).bank k = p.bank k := by cases k <;> rfl

/-- A port whose banks keep their regions and stay FULL if they were. -/
theorem portFrom_of {p q : OpenPort} (h1 : q.maxSize = p.maxSize) (h2 : q.maxWindow = p.maxWindow)
    (hb : ∀ k, (q.bank k).base = (p.bank k).base ∧ (q.bank k).capacity = (p.bank k).capacity)
    (hf : ∀ k, (p.bank k).isFull = true → (q.bank k).isFull = true)
    (hc : PortOk p → ∀ k, (q.bank k).contentOk q.maxSize) (hm : PortOk p → q.modeOk) : PortFrom p q := by
  refine ⟨fun h => ?_, h1, fun k => (hb k).1, fun k => (hb k).2, hf⟩
  have h' := h
  rw [portOk_iff] at h ⊢
  obtain ⟨a1, a2, a3, a4, a5⟩ := h
  refine ⟨by rw [h1]; exact a1, by rw [h2]; exact a2, by rw [h2]; exact a3, fun k => ?_, hm h'⟩
  obtain ⟨b1, b2, b3, b4, b5⟩ := a4 k
  have e : q.region (q.bank k) = p.region (p.bank k) :=
      by unfold OpenPort.region bankRegion; rw [h1, (hb k).1, (hb k).2]
  exact ⟨by rw [(hb k).1]; exact b1, by rw [(hb k).2]; exact b2, by rw [(hb k).2]; exact b3, by rw [e]; exact b4, hc h' k⟩

theorem closeBank_spec (i : Fin 8) (k : BankId) (b : Bank) (m : Nat) : (closeBank i k b).1.base = b.base ∧
    (closeBank i k b).1.capacity = b.capacity ∧
    (b.isFull = true → (closeBank i k b).1.isFull = true) ∧ (b.contentOk m → (closeBank i k b).1.contentOk m) ∧
        (closeBank i k b).1.notFilling := by
  unfold closeBank
  split
  · rename_i o fill hc
    split
    · refine ⟨rfl, rfl, ?_, fun _ => trivial, fun o fill h => by cases h⟩
      intro h; unfold Bank.isFull at h; rw [hc] at h; cases h
    · rename_i hf
      refine ⟨rfl, rfl, fun _ => rfl, ?_, fun o fill h => by cases h⟩
      intro h; unfold Bank.contentOk at h ⊢; rw [hc] at h
      exact ⟨by omega, Nat.le_of_lt h.1, h.2⟩
  · rename_i hc
    exact ⟨rfl, rfl, id, id, fun o fill h => by have h : b.content = _ := h; rw [hc] at h; cases h⟩
  · rename_i hc
    exact ⟨rfl, rfl, id, id, fun o fill h => by have h : b.content = _ := h; rw [hc] at h; cases h⟩

theorem unbind_portFrom {i : Fin 8} {p : OpenPort} {b c idle} (hm : p.mode = .bound b c idle) (res : PortResult)
    (m : PortMode) (hmode : m = .listening ∨ m = .halted) :
    PortFrom p (unbind i p b c res m).1 := by
  have hbank : ∀ j, ((unbind i p b c res m).1).bank j = if c = some j then (closeBank i j (p.bank j)).1 else p.bank
      j := by
    intro j
    unfold unbind closeCurrent
    rw [withMode_bank]
    cases c with
    | none => rfl
    | some k =>
      dsimp only
      rw [setBank_bank]
      by_cases h : k = j
      · subst h; simp
      · rw [if_neg h, if_neg (by intro x; cases x; exact h rfl)]
  have hsz : (unbind i p b c res m).1.maxSize = p.maxSize := by
    unfold unbind closeCurrent; cases c <;> simp
  have hw : (unbind i p b c res m).1.maxWindow = p.maxWindow := by
    unfold unbind closeCurrent; cases c <;> simp
  have hmo : (unbind i p b c res m).1.mode = m := rfl
  refine portFrom_of hsz hw ?_ ?_ ?_ ?_
  · intro k; rw [hbank]; split
    · exact ⟨(closeBank_spec i k _ 0).1, (closeBank_spec i k _ 0).2.1⟩
    · exact ⟨rfl, rfl⟩
  · intro k h; rw [hbank]; split
    · exact (closeBank_spec i k _ 0).2.2.1 h
    · exact h
  · intro hp k
    rw [portOk_iff] at hp
    have := (hp.2.2.2.1 k).2.2.2.2
    rw [hbank, hsz]; split
    · exact (closeBank_spec i k _ _).2.2.2.1 this
    · exact this
  · intro hp
    rw [portOk_iff] at hp
    have := hp.2.2.2.2
    rw [modeOk_bound hm] at this
    rw [modeOk_unbound _ (by rw [hmo]; exact hmode)]
    intro k
    rw [hbank]
    have := this.2.2.2.2.2.2 k
    split
    · exact (closeBank_spec i k _ 0).2.2.2.2
    · rename_i hc; rw [if_neg hc] at this; exact this

theorem fillBank_portFrom {i : Fin 8} {p : OpenPort} {b b' : Binding} {k : BankId} {idle o fill}
    (hm : p.mode = .bound b (some k) idle) (hk : (p.bank k).content = .filling o fill)
    (h1 : b'.owner = b.owner) (h2 : b'.count = b.count)
        (h3 : b'.granted = b.granted) : PortFrom p (fillBank i p b' k o fill idle).1 := by
  have hne := (bankId_other k).1
  have hok : PortOk p → o = b.owner ∧ fill < (p.bank k).capacity ∧ o.size ≤ p.maxSize ∧ (p.bank k.other).notFilling ∧
      (p.bank k.other).contentOk p.maxSize ∧ 1 ≤ (p.bank k.other).capacity ∧ b.size ≤ p.maxSize := by
    intro hp
    rw [portOk_iff] at hp
    have hb := (hp.2.2.2.1 k).2.2.2.2
    unfold Bank.contentOk at hb; rw [hk] at hb
    have hmo := hp.2.2.2.2
    rw [modeOk_bound hm] at hmo
    have f1 := hmo.2.2.2.2.2.2 k
    rw [if_pos rfl] at f1
    obtain ⟨f, hf⟩ := f1
    rw [hk] at hf; cases hf
    have f2 := hmo.2.2.2.2.2.2 k.other
    rw [if_neg (by intro x; injection x with x; exact hne x.symm)] at f2
    exact ⟨rfl, hb.1, hb.2, f2, (hp.2.2.2.1 _).2.2.2.2, (hp.2.2.2.1 _).2.1, hmo.2.1⟩
  have hmo : PortOk p → _ := fun hp => (modeOk_bound hm).1 ((portOk_iff p).1 hp).2.2.2.2
  have hsz : b'.size = b.size := congrArg Owner.size h1
  have nf : (p.bank k).isFull = false := by unfold Bank.isFull; rw [hk]
  unfold fillBank
  dsimp only
  split
  · rename_i hlt
    refine portFrom_of (by simp) (by simp) ?_ ?_ ?_ ?_
    · intro j; rw [withMode_bank, setBank_bank]; split
      · rename_i h; subst h; exact ⟨rfl, rfl⟩
      · exact ⟨rfl, rfl⟩
    · intro j h; rw [withMode_bank, setBank_bank]; split
      · rename_i e; subst e; rw [nf] at h; cases h
      · exact h
    · intro hp j
      obtain ⟨x1, x2, x3, x4, x5, x6, x7⟩ := hok hp
      rw [withMode_bank, setBank_bank]
      show Bank.contentOk _ (p.setBank k _).maxSize
      rw [setBank_maxSize_eq]; split
      · exact ⟨hlt, x3⟩
      · exact (((portOk_iff p).1 hp).2.2.2.1 j).2.2.2.2
    · intro hp
      obtain ⟨x1, x2, x3, x4, x5, x6, x7⟩ := hok hp
      obtain ⟨m1, m2, m3, m4, m5, m6, m7⟩ := hmo hp
      rw [modeOk_bound (b := b') (c := some k) (idle := idle) rfl, hsz, h2, h3, h1]
      refine ⟨m1, by simpa using m2, m3, m4, by simpa using m5, m6, fun j => ?_⟩
      rw [withMode_bank, setBank_bank]
      have := m7 j
      by_cases hj : k = j
      · subst hj; rw [if_pos rfl, if_pos rfl]; exact ⟨fill + 1, by rw [x1]⟩
      · rw [if_neg (by intro x; injection x with x; exact hj x), if_neg hj]
        rw [if_neg (by intro x; injection x with x; exact hj x)] at this; exact this
  · rename_i hge
    split
    · rename_i hfree
      rw [setBank_bank, if_neg hne.symm] at hfree
      have hfree' := (isFree_iff _).1 hfree
      have bk : ∀ j, (((p.setBank k { p.bank k with content := .full o (fill + 1) }).setBank k.other (((p.setBank k
          { p.bank k with content := .full o (fill + 1) }).bank k.other).startFilling b')).bank j) =
          if k = j then { p.bank k with content := .full o (fill + 1) } else (p.bank k.other).startFilling b' := by
        intro j
        rw [setBank_bank, setBank_bank, setBank_bank, if_neg hne.symm]
        by_cases hj : k = j
        · subst hj; rw [if_neg hne, if_pos rfl, if_pos rfl]
        · have : k.other = j := by cases k <;> cases j <;> first | rfl | exact absurd rfl hj
          rw [if_pos this, if_neg hj]
      have oth : ∀ j, k ≠ j → k.other = j := by intro j hj; cases k <;> cases j <;> first | rfl | exact absurd rfl hj
      refine portFrom_of (by simp) (by simp) ?_ ?_ ?_ ?_
      · intro j; rw [withMode_bank, bk]; split
        · rename_i h; subst h; exact ⟨rfl, rfl⟩
        · rename_i h; rw [← oth j h]; exact ⟨rfl, rfl⟩
      · intro j h; rw [withMode_bank, bk]; split
        · rfl
        · rename_i e
          rw [← oth j e] at h; unfold Bank.isFull at h; rw [hfree'] at h; cases h
      · intro hp j
        obtain ⟨x1, x2, x3, x4, x5, x6, x7⟩ := hok hp
        rw [withMode_bank, bk]
        show Bank.contentOk _ (OpenPort.setBank _ _ _).maxSize
        rw [setBank_maxSize_eq, setBank_maxSize_eq]; split
        · exact ⟨Nat.le_add_left _ _, x2, x3⟩
        · refine ⟨x6, ?_⟩
          show b'.size ≤ _
          rw [hsz]; exact x7
      · intro hp
        obtain ⟨x1, x2, x3, x4, x5, x6, x7⟩ := hok hp
        obtain ⟨m1, m2, m3, m4, m5, m6, m7⟩ := hmo hp
        rw [modeOk_bound (b := b') (c := some k.other) (idle := idle) rfl, hsz, h2, h3]
        refine ⟨m1, by simpa using m2, m3, m4, by simpa using m5, m6, fun j => ?_⟩
        rw [withMode_bank, bk]
        by_cases hj : k = j
        · subst hj; rw [if_pos rfl, if_neg (by intro x; injection x with x; exact hne x)]
          intro o fill h; cases h
        · rw [if_neg hj, if_pos (by rw [oth j hj])]
          exact ⟨0, rfl⟩
    · refine portFrom_of (by simp) (by simp) ?_ ?_ ?_ ?_
      · intro j; rw [withMode_bank, setBank_bank]; split
        · rename_i h; subst h; exact ⟨rfl, rfl⟩
        · exact ⟨rfl, rfl⟩
      · intro j h; rw [withMode_bank, setBank_bank]; split
        · rfl
        · exact h
      · intro hp j
        obtain ⟨x1, x2, x3, x4, x5, x6, x7⟩ := hok hp
        rw [withMode_bank, setBank_bank]
        show Bank.contentOk _ (p.setBank k _).maxSize
        rw [setBank_maxSize_eq]; split
        · exact ⟨Nat.le_add_left _ _, x2, x3⟩
        · exact (((portOk_iff p).1 hp).2.2.2.1 j).2.2.2.2
      · intro hp
        obtain ⟨x1, x2, x3, x4, x5, x6, x7⟩ := hok hp
        obtain ⟨m1, m2, m3, m4, m5, m6, m7⟩ := hmo hp
        rw [modeOk_bound (b := b') (c := none) (idle := idle) rfl, hsz, h2, h3]
        refine ⟨m1, by simpa using m2, m3, m4, by simpa using m5, m6, fun j => ?_⟩
        rw [withMode_bank, setBank_bank, if_neg (fun x => by cases x)]
        have := m7 j
        by_cases hj : k = j
        · rw [if_pos hj]; intro o fill h; cases h
        · rw [if_neg hj]
          rw [if_neg (by intro x; injection x with x; exact hj x)] at this; exact this

theorem bind_portFrom {p : OpenPort} {b : Binding} (t : Nat) (hm : p.mode = .listening) (h1 : sizeOk b.size)
    (h2 : b.size ≤ p.maxSize) (h3 : 1 ≤ b.count) (h4 : PortOk p → 1 ≤ b.granted) (h5 : b.granted ≤ p.maxWindow) :
    PortFrom p (p.bind b (firstFree p) t) := by
  have hmo : PortOk p → _ := fun hp => (modeOk_unbound p (.inl hm)).1 ((portOk_iff p).1 hp).2.2.2.2
  unfold OpenPort.bind
  dsimp only
  cases hc : firstFree p with
  | none =>
    dsimp only
    refine portFrom_of rfl rfl (fun k => by rw [withMode_bank]; exact ⟨rfl, rfl⟩)
        (fun k h => by rw [withMode_bank]; exact h) ?_ ?_
    · intro hp j; rw [withMode_bank]; exact (((portOk_iff p).1 hp).2.2.2.1 j).2.2.2.2
    · intro hp
      rw [modeOk_bound (b := b) (c := none) (idle := some t) rfl]
      exact ⟨h1, h2, h3, h4 hp, h5, rfl, fun k => by rw [if_neg (fun x => by cases x), withMode_bank]; exact hmo hp k⟩
  | some k =>
    have hfree : (p.bank k).content = .free := by
      unfold firstFree at hc
      split at hc
      · rename_i h; cases hc; exact (isFree_iff _).1 h
      · split at hc
        · rename_i h; cases hc; exact (isFree_iff _).1 h
        · cases hc
    dsimp only
    refine portFrom_of (by simp) (by simp) ?_ ?_ ?_ ?_
    · intro j; rw [withMode_bank, setBank_bank]; split
      · rename_i h; subst h; exact ⟨rfl, rfl⟩
      · exact ⟨rfl, rfl⟩
    · intro j h; rw [withMode_bank, setBank_bank]; split
      · rename_i e; subst e; unfold Bank.isFull at h; rw [hfree] at h; cases h
      · exact h
    · intro hp j
      rw [withMode_bank, setBank_bank]
      show Bank.contentOk _ (p.setBank k _).maxSize
      rw [setBank_maxSize_eq]; split
      · exact ⟨(((portOk_iff p).1 hp).2.2.2.1 k).2.1, h2⟩
      · exact (((portOk_iff p).1 hp).2.2.2.1 j).2.2.2.2
    · intro hp
      rw [modeOk_bound (b := b) (c := some k) (idle := some t) rfl]
      refine ⟨h1, by simpa using h2, h3, h4 hp, by simpa using h5, rfl, fun j => ?_⟩
      rw [withMode_bank, setBank_bank]
      by_cases hj : k = j
      · subst hj; rw [if_pos rfl, if_pos rfl]; exact ⟨0, rfl⟩
      · rw [if_neg (by intro x; injection x with x; exact hj x), if_neg hj]
        exact hmo hp j

theorem unbound_portFrom {p : OpenPort} {m : PortMode} (h : p.mode = .listening ∨ p.mode = .halted)
    (hm : m = .listening ∨ m = .halted) : PortFrom p { p with mode := m } := by
  refine portFrom_of rfl rfl (fun k => by rw [withMode_bank]; exact ⟨rfl, rfl⟩)
      (fun k h => by rw [withMode_bank]; exact h) ?_ ?_
  · intro hp j; rw [withMode_bank]; exact (((portOk_iff p).1 hp).2.2.2.1 j).2.2.2.2
  · intro hp
    rw [modeOk_unbound _ hm]
    intro k; rw [withMode_bank]
    exact (modeOk_unbound p h).1 ((portOk_iff p).1 hp).2.2.2.2 k

theorem offer_portsFrom (f : OwnFrame) (s : State) : PortsFrom s (offer f s) := .of (by simp)

theorem portsFrom_offer {s t : State} (f : OwnFrame) (h : PortsFrom s t) : PortsFrom s (offer f t) :=
    h.trans (offer_portsFrom _ _)

theorem portOf_some {b : Byte} {s : State} {i : Fin 8} {p : OpenPort} (h : portOf b s = some (i,
    p)) : s.ports[i] = some p := by
  unfold portOf at h
  split at h
  · rw [Option.map_eq_some_iff] at h
    obtain ⟨q, hq, e⟩ := h; cases e; exact hq
  · cases h

theorem resumeUnlessSent_portsFrom {i : Fin 8} {p : OpenPort} {b c idle h} {s : State} (hp : s.ports[i] = some p)
    (hm : p.mode = .bound b c idle) :
    PortsFrom s (resumeUnlessSent i p b c idle h s) := by
  unfold resumeUnlessSent
  split
  · exact .of rfl
  · refine portsFrom_offer _ ?_
    exact .put hp rfl (rebound_portFrom (b := b) (b' := { b with resumeSent := true }) hm rfl rfl rfl id)

theorem accept_portsFrom {i : Fin 8} {p : OpenPort} {b c idle h w} {s : State} (hp : s.ports[i] = some p)
    (hm : p.mode = .bound b c idle) :
    PortsFrom s (accept i p b c idle h w s) := by
  unfold accept
  split
  · exact .of rfl
  · split
    · rename_i k _ o fill hk
      have h1 : PortsFrom s (setPort i (some (fillBank i p
          { b with accepted := b.accepted + 1, digest := w, resumeSent := false } k o fill idle).1) s) :=
          .put hp rfl (fillBank_portFrom hm hk rfl rfl rfl)
      have h2 := portsFrom_offer (replyTo h .taken h.seq []) h1
      exact h2.trans (.of rfl)
    · exact .of rfl
    · exact .of rfl

theorem boundBlockEnds_portsFrom {i : Fin 8} {p : OpenPort} {b c idle h w x} {s : State} (hp : s.ports[i] = some p)
    (hm : p.mode = .bound b c idle) :
    PortsFrom s (boundBlockEnds i p b c idle h w x s) := by
  unfold boundBlockEnds
  split
  · split
    · exact accept_portsFrom hp hm
    · exact resumeUnlessSent_portsFrom hp hm
  · split
    · refine portsFrom_offer _ ?_
      exact .put hp rfl (rebound_portFrom (b := b) (b' := { b with busyOwed := true }) hm rfl rfl rfl id)
    · exact resumeUnlessSent_portsFrom hp hm
  · exact resumeUnlessSent_portsFrom hp hm
  · exact offer_portsFrom _ _
  · exact .of rfl
  · exact .of rfl

theorem blockEnds_portsFrom (h c e s) : PortsFrom s (blockEnds h c e s) := by
  unfold blockEnds
  repeat' split
  all_goals first
    | exact .of rfl
    | exact offer_portsFrom _ _
    | (rename_i hpo _ _ _ _ hm _; exact boundBlockEnds_portsFrom (portOf_some hpo) hm)

theorem unbindNow_portsFrom {i : Fin 8} {p : OpenPort} {b c idle} {s z : State} (hp : s.ports[i] = some p)
    (hz : z.ports = s.ports) (hm : p.mode = .bound b c idle) (res) {m} (hmode : m = .listening ∨ m = .halted) :
    PortsFrom s (unbindNow i p b c res m z) := by
  unfold unbindNow
  have h1 : PortsFrom s (setPort i (some (unbind i p b c res m).1) z) := .put hp hz (unbind_portFrom hm res m hmode)
  exact h1.trans (.of rfl)

theorem finishReaches_portsFrom (h x s) : PortsFrom s (finishReaches h x s) := by
  unfold finishReaches
  split
  · exact offer_portsFrom _ _
  · rename_i i p hp
    split
    · exact offer_portsFrom _ _
    · split
      · rename_i b c idle hm
        split
        · split
          · exact offer_portsFrom _ _
          · unfold closeRun
            extract_lets matched s1 note u
            have h1 : PortsFrom s (setPort i (some { u.1 with note := some note }) s1) := by
              refine .put (portOf_some hp) (by simp [s1]) ?_
              exact (unbind_portFrom hm _ .listening (.inl rfl)).trans (note_portFrom _)
            exact h1.trans (.of rfl)
        · exact offer_portsFrom _ _
      · exact offer_portsFrom _ _
      · exact offer_portsFrom _ _

theorem cancelReaches_portsFrom (h s) : PortsFrom s (cancelReaches h s) := by
  unfold cancelReaches
  split
  · exact .of rfl
  · rename_i i p hp
    split
    · rename_i b c idle hm
      split
      · exact unbindNow_portsFrom (portOf_some hp) rfl hm _ (.inl rfl)
      · exact .of rfl
    · exact .of rfl
    · exact .of rfl

theorem idleExpires_portsFrom (i s) : PortsFrom s (idleExpires i s) := by
  unfold idleExpires
  split
  · rename_i p hp
    split
    · rename_i b c idle hm
      split
      · exact unbindNow_portsFrom hp rfl hm _ (.inl rfl)
      · exact .of rfl
    · exact .of rfl
    · exact .of rfl
  · exact .of rfl

theorem openReaches_portsFrom (h x s) : PortsFrom s (openReaches h x s) := by
  unfold openReaches
  split
  · exact offer_portsFrom _ _
  · rename_i i p hp
    split
    · exact offer_portsFrom _ _
    · split
      · exact offer_portsFrom _ _
      · exact offer_portsFrom _ _
    · rename_i hm
      extract_lets a b
      split
      · exact offer_portsFrom _ _
      · rename_i hb
        split
        · exact offer_portsFrom _ _
        · have hb : openParamBad a p = false := by simpa using hb
          unfold openParamBad at hb
          simp only [Bool.or_eq_false_iff, decide_eq_false_iff_not] at hb
          obtain ⟨⟨⟨⟨⟨b1, b2⟩, b3⟩, b4⟩, b5⟩, b6⟩ := hb
          have key : PortOk p → PortFrom p (p.bind b (firstFree p) (Config.idleTime s.straps.tcl)) := by
            intro hok
            obtain ⟨⟨s1, s2, s3⟩, w1, w2, -⟩ := hok
            refine bind_portFrom _ hm ?_ ?_ ?_ ?_ ?_
            · show sizeOk a.size
              unfold sizeOk; omega
            · show a.size ≤ _; omega
            · show 1 ≤ a.count; omega
            · intro _; show 1 ≤ min a.window p.maxWindow; omega
            · show min a.window p.maxWindow ≤ _; omega
          have key2 : PortFrom p (p.bind b (firstFree p) (Config.idleTime s.straps.tcl)) := by
            refine ⟨fun hok => (key hok).ok hok, ?_, ?_, ?_, ?_⟩
            · unfold OpenPort.bind; dsimp only; split <;> simp
            · intro k; unfold OpenPort.bind; dsimp only; rw [withMode_bank]; split
              · rw [setBank_bank]; split
                · rename_i h; subst h; rfl
                · rfl
              · rfl
            · intro k; unfold OpenPort.bind; dsimp only; rw [withMode_bank]; split
              · rw [setBank_bank]; split
                · rename_i h; subst h; rfl
                · rfl
              · rfl
            · intro j h; unfold OpenPort.bind; dsimp only; rw [withMode_bank]; split
              · rename_i k hc
                have hfree : (p.bank k).content = .free := by
                  unfold firstFree at hc
                  split at hc
                  · rename_i h; cases hc; exact (isFree_iff _).1 h
                  · split at hc
                    · rename_i h; cases hc; exact (isFree_iff _).1 h
                    · cases hc
                rw [setBank_bank]; split
                · rename_i e; subst e; unfold Bank.isFull at h; rw [hfree] at h; cases h
                · exact h
              · exact h
          unfold grant
          refine portsFrom_offer _ ?_
          exact .put (portOf_some hp) rfl key2

theorem blockHeader_portsFrom (h s) : PortsFrom s (blockHeader h s).2 := by
  unfold blockHeader
  split
  · exact .of rfl
  · rename_i i p hp
    split
    · exact .of rfl
    · exact .of rfl
    · rename_i b c idle hm
      split
      · exact .put (portOf_some hp) rfl (rebound_portFrom (b := b) hm rfl rfl rfl (fun _ => rfl))
      · exact .of rfl

theorem unbindWhere_portsFrom (test result s) : PortsFrom s (unbindWhere test result s).1 := by
  unfold unbindWhere
  generalize portNumbers = l
  have : ∀ acc : State × List Record, PortsFrom s acc.1 → PortsFrom s (l.foldl (unbindIf test result) acc).1 := by
    induction l with
    | nil => exact fun _ h => h
    | cons i l ih =>
      intro acc h
      refine ih _ ?_
      unfold unbindIf
      split
      · rename_i p hp
        split
        · rename_i b c idle hm
          split
          · exact h.trans (.put hp rfl (unbind_portFrom hm _ _ (.inl rfl)))
          · exact h
        · exact h
        · exact h
      · exact h
  exact this _ (.of rfl)

/-! ### Both tables -/

/-- What an operation leaves of both tables. -/
def TablesFrom (s t : State) : Prop := SlotsFrom s t ∧ PortsFrom s t

theorem TablesFrom.trans {s t u : State} (h : TablesFrom s t) (k : TablesFrom t u) : TablesFrom s u :=
    ⟨h.1.trans k.1, h.2.trans k.2⟩

theorem TablesFrom.same {s t : State} (h1 : t.slots = s.slots) (h2 : t.ports = s.ports) : TablesFrom s t := ⟨.of h1,
    .of h2⟩

theorem TablesFrom.run {i : Fin 8} {s t : State} (h : SlotsFrom s t) (k : RunStep i s t) : TablesFrom s t := ⟨h,
    .of k.ports⟩

theorem unbindWhere_slots (test result s) : (unbindWhere test result s).1.slots = s.slots := by
  unfold unbindWhere
  generalize portNumbers = l
  have : ∀ acc : State × List Record, acc.1.slots = s.slots →
      (l.foldl (unbindIf test result) acc).1.slots = s.slots := by
    induction l with
    | nil => exact fun _ h => h
    | cons i l ih =>
      intro acc h
      refine ih _ ?_
      unfold unbindIf
      repeat' split
      all_goals exact h
  exact this _ rfl

theorem endRunsWhere_ports (test result s) : (endRunsWhere test result s).1.ports = s.ports := by
  unfold endRunsWhere
  generalize slotNumbers = l
  have : ∀ acc : State × List Record, acc.1.ports = s.ports →
      (l.foldl (endRunIf test result) acc).1.ports = s.ports := by
    induction l with
    | nil => exact fun _ h => h
    | cons i l ih =>
      intro acc h
      refine ih _ ?_
      unfold endRunIf
      split
      · split
        · rw [endRun_eq]; simp [h]
        · exact h
      · exact h
  exact this _ rfl

theorem TablesFrom.endUnbind (t1 r1 t2 r2 s) : TablesFrom s (unbindWhere t2 r2 (endRunsWhere t1 r1 s).1).1 :=
  ⟨(endRunsWhere_slotsFrom t1 r1 s).trans (.of (unbindWhere_slots _ _ _)),
      PortsFrom.trans (.of (endRunsWhere_ports t1 r1 s)) (unbindWhere_portsFrom _ _ _)⟩

theorem TablesFrom.report (l : List Report) (s : State) : TablesFrom s (postReports l s) := .same rfl rfl

theorem TablesFrom.setRollCall (l : RollCall) (s : State) : TablesFrom s (setRollCall l s) := .same rfl rfl

theorem TablesFrom.setPeer (i : Fin 16) (l : Peer) (s : State) : TablesFrom s (setPeer i l s) := .same rfl rfl

theorem TablesFrom.post (r : Record) (s : State) : TablesFrom s (post r s) := .same rfl rfl

theorem TablesFrom.control (l : List OwnFrame)
    (s : State) : TablesFrom s (setRau { s.rau with controlQueue := l } s) := .same rfl rfl

theorem TablesFrom.offer (f : OwnFrame) (s : State) : TablesFrom s (Machine.offer f s) := .same (by simp) (by simp)

theorem TablesFrom.refl (s : State) : TablesFrom s s := .same rfl rfl

theorem TablesFrom.losePeer (i : Fin 16) (s : State) : TablesFrom s (losePeer i s).1 := by
  unfold Machine.losePeer
  extract_lets st e u
  have h2 : TablesFrom s u.1 := TablesFrom.endUnbind _ _ _ _ s
  clear_value u
  exact h2

theorem TablesFrom.presence (s : State) : TablesFrom s (presenceCheck s).1 := by
  unfold presenceCheck
  generalize stationNumbers = l
  have : ∀ acc : State × List Report, TablesFrom s acc.1 → TablesFrom s (l.foldl presenceAt acc).1 := by
    induction l with
    | nil => exact fun _ h => h
    | cons i l ih =>
      intro acc h
      refine ih _ ?_
      unfold presenceAt
      extract_lets c s1
      have h2 : TablesFrom s s1 := h.trans (TablesFrom.setPeer _ _ _)
      clear_value s1
      split
      · with_reducible exact h2.trans (TablesFrom.losePeer i s1)
      · exact h2
  exact this _ (.refl s)

theorem TablesFrom.enterSilent (s : State) : TablesFrom s (enterSilent s) := by
  unfold Machine.enterSilent
  exact ((TablesFrom.setRollCall _ _).trans (TablesFrom.control _ _)).trans ((TablesFrom.endUnbind _ _ _ _ _).trans
      (TablesFrom.report _ _))

theorem TablesFrom.offerBeacon (s : State) : TablesFrom s (offerBeacon s) := by
  unfold Machine.offerBeacon
  exact (TablesFrom.offer _ _).trans (TablesFrom.setRollCall _ _)

theorem TablesFrom.ownRoll (x s) : TablesFrom s (ownRollReaches x s) := by
  unfold ownRollReaches
  split
  · exact .refl s
  · split
    · split
      · exact .refl s
      · unfold beaconReturns
        dsimp only
        split
        · exact (TablesFrom.setRollCall _ _).trans (TablesFrom.post _ _)
        · exact TablesFrom.setRollCall _ _
    · exact .enterSilent s

theorem TablesFrom.roll (h x s) : TablesFrom s (rollReaches h x s) := by
  refine .same ?_ ?_ <;> (unfold rollReaches; dsimp only; repeat' split) <;> rfl

theorem TablesFrom.beacon (s : State) : TablesFrom s (beaconPeriodExpires s) := by
  unfold beaconPeriodExpires
  split
  · dsimp only
    have h := TablesFrom.presence s
    split
    · exact (h.trans (TablesFrom.report _ _)).trans (TablesFrom.setRollCall _ _)
    · exact ((h.trans (TablesFrom.setRollCall _ _)).trans (TablesFrom.report _ _)).trans ((TablesFrom.offerBeacon
          _).trans (TablesFrom.setRollCall _ _))
  · exact .refl s

theorem TablesFrom.clear (s : State) : TablesFrom s (clearHandover s) := .same rfl rfl

theorem TablesFrom.delivered {f : State → State} (hf : ∀ s, TablesFrom s (f s))
    (s : State) : TablesFrom s (delivered f s) := by
  unfold Machine.delivered
  split
  · exact .clear s
  · exact (TablesFrom.clear s).trans (hf _)

theorem TablesFrom.reply {f : State → State} {a b c : Byte} (h1 : ∀ s, SlotsFrom s (f s)) (h2 : ∀ s, f s = s ∨ ∃ i r,
    findRun a b c s = some (i, r) ∧ RunStep i s (f s)) (s : State) : TablesFrom s (f s) := by
  refine ⟨h1 s, ?_⟩
  rcases h2 s with h | ⟨i, r, -, k⟩
  · rw [h]; exact .of rfl
  · exact .of k.ports

theorem TablesFrom.port {n : Nat} {s t : State} (h : PortsFrom s t) (k : PortStep n s t) : TablesFrom s t :=
    ⟨.of k.slots, h⟩

theorem TablesFrom.frame (k h x s) : TablesFrom s (frameReaches k h x s) := by
  cases k
  case open_ => exact .port (openReaches_portsFrom h x s) (openReaches_portStep h x s)
  case finish => exact .port (finishReaches_portsFrom h x s) (finishReaches_portStep h x s)
  case cancel => exact .port (cancelReaches_portsFrom h s) (cancelReaches_portStep h s)
  case grant => exact .reply (fun s => grantReaches_slotsFrom h x s) (grantReaches_runStep h x) s
  case refuse => exact .reply (fun s => refuseReaches_slotsFrom h x s) (refuseReaches_runStep h x) s
  case taken => exact .reply (fun s => takenReaches_slotsFrom h s) (takenReaches_runStep h) s
  case resume => exact .reply (fun s => resumeReaches_slotsFrom h s) (resumeReaches_runStep h) s
  case busy => exact .reply (fun s => busyReaches_slotsFrom h s) (busyReaches_runStep h) s
  case halted => exact .reply (fun s => haltedReaches_slotsFrom h x s) (haltedReaches_runStep h x) s
  case closed => exact .reply (fun s => closedReaches_slotsFrom h x s) (closedReaches_runStep h x) s
  all_goals exact .refl s

theorem TablesFrom.deliver (s : State) : TablesFrom s (deliverPending s) := by
  unfold deliverPending
  repeat' split
  · exact .refl s
  · exact .delivered (fun s => .frame _ _ _ s) s
  · exact .delivered (fun s => .port (blockEnds_portsFrom _ _ _ s) (blockEnds_portStep _ _ _ s)) s
  · exact .delivered (fun s => .reply (fun s => returnedReaches_slotsFrom _ s) (returnedReaches_runStep _) s) s
  · exact (TablesFrom.clear s).trans (TablesFrom.roll _ _ _)
  · exact (TablesFrom.clear s).trans (TablesFrom.ownRoll _ _)

theorem stripOwn_portsFrom (h s) : PortsFrom s (stripOwn h s).2 := by
  unfold stripOwn
  repeat' split
  · exact .of rfl
  · exact blockHeader_portsFrom h s
  · exact .of rfl

theorem decide98_portsFrom (h s) : PortsFrom s (decide98 h s).2 := by
  unfold decide98
  repeat' split
  · exact stripOwn_portsFrom h s
  all_goals exact .of rfl

theorem TablesFrom.decide (s : State) : TablesFrom s (decidePending s) := by
  refine ⟨?_, ?_⟩
  · have h := decidePending_shape s; exact .of (by rw [h])
  · unfold decidePending
    split
    · split
      · rename_i q _ _
        have hd : PortsFrom s (decide98 (headerOf q.header)
            (setRau (s.rau.yieldOn s.straps.stn (headerOf q.header).flags) s)).2 := PortsFrom.trans (.of rfl)
            (decide98_portsFrom _ _)
        unfold decideHeader
        dsimp only
        generalize decide98 (headerOf q.header)
            (setRau (s.rau.yieldOn s.straps.stn (headerOf q.header).flags) s) = d at *
        split
        · split
          · exact hd.trans (.of rfl)
          · exact hd.trans (.of rfl)
        · exact .of rfl
      · exact .of rfl
    · exact .of rfl

theorem TablesFrom.settle (s : State) : TablesFrom s (settle s) := (TablesFrom.deliver s).trans (TablesFrom.decide _)

theorem apart_of_overlaps {a b : Region} (h : a.overlaps b = false) : a.apart b := by
  intro x ⟨h1, h2, h3, h4⟩
  have := mt (overlaps_iff a b).2 (by simp [h])
  omega

theorem apart_symm {a b : Region} (h : a.apart b) : b.apart a := fun x ⟨h1, h2, h3, h4⟩ => h x ⟨h3, h4, h1, h2⟩

theorem beginRun_regionsOk {i : Fin 8} {a : StartRunArgs} {s : State} (hs : RegionsOk s)
    (hb : startRunBad a s.own = false)
    (ho : a.region.overlapsAny (fencedBanks s) = false) : RegionsOk (beginRun i a s) := by
  unfold beginRun
  unfold startRunBad at hb
  simp only [Bool.or_eq_false_iff, decide_eq_false_iff_not, Nat.not_le, not_not] at hb
  obtain ⟨⟨⟨⟨⟨⟨⟨b1, b2⟩, b3⟩, b4⟩, b5⟩, b6⟩, b7⟩, b8⟩ := hb
  have hsz : 16 ≤ a.size := by
    have := mt (badSize_iff a.size).2 (by simp [b1]); omega
  extract_lets r
  have hreg : r.region = a.region := rfl
  refine regionsOk_from (s :=
      { setSlot i (some r) s with tagCounter := s.tagCounter + 1 }) ?_ (.of (offer_slots _ _)) (.of (offer_ports _ _))
  obtain ⟨x1, x2, x3, x4⟩ := hs
  have get : ∀ j : Fin 8, (setSlot i (some r) s).slots[j] = if i = j then some r else s.slots[j] :=
      fun j => setSlot_get i j _ s
  refine ⟨x1, x2, ?_, ?_⟩
  · intro b hbk c hc
    have hbk : b ∈ fencedBanks s := hbk
    rw [mem_sourceRegions] at hc
    obtain ⟨j, q, hq, rfl⟩ := hc
    have hq : (setSlot i (some r) s).slots[j] = some q := hq
    rw [get] at hq
    split at hq
    · cases hq
      rw [hreg]
      exact apart_symm (apart_of_overlaps ((overlapsAny_eq_false _ _).1 ho b hbk))
    · exact x3 b hbk _ (mem_sourceRegions.2 ⟨j, q, hq, rfl⟩)
  · intro j q hq
    have hq : (setSlot i (some r) s).slots[j] = some q := hq
    rw [get] at hq
    split at hq
    · cases hq; exact ⟨by show 1 ≤ a.count; omega, by show 1 ≤ a.size; omega⟩
    · exact x4 j q hq

/-- A port may be written whose regions share no byte with the others (R91, R93). -/
theorem setPort_regionsOk {i : Fin 8} {q : OpenPort} {s : State} (hs : RegionsOk s) (hq : PortOk q)
    (hab : (q.region q.bankA).apart (q.region q.bankB))
    (hoth : ∀ x ∈ portRegions (some q), ∀ y ∈ otherBankRegions i s, x.apart y) (hsrc : ∀ x ∈ portFenced (some q),
        ∀ y ∈ sourceRegions s, x.apart y) :
    RegionsOk (setPort i (some q) s) := by
  obtain ⟨x1, x2, x3, x4⟩ := hs
  have get : ∀ j : Fin 8, (setPort i (some q) s).ports[j] = if i = j then some q else s.ports[j] :=
      fun j => setPort_get i j _ s
  refine ⟨?_, ?_, ?_, x4⟩
  · intro j p hp
    rw [get] at hp
    split at hp
    · cases hp; exact ⟨hq, hab⟩
    · exact x1 j p hp
  · intro j k hjk a ha b hb
    rw [get] at ha hb
    split at ha
    · rename_i h; subst h
      rw [if_neg hjk] at hb
      exact hoth a ha b (mem_otherBankRegions.2 ⟨k, hjk.symm, hb⟩)
    · rename_i h
      split at hb
      · rename_i h; subst h
        exact apart_symm (hoth b hb a (mem_otherBankRegions.2 ⟨j, hjk, ha⟩))
      · exact x2 j k hjk a ha b hb
  · intro a ha b hb
    have hb : b ∈ sourceRegions s := hb
    rw [mem_fencedBanks] at ha
    obtain ⟨j, ha⟩ := ha
    rw [get] at ha
    split at ha
    · exact hsrc a ha b hb
    · exact x3 a (mem_fencedBanks.2 ⟨j, ha⟩) b hb

theorem beginPort_regionsOk {i : Fin 8} {a : OpenPortArgs} {s : State} (hs : RegionsOk s)
    (hb : openPortBad a = false) (ho : openPortOverlaps i a s = false)
    (hc : a.capacityA ≤ 255 ∧ a.capacityB ≤ 255) : RegionsOk (beginPort i a s) := by
  unfold openPortBad at hb
  simp only [Bool.or_eq_false_iff, decide_eq_false_iff_not, not_not] at hb
  obtain ⟨⟨⟨⟨⟨⟨⟨b1, b2⟩, b3⟩, b4⟩, b5⟩, b6⟩, b7⟩, b8⟩ := hb
  unfold openPortOverlaps at ho
  simp only [Bool.or_eq_false_iff] at ho
  obtain ⟨⟨⟨⟨o1, o2⟩, o3⟩, o4⟩, o5⟩ := ho
  have hsz := mt (badSize_iff a.maxSize).2 (by simp [b1])
  have hw := mt (badWindow_iff a.maxWindow).2 (by simp [b2])
  have pA := mt (pastEnd_iff a.regionA).2 (by simp [b7])
  have pB := mt (pastEnd_iff a.regionB).2 (by simp [b8])
  unfold beginPort
  refine setPort_regionsOk hs ?_ ?_ ?_ ?_
  · refine ⟨⟨by dsimp only; omega, by dsimp only; omega, by dsimp only; omega⟩,
        by dsimp only; omega, by dsimp only; omega, ⟨b5, by dsimp only; omega, hc.1, Nat.not_lt.1 pA, trivial⟩, ⟨b6, by dsimp only; omega, hc.2, Nat.not_lt.1 pB, trivial⟩, ?_⟩
    exact ⟨fun o f h => BankContent.noConfusion h, fun o f h => BankContent.noConfusion h⟩
  · exact apart_of_overlaps o1
  · intro x hx y hy
    have hx : x ∈ [a.regionA, a.regionB] := hx
    simp only [List.mem_cons, List.not_mem_nil, or_false] at hx
    rcases hx with rfl | rfl
    · exact apart_of_overlaps ((overlapsAny_eq_false _ _).1 o2 y hy)
    · exact apart_of_overlaps ((overlapsAny_eq_false _ _).1 o3 y hy)
  · intro x hx y hy
    have hx : x ∈ [a.regionA, a.regionB] := hx
    simp only [List.mem_cons, List.not_mem_nil, or_false] at hx
    rcases hx with rfl | rfl
    · exact apart_of_overlaps ((overlapsAny_eq_false _ _).1 o4 y hy)
    · exact apart_of_overlaps ((overlapsAny_eq_false _ _).1 o5 y hy)

theorem releaseTo_regionsOk {i : Fin 8} {p : OpenPort} {k : BankId} {base : Nat} {s : State} (hs : RegionsOk s)
    (hp : s.ports[i] = some p)
    (hfull : (p.bank k).isFull = true) (hbase : base % 16 = 0)
        (hend : (bankRegion p.maxSize base (p.bank k).capacity).hi ≤ Config.memoryBytes)
    (hsrc : (bankRegion p.maxSize base (p.bank k).capacity).overlapsAny (sourceRegions s) = false)
    (ho1 : (bankRegion p.maxSize base (p.bank k).capacity).overlaps (p.region (p.bank k.other)) = false)
    (ho2 : (bankRegion p.maxSize base (p.bank k).capacity).overlapsAny (otherBankRegions i s) = false) : RegionsOk
        (releaseTo i p k base s) := by
  obtain ⟨hok, hap⟩ := hs.1 i p hp
  have hokk := (portOk_iff p).1 hok
  obtain ⟨k1, k2, k3, k4, k5⟩ := hokk
  have hne := (bankId_other k).1
  have oth : ∀ j, k ≠ j → k.other = j := by intro j hj; cases k <;> cases j <;> first | rfl | exact absurd rfl hj
  obtain ⟨o, fill, hcont⟩ := (isFull_iff _).1 hfull
  have key : ∀ q : OpenPort, q.maxSize = p.maxSize → q.maxWindow = p.maxWindow → (q.bank k).base = base →
      (q.bank k).capacity = (p.bank k).capacity →
      (q.bank k).contentOk p.maxSize → q.bank k.other = p.bank k.other → q.modeOk →
          RegionsOk (setPort i (some q) s) := by
    intro q e1 e2 e3 e4 e5 e6 e7
    have rk : q.region (q.bank k) = bankRegion p.maxSize base (p.bank k).capacity :=
        by unfold OpenPort.region; rw [e1, e3, e4]
    have ro : q.region (q.bank k.other) = p.region (p.bank k.other) := by unfold OpenPort.region; rw [e1, e6]
    have hreg : ∀ x ∈ portRegions (some q), x = q.region (q.bank k) ∨ x = q.region (q.bank k.other) := by
      intro x hx
      simp only [portRegions, List.mem_cons, List.not_mem_nil, or_false] at hx
      cases k
      · exact hx
      · exact hx.symm
    have hfen : ∀ x ∈ portFenced (some q), x = q.region (q.bank k) ∨ (x = q.region (q.bank k.other) ∧
        (q.bank k.other).isFull = false) := by
      intro x hx
      simp only [portFenced, List.mem_map, List.mem_filter, List.mem_cons, List.not_mem_nil, or_false] at hx
      obtain ⟨b, ⟨hb, hf⟩, rfl⟩ := hx
      have hf : b.isFull = false := by simpa using hf
      cases k
      · rcases hb with rfl | rfl
        · exact .inl rfl
        · exact .inr ⟨rfl, hf⟩
      · rcases hb with rfl | rfl
        · exact .inr ⟨rfl, hf⟩
        · exact .inl rfl
    refine setPort_regionsOk hs ?_ ?_ ?_ ?_
    · rw [portOk_iff]
      refine ⟨by rw [e1]; exact k1, by rw [e2]; exact k2, by rw [e2]; exact k3, fun j => ?_, e7⟩
      by_cases hj : k = j
      · subst hj
        refine ⟨by rw [e3]; exact hbase, by rw [e4]; exact (k4 k).2.1, by rw [e4]; exact (k4 k).2.2.1, by rw [rk]; exact hend, by rw [e1]; exact e5⟩
      · rw [← oth j hj]
        have := k4 k.other
        unfold BankOk at this ⊢
        rw [ro, e6, e1]; exact this
    · have : (q.region (q.bank k)).apart (q.region (q.bank k.other)) := by rw [rk, ro]; exact apart_of_overlaps ho1
      cases k
      · exact this
      · exact apart_symm this
    · intro x hx y hy
      rcases hreg x hx with rfl | rfl
      · rw [rk]; exact apart_of_overlaps ((overlapsAny_eq_false _ _).1 ho2 y hy)
      · rw [ro]
        obtain ⟨j, hj, hy⟩ := mem_otherBankRegions.1 hy
        refine hs.2.1 i j hj.symm _ ?_ y hy
        rw [hp]
        cases k
        · exact List.mem_cons_of_mem _ List.mem_cons_self
        · exact List.mem_cons_self
    · intro x hx y hy
      rcases hfen x hx with rfl | ⟨rfl, hf⟩
      · rw [rk]; exact apart_of_overlaps ((overlapsAny_eq_false _ _).1 hsrc y hy)
      · rw [ro]
        refine hs.2.2.1 _ (mem_fencedBanks.2 ⟨i, ?_⟩) y hy
        rw [hp]
        rw [e6] at hf
        simp only [portFenced, List.mem_map, List.mem_filter]
        refine ⟨p.bank k.other, ⟨by cases k <;> simp [OpenPort.bank, BankId.other], by simp [hf]⟩, rfl⟩
  have free : ∀ m, (p.mode = m) → (∀ b idle, m ≠ .bound b none idle) →
      (p.setBank k { ({ p.bank k with base := base } : Bank) with content := .free }).modeOk := by
    intro m hm hnb
    cases hmode : p.mode with
    | listening =>
      rw [modeOk_unbound _ (.inl (by simpa using hmode))]
      intro j; rw [setBank_bank]; split
      · intro o f h; cases h
      · exact (modeOk_unbound p (.inl hmode)).1 k5 j
    | halted =>
      rw [modeOk_unbound _ (.inr (by simpa using hmode))]
      intro j; rw [setBank_bank]; split
      · intro o f h; cases h
      · exact (modeOk_unbound p (.inr hmode)).1 k5 j
    | bound b c idle =>
      have h5 := (modeOk_bound hmode).1 k5
      obtain ⟨m1, m2, m3, m4, m5, m6, m7⟩ := h5
      rw [modeOk_bound (p := p.setBank k _) (b := b) (c := c) (idle := idle) (by simpa using hmode)]
      refine ⟨m1, by simpa using m2, m3, m4, by simpa using m5, m6, fun j => ?_⟩
      rw [setBank_bank]
      have := m7 j
      by_cases hj : k = j
      · subst hj
        rw [if_pos rfl]
        split
        · rename_i hc; rw [if_pos hc] at this; obtain ⟨f, hf⟩ := this; rw [hcont] at hf; cases hf
        · intro o f h; cases h
      · rw [if_neg hj]; exact this
  have done : ∀ m, (p.mode = m) → (∀ b idle, m ≠ .bound b none idle) →
      RegionsOk (setPort i (some (p.setBank k { ({ p.bank k with base := base } : Bank) with content := .free }))
      s) := by
    intro m hm hnb
    refine key _ (by simp) (by simp) (by simp) (by simp) (by simp [Bank.contentOk]) (by simp) (free m hm hnb)
  unfold releaseTo
  extract_lets bank0 bank
  split
  · rename_i b idle hm
    have hb' : ∃ b' : Binding, (if b.busyOwed then { b with busyOwed := false, resumeSent := true } else b) = b' ∧
        b'.owner = b.owner ∧ b'.count = b.count ∧ b'.granted = b.granted := by
      refine ⟨_, rfl, ?_⟩
      split <;> exact ⟨rfl, rfl, rfl⟩
    obtain ⟨b', eb, hb'⟩ := hb'
    have hs' : RegionsOk (setPort i (some { p.setBank k (bank.startFilling b) with mode := .bound b' (some k) idle })
        s) := by
      obtain ⟨m1, m2, m3, m4, m5, m6, m7⟩ := (modeOk_bound hm).1 k5
      have hbs : b'.size = b.size := congrArg Owner.size hb'.1
      refine key _ (setBank_maxSize_eq p k (bank.startFilling b))
          (setBank_maxWindow_eq p k (bank.startFilling b)) ?_ ?_ ?_ ?_ ?_
      · rw [withMode_bank, bank_setBank_self]; rfl
      · rw [withMode_bank, bank_setBank_self]; rfl
      · rw [withMode_bank, bank_setBank_self]
        exact ⟨(k4 k).2.1, m2⟩
      · rw [withMode_bank, setBank_bank, if_neg hne.symm]
      · rw [modeOk_bound (b := b') (c := some k) (idle := idle) rfl, hbs, hb'.2.1, hb'.2.2, hb'.1]
        refine ⟨m1, by simpa using m2, m3, m4, by simpa using m5, m6, fun j => ?_⟩
        rw [withMode_bank, setBank_bank]
        by_cases hj : k = j
        · subst hj; rw [if_pos rfl, if_pos rfl]; exact ⟨0, rfl⟩
        · rw [if_neg (by intro x; injection x with x; exact hj x), if_neg hj]
          have := m7 j
          rw [if_neg (fun x => by cases x)] at this; exact this
    rw [eb]
    dsimp only
    split
    · exact regionsOk_from hs' (.of (offer_slots _ _)) (.of (offer_ports _ _))
    · exact hs'
  · rename_i b j idle hm
    exact done _ hm (by intro b idle h; cases h)
  · rename_i hm
    exact done _ hm (by intro b idle h; cases h)
  · rename_i hm
    exact done _ hm (by intro b idle h; cases h)


end Sys2Proof.Machine
end

