-- ==== Sys2Proof/Laws/Settle.lean ====
section
/-! SUPPORT. What is left to do before a symbol in UP and before the quiet timer's expiry (log 4): the row of a frame
that was handed over, then the header decision; after both, nothing is left. -/

namespace Sys2Proof.Machine

open Sys2Proof

/-- The row of what was handed over delivers it. -/
theorem exec_row {s : State} {x : Handover} {c : Instr} (hx : s.rau.handover = some x) (hc : x.row = some c) :
    exec c s = .next (deliverPending s) := by
  cases x with
  | frame k h p =>
    cases k <;> simp only [Handover.row, Option.some.injEq, reduceCtorEq] at hc <;> subst hc <;>
      simp only [deliverPending, hx] <;>
      simp only [exec, execOpenFrame, execFinishFrame, execCancelFrame, execGrantFrame, execRefuseFrame,
        execTakenFrame, execResumeFrame, execBusyFrame, execHaltedFrame, execClosedFrame, hx] <;> rfl
  | block h c e => cases hc; simp only [deliverPending, exec, execBlockFrame, hx]
  | returned h => cases hc; simp only [deliverPending, exec, execReturnedFrame, hx]
  | roll h p => cases hc; simp only [deliverPending, exec, execRollFrame, hx]
  | ownRoll h p => cases hc; simp only [deliverPending, exec, execOwnBeacon, hx]

theorem delivered_handover {f : State → State} (hf : ∀ s, EngineStep s (f s)) (s : State) :
    (delivered f s).rau.handover = none := by
  unfold delivered
  split
  · rfl
  · exact (hf _).handedOver rfl

theorem deliverPending_handover (s : State) : (deliverPending s).rau.handover = none := by
  unfold deliverPending
  split
  · assumption
  · exact delivered_handover (frameReaches_engineStep _ _ _) s
  · exact delivered_handover (fun s => (blockEnds_portStep _ _ _ s).toEngineStep) s
  · exact delivered_handover (fun s => CoreStep.ofRun (returnedReaches_runStep _ s)) s
  · exact (rollReaches_coreStep _ _ _).handedOver rfl
  · exact (ownRollReaches_coreStep _ _).handedOver rfl

theorem decidePending_handover (s : State) : (decidePending s).rau.handover = s.rau.handover := by
  have h := decidePending_shape s
  unfold DecisionShape at h
  rw [h]

/-- After a header decision the frame in reception, if there still is one, is decided. -/
theorem decideHeader_decided (q : Reception) (s : State) {q' : Reception}
    (h : (decideHeader q s).rau.reception = some q') : q'.undecided = false := by
  unfold decideHeader at h
  dsimp only at h
  split at h
  · split at h
    · unfold enterPass at h
      dsimp only at h
      split at h
      · cases h; exact undecided_of_decision _ _ rfl
      · cases h
    · cases h; exact undecided_of_decision _ _ rfl
  · cases h; exact undecided_of_decision _ _ rfl

theorem decidePending_reception (s : State) {q : Reception} (h : (decidePending s).rau.reception = some q) :
    q.undecided = false := by
  unfold decidePending at h
  split at h
  · rename_i r hr
    split at h
    · exact decideHeader_decided r s h
    · rename_i hu
      rw [hr] at h; cases h
      simpa using hu
  · rename_i hr
    rw [hr] at h; cases h

/-- What `settle` leaves has nothing left to settle. -/
theorem settle_settle (s : State) : settle (settle s) = settle s := by
  have h : (settle s).rau.handover = none := (decidePending_handover _).trans (deliverPending_handover s)
  cases hr : (settle s).rau.reception with
  | none => exact settle_idle _ h hr
  | some q => exact settle_decided _ q h hr (decidePending_reception _ hr)

theorem settle_rx (s : State) : (settle s).rx = s.rx := by
  have h := decidePending_shape (deliverPending s)
  unfold DecisionShape at h
  rw [settle, h]
  exact (deliverPending_coreStep s).rx

theorem settle_resetLow (s : State) : (settle s).resetLow = s.resetLow := by
  have h := decidePending_shape (deliverPending s)
  unfold DecisionShape at h
  rw [settle, h]
  exact (deliverPending_coreStep s).resetLow

/-- A symbol in UP acts as on the settled state. -/
theorem exec_symbolInUp_settle (s : State) (sym : Symbol) (h : s.rx.state = .up) (hr : s.resetLow = false) :
    exec (.symbolInUp sym) s = exec (.symbolInUp sym) (settle s) := by
  rw [exec_symbolInUp s sym h hr,
    exec_symbolInUp (settle s) sym (by rw [settle_rx]; exact h) (by rw [settle_resetLow]; exact hr), takeInUp, takeInUp,
    settle_settle]

/-- The quiet timer's expiry acts as on the settled state. -/
theorem exec_quietTimerExpiry_settle (s : State) (h : s.rx.state ≠ .down) (hq : s.rx.quiet.isSome = true) :
    exec .quietTimerExpiry s = exec .quietTimerExpiry (settle s) := by
  rw [exec_quietTimerExpiry s h hq,
    exec_quietTimerExpiry (settle s) (by rw [settle_rx]; exact h) (by rw [settle_rx]; exact hq), settle_settle]

end Sys2Proof.Machine
end

