-- ==== Sys2Proof/Tests/Slice0.lean ====
section
/-! SUPPORT. Tests of the model on small states: the check functions against the manual's values, the WellFormed smoke,
one result of each command, and for every statement with hypotheses a witness that they can be met together. -/

namespace Sys2Proof.Tests

set_option Elab.async false

open Sys2Proof Sys2Proof.Machine

/-! ### Helpers -/

/-- What a command answers, seen through a test on the next state; false where it answers none. -/
def sees (i : Instr) (s : State) (p : State → Bool) : Bool :=
  match exec i s with
  | .next t => p t
  | .fault _ | .refused _ => false

/-- Station 3 of an eight-station ring, class 0, running with its link UP and station 5 PRESENT. -/
def live : State :=
  { State.reset with
    resetLow := false, straps := { stn := 3, rsz := 7, tcl := 0 },
    rx := { state := .up, run := 0, span := 5, errors := 0, quiet := some 400 },
    tx := { state := .run, startTimer := none }, ringOut := .carries .idle,
    peers := (State.reset.peers.set 3 { state := .self, heard := false }).set 5
      { state := .present 0 1 0 8, heard := true } }

/-- A run to port 2 of station 5 with tag 9: twenty blocks of 16 bytes from 0x100, one acknowledged, three sent. -/
def streaming : Run :=
  { phase := .streaming, tag := 9, dest := 5, port := 2, base := 256, size := 16, count := 20, window := 4,
    granted := some 4, taken := 1, sent := 3, digestIndex := 3, digest := 0x12345678, attempts := 1, timeouts := 2,
    owed := none, answer := some 7, probe := none, pause := none }

/-- The same run in OPENING. -/
def opening : Run :=
  { streaming with phase := .opening, granted := none, taken := 0, sent := 0, digestIndex := 0 }

/-- The same run in PAUSED. -/
def paused : Run := { streaming with phase := .paused, sent := 2, answer := none, probe := some 0, pause := some 9 }

/-- The same run in CLOSING. -/
def closing : Run := { streaming with phase := .closing, taken := 20, sent := 20, digestIndex := 20 }

/-- The same run in ENDING. -/
def ending : Run := { streaming with phase := .ending, answer := none, owed := some (.cancelled, none) }

/-- The part with a run in slot 2. -/
def withRun (r : Run) : State := setSlot 2 (some r) live

/-- The binding of a run from station 5 with tag 9: twenty blocks of 16 bytes, two accepted. -/
def binding : Binding :=
  { source := 5, tag := 9, size := 16, count := 20, granted := 2, accepted := 2, digest := 0x0BADCAFE,
    busyOwed := false, resumeSent := false }

/-- A port with two banks of four blocks of 32 bytes each, at 0x1000 and 0x2000. -/
def listening : OpenPort :=
  { maxSize := 32, maxWindow := 2, bankA := { base := 0x1000, capacity := 4, content := .free },
    bankB := { base := 0x2000, capacity := 4, content := .free }, mode := .listening, note := none }

/-- The port BOUND, bank A filling with two blocks. -/
def bound : OpenPort :=
  { listening with bankA := { base := 0x1000, capacity := 4, content := .filling binding.owner 2 },
                   mode := .bound binding (some .a) (some 100) }

/-- The port BOUND with both banks FULL. -/
def boundFull : OpenPort :=
  { listening with bankA := { base := 0x1000, capacity := 4, content := .full binding.owner 4 },
                   bankB := { base := 0x2000, capacity := 4, content := .full binding.owner 4 },
                   mode := .bound binding none (some 100) }

/-- The port HALTED. -/
def halted : OpenPort := { listening with mode := .halted }

/-- The part with port 1 as given. -/
def withPort (p : OpenPort) : State := setPort 1 (some p) live

/-- The part with something handed over. -/
def handed (h : Handover) (s : State) : State := setRau { s.rau with handover := some h } s

/-- A header from station 5 with tag 9 for this station. -/
def header (kind port seq : Byte) (len : Word16) : Header :=
  { dest := 3, src := 5, kind := kind, flags := 0, hops := 6, port := port, tag := 9, seq := seq, len := len, check := 0 }

/-- The part with a reply for slot 2 handed over. -/
def replied (k : Kind) (seq : Byte) (payload : List Byte) (r : Run) : State :=
  handed (.frame k (header k.code 2 seq 0) payload) (withRun r)

/-- Twelve header bytes with a good header check, from station `src`. -/
def headerBytes (dest src kind flags hops port seq : Byte) (len : Word16) : List Byte :=
  [dest, src, kind, flags, hops, port, 9, seq] ++ bytes16 len ++
    bytes16 (crc16 ([dest, src, kind, port, 9, seq] ++ bytes16 len))

/-- A frame in reception with its twelve header bytes and no decision. -/
def waiting (bs : List Byte) : Reception := { header := bs, decision := none, count := 12, body := [] }

/-- A frame in reception with a decision. -/
def decided (d : Decision) (bs : List Byte) (count : Nat) (body : List Byte) : Reception :=
  { header := bs, decision := some d, count := count, body := body }

/-- The part with a frame in reception. -/
def receives (q : Reception) (s : State) : State := setReception q s

/-- The part with a command record at the FIFO's head. -/
def taking (r : List Byte) (s : State) : State := { s with commandFifo := [r] }

/-- A SILENT part. -/
def silent (s : State) : State := { s with rollCall := { s.rollCall with silent := true } }

/-- The part with a BLOCK of slot 2 being inserted. -/
def inserting (s : State) : State := setRau { s.rau with output := .inserting (some (2, 1)) [] } s

/-- The part with the Local Port as given. -/
def onBus (p : LocalPort) (s : State) : State := setSpi p s

/-! ### The check functions (R7 to R9) and the syntax -/

/-- The manual's check string "123456789". -/
def checkString : List Byte := [0x31, 0x32, 0x33, 0x34, 0x35, 0x36, 0x37, 0x38, 0x39]

theorem test_headerCheck : crc16 checkString = 0x29B1 := by decide +kernel

theorem test_payloadCheck : crc32 checkString = 0xCBF43926 := by decide +kernel

theorem test_digestOfTwoBlocks : crc32 checkString = ~~~(digestFold (digestFold digestStart [0x31, 0x32, 0x33])
    [0x34, 0x35, 0x36, 0x37, 0x38, 0x39]) := by decide +kernel

theorem test_wf_ignored : (Instr.transactionIgnored 0xC0).wf = true ∧ (Instr.transactionIgnored 0xC6).wf = true := by
  decide

theorem test_illFormed_commandCode : (Instr.transactionIgnored 0xC1).wf = false := by decide

theorem test_illFormed_inspectCode : (Instr.transactionIgnored 0xC5).wf = false := by decide

theorem test_noWordSpellsACommand : decodeTableWord 8 0xC1 = none ∧ State.reset.withFetchWord 8 0xC1 = State.reset := by
  decide +kernel

theorem test_headerLayout : headerOf (headerBytes 3 5 0x10 0x81 6 1 2 0x0123) =
    { dest := 3, src := 5, kind := 0x10, flags := 0x81, hops := 6, port := 1, tag := 9, seq := 2, len := 0x0123,
      check := crc16 [3, 5, 0x10, 1, 9, 2, 0x01, 0x23] } := by decide +kernel

theorem test_snapshotLengths : (globalSnapshot live).length = 32 ∧ (slotSnapshot 2 (withRun streaming)).length = 32 ∧
    (portSnapshot 1 (withPort bound)).length = 32 ∧ (peerSnapshot 5 live).length = 32 := by decide +kernel

theorem test_recordBytes : (Record.bankFull 1 .b 0x12340 7 true 5 9).bytes =
    [0x03, 1, 1, 0x01, 0x23, 0x40, 7, 1, 5, 9, 0, 0, 0, 0, 0, 0] := by decide +kernel

/-! ### Resets and the link -/

theorem test_reset_asserted : exec .resetNAsserted { live with refclk := 77 } = .next { State.reset with refclk := 77 } :=
  rfl

theorem test_reset_released : sees (.resetNReleased 3 7 0 true) State.reset (fun t =>
    t.tx.startTimer = some 3200 && t.spi.waitRise && t.peers[3].state = .self && t.peers[5].state = .absent) = true := by
  decide +kernel

theorem test_start_period : sees .startPeriodExpiry
    { live with tx := { state := .start, startTimer := some 0 }, refclk := 0xABCD } (fun t =>
    t.rau.controlQueue.map OwnFrame.payload = [[8, 0, 0, 0, 0xAB, 0xCD, 0, 0]] && t.rollCall.number = 1 &&
      t.rollCall.timer = some 100000) = true := by decide +kernel

theorem test_start_period_silent : sees .startPeriodExpiry
    (silent { live with tx := { state := .start, startTimer := some 0 }, refclk := 0xABCD }) (fun t =>
    t.rau.controlQueue = [] && t.rollCall.number = 0 && t.rollCall.stamp = none && t.rollCall.inFlight = none &&
      t.rollCall.timer = some 100000) = true := by decide +kernel

theorem test_symbolInDown : sees (.symbolInDown .idle) { live with rx := Receiver.reset } (fun t =>
    t.rx = { state := .align, run := 1, span := 1, errors := 0, quiet := some 400 }) = true := by decide +kernel

theorem test_symbolInAlign : sees (.symbolInAlign .idle)
    { live with rx := { state := .align, run := 31, span := 1023, errors := 7, quiet := some 1 } } (fun t =>
    t.rx = { state := .up, run := 0, span := 0, errors := 0, quiet := some 400 } && t.log = [.linkUp]) = true := by
  decide +kernel

theorem test_symbolInUp_codeErrors : sees (.symbolInUp .invalid)
    { live with rx := { live.rx with errors := 7 } } (fun t => t.rx = Receiver.reset && t.log = [.linkDown]) = true := by
  decide +kernel

theorem test_quietTimer : sees .quietTimerExpiry live (fun t => t.rx = Receiver.reset && t.log = [.linkDown]) = true := by
  decide +kernel

/-! ### The Ring Access Unit -/

theorem test_headerDecision_forward : sees .headerDecision
    (receives (waiting (headerBytes 4 5 0x41 0 6 2 1 0)) (setRau { live.rau with marking := true } live)) (fun t =>
    t.rau.passFifo.map (fun f => f.bytes.take 6) = [[4, 5, 0x41, 0x83, 5, 2]]) = true := by decide +kernel

theorem test_headerDecision_block : sees .headerDecision
    (receives (waiting (headerBytes 3 5 0x10 0 6 1 2 16)) (withPort bound)) (fun t =>
    t.rau.reception.bind (fun q => q.decision) =
      some (.strip (.block (.expected { target := 0x1020, limit := 16, written := 0, trial := 0x0BADCAFE })))) = true := by
  decide +kernel

theorem test_forwardStart : sees .forwardStart
    (setRau { live.rau with gap := 1, passFifo := [{ bytes := [1], ended := none }] } live) (fun t =>
    t.rau.output = .forwarding [.idle, .sof]) = true := by decide +kernel

theorem test_forwardEnd : sees .forwardEnd
    (setRau { live.rau with output := .forwarding [], passFifo := [{ bytes := [], ended := some .abort }] } live) (fun t =>
    t.rau.output = .free && t.ringOut = .carries .abort && t.rau.passFifo = []) = true := by decide +kernel

theorem test_insertionStart : sees .insertionStart
    (setRau { live.rau with dataQueue := [{ slot := 2, index := 3 }], marking := true } (withRun streaming)) (fun t =>
    t.rau.dataQueue = [] && !t.rau.marking && beingInserted 2 t &&
      (t.slots[2].map fun r => r.digestIndex) = some 4 &&
      (t.slots[2].map fun r => r.digest) = some (digestFold 0x12345678 (List.replicate 16 0))) = true := by
  decide +kernel

theorem test_insertionEnd : sees .insertionEnd (inserting (withRun ending)) (fun t =>
    t.slots[2] = none && t.log = [.runEnd 2 9 5 2 1 .cancelled none] && t.ringOut = .carries .eof) = true := by
  decide +kernel

theorem test_dataQueueGrant : sees .dataQueueGrant (withRun streaming) (fun t =>
    t.rau.dataQueue = [{ slot := 2, index := 3 }] && t.rrPointer = 2 && t.rau.threshold = some 5000 &&
      (t.slots[2].map fun r => r.sent) = some 4) = true := by decide +kernel

theorem test_yieldTimers : sees .yieldThresholdExpiry (setRau { live.rau with threshold := some 0 } live)
      (fun t => t.rau.marking && t.rau.threshold = none) = true ∧
    sees .yieldHoldExpiry (setRau { live.rau with holdTimer := some 0, inHold := true } live)
      (fun t => !t.rau.inHold) = true := by decide +kernel

/-! ### The Port Engine -/

theorem test_open : sees .openFrame
    (handed (.frame .open_ (header 0x21 1 0 6) [0, 32, 0, 9, 4, 0]) (withPort listening)) (fun t =>
    t.rau.controlQueue = [{ dest := 5, kind := .grant, port := 1, tag := 9, seq := 0, payload := [2] }] &&
      (t.ports[1].map fun p => p.bankA.content) = some (.filling { source := 5, tag := 9, size := 32 } 0)) = true := by
  decide +kernel

theorem test_block : sees .blockFrame (handed (.block (header 0x10 1 2 16)
      (.expected { target := 0x1020, limit := 16, written := 16, trial := 5 }) .intact) (withPort bound)) (fun t =>
    t.rau.controlQueue = [{ dest := 5, kind := .taken, port := 1, tag := 9, seq := 2, payload := [] }] &&
      (t.ports[1].map fun p => p.bankA.content) = some (.filling binding.owner 3)) = true := by decide +kernel

theorem test_finish : sees .finishFrame (handed (.frame .finish (header 0x22 1 0 6) [0xF4, 0x52, 0x35, 0x01, 0, 2])
      (withPort { bound with mode := .bound { binding with count := 2 } (some .a) (some 1) })) (fun t =>
    t.log = [.bankFull 1 .a 0x1000 2 true 5 9, .portRunEnd 1 5 9 2 .matched] &&
      t.rau.controlQueue = [{ dest := 5, kind := .closed, port := 1, tag := 9, seq := 0, payload := [0, 0, 0, 2] }]) =
    true := by decide +kernel

theorem test_cancelFrame : sees .cancelFrame (handed (.frame .cancel (header 0x23 1 0 0) []) (withPort bound)) (fun t =>
    t.log = [.bankFull 1 .a 0x1000 2 true 5 9, .portRunEnd 1 5 9 2 .cancelledByPeer]) = true := by decide +kernel

theorem test_idleTimer : sees (.idleTimerExpiry 1) (withPort boundFull) (fun t =>
    t.log = [.portRunEnd 1 5 9 2 .abandoned] && (t.ports[1].map fun p => p.mode) = some .listening) = true := by
  decide +kernel

/-! ### The Run Engine -/

theorem test_grant : sees .grantFrame (replied .grant 0 [9] opening) (fun t =>
    (t.slots[2].map fun r => (r.phase, r.granted, r.answer)) = some (.streaming, some 4, none)) = true := by decide +kernel

theorem test_refuse : sees .refuseFrame (replied .refuse 0 [3] opening) (fun t =>
    t.slots[2] = none && t.log = [.runEnd 2 9 5 2 0 .refused (some 3)]) = true := by decide +kernel

theorem test_taken : sees .takenFrame (replied .taken 2 [] streaming) (fun t =>
    (t.slots[2].map fun r => (r.taken, r.timeouts, r.answer)) = some (3, 0, none)) = true := by decide +kernel

theorem test_resume : sees .resumeFrame (replied .resume 2 [] streaming) (fun t =>
    (t.slots[2].map fun r => (r.taken, r.sent, r.timeouts)) = some (2, 2, 0)) = true := by decide +kernel

theorem test_busy : sees .busyFrame (replied .busy 1 [] streaming) (fun t =>
    (t.slots[2].map fun r => (r.phase, r.sent, r.probe, r.pause)) = some (.paused, 1, some 25000, some 800000)) = true := by
  decide +kernel

theorem test_halted : sees .haltedFrame (replied .halted 0 [1] paused) (fun t =>
    t.slots[2] = none && t.log = [.runEnd 2 9 5 2 1 .haltedByPeer (some 1)]) = true := by decide +kernel

theorem test_closed : sees .closedFrame (replied .closed 0 [0, 0, 0, 20] closing) (fun t =>
    t.slots[2] = none && t.log = [.runEnd 2 9 5 2 20 .done none]) = true := by decide +kernel

theorem test_returned : sees .returnedFrame
    (handed (.returned { header 0x21 2 0 6 with dest := 5, src := 3 }) (withRun opening)) (fun t =>
    t.log = [.runEnd 2 9 5 2 0 .undelivered none]) = true := by decide +kernel

theorem test_answerExpiries : sees (.answerExpiryOpening 2) (withRun opening) (fun t =>
      t.rau.controlQueue.map OwnFrame.payload = [[0, 16, 0, 20, 4, 0]]) = true ∧
    sees (.answerExpiryStreaming 2) (withRun streaming) (fun t =>
      (t.slots[2].map fun r => (r.sent, r.timeouts)) = some (1, 3)) = true ∧
    sees (.answerExpiryClosing 2) (withRun { closing with attempts := 4 }) (fun t =>
      t.log = [.runEnd 2 9 5 2 20 .closeUnconfirmed none]) = true := by decide +kernel

theorem test_pauseTimers : sees (.probeTimerExpiry 2) (withRun paused) (fun t =>
      t.rau.dataQueue = [{ slot := 2, index := 1 }]) = true ∧
    sees (.pauseTimerExpiry 2) (withRun paused) (fun t => t.log = [.runEnd 2 9 5 2 1 .stalled none]) = true := by
  decide +kernel

/-! ### The Roll Call Unit -/

theorem test_roll : sees .rollFrame (handed (.roll { header 0x70 0 0 8 with dest := 0xFF, src := 6 }
      [9, 1, 0, 2, 0, 0, 0, 0]) live) (fun t =>
    t.log = [.peerFound 6, .classMismatch 6 1, .sizeMismatch 6 9] && t.peers[6].state = .present 0 2 1 9) = true := by
  decide +kernel

theorem test_ownBeacon : sees .ownBeacon (handed (.ownRoll (header 0x70 0 0 8) [8, 0, 0, 4, 0, 0, 0, 0])
      { live with rollCall := { live.rollCall with stamp := some 0, misses := 3, ringOpen := true,
                                                    inFlight := some { number := 4, sent := true, returned := false } } })
    (fun t => t.log = [.ringClosed] && t.rollCall.misses = 0 && !t.rollCall.ringOpen) = true := by decide +kernel

theorem test_beaconPeriod : sees .beaconPeriodExpiry
    { live with rollCall := { live.rollCall with timer := some 0, stamp := some 7, misses := 2,
                                                  inFlight := some { number := 4, sent := true, returned := false } } }
    (fun t => t.log = [.ringOpen] && t.rollCall.misses = 3 && t.rau.controlQueue.length = 1) = true := by decide +kernel

/-! ### Commands of the local controller -/

theorem test_startRun : sees .startRun (taking [0x01, 2, 5, 1, 0, 0x40, 0, 0, 32, 0, 9, 4, 0, 0, 0, 0] live) (fun t =>
    (t.slots[2].map fun r => (r.base, r.size, r.count)) = some (0x4000, 32, 9) && t.tagCounter = 1 &&
      t.rau.controlQueue.map OwnFrame.payload = [[0, 32, 0, 9, 4, 0]]) = true := by decide +kernel

theorem test_cancelRun : sees .cancelRun (taking [0x02, 2, 0, 0, 0, 0, 0, 0, 0, 0, 0, 0, 0, 0, 0, 0] (withRun streaming))
    (fun t => t.log = [.runEnd 2 9 5 2 1 .cancelled none]) = true := by decide +kernel

theorem test_openPort : sees .openPort (taking [0x03, 1, 0, 32, 2, 0, 0x10, 0, 4, 0, 0x20, 0, 4, 0, 0, 0] live) (fun t =>
    t.ports[1] = some listening && t.log = []) = true := by decide +kernel

theorem test_releaseBank : sees .releaseBank
    (taking [0x04, 1, 0x03, 0, 0x30, 0, 0, 0, 0, 0, 0, 0, 0, 0, 0, 0] (withPort boundFull)) (fun t =>
    (t.ports[1].map fun p => p.bankB) = some { base := 0x3000, capacity := 4, content := .filling binding.owner 0 }) =
    true := by decide +kernel

theorem test_portCommands : sees .haltPort (taking (5 :: 1 :: List.replicate 14 0) (withPort bound)) (fun t =>
      (t.ports[1].map fun p => p.mode) = some .halted && t.log.length = 2) = true ∧
    sees .unhaltPort (taking (6 :: 1 :: List.replicate 14 0) (withPort halted)) (fun t => t.ports[1] = some listening) =
      true ∧
    sees .closePort (taking (7 :: 1 :: List.replicate 14 0) (withPort bound)) (fun t =>
      t.ports[1] = none && t.log = [.portRunEnd 1 5 9 2 .closedLocally]) = true := by decide +kernel

theorem test_softReset : sees .softReset (taking (8 :: List.replicate 15 0) (inserting (withRun streaming))) (fun t =>
    t.log = [.softResetDone] && (t.slots[2].map fun r => (r.phase, r.owed)) = some (.ending, none)) = true := by
  decide +kernel

theorem test_unknownCommand : sees .unknownCommand (taking (9 :: 7 :: List.replicate 14 0) live) (fun t =>
    t.log = [.cmdRejected 9 7 .badCommand] && t.commandFifo = []) = true := by decide +kernel

/-! ### The Local Port -/

theorem test_command : sees (.command (List.replicate 17 6)) live (fun t => t.commandFifo = [List.replicate 16 6]) = true ∧
    sees (.command (List.replicate 15 6)) live (fun t => t.commandFifo = []) = true := by decide +kernel

theorem test_logRead : sees .logRead { live with log := [.linkUp, .linkDown] } (fun t =>
      t.spi.outgoing = 0x90 :: 0x0C :: List.replicate 15 0 && t.logCopied = some .linkUp) = true ∧
    sees .logReadDone { onBus { LocalPort.reset with kind := some .logRead, bytes := 1 } live with
        log := [.linkUp, .linkDown], logCopied := some .linkUp } (fun t => t.log = [.linkDown]) = true := by decide +kernel

theorem test_memWrite : sees (.memWrite 0x1FFFF 1) live (fun t => t.spi.verdict = some .accepted) = true ∧
    sees (.memWrite 0x1000 1) (withPort bound) (fun t => t.spi.verdict = some .fenced) = true ∧
    sees (.memWriteData 0xAA) (onBus
        { LocalPort.reset with
          kind := some .memWrite, addr := 0x1FFFE, len := 2, verdict := some .accepted, moved := 1 } live)
      (fun t => t.mem = [(0x1FFFF, 0xAA)] && t.spi.outgoing = [0]) = true ∧
    sees .memWriteClose (onBus { LocalPort.reset with kind := some .memWrite } live) (fun t => t.spi = LocalPort.reset) =
      true := by decide +kernel

theorem test_memRead : sees (.memRead 0x1FFFF 2) live (fun t => t.spi.verdict = some .range) = true ∧
    sees .memReadData (onBus { LocalPort.reset with kind := some .memRead, addr := 4, len := 1, verdict := some .accepted }
        { live with mem := [(4, 0x5A)] }) (fun t => t.spi.outgoing = [0x5A]) = true := by decide +kernel

theorem test_inspect : sees (.inspect 3 5) live (fun t => t.spi.outgoing.take 11 =
      [0x10, 0, 0, 0xB5, 1, 0, 3, 0, 1, 0, 8]) = true ∧
    sees (.transactionIgnored 0xC0) live (fun t => t.spi.phase = .ignore) = true ∧
    sees .transactionEnd (onBus { LocalPort.reset with phase := .ignore, waitRise := true } live)
      (fun t => t.spi = LocalPort.reset) = true := by decide +kernel

/-! ### A tick -/

theorem test_tick : (match step { live with pending := [], refclk := 1 } with
    | .next t => t.refclk = 2 && t.ringOut = .carries .idle && t.rx.quiet = some 399
    | .fault _ | .refused _ => false) = true := by decide +kernel

/-- The levels that clock a byte in, most significant bit first, with CS_N low: SCK low, then high, for each bit. -/
def clocked (b : Byte) : List BusLevels :=
  ([7, 6, 5, 4, 3, 2, 1, 0] : List Nat).flatMap fun i =>
    [{ csLow := true, sck := false, sdi := b.getLsbD i }, { csLow := true, sck := true, sdi := b.getLsbD i }]

/-- The pins driven through these levels, period by period. -/
def driven (l : List BusLevels) (s : State) : State := l.foldl (fun s x => busPeriod x s) s

theorem test_pins_code : (let s := driven ({ csLow := true, sck := false, sdi := false } :: clocked 0xC3) live
    s.spi.kind = some .memWrite ∧ s.memWriteOpen = true ∧ s.spi.bytes = 1 ∧ s.spi.outgoing.head? = some 0x10 ∧
      s.pending = []) := by decide +kernel

theorem test_pins_window :
    let p : LocalPort := { LocalPort.reset with csLow := true, sck := true, phase := .body, kind := some .memRead,
                                                bytes := 3, addr := 0x0102, outgoing := [0x10, 0, 0, 0] }
    (driven (clocked 0x40 ++ clocked 0x00 ++ clocked 0x08) (onBus p live)).pending = [.memRead 0x010240 8] := by
  decide +kernel

theorem test_pins_rise : (busPeriod { csLow := false, sck := true, sdi := false }
    (onBus { LocalPort.reset with csLow := true, phase := .body, kind := some .command, record := [8, 0] } live)).pending =
    [.command [8, 0]] := by decide +kernel

theorem test_tick_forwardEnd :
    let s := setRau { live.rau with output := .forwarding [], passFifo := [{ bytes := [], ended := some .eof }] } live
    (tick { s with refclk := 1 }).pending = [.forwardEnd] ∧ (tick s).pending = [] := by decide +kernel

/-! ### Witnesses: the hypotheses of each statement can be met, clause by clause -/

theorem test_witness_EmptyQueueStepTicks : (withPort bound).pending = [] ∧
    (withPort bound).ports[(1 : Fin 8)] = some bound ∧ bound.mode = .bound binding (some .a) (some 100) := by
  decide +kernel

theorem not_bound_listening : ∀ p b current idle, (withPort listening).ports[(1 : Fin 8)] = some p →
    p.mode ≠ .bound b current idle := by
  intro p b current idle h
  have h' : (withPort listening).ports[(1 : Fin 8)] = some listening := by decide +kernel
  rw [h'] at h
  cases h
  simp [listening]

theorem not_bindsTo_listening : ∀ i : Fin 8, i.val = 1 → ¬bindsTo (withPort listening).ports[i] 5 9 := by
  intro i hi ⟨p, b, current, idle, hp, hm, _, _⟩
  have : i = 1 := Fin.ext hi
  subst this
  exact not_bound_listening p b current idle hp hm

theorem test_witness_EmptyQueueStepTicks_notBound : (withPort listening).pending = [] ∧
    ∀ p b current idle, (withPort listening).ports[(1 : Fin 8)] = some p → p.mode ≠ .bound b current idle :=
  ⟨rfl, not_bound_listening⟩

/-- The part in RUN at the REFCLK period of a symbol time, with this output and this pass FIFO. -/
def sending (out : Output) (pass : List PassFrame) : State :=
  setRau { live.rau with output := out, passFifo := pass } { live with refclk := 1 }

theorem test_witness_EmptyQueueStepTicks_sends :
    let sends (s : State) : Prop := s.pending = [] ∧ (s.refclk + 1).getLsbD 0 = false
    (¬sends live ∧ live.pending = [] ∧ State.reset.tx.state = .held) ∧
    (let s := { sending .free [] with tx := { state := .start, startTimer := some 1 } }
     sends s ∧ s.tx.state = .start) ∧
    (sends (sending .free []) ∧ (sending .free []).tx.state = .run ∧ (sending .free []).rau.output = .free) ∧
    (let s := sending (.forwarding [.idle, .sof]) [{ bytes := [1], ended := none }]
     sends s ∧ s.tx.state = .run ∧ s.rau.output = .forwarding [.idle, .sof]) ∧
    (let next (f : PassFrame) : Prop :=
       let s := sending (.forwarding []) [f]
       sends s ∧ s.tx.state = .run ∧ s.rau.output = .forwarding [] ∧ s.rau.passFifo = f :: []
     next { bytes := [1], ended := none } ∧ next { bytes := [], ended := some .eof } ∧
       next { bytes := [], ended := none }) ∧
    (let s := sending (.inserting none [.sof]) []
     sends s ∧ s.tx.state = .run ∧ s.rau.output = .inserting none [.sof]) ∧
    (let s := sending (.inserting (some (2, 1)) []) []
     sends s ∧ s.tx.state = .run ∧ s.rau.output = .inserting (some (2, 1)) []) := by decide +kernel

theorem test_witness_EmptyQueueStepTicks_drive : live.pending = [] ∧ live.drive = [] ∧
    ({ live with drive := [{ csLow := true, sck := false, sdi := false }] } : State).drive =
      [{ csLow := true, sck := false, sdi := false }] := by decide +kernel

theorem test_witness_CommandsKeepTheQueue : exec .transactionEnd live = .next live := rfl

theorem test_witness_HardwareReset : State.reset.resetLow = true ∧ live.resetLow = false := by decide

theorem test_witness_FirstBeacon :
    let s := { live with tx := { state := .start, startTimer := some 0 } }
    s.tx.state = .start ∧ s.tx.startTimer.isSome ∧ s.rollCall.silent = false ∧
    (silent s).tx.state = .start ∧ (silent s).rollCall.silent = true := by decide +kernel

/-- The receiver in ALIGN. -/
def aligning (run span errors : Nat) : State :=
  { live with rx := { state := .align, run := run, span := span, errors := errors, quiet := some 1 } }

theorem test_witness_ReceiverTrains :
    ({ live with rx := Receiver.reset } : State).rx.state = .down ∧ live.resetLow = false ∧
    ((aligning 0 1023 7).rx.state = .align ∧ (aligning 0 1023 7).rx.run < 32 ∧ (aligning 0 1023 7).rx.span < 1024 ∧
      (aligning 0 1023 7).rx.errors < 8 ∧ (aligning 0 1023 7).rx.errors + 1 = 8) ∧
    ((aligning 30 0 6).rx.run + 1 < 32 ∧ (aligning 30 0 6).rx.errors + 1 < 8) ∧
    ((aligning 31 1022 0).rx.run < 32 ∧ (aligning 31 1022 0).rx.run + 1 = 32) := by decide +kernel

theorem test_witness_ReceiverInUpAndLinkLoss :
    (live.rx.state = .up ∧ live.rx.span < 1024 ∧ live.rx.errors + 1 < 8 ∧ live.rau.reception = none ∧
      live.receiving ∧ live.rx.quiet.isSome ∧ live.rau.handover = none) ∧
    (let s := receives newReception live
     s.rx.state = .up ∧ s.rx.span < 1024 ∧ s.rx.errors + 1 < 8 ∧ s.rau.reception = some newReception) ∧
    (let s := { live with rx := { live.rx with span := 1023, errors := 7 } }
     s.rx.span < 1024 ∧ s.rx.errors < 8 ∧ s.rx.errors + 1 = 8 ∧ s.rau.reception = none) ∧
    ((aligning 31 1023 7).rx.quiet.isSome ∧ (aligning 31 1023 7).rau.handover = none ∧
      (aligning 31 1023 7).rau.reception = none) := by decide +kernel

/-- The pass FIFO with one frame of `n` bytes. -/
def passing (n : Nat) (ended : Option FrameEnd) (s : State) : State :=
  setRau { s.rau with passFifo := [{ bytes := List.replicate n 0, ended := ended }] } s

theorem test_witness_FrameReception :
    live.receiving ∧ live.rau.reception = none ∧
    (let q := { newReception with header := List.replicate 11 0, count := 11 }
     (receives q live).receiving ∧ (receives q live).rau.reception = some q ∧ q.decision = none ∧
       q.header.length < 12 ∧ (receives q live).rx.quiet.isSome) ∧
    (let q := decided .forward (List.replicate 12 0) 12 []
     let s := receives q (passing 1103 none live)
     s.receiving ∧ s.rau.reception = some q ∧ q.decision = some .forward ∧ s.rau.passBytes < 1104 ∧
       s.rau.passFifo = [] ++ [{ bytes := List.replicate 1103 0, ended := none }] ∧ s.rx.quiet.isSome) ∧
    1104 ≤ (receives (decided .forward (List.replicate 12 0) 12 []) (passing 1104 none live)).rau.passBytes := by
  decide +kernel

theorem test_witness_FrameReception_decided :
    let bs := headerBytes 3 5 0x10 0 6 2 0 16
    let meets (q : Reception) (d : Decision) (pass : Nat) : Prop :=
      let s := receives q (passing pass none live)
      s.receiving ∧ s.rau.reception = some q ∧ q.decision = some d ∧ s.rx.quiet.isSome ∧
        s.rau.passFifo = [] ++ [{ bytes := List.replicate pass 0, ended := none }]
    meets (decided .drop bs 12 []) .drop 0 ∧ meets (decided (.copy false) bs 12 []) (.copy false) 0 ∧
    meets (decided .forward bs 12 []) .forward 20 ∧ meets (decided (.copy true) bs 12 []) (.copy true) 20 ∧
    (let s := receives (decided (.copy true) bs 12 []) (passing 1103 none live)
     s.rau.passBytes < 1104) ∧
    1104 ≤ (receives (decided (.copy true) bs 12 []) (passing 1104 none live)).rau.passBytes ∧
    (meets (decided (.strip .returned) bs 1039 []) (.strip .returned) 0 ∧ 1039 + 1 < 1041) ∧
    (meets (decided (.strip (.block .ahead)) bs 1040 []) (.strip (.block .ahead)) 0 ∧ 1041 ≤ 1040 + 1) ∧
    meets (decided (.strip .discarded) bs 12 []) (.strip .discarded) 0 := by decide +kernel

theorem test_witness_BankWriterByte :
    let q (written count : Nat) := decided
      (.strip (.block (.expected { target := 0x1FFF0, limit := 16, written := written, trial := 0 })))
      (List.replicate 12 0) count []
    ((receives (q 15 27) live).receiving ∧ (receives (q 15 27) live).rau.reception = some (q 15 27) ∧
      (receives (q 15 27) live).mem.wf = true ∧ 27 + 1 < 1041 ∧ 15 < 16 ∧ 0x1FFF0 + 15 < 131072) ∧
    ((q 16 1039).count + 1 < 1041 ∧ 16 ≤ 16) ∧ 1041 ≤ (q 16 1040).count + 1 := by decide +kernel

theorem test_witness_FrameEndHandsOver_control :
    let q := decided (.strip .control) (headerBytes 3 5 0x31 0 6 2 0 1) 17 (7 :: bytes32 (crc32 [7]))
    (receives q live).receiving ∧ (receives q live).rau.reception = some q ∧
    kindOf (headerOf q.header).kind = some .grant ∧ (headerOf q.header).src.toNat < 16 ∧
    (headerOf q.header).src ≠ live.own ∧ (Kind.grant.readsSeq = true → (headerOf q.header).seq.toNat < 8) ∧
    Kind.grant.requiredLen = some (headerOf q.header).len.toNat ∧
    q.count = (if (headerOf q.header).len.toNat = 0 then 12 else 16 + (headerOf q.header).len.toNat) ∧
    word32At q.body 1 = crc32 (q.body.take 1) := by decide +kernel

theorem test_witness_FrameEndHandsOver_tests :
    kindOf (headerOf (headerBytes 3 5 0x70 0 6 2 0 8)).kind = some .roll ∧
    16 ≤ (headerOf (headerBytes 3 16 0x41 0 6 2 0 0)).src.toNat ∧
    (headerOf (headerBytes 3 3 0x41 0 6 2 0 0)).src = live.own ∧
    (Kind.taken.readsSeq = true ∧ 8 ≤ (headerOf (headerBytes 3 5 0x41 0 6 2 8 0)).seq.toNat) ∧
    Kind.taken.requiredLen ≠ some (headerOf (headerBytes 3 5 0x41 0 6 2 7 1)).len.toNat ∧
    (decided (.strip .control) (headerBytes 3 5 0x41 0 6 2 7 0) 13 [0]).count ≠ 12 ∧
    kindOf (headerOf (headerBytes 3 5 0x11 0 6 2 0 0)).kind = none := by decide +kernel

/-- A ROLL's eight payload bytes and their check. -/
def rollBody : List Byte := [8, 0, 0, 1, 0, 7, 0, 0] ++ bytes32 (crc32 [8, 0, 0, 1, 0, 7, 0, 0])

theorem test_witness_FrameEndHandsOver_roll :
    let whole (d : Decision) : Prop :=
      let q := decided d (headerBytes 0xFF 15 0x70 0 6 0 0 8) 24 rollBody
      let s := receives q (passing 20 none live)
      s.receiving ∧ s.rau.reception = some q ∧ (headerOf q.header).kind = 0x70 ∧ (headerOf q.header).src.toNat < 16 ∧
        (headerOf q.header).len = 8 ∧ q.count = 16 + (headerOf q.header).len.toNat ∧
        word32At q.body 8 = crc32 (q.body.take 8) ∧
        s.rau.passFifo = [] ++ [{ bytes := List.replicate 20 0, ended := none }]
    (whole (.copy false) ∧ whole (.copy true) ∧ whole (.strip .ownBeacon) ∧ whole (.strip .returned) ∧
      whole (.strip (.block .ahead))) ∧
    (headerOf (headerBytes 0xFF 15 0x41 0 6 0 0 8)).kind ≠ 0x70 ∧
    (decided (.strip (.block .ahead)) (headerBytes 3 5 0x10 0 6 0 0 16) 31 []).count ≠
      16 + (headerOf (headerBytes 3 5 0x10 0 6 0 0 16)).len.toNat := by decide +kernel

theorem test_witness_FrameEndHandsOver_fails :
    let bs (kind : Byte) (len : Word16) := headerBytes 0xFF 3 kind 0 6 0 0 len
    let meets (d : Decision) (bs : List Byte) : Prop :=
      let q := decided d bs 24 rollBody
      let s := receives q (passing 20 none live)
      s.receiving ∧ s.rau.reception = some q ∧ q.decision = some d ∧
        s.rau.passFifo = [] ++ [{ bytes := List.replicate 20 0, ended := none }]
    (meets (.strip .ownBeacon) (bs 0x41 8) ∧ (headerOf (bs 0x41 8)).kind ≠ 0x70) ∧
    (meets (.strip .ownBeacon) (bs 0x70 9) ∧ (headerOf (bs 0x70 9)).len ≠ 8) ∧
    (meets (.copy true) (bs 0x70 9) ∧ (headerOf (bs 0x70 9)).len ≠ 8) ∧
    (decided (.copy true) (bs 0x70 8) 23 rollBody).count ≠ 16 + (headerOf (bs 0x70 8)).len.toNat ∧
    meets .drop (bs 0x70 8) ∧ meets (.strip .discarded) (bs 0x10 16) := by decide +kernel

/-- The part with twelve header bytes waiting for their decision. -/
def at12 (bs : List Byte) : State := receives (waiting bs) live

theorem test_witness_HeaderDecisionTable :
    ((at12 (List.replicate 12 0)).waits (waiting (List.replicate 12 0)) ∧ ¬(headerOf (List.replicate 12 0)).intact) ∧
    (let bs := headerBytes 16 5 0x41 0 6 2 0 0
     (at12 bs).waits (waiting bs) ∧ 16 ≤ (headerOf bs).dest.toNat ∧ (headerOf bs).dest ≠ 0xFF) ∧
    (let bs := headerBytes 254 5 0x41 0 6 2 0 0
     16 ≤ (headerOf bs).dest.toNat ∧ (headerOf bs).dest ≠ 0xFF) ∧
    (let bs := headerBytes 3 5 0x41 0 6 2 0 0
     (at12 bs).waits (waiting bs) ∧ (headerOf bs).intact ∧ (headerOf bs).dest = (at12 bs).own ∧
       (headerOf bs).kind ≠ 0x10) ∧
    (let bs := headerBytes 3 16 0x10 0 6 2 0 16
     (headerOf bs).intact ∧ (headerOf bs).dest = (at12 bs).own ∧ (headerOf bs).kind = 0x10 ∧
       16 ≤ (headerOf bs).src.toNat) ∧
    (headerOf (headerBytes 3 3 0x10 0 6 2 0 16)).src = live.own ∧
    8 ≤ (headerOf (headerBytes 3 5 0x10 0 6 2 8 16)).seq.toNat ∧ (silent live).rollCall.silent = true ∧
    (let bs := headerBytes 0xFF 3 0x70 0 6 0 0 8
     (headerOf bs).intact ∧ (headerOf bs).dest = 0xFF ∧ (headerOf bs).src = (at12 bs).own) ∧
    (let bs := headerBytes 0xFF 5 0x70 0 1 0 0 8
     (headerOf bs).intact ∧ (headerOf bs).dest = 0xFF ∧ (headerOf bs).src ≠ (at12 bs).own ∧
       (headerOf bs).hops.toNat < 2) ∧
    (let bs := headerBytes 15 3 0x41 0 6 0 0 0
     (headerOf bs).intact ∧ (headerOf bs).dest.toNat < 16 ∧ (headerOf bs).dest ≠ (at12 bs).own ∧
       (headerOf bs).src = (at12 bs).own) ∧
    (let bs := headerBytes 15 5 0x41 0 1 0 0 0
     (headerOf bs).intact ∧ (headerOf bs).dest.toNat < 16 ∧ (headerOf bs).dest ≠ (at12 bs).own ∧
       (headerOf bs).src ≠ (at12 bs).own ∧ (headerOf bs).hops.toNat < 2) := by decide +kernel

theorem test_witness_ReceiverInUpAndLinkLoss_settles :
    let x : Handover := .frame .grant (header Kind.grant.code 2 0 0) [1]
    let s := replied .grant 0 [1] opening
    let bs := headerBytes 15 5 0x41 0x40 2 2 1 0
    (s.rau.handover = some x ∧ x.row = some .grantFrame ∧ s.rx.state = .up ∧ s.resetLow = false ∧
      s.rx.quiet.isSome) ∧
    ((at12 bs).rau.handover = none ∧ (at12 bs).waits (waiting bs) ∧ (at12 bs).rx.state = .up ∧
      (at12 bs).resetLow = false ∧ (at12 bs).rx.quiet.isSome) ∧
    Handover.row (.block (header 0x10 2 0 16) .ahead .intact) = some .blockFrame ∧
    Handover.row (.returned (header 0x40 2 0 8)) = some .returnedFrame ∧
    Handover.row (.roll (header 0x70 0 0 8) []) = some .rollFrame ∧
    Handover.row (.ownRoll (header 0x70 0 0 8) []) = some .ownBeacon := by decide +kernel

theorem test_witness_ForwardedHeader :
    let bs := headerBytes 15 5 0x41 0x40 2 2 1 0
    let s := receives (waiting bs) (passing 1092 none live)
    s.waits (waiting bs) ∧ bs = [15, 5, 0x41, 0x40, 2, 2, 9, 1, 0, 0, byteAt bs 10, byteAt bs 11] ∧
    (headerOf bs).intact ∧ (headerOf bs).dest.toNat < 16 ∧ (15 : Byte) ≠ s.own ∧ (5 : Byte) ≠ s.own ∧
    2 ≤ (2 : Byte).toNat ∧ s.tx.state = .run ∧ 12 ≤ 1104 - s.rau.passBytes ∧
    (let room (n : Nat) : Nat := 1104 - (receives (waiting bs) (passing n none live)).rau.passBytes
     room 1093 = 11 ∧ room 1103 = 1 ∧ room 1104 = 0) := by decide +kernel

theorem test_witness_YieldHold :
    let bs (flags : Byte) := headerBytes 15 5 0x41 flags 1 2 1 0
    let held (s : State) := setRau { s.rau with inHold := true, holdTimer := some 0 } s
    ((at12 (bs 0x82)).waits (waiting (bs 0x82)) ∧ (headerOf (bs 0x82)).intact ∧
      (headerOf (bs 0x82)).dest.toNat < 16 ∧ (headerOf (bs 0x82)).flags.getLsbD 7 = true ∧
      (headerOf (bs 0x82)).flags.extractLsb' 0 4 ≠ (at12 (bs 0x82)).straps.stn ∧
      (at12 (bs 0x82)).rau.inHold = false) ∧
    ((held (at12 (bs 0x83))).waits (waiting (bs 0x83)) ∧ (held (at12 (bs 0x83))).rau.inHold = true ∧
      (headerOf (bs 0x83)).flags.extractLsb' 0 4 = (at12 (bs 0x83)).straps.stn) ∧
    (held live).rau.holdTimer.isSome := by decide +kernel

/-- Twelve header bytes of a BLOCK for this station. -/
def blockHead (port seq : Byte) : List Byte := headerBytes 3 5 0x10 0 6 port seq 16

/-- The part with port 1 as given and those bytes waiting for their decision. -/
def blockAt (p : OpenPort) (port seq : Byte) : State := receives (waiting (blockHead port seq)) (withPort p)

/-- The hypotheses that every case of `BlockClassAtHeader` shares. -/
abbrev blockMeets (p : OpenPort) (port seq : Byte) : Prop :=
  (blockAt p port seq).waits (waiting (blockHead port seq)) ∧ (headerOf (blockHead port seq)).intact ∧
    (headerOf (blockHead port seq)).dest = (blockAt p port seq).own ∧ (headerOf (blockHead port seq)).kind = 0x10 ∧
    (headerOf (blockHead port seq)).src.toNat < 16 ∧ (headerOf (blockHead port seq)).src ≠ (blockAt p port seq).own ∧
    (headerOf (blockHead port seq)).seq.toNat < 8 ∧ (blockAt p port seq).rollCall.silent = false

/-- The bound port with this many blocks accepted. -/
def boundWith (n : Nat) : OpenPort := { bound with mode := .bound { binding with accepted := n } (some .a) (some 1) }

theorem test_witness_BlockClassAtHeader_refused :
    (blockMeets bound 8 0 ∧ 8 ≤ (8 : Byte).toNat) ∧
    (blockMeets bound 7 0 ∧ (blockAt bound 7 0).ports[(7 : Fin 8)] = none) ∧
    (blockMeets halted 1 0 ∧ halted.mode = .halted) ∧ (blockMeets listening 1 0 ∧ listening.mode = .listening) ∧
    (blockMeets { bound with mode := .bound { binding with tag := 8 } none (some 1) } 1 0 ∧
      ({ binding with tag := 8 } : Binding).tag ≠ 9) := by decide +kernel

theorem test_witness_BlockClassAtHeader_bound :
    (blockMeets bound 1 2 ∧ (blockAt bound 1 2).ports[(1 : Fin 8)] = some bound ∧
      bound.mode = .bound binding (some .a) (some 100) ∧ binding.source = 5 ∧ binding.tag = 9 ∧
      ((2 : Byte).toNat + 8 - binding.accepted % 8) % 8 = 0 ∧ binding.accepted ≠ binding.count ∧
      (bound.bank .a).content = .filling binding.owner 2) ∧
    (blockMeets (boundWith 0) 1 4 ∧ 4 ≤ ((4 : Byte).toNat + 8 - 0 % 8) % 8) ∧
    (blockMeets bound 1 1 ∧ 4 ≤ ((1 : Byte).toNat + 8 - 2 % 8) % 8 ∧ binding.accepted ≠ 0) ∧
    (blockMeets (boundWith 20) 1 7 ∧ ((7 : Byte).toNat + 8 - 20 % 8) % 8 < 4 ∧ 20 = binding.count) ∧
    (blockMeets bound 1 5 ∧ ((5 : Byte).toNat + 8 - 2 % 8) % 8 = 3) ∧
    (blockMeets boundFull 1 2 ∧ boundFull.mode = .bound binding none (some 100)) := by
  refine ⟨?_, ?_, ?_, ?_, ?_, ?_⟩ <;> decide +kernel

/-- A command record of a code and an index. -/
def twoBytes (code index : Byte) : List Byte := code :: index :: List.replicate 14 0

/-- The Command Unit can take that record. -/
abbrev canTake (s : State) (code index : Byte) : Prop :=
  (taking (twoBytes code index) s).takes (twoBytes code index) []

/-- The part with an OPEN handed over. -/
def opens (port : Byte) (payload : List Byte) (s : State) : State :=
  handed (.frame .open_ (header 0x21 port 0 6) payload) s

theorem test_witness_OpenExchange :
    let h (port : Byte) := header 0x21 port 0 6
    let gives (s : State) (port : Byte) (x : List Byte) : Prop := (opens port x s).hands (.frame .open_ (h port) x)
    let good : List Byte := [0, 32, 0, 9, 4, 0]
    gives live 8 good ∧ (gives live 7 good ∧ live.ports[(7 : Fin 8)] = none) ∧ gives (withPort halted) 1 good ∧
    (gives (withPort bound) 1 good ∧ bound.mode = .bound binding (some .a) (some 100) ∧ binding.source = (h 1).src ∧
      binding.tag = (h 1).tag) ∧
    (gives (withPort { bound with mode := .bound { binding with tag := 8 } (some .a) (some 1) }) 1 good) ∧
    (gives (withPort listening) 1 good ∧ listening.mode = .listening ∧ listening.bankA.content = .free ∧
      ¬(((0 : Byte) ++ (32 : Byte)).toNat < 16 ∨ listening.maxSize < ((0 : Byte) ++ (32 : Byte)).toNat)) ∧
    (gives (withPort listening) 1 [0, 48, 0, 9, 4, 0] ∧ listening.maxSize < 48) ∧
    (let q : OpenPort := { listening with bankA := { listening.bankA with content := .full binding.owner 1 } }
     gives (withPort q) 1 good ∧ q.bankA.content ≠ .free ∧ q.bankB.content = .free) ∧
    (let q : OpenPort := { boundFull with mode := .listening }
     gives (withPort q) 1 good ∧ q.bankA.content ≠ .free ∧ q.bankB.content ≠ .free) := by decide +kernel

theorem test_witness_OpenExchange_elsewhere :
    (opens 1 [0, 32, 0, 9, 4, 0] (setPort 6 (some bound) (withPort listening))).hands
      (.frame .open_ (header 0x21 1 0 6) [0, 32, 0, 9, 4, 0]) ∧
    bindsTo (setPort 6 (some bound) (withPort listening)).ports[(6 : Fin 8)] 5 9 :=
  ⟨by decide +kernel, bound, binding, some .a, some 100, rfl, rfl, rfl, rfl⟩

/-- The part with the end of a BLOCK for port 1 handed over. -/
def ends (c : BlockClass) (e : BlockEnd) (p : OpenPort) : State :=
  handed (.block (header 0x10 1 2 16) c e) (withPort p)

theorem test_witness_BlockEndReplies :
    let w : BankWrite := { target := 0x1020, limit := 16, written := 16, trial := 0 }
    (ends .ahead .abandoned bound).hands (.block (header 0x10 1 2 16) .ahead .abandoned) ∧
    (ends (.refused .notBound) .damaged listening).hands
      (.block (header 0x10 1 2 16) (.refused .notBound) .damaged) ∧
    ((ends .ahead .damaged bound).hands (.block (header 0x10 1 2 16) .ahead .damaged) ∧
      (ends .ahead .damaged bound).ports[(1 : Fin 8)] = some bound ∧ binding.source = (header 0x10 1 2 16).src ∧
      binding.tag = (header 0x10 1 2 16).tag ∧ binding.resumeSent = false) ∧
    (ends .expectedNoBank .intact boundFull).hands (.block (header 0x10 1 2 16) .expectedNoBank .intact) ∧
    ((ends (.expected w) .damaged bound).hands (.block (header 0x10 1 2 16) (.expected w) .damaged)) ∧
    (ends .behind .intact bound).hands (.block (header 0x10 1 2 16) .behind .intact) ∧
    (ends .noReply .intact bound).hands (.block (header 0x10 1 2 16) .noReply .intact) := by decide +kernel

theorem test_witness_BlockEndReplies_unbound :
    (ends .ahead .intact listening).hands (.block (header 0x10 1 2 16) .ahead .intact) ∧
    ∀ i : Fin 8, (header 0x10 1 2 16).port.toNat = i.val → ¬bindsTo (ends .ahead .intact listening).ports[i] 5 9 :=
  ⟨by decide +kernel, fun i h => not_bindsTo_listening i (by rw [← h]; decide)⟩

theorem test_witness_BlockAccepted :
    let w : BankWrite := { target := 0x1020, limit := 16, written := 16, trial := 0 }
    let h := header 0x10 1 2 16
    let filled (n : Nat) (other : BankContent) : OpenPort :=
      { bound with bankA := { bound.bankA with content := .filling binding.owner n },
                   bankB := { bound.bankB with content := other } }
    let meets (p : OpenPort) (n : Nat) : Prop := (ends (.expected w) .intact p).hands (.block h (.expected w) .intact) ∧
      h.port.toNat = (1 : Fin 8).val ∧ (ends (.expected w) .intact p).ports[(1 : Fin 8)] = some p ∧
      p.mode = .bound binding (some .a) (some 100) ∧ binding.source = h.src ∧ binding.tag = h.tag ∧
      h.len.toNat = binding.size ∧ (p.bank .a).content = .filling binding.owner n
    (meets (filled 2 .free) 2 ∧ 2 + 1 < (bound.bank .a).capacity) ∧
    (meets (filled 3 .free) 3 ∧ (bound.bank .a).capacity ≤ 3 + 1 ∧ ((filled 3 .free).bank BankId.a.other).content = .free) ∧
    (meets (filled 3 (.full binding.owner 4)) 3 ∧
      ((filled 3 (.full binding.owner 4)).bank BankId.a.other).content ≠ .free) := by decide +kernel

theorem test_witness_BindingEnds :
    (bound.bank .a).content = .filling binding.owner 2 ∧
    ({ bound with bankA := { bound.bankA with content := .filling binding.owner 0 } } : OpenPort).bankA.content =
      .filling binding.owner 0 ∧
    (let s := handed (.frame .cancel (header 0x23 1 0 0) []) (withPort bound)
     s.hands (.frame .cancel (header 0x23 1 0 0) []) ∧ (header 0x23 1 0 0).port.toNat = (1 : Fin 8).val ∧
       s.ports[(1 : Fin 8)] = some bound ∧ binding.source = (header 0x23 1 0 0).src ∧
       binding.tag = (header 0x23 1 0 0).tag) ∧
    (withPort bound).ports[(1 : Fin 8)] = some bound ∧ bound.mode = .bound binding (some .a) (some 100) := by
  decide +kernel

theorem test_witness_BindingEnds_noBinding :
    let s := handed (.frame .cancel (header 0x23 1 0 0) []) (withPort listening)
    s.hands (.frame .cancel (header 0x23 1 0 0) []) ∧
    ∀ i : Fin 8, (header 0x23 1 0 0).port.toNat = i.val → ¬bindsTo s.ports[i] 5 9 :=
  ⟨by decide +kernel, fun i h => not_bindsTo_listening i (by rw [← h]; decide)⟩

theorem test_witness_FinishAnswers :
    let h (port : Byte) := header 0x22 port 0 6
    let x : List Byte := [0, 0, 0, 0, 0, 20]
    let s (port : Byte) (p : OpenPort) := handed (.frame .finish (h port) x) (withPort p)
    let note : Note := { source := 5, tag := 9, matched := true, accepted := 20 }
    let all : OpenPort := { bound with mode := .bound { binding with accepted := 20 } (some .a) (some 1) }
    (s 8 bound).hands (.frame .finish (h 8) x) ∧ (s 7 bound).ports[(7 : Fin 8)] = none ∧
    ((s 1 { listening with note := some note }).hands (.frame .finish (h 1) x) ∧ note.source = (h 1).src ∧
      note.tag = (h 1).tag) ∧
    ((s 1 bound).ports[(1 : Fin 8)] = some bound ∧ bound.note = none ∧ binding.accepted < binding.count) ∧
    ((s 1 all).ports[(1 : Fin 8)] = some all ∧ all.note = none ∧ binding.count ≤ 20) := by decide +kernel

theorem test_witness_FinishAnswers_notBound :
    ¬(∃ n, listening.note = some n ∧ n.source = 5 ∧ n.tag = 9) ∧ ¬bindsTo (withPort listening).ports[(1 : Fin 8)] 5 9 :=
  ⟨by simp [listening], not_bindsTo_listening 1 rfl⟩

theorem test_witness_SlotOfAReply : findRun 5 2 9 (withRun streaming) = some (2, streaming) ∧
    findRun 5 2 8 (withRun streaming) = none := by decide +kernel

theorem test_witness_GrantOpensTheRun :
    let s (r : Run) := replied .grant 0 [0] r
    let h := header 0x31 2 0 0
    ((s opening).hands (.frame .grant h [0]) ∧ findRun h.src h.port h.tag (s opening) = some (2, opening) ∧
      opening.phase = .opening) ∧
    (findRun h.src h.port h.tag (s streaming) = some (2, streaming) ∧ streaming.phase ≠ .opening) ∧
    ((handed (.frame .grant h [255]) live).hands (.frame .grant h [255]) ∧
      findRun h.src h.port h.tag (handed (.frame .grant h [255]) live) = none) ∧
    (handed (.frame .taken (header 0x41 2 7 0) []) live).hands (.frame .taken (header 0x41 2 7 0) []) ∧
    (handed (.frame .resume (header 0x42 2 7 0) []) live).hands (.frame .resume (header 0x42 2 7 0) []) ∧
    (handed (.frame .busy (header 0x43 2 7 0) []) live).hands (.frame .busy (header 0x43 2 7 0) []) := by decide +kernel

theorem test_witness_RefuseEndsTheRun :
    let h := header 0x32 2 0 0
    (replied .refuse 0 [4] opening).hands (.frame .refuse h [4]) ∧
    findRun h.src h.port h.tag (replied .refuse 0 [4] opening) = some (2, opening) ∧ opening.phase = .opening := by
  decide +kernel

theorem test_witness_FinalFramesEndTheRun :
    let kept (k : Kind) (x : List Byte) (r : Run) : Prop :=
      (replied k 0 x r).hands (.frame k (header k.code 2 0 0) x) ∧ findRun 5 2 9 (replied k 0 x r) = some (2, r)
    (kept .halted [3] streaming ∧ streaming.phase ≠ .ending) ∧ (kept .halted [3] ending ∧ ending.phase = .ending) ∧
    (kept .closed [0, 0, 0, 20] closing ∧ closing.phase = .closing) ∧
    (kept .closed [0, 0, 0, 20] paused ∧ paused.phase ≠ .closing) ∧
    (kept .refuse [1] streaming ∧ streaming.phase ≠ .opening) ∧
    (let h := { header 0x21 2 0 6 with dest := 5, src := 3 }
     let s := handed (.returned h) (withRun opening)
     s.hands (.returned h) ∧ h.kind = 0x21 ∧ findRun h.dest h.port h.tag s = some (2, opening)) ∧
    (header 0x41 2 0 0).kind ≠ 0x21 := by decide +kernel

theorem test_witness_TakenAcknowledges :
    let meets (seq : Byte) (r : Run) : Prop :=
      (replied .taken seq [] r).hands (.frame .taken (header 0x41 2 seq 0) []) ∧
        findRun 5 2 9 (replied .taken seq [] r) = some (2, r)
    let nearly : Run := { streaming with taken := 18, sent := 20 }
    let paused1 : Run := { paused with taken := 19, sent := 20 }
    (meets 2 streaming ∧ ((2 : Byte).toNat + 8 - streaming.taken % 8) % 8 < streaming.sent - streaming.taken ∧
      streaming.taken + 1 + 1 ≠ streaming.count) ∧
    (meets 3 nearly ∧ ((3 : Byte).toNat + 8 - nearly.taken % 8) % 8 < nearly.sent - nearly.taken ∧
      nearly.taken + 1 + 1 = nearly.count) ∧
    (meets 1 paused ∧ ((1 : Byte).toNat + 8 - paused.taken % 8) % 8 < paused.sent - paused.taken) ∧
    (meets 3 paused1 ∧ ((3 : Byte).toNat + 8 - paused1.taken % 8) % 8 < paused1.sent - paused1.taken ∧
      paused1.taken + 0 + 1 = paused1.count) ∧
    (meets 3 streaming ∧ streaming.sent - streaming.taken ≤ ((3 : Byte).toNat + 8 - streaming.taken % 8) % 8) ∧
    meets 0 opening ∧ meets 0 closing ∧ meets 0 ending := by decide +kernel

theorem test_witness_ResumeRewinds :
    let meets (seq : Byte) (r : Run) : Prop :=
      (replied .resume seq [] r).hands (.frame .resume (header 0x42 2 seq 0) []) ∧
        findRun 5 2 9 (replied .resume seq [] r) = some (2, r)
    let nearly : Run := { streaming with taken := 18, sent := 20 }
    let paused1 : Run := { paused with taken := 19, sent := 20 }
    (meets 3 streaming ∧ ((3 : Byte).toNat + 8 - streaming.taken % 8) % 8 = streaming.sent - streaming.taken ∧
      streaming.taken + 2 ≠ streaming.count) ∧
    (meets 4 nearly ∧ ((4 : Byte).toNat + 8 - nearly.taken % 8) % 8 = nearly.sent - nearly.taken ∧
      nearly.taken + 2 = nearly.count) ∧
    (meets 2 paused ∧ paused.phase = .paused) ∧ (meets 4 paused1 ∧ paused1.taken + 1 = paused1.count) ∧
    (meets 4 closing ∧ ((4 : Byte).toNat + 8 - closing.taken % 8) % 8 = 0) ∧
    (meets 4 streaming ∧ streaming.sent - streaming.taken < ((4 : Byte).toNat + 8 - streaming.taken % 8) % 8) ∧
    (meets 5 closing ∧ ((5 : Byte).toNat + 8 - closing.taken % 8) % 8 ≠ 0) ∧ meets 0 opening ∧ meets 0 ending := by
  decide +kernel

theorem test_witness_BusyPauses :
    let meets (seq : Byte) (r : Run) : Prop :=
      (replied .busy seq [] r).hands (.frame .busy (header 0x43 2 seq 0) []) ∧
        findRun 5 2 9 (replied .busy seq [] r) = some (2, r)
    let nearly : Run := { streaming with taken := 18, sent := 20 }
    let paused1 : Run := { paused with taken := 19, sent := 20 }
    (meets 3 streaming ∧ ((3 : Byte).toNat + 8 - streaming.taken % 8) % 8 = streaming.sent - streaming.taken ∧
      streaming.taken + 2 ≠ streaming.count) ∧
    (meets 4 nearly ∧ ((4 : Byte).toNat + 8 - nearly.taken % 8) % 8 = nearly.sent - nearly.taken ∧
      nearly.taken + 2 = nearly.count) ∧
    (meets 2 paused ∧ paused.phase = .paused) ∧ (meets 4 paused1 ∧ paused1.taken + 1 = paused1.count) ∧
    (meets 4 streaming ∧ streaming.sent - streaming.taken < ((4 : Byte).toNat + 8 - streaming.taken % 8) % 8) ∧
    meets 0 opening ∧ meets 0 closing ∧ meets 0 ending := by decide +kernel

theorem test_witness_EndingProcedure :
    beingInserted 2 (inserting live) = true ∧ beingInserted 3 (inserting live) = false ∧
    (setRau { live.rau with output := .inserting none [] } live).rau.output = .inserting none [] ∧
    (sending (.inserting none [.sof]) []).rau.output = .inserting none [.sof] ∧
    (inserting live).rau.output = .inserting (some (2, 1)) [] ∧ (inserting live).slots[(2 : Fin 8)] = none ∧
    ((inserting (withRun streaming)).slots[(2 : Fin 8)] = some streaming ∧ streaming.phase ≠ .ending) ∧
    ((inserting (withRun ending)).slots[(2 : Fin 8)] = some ending ∧ ending.phase = .ending ∧
      ending.owed = some (.cancelled, none)) ∧ ({ ending with owed := none } : Run).owed = none := by decide +kernel

theorem test_witness_AnswerTimerExpiries :
    (withRun opening).slots[(2 : Fin 8)] = some opening ∧ opening.answer = some 7 ∧ opening.phase = .opening ∧
    opening.attempts < 4 ∧ 4 ≤ ({ opening with attempts := 4 } : Run).attempts ∧ closing.phase = .closing ∧
    closing.answer = some 7 ∧ streaming.answer = some 7 ∧ ({ streaming with timeouts := 6 } : Run).timeouts + 1 < 8 ∧
    8 ≤ ({ streaming with timeouts := 7 } : Run).timeouts + 1 := by decide +kernel

theorem test_witness_ProbeAndPauseExpiries :
    let entry : DataEntry := { slot := 2, index := paused.taken }
    let full : List DataEntry := List.replicate 8 { slot := 1, index := 0 }
    (withRun paused).slots[(2 : Fin 8)] = some paused ∧ paused.phase = .paused ∧ paused.probe = some 0 ∧
    entry ∉ (withRun paused).rau.dataQueue ∧ (withRun paused).rau.dataQueue.length < 8 ∧
    entry ∈ (setData [entry] (withRun paused)).rau.dataQueue ∧ 8 ≤ (setData full (withRun paused)).rau.dataQueue.length ∧
    paused.pause = some 9 := by decide +kernel

theorem test_witness_DataQueueGrant :
    let s := setRau { live.rau with dataQueue := List.replicate 7 { slot := 1, index := 0 } } (withRun streaming)
    s.rau.dataQueue.length < 8 ∧ s.slots[(2 : Fin 8)] = some streaming ∧ streaming.phase = .streaming ∧
    streaming.sent < streaming.count ∧ streaming.sent - streaming.taken < streaming.granted.getD 0 ∧
    (∀ j : Fin 8, j ≠ 2 → s.slots[j] = none) ∧ (∀ j : Fin 8, live.slots[j] = none) := by decide +kernel

theorem test_witness_YieldThreshold :
    live.rau.dataQueue = [] ∧ (setData [{ slot := 2, index := 1 }] live).rau.dataQueue ≠ [] ∧
    (setRau { live.rau with threshold := some 0 } live).rau.threshold.isSome := by decide +kernel

theorem test_witness_RollHeard :
    let h (src : Byte) := { header 0x70 0 0 8 with dest := 0xFF, src := src }
    let x : List Byte := [8, 0, 0, 1, 0, 0, 0, 0]
    (handed (.roll (h 15) x) live).rau.handover = some (.roll (h 15) x) ∧ (h 15).src.toNat = (15 : Fin 16).val ∧
    live.peers[(15 : Fin 16)].state = .absent ∧ (h 5).src.toNat = (5 : Fin 16).val ∧
    live.peers[(5 : Fin 16)].state = .present 0 1 0 8 := by decide +kernel

/-- The part with a beacon in flight. -/
def beaconOut (sent returned ringOpen : Bool) : State :=
  { live with rollCall := { live.rollCall with stamp := some 0x0102, misses := 2, ringOpen := ringOpen, timer := some 0,
                                               inFlight := some { number := 4, sent := sent, returned := returned } } }

theorem test_witness_OwnBeacon :
    let x : Handover := .ownRoll (header 0x70 0 0 8) [8, 0, 0, 4, 1, 2, 0, 0]
    (handed x (silent live)).rau.handover = some x ∧ (silent live).rollCall.silent = true ∧
    (let s := handed x (beaconOut true true false)
     s.rau.handover = some x ∧ s.rollCall.silent = false ∧
       s.rollCall.inFlight = some { number := 4, sent := true, returned := true } ∧
       s.rollCall.stamp = some ((1 : Byte) ++ (2 : Byte))) ∧
    ((beaconOut true false true).rollCall.ringOpen = true ∧
      (beaconOut true false true).rollCall.inFlight = some { number := 4, sent := true, returned := false }) ∧
    (beaconOut true false false).rollCall.ringOpen = false := by decide +kernel

theorem test_witness_OwnBeacon_silence :
    let x : Handover := .ownRoll (header 0x70 0 0 8) [8, 0, 0, 5, 1, 2, 0, 0]
    let s := handed x (inserting (setPort 1 (some bound) (setSlot 2 (some streaming) (beaconOut true false false))))
    (s.rau.handover = some x ∧ s.rollCall.silent = false ∧ s.slots[(2 : Fin 8)] = some streaming ∧
      beingInserted 2 s = true ∧ s.ports[(1 : Fin 8)] = some bound) ∧
    ∀ b : Beacon, ¬(s.rollCall.inFlight = some b ∧ b.sent = true ∧ b.number = (0 : Byte) ++ (5 : Byte) ∧
      s.rollCall.stamp = some ((1 : Byte) ++ (2 : Byte))) := by
  refine ⟨by decide +kernel, fun b ⟨h1, _, h3, _⟩ => ?_⟩
  have h1' : some ({ number := 4, sent := true, returned := false } : Beacon) = some b := h1
  cases h1'
  revert h3
  decide

theorem test_witness_BeaconPeriod :
    let gone : Peer := { state := .present 2 1 0 8, heard := false }
    let s := setPeer 5 gone (setPort 1 (some bound) (setSlot 2 (some streaming) (beaconOut true false false)))
    s.rollCall.timer.isSome ∧ s.peers[(5 : Fin 16)] = gone ∧ 3 ≤ 2 + 1 ∧ s.slots[(2 : Fin 8)] = some streaming ∧
    streaming.dest.toNat = (5 : Fin 16).val ∧ streaming.phase ≠ .ending ∧ s.ports[(1 : Fin 8)] = some bound ∧
    binding.source.toNat = (5 : Fin 16).val ∧ s.rollCall.silent = false ∧ s.rollCall.misses = 2 ∧
    s.rollCall.inFlight = some { number := 4, sent := true, returned := false } ∧
    (silent s).rollCall.silent = true ∧ s.peers[(3 : Fin 16)].state = .self ∧
    (beaconOut true false false).peers[(5 : Fin 16)] = { state := .present 0 1 0 8, heard := true } := by decide +kernel

/-- The part with station 5 about to be lost. -/
def losing5 : State := setPeer 5 { state := .present 2 1 0 8, heard := false } (beaconOut true false false)

theorem onlyLosing5 : ∀ j : Fin 16, (checkPeer losing5.peers[j]).2 = true → j ∈ [5] := by decide +kernel

theorem test_witness_BeaconPeriod_losing : ([5] : List (Fin 16)).Pairwise (· < ·) ∧ ∀ j : Fin 16, j ∈ [5] ↔
    ∃ m beacon cls size, losing5.peers[j] = { state := .present m beacon cls size, heard := false } ∧ 3 ≤ m + 1 := by
  refine ⟨by decide, fun j => ⟨fun h => ?_, fun ⟨m, b, c, z, h, hm⟩ => ?_⟩⟩
  · rw [List.mem_singleton] at h
    subst h
    exact ⟨2, 1, 0, 8, by decide +kernel, by decide⟩
  · have hl : (checkPeer losing5.peers[j]).2 = true := by
      rw [h]
      simp only [checkPeer]
      rw [if_neg (by simp), if_neg (by unfold Config.missLimit; omega)]
    exact onlyLosing5 j hl

theorem test_witness_Forwarding :
    let f : PassFrame := { bytes := [1], ended := none }
    let g : PassFrame := { bytes := [], ended := some .eof }
    let s := setRau { live.rau with passFifo := [f] } live
    let t := setRau { live.rau with passFifo := [g], output := .forwarding [] } live
    s.rau.passFifo = f :: [] ∧ f.bytes ≠ [] ∧ s.rau.output = .free ∧ s.tx.state = .run ∧ t.rau.passFifo = g :: [] ∧
    t.rau.output = .forwarding [] ∧ g.bytes = [] ∧ g.ended = some .eof ∧ live.rau.passFifo = [] ∧
    t.rau.output ≠ .free ∧
    (let toGo (lead : List Symbol) (f : PassFrame) : Prop :=
       (sending (.forwarding lead) [f]).rau.passFifo = f :: [] ∧
         (sending (.forwarding lead) [f]).rau.output = .forwarding lead ∧ (lead ≠ [] ∨ f.bytes ≠ [] ∨ f.ended = none)
     toGo [.sof] g ∧ toGo [] { bytes := [1], ended := some .eof } ∧ toGo [] { bytes := [], ended := none }) := by
  decide +kernel

theorem test_witness_InsertionStart :
    let f : OwnFrame := { dest := 5, kind := .cancel, port := 2, tag := 9, seq := 0, payload := [] }
    let e : DataEntry := { slot := 2, index := 2 }
    let s := setRau { live.rau with controlQueue := [f] } live
    let t := setRau { live.rau with dataQueue := [e] } (withRun streaming)
    (∀ f ∈ s.rau.passFifo, f.bytes = []) ∧ s.rau.reception = none ∧ s.rau.output = .free ∧ s.tx.state = .run ∧
    s.rollCall.silent = false ∧ s.rau.controlQueue = f :: [] ∧ t.rau.controlQueue = [] ∧ t.rau.dataQueue = e :: [] ∧
    t.rau.inHold = false ∧ t.slots[e.slot] = some streaming ∧
    streaming.base + e.index * streaming.size + streaming.size ≤ 131072 ∧ (silent s).rollCall.silent = true ∧
    live.rau.dataQueue = [] := by decide +kernel

theorem test_witness_StartRunCommand :
    let r (slot dest port b2 size1 count w : Byte) : List Byte :=
      [0x01, slot, dest, port, b2, 0x40, 0, 0, size1, 0, count, w, 0, 0, 0, 0]
    let can (s : State) (x : List Byte) : Prop := (taking x s).takes x []
    can (silent live) (r 2 5 1 0 32 9 4) ∧ (can live (r 8 5 1 0 32 9 4) ∧ 8 ≤ (8 : Byte).toNat) ∧
    (can (withRun streaming) (r 2 5 1 0 32 9 4) ∧ (withRun streaming).slots[(2 : Fin 8)] ≠ none) ∧
    (can live (r 7 3 1 0 32 9 4) ∧ live.slots[(7 : Fin 8)] = none ∧ (3 : Byte) = live.own) ∧
    (can live (r 7 6 1 0 32 9 4) ∧ live.peers[(6 : Fin 16)].state = .absent) ∧
    (can (withPort { listening with bankA := { listening.bankA with base := 0x4000 } }) (r 7 5 1 0 32 9 4) ∧
      ({ lo := 0x4000, hi := 0x4000 + 9 * 32 } : Region).overlaps { lo := 0x4000, hi := 0x4080 } = true) ∧
    (can live (r 7 5 1 0 32 9 4) ∧ live.peers[(5 : Fin 16)].state ≠ .absent ∧ fencedBanks live = []) := by
  decide +kernel

theorem test_witness_CancelAndUnknownCommands :
    let can (s : State) (x : List Byte) : Prop := (taking x s).takes x []
    let r (slot : Byte) : List Byte := 0x02 :: slot :: List.replicate 14 0
    can live (r 8) ∧ (can live (r 7) ∧ live.slots[(7 : Fin 8)] = none) ∧
    (can (withRun ending) (r 2) ∧ (withRun ending).slots[(2 : Fin 8)] = some ending ∧ ending.phase = .ending) ∧
    (can (withRun streaming) (r 2) ∧ streaming.phase ≠ .ending) ∧
    can live (0 :: 0 :: List.replicate 14 0) ∧ can live (9 :: 0 :: List.replicate 14 0) ∧ 9 ≤ (9 : Byte).toNat := by
  decide +kernel

theorem test_witness_OpenPortCommand :
    let r (port size1 baseA : Byte) : List Byte := [0x03, port, 0, size1, 2, 0, baseA, 0, 4, 0, 0x20, 0, 4, 0, 0, 0]
    let can (s : State) (x : List Byte) : Prop := (taking x s).takes x []
    can (silent live) (r 1 32 0x10) ∧ can live (r 8 32 0x10) ∧
    (can (withPort listening) (r 1 32 0x10) ∧ (withPort listening).ports[(1 : Fin 8)] ≠ none) ∧
    (can live (r 7 15 0x10) ∧ live.ports[(7 : Fin 8)] = none ∧ (15 : Byte).toNat < 16) ∧
    (can live (r 7 32 0x20) ∧
      ({ lo := 0x2000, hi := 0x2080 } : Region).overlaps { lo := 0x2000, hi := 0x2080 } = true) ∧
    (can live (r 7 32 0x10) ∧ sourceRegions live = [] ∧ (∀ j : Fin 8, portRegions live.ports[j] = []) ∧
      ({ lo := 0x1000, hi := 0x1080 } : Region).overlaps { lo := 0x2000, hi := 0x2080 } = false) := by decide +kernel

theorem test_witness_ReleaseBankCommand :
    let r (port flags b1 b0 : Byte) : List Byte := 0x04 :: port :: flags :: 0 :: b1 :: b0 :: List.replicate 10 0
    let can (s : State) (x : List Byte) : Prop := (taking x s).takes x []
    let owing : OpenPort := { boundFull with mode := .bound { binding with busyOwed := true } none (some 1) }
    let onto (base : Nat) : State := setSlot 2 (some { streaming with base := base }) (withPort boundFull)
    can live (r 8 0 0 0) ∧ (can live (r 7 0 0 0) ∧ live.ports[(7 : Fin 8)] = none) ∧
    (can (withPort bound) (r 1 0 0 0) ∧ (withPort bound).ports[(1 : Fin 8)] = some bound ∧ (bound.bank .a).isFull = false) ∧
    (can (withPort boundFull) (r 1 2 0 8) ∧ (8 : Byte).toNat % 16 ≠ 0) ∧
    (can (onto 0x1000) (r 1 0 0 0) ∧ (boundFull.bank .a).content = .full binding.owner 4 ∧
      ({ lo := 0x1000, hi := 0x1080 } : Region).overlapsAny (sourceRegions (onto 0x1000)) = true) ∧
    (can (withPort boundFull) (r 1 2 0x20 0) ∧
      ({ lo := 0x2000, hi := 0x2080 } : Region).overlaps (boundFull.region (boundFull.bank BankId.a.other)) = true) ∧
    (can (withPort boundFull) (r 1 1 0 0) ∧ boundFull.mode = .bound binding none (some 100) ∧
      binding.busyOwed = false ∧ sourceRegions (withPort boundFull) = [] ∧
      ({ lo := 0x2000, hi := 0x2080 } : Region).overlaps (boundFull.region (boundFull.bank BankId.b.other)) = false ∧
      (∀ j : Fin 8, j ≠ 1 → portRegions (withPort boundFull).ports[j] = [])) ∧
    owing.mode = .bound { binding with busyOwed := true } none (some 1) ∧
    ({ boundFull with mode := .halted } : OpenPort).mode = .halted := by decide +kernel

theorem test_witness_UnhaltPortCommand_HaltAndCloseCommands :
    (canTake (silent live) 6 1 ∧ canTake live 6 8 ∧ canTake live 6 7 ∧ canTake (withPort bound) 6 1 ∧
      bound.mode ≠ .halted ∧ canTake (withPort halted) 6 1 ∧ halted.mode = .halted) ∧
    (canTake live 5 8 ∧ canTake live 5 7 ∧ live.ports[(7 : Fin 8)] = none ∧ canTake (withPort halted) 5 1 ∧
      canTake (withPort listening) 5 1 ∧ listening.mode = .listening ∧ canTake (withPort bound) 5 1 ∧
      bound.mode = .bound binding (some .a) (some 100)) ∧
    (canTake live 7 8 ∧ canTake live 7 7 ∧ canTake (withPort halted) 7 1 ∧ canTake (withPort bound) 7 1) := by
  refine ⟨?_, ?_, ?_⟩ <;> decide +kernel

theorem test_witness_SoftResetCommand :
    let x : List Byte := 0x08 :: List.replicate 15 0
    (taking x (inserting (withRun streaming))).takes x [] ∧
    (taking x (inserting (withRun streaming))).slots[(2 : Fin 8)] = some streaming ∧
    beingInserted 2 (taking x (inserting (withRun streaming))) = true ∧
    (taking x live).slots[(7 : Fin 8)] = none := by decide +kernel

theorem test_witness_LogReadTransaction :
    let s := { onBus { LocalPort.reset with kind := some .logRead, bytes := 16 } live with
               log := [.linkUp], logCopied := some .linkUp }
    live.resetLow = false ∧ live.spi.waitRise = false ∧ s.spi.kind = some .logRead ∧ s.spi.bytes < 17 ∧
    s.log = .linkUp :: [] ∧ s.logCopied = some .linkUp ∧ ({ s with log := [.linkDown] } : State).log.head? ≠ s.logCopied ∧
    live.logCopied = none := by decide +kernel

/-- The Local Port in a transaction of this kind with `n` bytes complete. -/
def inBody (k : SpiKind) (n : Nat) : LocalPort :=
  { LocalPort.reset with csLow := true, phase := .body, kind := some k, bytes := n, outgoing := [0x10] }

/-- The Local Port with a transaction's code byte arriving. -/
def inCode : LocalPort := { LocalPort.reset with csLow := true, phase := .code, outgoing := [0x10] }

theorem test_witness_LogReadTransaction_pins :
    ((onBus inCode live).spi.phase = .code ∧ (onBus inCode live).spi.outgoing = 0x10 :: [] ∧
      (onBus inCode live).spi.waitRise = false) ∧ live.spi.phase ≠ .code ∧
    ((onBus (inBody .logRead 16) live).spi.phase = .body ∧ (onBus (inBody .logRead 16) live).spi.kind = some .logRead ∧
      (onBus (inBody .logRead 16) live).spi.bytes = 16) ∧ (onBus (inBody .logRead 15) live).spi.bytes ≠ 16 := by
  decide +kernel

theorem test_witness_MemoryWindow :
    let body (k : SpiKind) (len : Word16) (moved : Nat) (v : Verdict) : State := onBus
      { LocalPort.reset with kind := some k, addr := 0x1FFF0, len := len, moved := moved, verdict := some v } live
    (live.resetLow = false ∧ live.spi.waitRise = false) ∧
    ((0 : Word16) = 0 ∧ 1024 < (1025 : Word16).toNat ∧ 131072 < (0x1FFFF : BitVec 24).toNat + (2 : Word16).toNat) ∧
    (¬(131072 < (0x107F : BitVec 24).toNat + (1 : Word16).toNat) ∧
      ∃ a ∈ fence (withPort listening), (0x107F : BitVec 24).toNat < a.hi ∧
        a.lo < (0x107F : BitVec 24).toNat + (1 : Word16).toNat) ∧
    (¬(1024 < (1024 : Word16).toNat) ∧ ¬(131072 < (0x1FC00 : BitVec 24).toNat + (1024 : Word16).toNat) ∧
      ¬∃ a ∈ fence live, (0x1FC00 : BitVec 24).toNat < a.hi ∧ a.lo < (0x1FC00 : BitVec 24).toNat + 1024) ∧
    ((body .memWrite 16 15 .accepted).mem.wf = true ∧ (body .memWrite 16 15 .accepted).spi.kind = some .memWrite ∧
      (body .memWrite 16 15 .accepted).spi.moved < 16 ∧
      (body .memWrite 16 15 .accepted).spi.addr.toNat + 15 < 131072) ∧
    ((body .memWrite 16 16 .accepted).spi.len.toNat ≤ 16 ∧
      (body .memWrite 16 0 .fenced).spi.verdict ≠ some .accepted) ∧
    ((body .memRead 16 15 .accepted).spi.kind = some .memRead ∧
      (body .memRead 16 15 .accepted).spi.verdict = some .accepted) := by decide +kernel

theorem test_witness_MemoryWindow_pins :
    let begun (k : SpiKind) (p : LocalPort) : Prop := p.phase = .code ∨ (p.phase = .body ∧ p.kind = some k ∧
      1 ≤ p.bytes ∧ p.bytes < 6)
    (begun .memWrite inCode ∧ begun .memRead (inBody .memRead 5) ∧ (inBody .memRead 5).outgoing = 0x10 :: []) ∧
    (¬begun .memWrite LocalPort.reset ∧ ¬begun .memWrite (inBody .memRead 5) ∧ ¬begun .memRead (inBody .memRead 6)) ∧
    ((inBody .memRead 3).phase = .body ∧ (inBody .memRead 3).kind = some .memRead ∧ (inBody .memRead 3).bytes < 4) ∧
    (inBody .memWrite 4).bytes = 4 ∧ (inBody .memWrite 5).bytes = 5 ∧ 6 ≤ (inBody .memWrite 6).bytes := by
  decide +kernel

theorem test_witness_OtherTransactions :
    live.resetLow = false ∧ live.spi.waitRise = false ∧ (List.replicate 15 (0 : Byte)).length < 16 ∧
    16 ≤ (List.replicate 16 (0 : Byte)).length ∧ ({ live with commandFifo := List.replicate 7 [] } : State).commandFifo.length < 8 ∧
    8 ≤ ({ live with commandFifo := List.replicate 8 [] } : State).commandFifo.length ∧ (0xC0 : Byte).toNat < 0xC1 ∧
    0xC5 < (0xC6 : Byte).toNat ∧ State.reset.resetLow = true ∧
    (onBus { LocalPort.reset with waitRise := true } live).spi.waitRise = true ∧ 4 ≤ (4 : Byte).toNat ∧
    8 ≤ (8 : Byte).toNat ∧ (7 : Byte).toNat < 8 ∧ 16 ≤ (16 : Byte).toNat ∧ (15 : Byte).toNat < 16 := by decide +kernel

theorem test_witness_OtherTransactions_layouts : live.rau.dataQueue.length ≤ 8 ∧
    ((7 : Byte).toNat = (7 : Fin 8).val ∧ live.slots[(7 : Fin 8)] = none ∧ live.ports[(7 : Fin 8)] = none) ∧
    ((2 : Byte).toNat = (2 : Fin 8).val ∧ (withRun streaming).slots[(2 : Fin 8)] = some streaming) ∧
    ((withPort listening).ports[(1 : Fin 8)] = some listening ∧ listening.mode = .listening ∧
      (withPort halted).ports[(1 : Fin 8)] = some halted ∧ halted.mode = .halted ∧
      (withPort bound).ports[(1 : Fin 8)] = some bound ∧ bound.mode = .bound binding (some .a) (some 100)) ∧
    ((15 : Byte).toNat = (15 : Fin 16).val ∧ live.peers[(15 : Fin 16)].state = .absent ∧
      live.peers[(3 : Fin 16)].state = .self ∧ live.peers[(5 : Fin 16)].state = .present 0 1 0 8) ∧
    (inBody .inspect 2).bytes < 3 ∧ ¬((inBody .inspect 3).bytes < 3) := by decide +kernel

/-- The bus's levels. -/
def bus (csLow sck sdi : Bool) : BusLevels := { csLow := csLow, sck := sck, sdi := sdi }

theorem test_witness_OtherTransactions_edges :
    let at_ (p : LocalPort) (s : State) : Prop := (onBus p s).resetLow = false ∧ (onBus p s).spi = p
    State.reset.resetLow = true ∧ (at_ LocalPort.reset live ∧ (bus true false false).csLow = true ∧
      LocalPort.reset.csLow = false) ∧
    ((bus false false false).csLow = false ∧ (inBody .command 3).csLow = true ∧
      (inBody .command 3).kind = some .command ∧ (inBody .memWrite 3).kind = some .memWrite ∧
      inCode.kind ≠ some .command ∧ inCode.kind ≠ some .memWrite) ∧
    ({ inCode with waitRise := true } : LocalPort).waitRise = true ∧
    (at_ inCode live ∧ (bus true false true).sck = inCode.sck ∧ (bus true true true).sck = true ∧ inCode.sck = false ∧
      inCode.waitRise = false ∧ ({ inCode with bits := List.replicate 6 true } : LocalPort).bits.length < 7 ∧
      ({ inCode with bits := List.replicate 7 true } : LocalPort).bits = [true, true, true, true, true, true, true] ∧
      ({ inCode with sck := true, bits := List.replicate 7 true } : LocalPort).bits.length < 8) := by decide +kernel

theorem test_witness_OtherTransactions_bytes :
    inCode.phase = .code ∧ (0xC0 : Byte).toNat < 0xC1 ∧ 0xC5 < (0xC6 : Byte).toNat ∧
    ({ inCode with phase := .ignore } : LocalPort).phase = .ignore ∧
    ((inBody .command 1).phase = .body ∧ (inBody .command 1).kind = some .command ∧
      (inBody .command 1).record.length < 16 ∧
      16 ≤ ({ inBody .command 17 with record := List.replicate 16 0 } : LocalPort).record.length) ∧
    ((inBody .inspect 1).kind = some .inspect ∧ (inBody .inspect 1).bytes = 1 ∧ (inBody .inspect 2).bytes = 2 ∧
      3 ≤ (inBody .inspect 3).bytes) := by decide +kernel

theorem test_witness_PostingsAndOffers :
    (List.replicate 31 Record.linkUp ++ [.logOverflow 255] = List.replicate 31 .linkUp ++ [.logOverflow 255]) ∧
    (∀ x ∈ List.replicate 31 Record.linkUp, x.isOverflow = false) ∧ (List.replicate 31 Record.linkUp).length = 31 ∧
    (List.replicate 30 Record.linkUp).length < 31 ∧ live.rollCall.silent = false ∧ live.rau.controlQueue.length < 16 ∧
    (silent live).rollCall.silent = true := by decide +kernel

theorem test_witness_MemoryFrame : exec .forwardStart live = .next live ∧ (∀ sym, Instr.forwardStart ≠ .symbolInUp sym) ∧
    (∀ b, Instr.forwardStart ≠ .memWriteData b) ∧ Instr.forwardStart ≠ .resetNAsserted ∧
    exec (.memWriteData 0) live = .next live ∧ (∃ t, exec (.symbolInUp .idle) live = .next t) :=
  ⟨rfl, nofun, nofun, nofun, rfl, _, rfl⟩

theorem test_witness_EngineFrames : (∃ t, exec .grantFrame (replied .grant 0 [1] opening) = .next t) ∧
    (replied .grant 0 [1] opening).rau.handover = some (.frame .grant (header 0x31 2 0 0) [1]) ∧
    (∃ t, exec .returnedFrame (handed (.returned (header 0x21 2 0 6)) live) = .next t) ∧
    (∃ t, exec (.pauseTimerExpiry 2) (withRun paused) = .next t) ∧
    (∃ t, exec .blockFrame (ends .ahead .intact bound) = .next t) ∧
    (∃ t, exec .cancelFrame (handed (.frame .cancel (header 0x23 1 0 0) []) (withPort bound)) = .next t) ∧
    (∃ t, exec (.idleTimerExpiry 1) (withPort bound) = .next t) :=
  ⟨⟨_, rfl⟩, rfl, ⟨_, rfl⟩, ⟨_, rfl⟩, ⟨_, rfl⟩, ⟨_, rfl⟩, _, rfl⟩

theorem test_witness_LocalFrames : (∃ t, exec (.command []) live = .next t) ∧ (∃ t, exec .logReadDone live = .next t) ∧
    (∃ t, exec (.memWriteData 0) live = .next t) ∧ (∃ t, exec .transactionEnd live = .next t) ∧
    (∃ t, exec .softReset live = .next t) := ⟨⟨_, rfl⟩, ⟨_, rfl⟩, ⟨_, rfl⟩, ⟨_, rfl⟩, _, rfl⟩

/-- A tick of the part after a hardware reset. -/
theorem test_witness_step : step State.reset = .next (tick State.reset) := rfl

theorem test_witness_MemoryStaysCanonical : State.reset.mem.wf = true ∧ ∃ t, step State.reset = .next t := ⟨rfl, _, rfl⟩

theorem test_witness_LogStaysInOrder : LogOk State.reset.log ∧ ∃ t, step State.reset = .next t :=
  ⟨by simp [LogOk, State.reset], _, rfl⟩

theorem test_witness_QueuesStayWithinCapacity : QueuesOk State.reset ∧ ∃ t, step State.reset = .next t :=
  ⟨by simp [QueuesOk, State.reset, Rau.reset, Rau.passBytes], _, rfl⟩

theorem test_witness_ReceiverStaysInRange : ReceiverOk State.reset ∧ ∃ t, step State.reset = .next t :=
  ⟨by simp [ReceiverOk, State.reset, Receiver.reset, Rau.reset], _, rfl⟩

theorem runsOk_reset : RunsOk State.reset := by simp [RunsOk, State.reset, Rau.reset]

theorem regionsOk_reset : RegionsOk State.reset := by
  simp [RegionsOk, State.reset, portRegions, fencedBanks, portFenced]

theorem test_witness_RunTableStaysInOrder : RunsOk State.reset ∧ ∃ t, step State.reset = .next t := ⟨runsOk_reset, _, rfl⟩

theorem test_witness_RegionsStayApart : RegionsOk State.reset ∧ ∃ t, step State.reset = .next t :=
  ⟨regionsOk_reset, _, rfl⟩

theorem test_witness_SilentStaysQuiet : RunsOk State.reset ∧ SilentOk (silent State.reset) ∧
    (silent live).rollCall.silent = true ∧ Instr.transactionEnd ≠ .resetNAsserted ∧
    exec .transactionEnd (silent live) = .next (silent live) :=
  ⟨runsOk_reset, by simp [SilentOk, silent, State.reset, Rau.reset], rfl, nofun, rfl⟩

theorem test_witness_EveryStepCompletes : Safe State.reset :=
  ⟨runsOk_reset, regionsOk_reset, by simp [AccessOk, State.reset, Rau.reset, LocalPort.reset]⟩

end Sys2Proof.Tests
end

section
/-! The statements of chapter 1 about frames in reception (O9, O11) and about the header decision (O12, O13). A symbol
acts on the RAU through `abandon`, `endFrame` and `bodyByte`, and a decision through `decide98` and `enterPass`: each of
them gets its equations once, and the statements are put together from these. -/

namespace Sys2Proof.Machine

open Sys2Proof

/-! ### The end of a frame in the pass FIFO -/

theorem forwards_iff (d : Decision) : d.forwards = true ↔ d = .forward ∨ d = .copy true := by
  cases d <;> simp [Decision.forwards]

/-- The pass FIFO after the end of a frame of decision `d`: only a forwarded frame has its note there (R101). -/
def Decision.noted (e : FrameEnd) (d : Decision) (l : List PassFrame) : List PassFrame :=
  if d.forwards then noteEnd e l else l

theorem noted_of_forwards {d : Decision} (h : d.forwards = true) (e : FrameEnd) (front : List PassFrame)
    (f : PassFrame) : d.noted e (front ++ [f]) = front ++ [{ f with ended := some e }] := by
  rw [Decision.noted, if_pos h, noteEnd_append]

theorem noted_of_not_forwards {d : Decision} (h : d.forwards = false) (e : FrameEnd) (l : List PassFrame) :
    d.noted e l = l := by
  rw [Decision.noted, h]; rfl

theorem handoverAtAbandon_of_forwards {d : Decision} (h : d.forwards = true) (hd : Header) :
    handoverAtAbandon d hd = none := by
  rcases (forwards_iff d).mp h with rfl | rfl <;> rfl

theorem handover_of_receiving {s : State} (hs : s.receiving) : s.rau.handover = none := by
  obtain ⟨-, -, hnone⟩ := hs
  exact hnone

theorem handing_eq (r : Rau) (x : Option Handover) : r.handing x = { r with handover := x.or r.handover } := by
  cases x <;> rfl

/-- A runt goes nowhere (R97, R103). -/
theorem abandon_undecided {r : Rau} {q : Reception} (hr : r.reception = some q) (hd : q.decision = none) :
    abandon r = { r with reception := none } := by
  simp only [abandon, hr, hd]

theorem abandon_decided {r : Rau} {q : Reception} {d : Decision} (hr : r.reception = some q)
    (hd : q.decision = some d) :
    abandon r = { r with reception := none,
                         handover := (handoverAtAbandon d (headerOf q.header)).or r.handover,
                         passFifo := d.noted .abort r.passFifo } := by
  simp only [abandon, hr, hd, handing_eq, Decision.noted]
  cases d.forwards <;> rfl

theorem endFrame_decided (own : Byte) {q : Reception} {d : Decision} (hd : q.decision = some d) (r : Rau) :
    endFrame own q r = { r with reception := none,
                                handover := (handoverAtEof own d (headerOf q.header) q).or r.handover,
                                passFifo := d.noted .eof r.passFifo } := by
  simp only [endFrame, hd, handing_eq, Decision.noted]
  cases d.forwards <;> rfl

/-! ### A frame that is cut (R2, R103, R105, R139) -/

/-- Whatever cuts the frame in reception leaves `x` handed over and `pass` in the pass FIFO: a further SOF, which opens
the next frame, an IDLE, ABORT or invalid symbol, and the loss of the link. -/
def CutsTo (s : State) (x : Option Handover) (pass : List PassFrame) : Prop :=
  let cut (next : Option Reception) : State :=
    { s with rau := { s.rau with reception := next, handover := x, passFifo := pass } }
  exec (.symbolInUp .sof) s = .next (countInUp .sof (cut (some newReception))) ∧
  (∀ sym, sym = .idle ∨ sym = .abort ∨ sym = .invalid → exec (.symbolInUp sym) s = .next (countInUp sym (cut none))) ∧
  (s.rx.quiet.isSome → exec .quietTimerExpiry s =
    .next { cut none with rx := Receiver.reset, log := postTo s.log .linkDown })

theorem symbolToRau_cut {sym : Symbol} (h : sym = .idle ∨ sym = .abort ∨ sym = .invalid) (s : State) :
    symbolToRau sym s = .ok (setRau (abandon s.rau) s) := by
  rcases h with rfl | rfl | rfl <;> rfl

theorem linkDown_of_up {s : State} (h : s.rx.state = .up) :
    linkDown s = { s with rx := Receiver.reset, log := postTo s.log .linkDown, rau := abandon s.rau } := by
  rw [linkDown_eq, linkDown_rau, linkDown_log, if_pos h, if_pos h]

theorem cutsTo_abandon {s : State} {q : Reception} (hs : s.receiving) (hr : s.rau.reception = some q)
    (hq : q.undecided = false) : CutsTo s (abandon s.rau).handover (abandon s.rau).passFifo := by
  refine ⟨?sof, fun sym hsym => ?cut, fun hquiet => ?lost⟩
  case sof =>
    rw [exec_symbolInUp_frame s _ .sof q hs hr hq rfl, abandon_eq]; rfl
  case cut =>
    rw [exec_symbolInUp_frame s _ sym q hs hr hq (symbolToRau_cut hsym s), abandon_eq]; rfl
  case lost =>
    rw [exec_quietTimerExpiry s (by simp [hs.1]) hquiet, settle_decided s q (handover_of_receiving hs) hr hq,
      linkDown_of_up hs.1, abandon_eq]

theorem cutsTo_undecided {s : State} {q : Reception} (hs : s.receiving) (hr : s.rau.reception = some q)
    (hd : q.decision = none) (hl : q.header.length < 12) : CutsTo s s.rau.handover s.rau.passFifo := by
  have h := cutsTo_abandon hs hr (undecided_of_short q hl)
  rwa [abandon_undecided hr hd] at h

theorem cutsTo_decided {s : State} {q : Reception} {d : Decision} (hs : s.receiving)
    (hr : s.rau.reception = some q) (hd : q.decision = some d) :
    CutsTo s (handoverAtAbandon d (headerOf q.header)) (d.noted .abort s.rau.passFifo) := by
  have h := cutsTo_abandon hs hr (undecided_of_decision q d hd)
  rwa [abandon_decided hr hd, handover_of_receiving hs, Option.or_none] at h

/-! ### A frame that ends by EOF (R100, R101) -/

/-- EOF ends the frame in reception and leaves `x` handed over and `pass` in the pass FIFO. -/
def EofLeaves (s : State) (x : Option Handover) (pass : List PassFrame) : Prop :=
  exec (.symbolInUp .eof) s = .next (countInUp .eof
    { s with rau := { s.rau with reception := none, handover := x, passFifo := pass } })

theorem eofLeaves_decided {s : State} {q : Reception} {d : Decision} (hs : s.receiving)
    (hr : s.rau.reception = some q) (hd : q.decision = some d) :
    EofLeaves s (handoverAtEof s.own d (headerOf q.header) q) (d.noted .eof s.rau.passFifo) := by
  have h : symbolToRau .eof s = .ok (setRau (endFrame s.own q s.rau) s) := by simp only [symbolToRau, hr]
  rw [EofLeaves, exec_symbolInUp_frame s _ .eof q hs hr (undecided_of_decision q d hd) h, endFrame_decided s.own hd,
    handover_of_receiving hs, Option.or_none]
  rfl

theorem eofLeaves_undecided {s : State} {q : Reception} (hs : s.receiving) (hr : s.rau.reception = some q)
    (hd : q.decision = none) (hl : q.header.length < 12) : EofLeaves s s.rau.handover s.rau.passFifo := by
  have h : symbolToRau .eof s = .ok (setRau { s.rau with reception := none } s) := by
    simp only [symbolToRau, hr, endFrame, hd]
  exact exec_symbolInUp_frame s _ .eof q hs hr (undecided_of_short q hl) h

/-! ### A data byte (R97, R100, R104) -/

theorem exec_data_header {s : State} {q : Reception} (b : Byte) (hs : s.receiving) (hr : s.rau.reception = some q)
    (hd : q.decision = none) (hl : q.header.length < 12) :
    exec (.symbolInUp (.data b)) s = .next (countInUp (.data b)
      (setReception { q with header := q.header ++ [b], count := q.count + 1 } s)) := by
  have h : symbolToRau (.data b) s =
      .ok (setReception { q with header := q.header ++ [b], count := q.count + 1 } s) := by
    simp only [symbolToRau, dataByte, hr, hd, if_pos hl]
  exact exec_symbolInUp_frame s _ _ q hs hr (undecided_of_short q hl) h

/-- The data byte `b` leaves `next` in reception, `x` handed over and `pass` in the pass FIFO. -/
def DataLeaves (b : Byte) (s : State) (next : Option Reception) (x : Option Handover) (pass : List PassFrame) : Prop :=
  exec (.symbolInUp (.data b)) s = .next (countInUp (.data b)
    { s with rau := { s.rau with reception := next, handover := x, passFifo := pass } })

theorem exec_data_decided {s t : State} {q : Reception} {d : Decision} {b : Byte} (hs : s.receiving)
    (hr : s.rau.reception = some q) (hd : q.decision = some d) (h : bodyByte b d q s = .ok t) :
    exec (.symbolInUp (.data b)) s = .next (countInUp (.data b) t) := by
  refine exec_symbolInUp_frame s t _ q hs hr (undecided_of_decision q d hd) ?_
  simp only [symbolToRau, dataByte, hr, hd, h]

section
variable {s : State} {q : Reception} {d : Decision} {b : Byte} (hs : s.receiving) (hr : s.rau.reception = some q)
  (hd : q.decision = some d)
include hs hr hd

theorem dataLeaves_keeps {next : Reception} (h : bodyByte b d q s = .ok (setReception next s)) :
    DataLeaves b s (some next) none s.rau.passFifo := by
  rw [← handover_of_receiving hs]; exact exec_data_decided hs hr hd h

theorem dataLeaves_abandons (h : bodyByte b d q s = .ok (setRau (abandon s.rau) s)) :
    DataLeaves b s none (handoverAtAbandon d (headerOf q.header)) (d.noted .abort s.rau.passFifo) := by
  rw [DataLeaves, exec_data_decided hs hr hd h, abandon_decided hr hd, handover_of_receiving hs, Option.or_none]; rfl

/-- A byte for which the pass FIFO has room enters it (R104). -/
theorem dataLeaves_enters {next : Reception} {front : List PassFrame} {f : PassFrame}
    (h : bodyByte b d q s = .ok (passByte b next s)) (hf : s.rau.passFifo = front ++ [f])
    (hroom : s.rau.passBytes < 1104) :
    DataLeaves b s (some next) none (front ++ [{ f with bytes := f.bytes ++ [b] }]) := by
  have hpass : passByte b next s = setRau { s.rau with passFifo := appendByte b s.rau.passFifo,
                                                       reception := some next } s := if_pos hroom
  rw [hpass, hf, appendByte_append] at h
  rw [← handover_of_receiving hs]; exact exec_data_decided hs hr hd h

/-- A byte that finds the pass FIFO full abandons the frame (R104). -/
theorem dataLeaves_overflows {next : Reception} {front : List PassFrame} {f : PassFrame}
    (h : bodyByte b d q s = .ok (passByte b next s)) (hd' : d.forwards = true) (hf : s.rau.passFifo = front ++ [f])
    (hfull : 1104 ≤ s.rau.passBytes) : DataLeaves b s none none (front ++ [{ f with ended := some .abort }]) := by
  have hpass : passByte b next s = setRau (abandon s.rau) s := if_neg (Nat.not_lt.mpr hfull)
  have hleaves := dataLeaves_abandons hs hr hd (h.trans (congrArg Except.ok hpass))
  rwa [handoverAtAbandon_of_forwards hd', hf, noted_of_forwards hd'] at hleaves

end

theorem bodyByte_strip_kept (b : Byte) {k : Strip} (q : Reception) (s : State)
    (hk : ∀ w, k ≠ .block (.expected w)) (h : q.count + 1 < 1041) :
    bodyByte b (.strip k) q s = .ok (setReception { q with count := q.count + 1, body := q.body ++ [b] } s) := by
  have hlimit : ¬ Config.stripLimit ≤ q.count + 1 := Nat.not_le.mpr h
  simp only [bodyByte, if_neg hlimit]
  split
  · exact absurd rfl (hk _)
  all_goals rfl

theorem bodyByte_strip_full (b : Byte) (k : Strip) (q : Reception) (s : State) (h : 1041 ≤ q.count + 1) :
    bodyByte b (.strip k) q s = .ok (setRau (abandon s.rau) s) :=
  if_pos h

/-! ### Frames in reception -/

/-- Settles O9: what cuts a frame goes through `abandon`, its EOF through `endFrame`, a data byte through `bodyByte`. -/
theorem frameReception : Obligations.FrameReception := by
  unfold Obligations.FrameReception
  refine ⟨fun s hs hr => ?opens, fun s q b hs hr hd hl => exec_data_header b hs hr hd hl,
    fun s q front f b hs hr hd hf => ?forwarded, fun s q sym hs hr hd hl hsym => ?runt,
    fun s q hs hr hd hl => ?runtCut, fun s q d hs hr hd => ?decided⟩
  case opens =>
    have h : symbolToRau .sof s = .ok (setRau { s.rau with reception := some newReception } s) := by
      simp only [symbolToRau, abandon_none s.rau hr]
    exact exec_symbolInUp_idle s _ .sof hs hr h
  case forwarded =>
    have hnoted (e : FrameEnd) : Decision.forward.noted e s.rau.passFifo = front ++ [{ f with ended := some e }] := by
      rw [hf, noted_of_forwards rfl]
    have heof := eofLeaves_decided hs hr hd
    have hcuts := cutsTo_decided hs hr hd
    rw [hnoted] at heof hcuts
    refine ⟨fun hroom => ?enters, fun hfull => ?overflows, ?ends, ?cut⟩
    case enters =>
      have h := dataLeaves_enters hs hr hd (b := b) rfl hf hroom
      rwa [← handover_of_receiving hs] at h
    case overflows =>
      have h := dataLeaves_overflows hs hr hd (b := b) rfl rfl hf hfull
      rwa [← handover_of_receiving hs] at h
    case ends =>
      have hnone : handoverAtEof s.own .forward (headerOf q.header) q = s.rau.handover := (handover_of_receiving hs).symm
      rwa [hnone] at heof
    case cut =>
      have hnone : handoverAtAbandon .forward (headerOf q.header) = s.rau.handover := (handover_of_receiving hs).symm
      rw [hnone] at hcuts
      obtain ⟨-, hcut, hlost⟩ := hcuts
      exact ⟨hcut, hlost⟩
  case runt =>
    obtain ⟨-, hcut, -⟩ := cutsTo_undecided hs hr hd hl
    rcases hsym with rfl | hsym
    · exact eofLeaves_undecided hs hr hd hl
    · exact hcut sym hsym
  case runtCut =>
    obtain ⟨hsof, -, hlost⟩ := cutsTo_undecided hs hr hd hl
    exact ⟨hsof, hlost⟩
  case decided =>
    intro opened told cuts
    have htold : told = handoverAtAbandon d (headerOf q.header) := by
      cases d with
      | strip k => cases k <;> rfl
      | drop | forward | copy => rfl
    have hcuts : CutsTo s told (d.noted .abort s.rau.passFifo) := by
      rw [htold]; exact cutsTo_decided hs hr hd
    refine ⟨fun hforward hcopy => ?cutsUnforwarded, fun front f hd' hf => ?cutsForwarded,
      fun b => ⟨?dropped, ?copied, ?copiedForwarded, ?stripped, ?strippedFull⟩⟩
    case cutsUnforwarded =>
      have hd' : d.forwards = false := by
        rw [← Bool.not_eq_true, forwards_iff]; exact fun h => h.elim hforward hcopy
      rwa [noted_of_not_forwards hd'] at hcuts
    case cutsForwarded => rwa [hf, noted_of_forwards ((forwards_iff d).mpr hd')] at hcuts
    case dropped =>
      rintro rfl
      exact dataLeaves_keeps hs hr hd rfl
    case copied =>
      rintro rfl
      exact dataLeaves_keeps hs hr hd rfl
    case copiedForwarded =>
      rintro front f rfl hf
      exact ⟨dataLeaves_enters hs hr hd rfl hf, dataLeaves_overflows hs hr hd rfl rfl hf⟩
    case stripped =>
      rintro k rfl hk hcount
      exact dataLeaves_keeps hs hr hd (bodyByte_strip_kept b q s hk hcount)
    case strippedFull =>
      rintro k rfl hcount
      have h := dataLeaves_abandons hs hr hd (bodyByte_strip_full b k q s hcount)
      rwa [← htold, noted_of_not_forwards rfl] at h

/-! ### What the tests of R15 ask of a frame at its EOF -/

/-- The data-byte count agrees with Len, and the payload check, where there is one, with the payload (R1, tests 6 and 7
of R15). -/
def Whole (h : Header) (q : Reception) : Prop :=
  q.count = (if h.len.toNat = 0 then 12 else 16 + h.len.toNat) ∧
    (h.len = 0 ∨ word32At q.body h.len.toNat = crc32 (q.body.take h.len.toNat))

theorem whole_iff (h : Header) (q : Reception) :
    (consistent h.len q.count && payloadIntact h.len q.body) = true ↔ Whole h q := by
  rw [Bool.and_eq_true, consistent_iff, payloadIntact_iff, Whole]

/-- What R15 asks of a control frame of kind `k` for the station `own`. -/
def ControlPasses (own : Byte) (k : Kind) (h : Header) (q : Reception) : Prop :=
  k ≠ .roll ∧ h.src.toNat < 16 ∧ h.src ≠ own ∧ (k.readsSeq = true → h.seq.toNat < 8) ∧
    k.requiredLen = some h.len.toNat ∧ Whole h q

/-- What R15 asks of a ROLL. -/
def RollPasses (h : Header) (q : Reception) : Prop :=
  h.kind = 0x70 ∧ h.src.toNat < 16 ∧ h.len = 8 ∧ Whole h q

theorem controlValid_iff (k : Kind) (h : Header) (q : Reception) : controlValid k h q = true ↔
    (k.readsSeq = true → h.seq.toNat < 8) ∧ k.requiredLen = some h.len.toNat ∧ Whole h q := by
  rw [controlValid, Bool.and_assoc, Bool.and_eq_true, whole_iff]
  simp only [Bool.and_eq_true, Bool.or_eq_true, Bool.not_eq_true', decide_eq_true_eq, and_assoc]
  cases k.readsSeq <;> simp

theorem rollValid_iff (h : Header) (q : Reception) : rollValid h q = true ↔ RollPasses h q := by
  have hlen : (8 : Nat) = h.len.toNat ↔ h.len = 8 :=
    ⟨fun e => BitVec.eq_of_toNat_eq e.symm, fun e => by rw [e]; rfl⟩
  simp only [rollValid, Bool.and_eq_true, decide_eq_true_eq, controlValid_iff, kindOf_eq_some, RollPasses,
    Kind.code, Kind.readsSeq, Kind.requiredLen, Option.some.injEq, hlen]
  tauto

theorem controlHandover_of_kind (own : Byte) {h : Header} {k : Kind} (hk : kindOf h.kind = some k) (q : Reception) :
    (ControlPasses own k h q → controlHandover own h q = some (.frame k h (q.body.take h.len.toNat))) ∧
    (¬ControlPasses own k h q → controlHandover own h q = none) := by
  have htests : (h.src.toNat < 16 && h.src ≠ own && k ≠ .roll && controlValid k h q) = true ↔
      ControlPasses own k h q := by
    simp only [Bool.and_eq_true, decide_eq_true_eq, controlValid_iff, ControlPasses]
    tauto
  simp only [controlHandover, hk]
  exact ⟨fun hp => if_pos (htests.mpr hp), fun hp => if_neg (mt htests.mp hp)⟩

theorem controlHandover_unknown (own : Byte) {h : Header} (hk : kindOf h.kind = none) (q : Reception) :
    controlHandover own h q = none := by
  simp only [controlHandover, hk]

theorem blockEndOf_whole {h : Header} {q : Reception} (hw : Whole h q) : blockEndOf h q = .intact :=
  if_pos ((whole_iff h q).mpr hw)

theorem blockEndOf_not_whole {h : Header} {q : Reception} (hw : ¬Whole h q) : blockEndOf h q = .damaged :=
  if_neg (mt (whole_iff h q).mp hw)

theorem handoverAtEof_copy (own : Byte) (forwarded : Bool) {h : Header} {q : Reception} :
    (RollPasses h q → handoverAtEof own (.copy forwarded) h q = some (.roll h (q.body.take h.len.toNat))) ∧
    (¬RollPasses h q → handoverAtEof own (.copy forwarded) h q = none) :=
  ⟨fun hp => if_pos ((rollValid_iff h q).mpr hp), fun hp => if_neg (mt (rollValid_iff h q).mp hp)⟩

theorem handoverAtEof_ownBeacon (own : Byte) {h : Header} {q : Reception} :
    (RollPasses h q → handoverAtEof own (.strip .ownBeacon) h q = some (.ownRoll h (q.body.take h.len.toNat))) ∧
    (¬RollPasses h q → handoverAtEof own (.strip .ownBeacon) h q = none) :=
  ⟨fun hp => if_pos ((rollValid_iff h q).mpr hp), fun hp => if_neg (mt (rollValid_iff h q).mp hp)⟩

/-! ### Frames at their EOF -/

theorem kindOf_table (b : Byte) (k : Kind) : kindOf b = some k ↔
    (b, k) ∈ [((0x10 : Byte), Kind.block), (0x21, .open_), (0x22, .finish), (0x23, .cancel), (0x31, .grant),
      (0x32, .refuse), (0x41, .taken), (0x42, .resume), (0x43, .busy), (0x44, .halted), (0x45, .closed),
      (0x70, .roll)] := by
  rw [kindOf_eq_some]
  cases k <;> simp [Kind.code]

theorem requiredLen_table (k : Kind) (n : Nat) : k.requiredLen = some n ↔
    (k, n) ∈ [(Kind.open_, 6), (.finish, 6), (.cancel, 0), (.grant, 1), (.refuse, 1), (.taken, 0), (.resume, 0),
      (.busy, 0), (.halted, 1), (.closed, 4), (.roll, 8)] := by
  cases k <;> simp [Kind.requiredLen, eq_comm]

theorem readsSeq_iff (k : Kind) : k.readsSeq = true ↔ k = .block ∨ k = .taken ∨ k = .resume ∨ k = .busy := by
  cases k <;> decide

/-- A decided frame that is not forwarded leaves at its EOF what `handoverAtEof` says, and nothing else. -/
theorem eofLeaves_of_not_forwards {s : State} {q : Reception} {d : Decision} {x : Option Handover} (hs : s.receiving)
    (hr : s.rau.reception = some q) (hd : q.decision = some d) (hd' : d.forwards = false)
    (hx : handoverAtEof s.own d (headerOf q.header) q = x) : EofLeaves s x s.rau.passFifo := by
  have h := eofLeaves_decided hs hr hd
  rwa [hx, noted_of_not_forwards hd'] at h

/-- A frame that is forwarded also gets its note in the pass FIFO (R101). -/
theorem eofLeaves_of_forwards {s : State} {q : Reception} {d : Decision} {x : Option Handover}
    {front : List PassFrame} {f : PassFrame} (hs : s.receiving) (hr : s.rau.reception = some q)
    (hd : q.decision = some d) (hd' : d.forwards = true) (hf : s.rau.passFifo = front ++ [f])
    (hx : handoverAtEof s.own d (headerOf q.header) q = x) :
    EofLeaves s x (front ++ [{ f with ended := some .eof }]) := by
  have h := eofLeaves_decided hs hr hd
  rwa [hx, hf, noted_of_forwards hd'] at h

theorem not_controlPasses {own : Byte} {k : Kind} {h : Header} {q : Reception}
    (hf : k = .roll ∨ 16 ≤ h.src.toNat ∨ h.src = own ∨ (k.readsSeq = true ∧ 8 ≤ h.seq.toNat) ∨
      k.requiredLen ≠ some h.len.toNat ∨ ¬Whole h q) : ¬ControlPasses own k h q := by
  rintro ⟨hroll, hsrc, hown, hseq, hlen, hwhole⟩
  rcases hf with h | h | h | ⟨hreads, h⟩ | h | h
  · exact hroll h
  · exact Nat.not_lt.mpr h hsrc
  · exact hown h
  · exact Nat.not_lt.mpr h (hseq hreads)
  · exact h hlen
  · exact h hwhole

theorem not_rollPasses {h : Header} {q : Reception}
    (hf : h.kind ≠ 0x70 ∨ 16 ≤ h.src.toNat ∨ h.len ≠ 8 ∨ ¬Whole h q) : ¬RollPasses h q := by
  rintro ⟨hkind, hsrc, hlen, hwhole⟩
  rcases hf with h | h | h | h
  · exact h hkind
  · exact Nat.not_lt.mpr h hsrc
  · exact h hlen
  · exact h hwhole

/-- Settles O11: `eofLeaves_decided`, with what `handoverAtEof` answers for each decision. -/
theorem frameEndHandsOver : Obligations.FrameEndHandsOver := by
  unfold Obligations.FrameEndHandsOver
  refine ⟨kindOf_table, requiredLen_table, readsSeq_iff, fun s q hs hr => ?_⟩
  intro h payload whole ends
  have hstays {d : Decision} {x : Option Handover} (hd : q.decision = some d) (hd' : d.forwards = false)
      (hx : handoverAtEof s.own d h q = x) : ends x := eofLeaves_of_not_forwards hs hr hd hd' hx
  refine ⟨?control, ?unknownKind, ?roll, ?badCopy, ?rollForwarded, ?badForwarded, ?badOwnBeacon, ?nothing, ?ownBeacon,
    ?returned, ?blockIntact, ?blockDamaged⟩
  case control =>
    intro hd k hk _
    obtain ⟨hpasses, hfails⟩ := controlHandover_of_kind s.own hk q
    exact ⟨fun hp => hstays hd rfl (hpasses hp), fun hf => hstays hd rfl (hfails (not_controlPasses hf))⟩
  case unknownKind => exact fun hd hk => hstays hd rfl (controlHandover_unknown s.own hk q)
  case roll =>
    exact fun hd hkind hsrc hlen hwhole =>
      hstays hd rfl ((handoverAtEof_copy s.own false).1 ⟨hkind, hsrc, hlen, hwhole⟩)
  case badCopy => exact fun hd hf => hstays hd rfl ((handoverAtEof_copy s.own false).2 (not_rollPasses hf))
  case rollForwarded =>
    exact fun front f hd hf hkind hsrc hlen hwhole =>
      eofLeaves_of_forwards hs hr hd rfl hf ((handoverAtEof_copy s.own true).1 ⟨hkind, hsrc, hlen, hwhole⟩)
  case badForwarded =>
    intro front f hd hf hbad
    have hleaves := eofLeaves_of_forwards hs hr hd rfl hf ((handoverAtEof_copy s.own true).2 (not_rollPasses hbad))
    rwa [← handover_of_receiving hs] at hleaves
  case badOwnBeacon => exact fun hd hf => hstays hd rfl ((handoverAtEof_ownBeacon s.own).2 (not_rollPasses hf))
  case nothing =>
    rintro (hd | hd)
    · exact hstays hd rfl rfl
    · exact hstays hd rfl rfl
  case ownBeacon =>
    exact fun hd hkind hsrc hlen hwhole =>
      hstays hd rfl ((handoverAtEof_ownBeacon s.own).1 ⟨hkind, hsrc, hlen, hwhole⟩)
  case returned => exact fun hd => hstays hd rfl rfl
  case blockIntact =>
    exact fun c hd hw => hstays hd rfl (congrArg (fun e => some (Handover.block h c e)) (blockEndOf_whole hw))
  case blockDamaged =>
    exact fun c hd hw => hstays hd rfl (congrArg (fun e => some (Handover.block h c e)) (blockEndOf_not_whole hw))

/-! ### The header decision (R98, R99) -/

theorem decide98_control {h : Header} {s : State} (hdest : h.dest = s.own) (hkind : h.kind ≠ 0x10) :
    decide98 h s = (.strip .control, s) := by
  have hk : kindOf h.kind ≠ some .block := fun e => hkind ((kindOf_eq_some _ _).mp e)
  rw [decide98, if_pos hdest, stripOwn, if_neg hk]

theorem decide98_discarded {h : Header} {s : State} (hdest : h.dest = s.own) (hkind : h.kind = 0x10)
    (hbad : 16 ≤ h.src.toNat ∨ h.src = s.own ∨ 8 ≤ h.seq.toNat ∨ s.rollCall.silent = true) :
    decide98 h s = (.strip .discarded, s) := by
  have hk : kindOf h.kind = some .block := (kindOf_eq_some _ _).mpr hkind
  have hunusable : (blockUnusable h s.own || s.rollCall.silent) = true := by
    simpa [blockUnusable, or_assoc] using hbad
  rw [decide98, if_pos hdest, stripOwn, if_pos hk, if_pos hunusable]

theorem decide98_ownBeacon {h : Header} {s : State} (hdest : h.dest = 0xFF) (hsrc : h.src = s.own) :
    decide98 h s = (.strip .ownBeacon, s) := by
  have hown : h.dest ≠ s.own := fun e => own_ne_broadcast s (e.symm.trans hdest)
  rw [decide98, if_neg hown, if_pos hdest, if_pos hsrc]

theorem decide98_copy {h : Header} {s : State} {may : Bool} (hdest : h.dest = 0xFF) (hsrc : h.src ≠ s.own)
    (hmay : mayForward h s = may) : decide98 h s = (.copy may, s) := by
  have hown : h.dest ≠ s.own := fun e => own_ne_broadcast s (e.symm.trans hdest)
  rw [decide98, if_neg hown, if_pos hdest, if_neg hsrc, hmay]

theorem decide98_returned {h : Header} {s : State} (hdest : h.dest ≠ 0xFF) (hown : h.dest ≠ s.own)
    (hsrc : h.src = s.own) : decide98 h s = (.strip .returned, s) := by
  rw [decide98, if_neg hown, if_neg hdest, if_pos hsrc]

theorem decide98_forward {h : Header} {s : State} (hdest : h.dest ≠ 0xFF) (hown : h.dest ≠ s.own)
    (hsrc : h.src ≠ s.own) (hmay : mayForward h s = true) : decide98 h s = (.forward, s) := by
  rw [decide98, if_neg hown, if_neg hdest, if_neg hsrc, if_pos hmay]

theorem decide98_drop {h : Header} {s : State} (hdest : h.dest ≠ 0xFF) (hown : h.dest ≠ s.own)
    (hsrc : h.src ≠ s.own) (hmay : mayForward h s = false) : decide98 h s = (.drop, s) := by
  rw [decide98, if_neg hown, if_neg hdest, if_neg hsrc, hmay]; rfl

theorem mayForward_iff (h : Header) (s : State) : mayForward h s = true ↔ 2 ≤ h.hops.toNat ∧ s.tx.state = .run := by
  rw [mayForward, Bool.and_eq_true, decide_eq_true_eq, decide_eq_true_eq]

theorem mayForward_eq_false {h : Header} {s : State} (hstays : h.hops.toNat < 2 ∨ s.tx.state ≠ .run) :
    mayForward h s = false := by
  rw [← Bool.not_eq_true, mayForward_iff]
  rintro ⟨hhops, hrun⟩
  exact hstays.elim (Nat.not_lt.mpr hhops) (absurd hrun)

theorem ne_broadcast_of_lt {b : Byte} (h : b.toNat < 16) : b ≠ 0xFF := by
  rintro rfl
  exact absurd h (by decide)

/-- The state in which R98 is asked about the frame: the yield hold of R115 is settled before. -/
def State.yielded (s : State) (q : Reception) : State :=
  setRau (s.rau.yieldOn s.straps.stn (headerOf q.header).flags) s

/-- A decision that leaves the frame out of the pass FIFO. -/
theorem exec_headerDecision_of_not_forwards {s : State} {q : Reception} {d : Decision} (hq : s.waits q)
    (hv : (headerOf q.header).valid = true)
    (hd : decide98 (headerOf q.header) (s.yielded q) = (d, s.yielded q)) (hd' : d.forwards = false) :
    exec .headerDecision s = .next (s.decidedAs q d) := by
  rw [exec_headerDecision s q hq, decideHeader_valid s q hv hd, hd']; rfl

/-- A decision that puts the frame into the pass FIFO. -/
theorem exec_headerDecision_of_forwards {s : State} {q : Reception} {d : Decision} (hq : s.waits q)
    (hv : (headerOf q.header).valid = true)
    (hd : decide98 (headerOf q.header) (s.yielded q) = (d, s.yielded q)) (hd' : d.forwards = true) :
    exec .headerDecision s = .next (setRau
      (enterPass (forwardHeader (headerOf q.header) (s.yielded q)).bytes (s.decidedAs q d).rau) (s.decidedAs q d)) := by
  rw [exec_headerDecision s q hq, decideHeader_valid s q hv hd, hd']; rfl

/-- Settles O12, row by row of R98. -/
theorem headerDecisionTable : Obligations.HeaderDecisionTable := by
  unfold Obligations.HeaderDecisionTable
  intro s q hq h stays
  refine ⟨fun hbad => ?invalid, fun hintact => ?rows⟩
  case invalid =>
    have hv : h.valid = false := by
      rw [← Bool.not_eq_true, valid_iff]
      rintro ⟨hintact, hdest⟩
      rcases hbad with hbad | ⟨hlarge, hbroadcast⟩
      · exact hbad hintact
      · exact hdest.elim (Nat.not_lt.mpr hlarge) hbroadcast
    rw [exec_headerDecision s q hq, decideHeader_invalid s q hv]
  case rows =>
    have hrow {d : Decision} (hdest : h.dest.toNat < 16 ∨ h.dest = 0xFF)
        (hd : decide98 h (s.yielded q) = (d, s.yielded q)) (hd' : d.forwards = false) :
        exec .headerDecision s = .next (s.decidedAs q d) :=
      exec_headerDecision_of_not_forwards hq ((valid_iff h).mpr ⟨hintact, hdest⟩) hd hd'
    have hlt (hdest : h.dest = s.own) : h.dest.toNat < 16 := by rw [hdest]; exact own_lt s
    refine ⟨fun hdest hkind => ?control, fun hdest hkind hbad => ?discarded, fun hdest hsrc => ?ownBeacon,
      fun hdest hsrc hstays => ?copy, fun hdest hown hsrc => ?returned, fun hdest hown hsrc hstays => ?drop⟩
    case control => exact hrow (.inl (hlt hdest)) (decide98_control hdest hkind) rfl
    case discarded => exact hrow (.inl (hlt hdest)) (decide98_discarded hdest hkind hbad) rfl
    case ownBeacon => exact hrow (.inr hdest) (decide98_ownBeacon hdest hsrc) rfl
    case copy => exact hrow (.inr hdest) (decide98_copy hdest hsrc (mayForward_eq_false hstays)) rfl
    case returned => exact hrow (.inl hdest) (decide98_returned (ne_broadcast_of_lt hdest) hown hsrc) rfl
    case drop =>
      exact hrow (.inl hdest) (decide98_drop (ne_broadcast_of_lt hdest) hown hsrc (mayForward_eq_false hstays)) rfl

/-! ### The header of a forwarded frame (R99, R101, R114) -/

/-- The Flags byte a forwarded frame leaves with, in the masks of R177. -/
theorem forwardFlags_eq (marking : Bool) (stn : BitVec 4) (flags : Byte) : forwardFlags marking stn flags =
    if flags.getLsbD 7 = true ∨ marking = false then flags else 0x80 ||| (flags &&& 0x70) ||| stn.setWidth 8 := by
  have hmark : yieldMark flags = flags.getLsbD 7 := BitVec.msb_eq_getLsbD_last flags
  rw [forwardFlags, hmark, markFlags_eq]
  cases flags.getLsbD 7 <;> cases marking <;> rfl

theorem forwardHeader_bytes (dest src kind flags hops port tag seq l1 l0 c1 c0 : Byte) (s : State) :
    (forwardHeader (headerOf [dest, src, kind, flags, hops, port, tag, seq, l1, l0, c1, c0]) s).bytes =
      [dest, src, kind, forwardFlags s.rau.marking s.straps.stn flags, hops - 1, port, tag, seq, l1, l0, c1, c0] := by
  show _ ++ bytes16 (l1 ++ l0) ++ bytes16 (c1 ++ c0) = _
  rw [bytes16_append, bytes16_append]; rfl

theorem decidedAs_passBytes (s : State) (q : Reception) (d : Decision) :
    (s.decidedAs q d).rau.passBytes = s.rau.passBytes :=
  yieldOn_passBytes s.rau s.straps.stn _

theorem decidedAs_passFifo (s : State) (q : Reception) (d : Decision) :
    (s.decidedAs q d).rau.passFifo = s.rau.passFifo :=
  yieldOn_passFifo s.rau s.straps.stn _

/-- Settles O13: the decision is to forward, the header bytes are those of `forwardHeader`, and `enterPass` stores as
many as there is room for. -/
theorem forwardedHeader : Obligations.ForwardedHeader := by
  unfold Obligations.ForwardedHeader
  intro s q dest src kind flags hops port tag seq l1 l0 c1 c0 hq hbytes hintact hdest hown hsrc hhops hrun flags' frame d
    t room
  have hframe : (forwardHeader (headerOf q.header) (s.yielded q)).bytes = frame.bytes := by
    have hmarking : (s.yielded q).rau.marking = s.rau.marking := yieldOn_marking s.rau s.straps.stn _
    rw [hbytes, forwardHeader_bytes, forwardFlags_eq, hmarking]; rfl
  obtain ⟨rfl, rfl, rfl⟩ : (headerOf q.header).dest = dest ∧ (headerOf q.header).src = src ∧
      (headerOf q.header).hops = hops := by rw [hbytes]; exact ⟨rfl, rfl, rfl⟩
  have hmay : mayForward (headerOf q.header) (s.yielded q) = true := (mayForward_iff _ _).mpr ⟨hhops, hrun⟩
  have hd : decide98 (headerOf q.header) (s.yielded q) = (d, s.yielded q) := by
    by_cases hall : (headerOf q.header).dest = 0xFF
    · rw [show d = .copy true from if_pos hall]; exact decide98_copy hall hsrc hmay
    · rw [show d = .forward from if_neg hall]; exact decide98_forward hall hown hsrc hmay
  have hd' : d.forwards = true := by
    rw [forwards_iff]; exact (ite_eq_or_eq _ _ _).symm
  have hexec : exec .headerDecision s = .next (setRau (enterPass frame.bytes t.rau) t) := by
    rw [← hframe]
    exact exec_headerDecision_of_forwards hq ((valid_iff _).mpr ⟨hintact, hdest.symm⟩) hd hd'
  have hpass : t.rau.passBytes = s.rau.passBytes := decidedAs_passBytes s q d
  have hfifo : t.rau.passFifo = s.rau.passFifo := decidedAs_passFifo s q d
  have hlen : frame.bytes.length = 12 := rfl
  refine ⟨fun hroom => ?fits, fun hsome hless => ?partly, fun hnone => ?full⟩
  case fits =>
    rw [hexec, enterPass_fits _ _ (by omega), hfifo]; rfl
  case partly =>
    rw [hexec, enterPass_full _ _ (by omega) (by omega), hpass, hfifo, if_neg (by omega)]; rfl
  case full =>
    rw [hexec, enterPass_full _ _ (by omega) (by omega), hpass, if_pos hnone, List.append_nil]; rfl

end Sys2Proof.Machine
end

section
/-! What every step keeps, for the statements about the queues and the Run Table (O54, O56, O60). An invariant of every
step is three facts: the queue of commands is no part of it, a REFCLK period keeps it, and every command keeps it. The
commands fall into three families, each with one law: the engines and the Command Unit change what `CoreStep` says, the
rows that take a frame are one delivery, and the rows beside the RAU change neither the RAU nor the Run Table. -/

namespace Sys2Proof.Machine

open Sys2Proof

/-! ### A step -/

/-- An invariant that the waiting commands have no part in, and that every REFCLK period and every command keep, is kept
by every step. -/
theorem step_keeps {P : State → Prop} (hwaiting : ∀ s q, P s → P { s with pending := q })
    (htick : ∀ s, P s → P (tick s)) (hexec : ∀ c s t, P s → exec c s = .next t → P t) {s t : State} (hs : P s)
    (h : step s = .next t) : P t := by
  unfold step at h
  split at h
  · exact hexec _ _ _ (hwaiting _ _ hs) h
  · cases h; exact htick s hs

/-! ### The rows that take a frame (R52, R100) -/

/-- The rows by which an engine takes what the RAU handed over. -/
def takesHandover : Instr → Bool
  | .openFrame | .finishFrame | .cancelFrame | .blockFrame | .grantFrame | .refuseFrame | .takenFrame | .resumeFrame
  | .busyFrame | .haltedFrame | .closedFrame | .returnedFrame | .rollFrame | .ownBeacon => true
  | _ => false

/-- A row that finds nothing of its own handed over changes nothing (log 3). -/
theorem exec_otherRow {c : Instr} {s : State} (hc : takesHandover c = true)
    (hx : ∀ x, s.rau.handover = some x → x.row ≠ some c) : exec c s = .next s := by
  cases c <;> first | (cases hc; done) | skip
  all_goals
    simp only [exec, execOpenFrame, execFinishFrame, execCancelFrame, execBlockFrame, execGrantFrame, execRefuseFrame,
      execTakenFrame, execResumeFrame, execBusyFrame, execHaltedFrame, execClosedFrame, execReturnedFrame,
      execRollFrame, execOwnBeacon]
    split
    · exact absurd rfl (hx _ (by assumption))
    · rfl

/-- A row that takes a frame delivers it, or changes nothing. -/
theorem exec_takesHandover {c : Instr} {s t : State} (hc : takesHandover c = true) (h : exec c s = .next t) :
    t = s ∨ t = deliverPending s := by
  by_cases hx : ∃ x, s.rau.handover = some x ∧ x.row = some c
  · obtain ⟨x, hx, hrow⟩ := hx
    rw [exec_row hx hrow] at h
    cases h; exact .inr rfl
  · rw [exec_otherRow hc fun x hh hrow => hx ⟨x, hh, hrow⟩] at h
    cases h; exact .inl rfl

theorem exec_quietTimerExpiry_cases {s t : State} (h : exec .quietTimerExpiry s = .next t) :
    t = s ∨ t = linkDown (settle s) := by
  change execQuietTimerExpiry s = .next t at h
  unfold execQuietTimerExpiry at h
  split at h <;> cases h
  · exact .inr rfl
  · exact .inl rfl

/-! ### The rows beside the RAU -/

/-- The rows of the Local Port, the release of RESET_N, and the symbols taken before the receiver is UP. -/
def besideRau : Instr → Bool
  | .resetNReleased _ _ _ _ | .symbolInDown _ | .symbolInAlign _ | .command _ | .logRead | .logReadDone | .memWrite _ _
  | .memWriteData _ | .memWriteClose | .memRead _ _ | .memReadData | .inspect _ _ | .transactionIgnored _
  | .transactionEnd => true
  | _ => false

/-- The command FIFO is within its capacity, and a record has sixteen bytes (R148). -/
def FifoOk (l : List (List Byte)) : Prop := l.length ≤ 8 ∧ ∀ r ∈ l, r.length = 16

/-- The RAU and the Run Table are as they were, and the command FIFO stays within its capacity. -/
structure BesideRau (s t : State) : Prop where
  rau : t.rau = s.rau
  slots : t.slots = s.slots
  fifo : FifoOk s.commandFifo → FifoOk t.commandFifo

theorem BesideRau.refl (s : State) : BesideRau s s := ⟨rfl, rfl, id⟩

theorem releaseReset_besideRau (stn rsz : BitVec 4) (tcl : BitVec 2) (low : Bool) (s : State) :
    BesideRau s (releaseReset stn rsz tcl low s) := by
  unfold releaseReset
  split
  · exact ⟨rfl, rfl, id⟩
  · exact .refl s

theorem takeInDown_besideRau (sym : Symbol) (s : State) : BesideRau s (takeInDown sym s) := by
  unfold takeInDown
  split
  · exact ⟨rfl, rfl, id⟩
  · exact .refl s

/-- The loss of the link reaches the RAU from UP only (R139). -/
theorem takeInAlign_besideRau (sym : Symbol) {s : State} (h : s.rx.state = .align) :
    BesideRau s (takeInAlign sym s) := by
  have hdown : BesideRau s (linkDown s) :=
    ⟨by rw [linkDown_rau, h]; rfl, linkDown_slots s, by rw [linkDown_commandFifo]; exact id⟩
  unfold takeInAlign
  dsimp only
  split
  · exact hdown
  split
  · exact ⟨rfl, rfl, id⟩
  · exact ⟨rfl, rfl, id⟩

/-- A record joins the FIFO where there is room for it, cut to sixteen bytes (R147). -/
theorem enqueueCommand_besideRau (bytes : List Byte) (s : State) : BesideRau s (enqueueCommand bytes s) := by
  unfold enqueueCommand
  split
  · exact .refl s
  rename_i hlong
  split
  · rename_i hroom
    have hroom : s.commandFifo.length < 8 := hroom
    refine ⟨rfl, rfl, fun ⟨_, hrecords⟩ => ⟨?_, fun r hr => ?_⟩⟩
    · rw [List.length_append, List.length_singleton]; exact hroom
    · rcases List.mem_append.1 hr with hr | hr
      · exact hrecords r hr
      · rw [List.mem_singleton.1 hr, List.length_take]; omega
  · exact ⟨rfl, rfl, id⟩

theorem commandRise_besideRau (bytes : List Byte) (s : State) : BesideRau s (commandRise bytes s) := by
  unfold commandRise
  repeat' split
  · exact .refl s
  · exact ⟨rfl, rfl, id⟩
  · obtain ⟨hrau, hslots, hfifo⟩ := enqueueCommand_besideRau bytes (riseOfCs s)
    exact ⟨hrau, hslots, hfifo⟩

theorem startLogRead_besideRau (s : State) : BesideRau s (startLogRead s) := by
  unfold startLogRead
  split
  · exact ⟨rfl, rfl, id⟩
  · exact .refl s

theorem finishLogRead_besideRau (s : State) : BesideRau s (finishLogRead s) := by
  unfold finishLogRead removeCopied
  repeat' split
  all_goals exact ⟨rfl, rfl, id⟩

theorem outcome_eq_next {x : Except Fault State} {t : State} : outcome x = .next t ↔ x = .ok t := by
  cases x <;> simp [outcome]

theorem writeData_besideRau {b : Byte} {s t : State} (h : writeData b s = .ok t) : BesideRau s t := by
  unfold writeData writeByte at h
  repeat' split at h
  all_goals cases h
  all_goals first
    | exact ⟨rfl, rfl, id⟩
    | (rename_i hw; split at hw <;> cases hw; exact ⟨rfl, rfl, id⟩)

theorem readData_besideRau {s t : State} (h : readData s = .ok t) : BesideRau s t := by
  unfold readData at h
  repeat' split at h
  all_goals cases h
  all_goals exact ⟨rfl, rfl, id⟩

theorem exec_besideRau {c : Instr} {s t : State} (hc : besideRau c = true) (h : exec c s = .next t) :
    BesideRau s t := by
  have guarded {p : Prop} [Decidable p] {u : State} (hu : p → BesideRau s u)
      (h : (if p then .next u else .next s : Host.Outcome State Fault Refusal) = .next t) : BesideRau s t := by
    split at h <;> cases h
    · exact hu (by assumption)
    · exact .refl s
  cases c <;> first | (cases hc; done) | skip
  case resetNReleased => cases h; exact releaseReset_besideRau _ _ _ _ s
  case symbolInDown => exact guarded (fun _ => takeInDown_besideRau _ s) h
  case symbolInAlign => exact guarded (fun hp => takeInAlign_besideRau _ hp.1) h
  case command => cases h; exact commandRise_besideRau _ s
  case logRead => cases h; exact startLogRead_besideRau s
  case logReadDone => cases h; exact finishLogRead_besideRau s
  case memWriteData => exact writeData_besideRau (outcome_eq_next.1 h)
  case memReadData => exact readData_besideRau (outcome_eq_next.1 h)
  case transactionEnd =>
    change (if s.resetLow = true then .next s else .next (riseOfCs s)) = Host.Outcome.next t at h
    split at h <;> cases h <;> exact ⟨rfl, rfl, id⟩
  all_goals
    refine guarded ?_ h
    exact fun _ => ⟨rfl, rfl, id⟩

end Sys2Proof.Machine
end

section
/-! The queues and FIFOs (O54). The command FIFO shrinks by a command taken and grows by a COMMAND; the own queues grow
by offers and grants alone, which `CoreStep` counts; the pass FIFO and the header buffer grow by one data byte or by one
forwarded header, each stored only where there is room (R96, R104). -/

namespace Sys2Proof.Machine

open Sys2Proof

/-! ### The command FIFO (R148) -/

theorem fifoOk_nil : FifoOk [] := ⟨Nat.zero_le _, nofun⟩

theorem FifoOk.tail {r : List Byte} {rest : List (List Byte)} (h : FifoOk (r :: rest)) : FifoOk rest := by
  obtain ⟨hlen, hrecords⟩ := h
  exact ⟨Nat.le_trans (Nat.le_succ _) hlen, fun x hx => hrecords x (List.mem_cons_of_mem _ hx)⟩

theorem rollReaches_commandFifo (h : Header) (x : List Byte) (s : State) :
    (rollReaches h x s).commandFifo = s.commandFifo := by
  unfold rollReaches
  dsimp only
  repeat' split
  all_goals rfl

theorem ownRollReaches_commandFifo (x : List Byte) (s : State) :
    (ownRollReaches x s).commandFifo = s.commandFifo := by
  have hreturns : (beaconReturns s).commandFifo = s.commandFifo := by
    unfold beaconReturns
    dsimp only
    split <;> rfl
  obtain ⟨z, _, hz, hkept, -⟩ := enterSilent_spec s
  have hsilent : (enterSilent s).commandFifo = s.commandFifo := by
    rw [hz]; exact hkept.commandFifo
  unfold ownRollReaches
  repeat' split
  · rfl
  · rfl
  · exact hreturns
  · exact hsilent

theorem deliverPending_commandFifo (s : State) : (deliverPending s).commandFifo = s.commandFifo := by
  unfold deliverPending
  split
  · rfl
  · exact (delivered_engineStep (frameReaches_engineStep _ _ _) s).commandFifo
  · exact (delivered_engineStep (fun s => (blockEnds_portStep _ _ _ s).toEngineStep) s).commandFifo
  · exact (delivered_engineStep (fun s => CoreStep.ofRun (returnedReaches_runStep _ s)) s).commandFifo
  · exact rollReaches_commandFifo _ _ _
  · exact ownRollReaches_commandFifo _ _

theorem offerBeacon_commandFifo (s : State) : (offerBeacon s).commandFifo = s.commandFifo :=
  offer_commandFifo _ s

theorem firstBeacon_commandFifo (s : State) : (firstBeacon s).commandFifo = s.commandFifo := by
  unfold firstBeacon
  split
  · rfl
  · exact offerBeacon_commandFifo _

theorem beaconPeriodExpires_commandFifo (s : State) : (beaconPeriodExpires s).commandFifo = s.commandFifo := by
  have hcheck : (presenceCheck s).1.commandFifo = s.commandFifo := (presenceCheck_spec s).1.commandFifo
  unfold beaconPeriodExpires
  generalize presenceCheck s = check at hcheck ⊢
  split
  · dsimp only
    split
    · exact hcheck
    · exact (offerBeacon_commandFifo _).trans hcheck
  · rfl

theorem grantPlace_commandFifo (s : State) : (grantPlace s).commandFifo = s.commandFifo := by
  unfold grantPlace
  repeat' split
  all_goals rfl

theorem startRunTaken_commandFifo (r : List Byte) (s : State) : (startRunTaken r s).commandFifo = s.commandFifo := by
  unfold startRunTaken
  dsimp only
  repeat' split
  all_goals first
    | rfl
    | exact offer_commandFifo _ _

/-- A command leaves the FIFO with its own record taken, or as it was. -/
theorem takeCommand_fifoOk {test : Byte → Bool} {f : List Byte → State → State}
    (hf : ∀ r s, (f r s).commandFifo = s.commandFifo) {s : State} (hs : FifoOk s.commandFifo) :
    FifoOk (takeCommand test f s).commandFifo := by
  rcases takeCommand_cases test f s with h | ⟨r, rest, ⟨_, _, hfifo⟩, _, h⟩
  · rw [h]; exact hs
  · rw [h, hf]
    rw [hfifo] at hs
    exact hs.tail

/-- The commands of the engines, of the Roll Call Unit and of the Command Unit add nothing to the command FIFO. -/
theorem exec_coreCommand_fifoOk {c : Instr} {s t : State} (hc : coreCommand c = true) (hs : FifoOk s.commandFifo)
    (h : exec c s = .next t) : FifoOk t.commandFifo := by
  by_cases htakes : takesHandover c = true
  · rcases exec_takesHandover htakes h with rfl | rfl
    · exact hs
    · rw [deliverPending_commandFifo]; exact hs
  have same {u : State} (hu : u.commandFifo = s.commandFifo) : FifoOk u.commandFifo := by rw [hu]; exact hs
  cases c <;> first | (cases hc; done) | exact absurd rfl htakes | skip
  case beaconPeriodExpiry => cases h; exact same (beaconPeriodExpires_commandFifo s)
  case answerExpiryOpening i => cases h; exact same (answerExpiresOpening_runStep i s).commandFifo
  case answerExpiryStreaming i => cases h; exact same (answerExpiresStreaming_runStep i s).commandFifo
  case answerExpiryClosing i => cases h; exact same (answerExpiresClosing_runStep i s).commandFifo
  case probeTimerExpiry i => cases h; exact same (probeExpires_runStep i s).commandFifo
  case pauseTimerExpiry i => cases h; exact same (pauseExpires_runStep i s).commandFifo
  case idleTimerExpiry i => cases h; exact same (idleExpires_portStep i s).commandFifo
  case dataQueueGrant => cases h; exact same (grantPlace_commandFifo s)
  case startRun => cases h; exact takeCommand_fifoOk startRunTaken_commandFifo hs
  case cancelRun => cases h; exact takeCommand_fifoOk (fun r s => (cancelRunTaken_engineStep r s).commandFifo) hs
  case openPort => cases h; exact takeCommand_fifoOk (fun r s => (openPortTaken_engineStep r s).commandFifo) hs
  case releaseBank => cases h; exact takeCommand_fifoOk (fun r s => (releaseBankTaken_engineStep r s).commandFifo) hs
  case haltPort => cases h; exact takeCommand_fifoOk (fun r s => (haltPortTaken_engineStep r s).commandFifo) hs
  case unhaltPort => cases h; exact takeCommand_fifoOk (fun r s => (unhaltPortTaken_engineStep r s).commandFifo) hs
  case closePort => cases h; exact takeCommand_fifoOk (fun r s => (closePortTaken_engineStep r s).commandFifo) hs
  case unknownCommand => cases h; exact takeCommand_fifoOk (fun r s => (EngineStep.reject r _ s).commandFifo) hs

/-! ### The pass FIFO and the header buffer (R96, R104) -/

/-- The pass FIFO and the header buffer are within their capacities. -/
def PassOk (r : Rau) : Prop := r.passBytes ≤ 1104 ∧ ∀ q, r.reception = some q → q.header.length ≤ 12

theorem passBytes_def (r : Rau) : r.passBytes = (r.passFifo.map fun f => f.bytes.length).sum := rfl

theorem abandon_passBytes (r : Rau) : (abandon r).passBytes = r.passBytes := by
  cases hr : r.reception with
  | none => rw [abandon_none r hr]
  | some q =>
    cases hd : q.decision with
    | none => rw [abandon_undecided hr hd]; rfl
    | some d =>
      rw [abandon_decided hr hd]
      show ((d.noted .abort r.passFifo).map fun f => f.bytes.length).sum = _
      unfold Decision.noted
      split
      · exact noteEnd_bytes _ _
      · rfl

theorem endFrame_passBytes (own : Byte) (q : Reception) (r : Rau) : (endFrame own q r).passBytes = r.passBytes := by
  cases hd : q.decision with
  | none => unfold endFrame; rw [hd]; rfl
  | some d =>
    rw [endFrame_decided own hd]
    show ((d.noted .eof r.passFifo).map fun f => f.bytes.length).sum = _
    unfold Decision.noted
    split
    · exact noteEnd_bytes _ _
    · rfl

/-- A frame that ends or is cut leaves its bytes where they are, and the header buffer empty. -/
theorem PassOk.ended {r r' : Rau} (h : PassOk r) (hbytes : r'.passBytes = r.passBytes) (hnone : r'.reception = none) :
    PassOk r' :=
  ⟨hbytes ▸ h.1, fun q hq => by rw [hnone] at hq; cases hq⟩

theorem PassOk.abandon {r : Rau} (h : PassOk r) : PassOk (abandon r) :=
  h.ended (abandon_passBytes r) (abandon_reception r)

theorem PassOk.endFrame {r : Rau} (h : PassOk r) (own : Byte) (q : Reception) : PassOk (endFrame own q r) :=
  h.ended (endFrame_passBytes own q r) (by rw [endFrame_eq])

/-- Another frame is in reception, with a header within its buffer. -/
theorem PassOk.receive {r : Rau} (h : PassOk r) {q : Reception} (hq : q.header.length ≤ 12) :
    PassOk { r with reception := some q } :=
  ⟨h.1, fun _ e => by cases e; exact hq⟩

theorem passByte_passOk (b : Byte) {q : Reception} {s : State} (h : PassOk s.rau) (hq : q.header.length ≤ 12) :
    PassOk (passByte b q s).rau := by
  unfold passByte
  split
  · rename_i hroom
    have hroom : s.rau.passBytes < 1104 := hroom
    exact ⟨Nat.le_trans (appendByte_bytes_le b s.rau.passFifo) hroom, fun _ e => by cases e; exact hq⟩
  · exact h.abandon

theorem bankWrite_rau {b : Byte} {w w' : BankWrite} {s t : State} (h : bankWrite b w s = .ok (w', t)) :
    t.rau = s.rau := by
  obtain ⟨-, -, ht, -⟩ := bankWrite_ok h
  rw [ht]

theorem bodyByte_passOk {b : Byte} {d : Decision} {q : Reception} {s t : State} (h : bodyByte b d q s = .ok t)
    (hs : PassOk s.rau) (hq : q.header.length ≤ 12) : PassOk t.rau := by
  unfold bodyByte at h
  dsimp only at h
  cases d with
  | drop => cases h; exact hs.receive hq
  | forward => cases h; exact passByte_passOk b hs hq
  | copy forwarded =>
    cases forwarded <;> cases h
    · exact hs.receive hq
    · exact passByte_passOk b hs hq
  | strip k =>
    dsimp only at h
    split at h
    · cases h; exact hs.abandon
    split at h
    · split at h
      · rename_i hwrite
        cases h
        have hs' := bankWrite_rau hwrite ▸ hs
        exact hs'.receive hq
      · cases h
    all_goals cases h; exact hs.receive hq

theorem dataByte_passOk {b : Byte} {s t : State} (h : dataByte b s = .ok t) (hs : PassOk s.rau) : PassOk t.rau := by
  unfold dataByte at h
  split at h
  · cases h; exact hs
  rename_i q hreception
  have hq := hs.2 q hreception
  split at h
  · exact bodyByte_passOk h hs hq
  split at h
  · rename_i hshort
    cases h
    refine hs.receive ?_
    rw [List.length_append, List.length_singleton]; exact hshort
  · cases h; exact hs

theorem symbolToRau_passOk {sym : Symbol} {s t : State} (h : symbolToRau sym s = .ok t) (hs : PassOk s.rau) :
    PassOk t.rau := by
  cases sym with
  | data b => exact dataByte_passOk h hs
  | sof => cases h; exact hs.abandon.receive (Nat.zero_le 12)
  | eof =>
    unfold symbolToRau at h
    dsimp only at h
    split at h <;> cases h
    · exact hs.endFrame _ _
    · exact hs
  | idle | abort | invalid => cases h; exact hs.abandon

theorem enterPass_passOk (bs : List Byte) {r : Rau} (h : PassOk r) : PassOk (enterPass bs r) := by
  have hsum (f : PassFrame) : ({ r with passFifo := r.passFifo ++ [f] } : Rau).passBytes =
      r.passBytes + f.bytes.length := by simp [passBytes_def]
  obtain ⟨hbytes, hheader⟩ := h
  unfold enterPass
  dsimp only
  split
  · rename_i hroom
    have hroom : bs.length ≤ 1104 - r.passBytes := hroom
    refine ⟨?_, hheader⟩
    rw [hsum]
    show r.passBytes + bs.length ≤ 1104
    omega
  · refine ⟨?_, nofun⟩
    split
    · rw [List.append_nil]; exact hbytes
    · have htake : (bs.take (1104 - r.passBytes)).length ≤ 1104 - r.passBytes := List.length_take_le _ _
      refine Nat.le_trans (Nat.le_of_eq (hsum _)) ?_
      show r.passBytes + (bs.take (1104 - r.passBytes)).length ≤ 1104
      omega

theorem decideHeader_passOk {q : Reception} {s : State} (hs : PassOk s.rau) (hq : q.header.length ≤ 12) :
    PassOk (decideHeader q s).rau := by
  cases hv : (headerOf q.header).valid with
  | false => rw [decideHeader_invalid s q hv]; exact hs.receive hq
  | true =>
    rw [decideHeader_valid s q hv (d := (decide98 _ _).1) (t := (decide98 _ _).2) rfl]
    have hyield : PassOk (s.rau.yieldOn s.straps.stn (headerOf q.header).flags) := by
      rw [yieldOn_eq]; exact hs
    have hrau : PassOk (decide98 (headerOf q.header)
        (setRau (s.rau.yieldOn s.straps.stn (headerOf q.header).flags) s)).2.rau := by
      rw [decide98_eq]; exact hyield
    split
    · exact enterPass_passOk _ (hrau.receive hq)
    · exact hrau.receive hq

theorem decidePending_passOk {s : State} (hs : PassOk s.rau) : PassOk (decidePending s).rau := by
  unfold decidePending
  split
  · rename_i q hreception
    split
    · exact decideHeader_passOk hs (hs.2 q hreception)
    · exact hs
  · exact hs

theorem CoreStep.passOk {s t : State} (h : CoreStep s t) (hs : PassOk s.rau) : PassOk t.rau := by
  unfold PassOk at hs ⊢
  rw [passBytes_def, h.passFifo, h.reception]
  exact hs

theorem linkDown_passOk {s : State} (hs : PassOk s.rau) : PassOk (linkDown s).rau := by
  rw [linkDown_rau]
  split
  · exact hs.abandon
  · exact hs

/-! ### The own queues (R24, R106) -/

/-- The control queue and the data queue are within their capacities. -/
def OwnQueuesOk (r : Rau) : Prop := r.controlQueue.length ≤ 16 ∧ r.dataQueue.length ≤ 8

theorem CoreStep.ownQueuesOk {s t : State} (h : CoreStep s t) (hs : OwnQueuesOk s.rau) : OwnQueuesOk t.rau :=
  ⟨h.control hs.1, h.data hs.2⟩

/-! ### All of them -/

theorem queuesOk_iff (s : State) : QueuesOk s ↔ OwnQueuesOk s.rau ∧ PassOk s.rau ∧ FifoOk s.commandFifo := by
  unfold QueuesOk OwnQueuesOk PassOk FifoOk
  tauto

/-- A command keeps the queues where it leaves no more of anything in the RAU, and the command FIFO as it was. -/
theorem QueuesOk.shrink {s t : State} (hs : QueuesOk s)
    (hcontrol : t.rau.controlQueue.length ≤ s.rau.controlQueue.length)
    (hdata : t.rau.dataQueue.length ≤ s.rau.dataQueue.length) (hpass : t.rau.passBytes ≤ s.rau.passBytes)
    (hreception : t.rau.reception = s.rau.reception) (hfifo : t.commandFifo = s.commandFifo) : QueuesOk t := by
  rw [queuesOk_iff] at hs ⊢
  obtain ⟨⟨hc, hd⟩, ⟨hp, hr⟩, hf⟩ := hs
  exact ⟨⟨hcontrol.trans hc, hdata.trans hd⟩, ⟨hpass.trans hp, hreception ▸ hr⟩, hfifo ▸ hf⟩

theorem QueuesOk.coreStep {s t : State} (hs : QueuesOk s) (h : CoreStep s t) (hfifo : FifoOk t.commandFifo) :
    QueuesOk t := by
  rw [queuesOk_iff] at hs ⊢
  obtain ⟨hown, hpass, -⟩ := hs
  exact ⟨h.ownQueuesOk hown, h.passOk hpass, hfifo⟩

theorem QueuesOk.deliverPending {s : State} (hs : QueuesOk s) : QueuesOk (deliverPending s) :=
  hs.coreStep (deliverPending_coreStep s) ((deliverPending_commandFifo s).symm ▸ ((queuesOk_iff s).1 hs).2.2)

theorem QueuesOk.decidePending {s : State} (hs : QueuesOk s) : QueuesOk (decidePending s) := by
  rw [queuesOk_iff] at hs ⊢
  obtain ⟨hown, hpass, hfifo⟩ := hs
  have hshape : DecisionShape s (Machine.decidePending s) := decidePending_shape s
  unfold DecisionShape at hshape
  exact ⟨by rw [hshape]; exact hown, decidePending_passOk hpass, by rw [hshape]; exact hfifo⟩

theorem QueuesOk.settle {s : State} (hs : QueuesOk s) : QueuesOk (settle s) := hs.deliverPending.decidePending

theorem QueuesOk.linkDown {s : State} (hs : QueuesOk s) : QueuesOk (linkDown s) := by
  rw [queuesOk_iff] at hs ⊢
  obtain ⟨hown, hpass, hfifo⟩ := hs
  exact ⟨by rw [linkDown_keeps]; exact hown, linkDown_passOk hpass, (linkDown_commandFifo s).symm ▸ hfifo⟩

theorem QueuesOk.countInUp {s : State} (hs : QueuesOk s) (sym : Symbol) : QueuesOk (countInUp sym s) := by
  rcases countInUp_cases sym s with h | h <;> rw [h]
  · exact hs.linkDown
  · exact hs

theorem QueuesOk.symbolToRau {s t : State} {sym : Symbol} (hs : QueuesOk s) (h : symbolToRau sym s = .ok t) :
    QueuesOk t := by
  rw [queuesOk_iff] at hs ⊢
  obtain ⟨hown, hpass, hfifo⟩ := hs
  have hshape : SymbolShape s t := symbolToRau_shape h
  unfold SymbolShape at hshape
  exact ⟨by rw [hshape]; exact hown, symbolToRau_passOk h hpass, by rw [hshape]; exact hfifo⟩

theorem queuesOk_reset : QueuesOk State.reset := by
  rw [queuesOk_iff]
  exact ⟨⟨Nat.zero_le _, Nat.zero_le _⟩, ⟨Nat.zero_le _, nofun⟩, fifoOk_nil⟩

theorem firstBeacon_queuesOk {s : State} (hs : QueuesOk s) : QueuesOk (firstBeacon s) :=
  hs.coreStep (.firstBeacon s) (by rw [firstBeacon_commandFifo]; exact ((queuesOk_iff s).1 hs).2.2)

theorem startPeriodExpires_queuesOk {s : State} (hs : QueuesOk s) : QueuesOk (startPeriodExpires s) := by
  unfold startPeriodExpires
  split
  · exact firstBeacon_queuesOk (s := { s with tx := { state := .run, startTimer := none } }) hs
  · exact hs

theorem endForward_queuesOk {s : State} (hs : QueuesOk s) : QueuesOk (endForward s) := by
  unfold endForward
  split
  · rename_i f rest hout hfifo
    split
    · refine hs.shrink (Nat.le_refl _) (Nat.le_refl _) ?_ rfl rfl
      simp only [passBytes_def, hfifo, List.map_cons, List.sum_cons]
      exact Nat.le_add_left _ _
    · exact hs
  · exact hs

theorem endInsertion_queuesOk {s : State} (hs : QueuesOk s) : QueuesOk (endInsertion s) := by
  have hreport {u : State} (hu : QueuesOk u) (i : Fin 8) : QueuesOk (blockInsertionEnds i u) := by
    have h := blockInsertionEnds_runStep i u
    exact hu.coreStep h.toCoreStep (h.commandFifo.symm ▸ ((queuesOk_iff u).1 hu).2.2)
  unfold endInsertion
  split
  · dsimp only
    split
    · refine hreport ?_ _
      exact hs
    · exact hs
  all_goals exact hs

theorem exec_insertionStart_queuesOk {s t : State} (hs : QueuesOk s) (h : exec .insertionStart s = .next t) :
    QueuesOk t := by
  rcases exec_insertionStart_cases h with rfl | ⟨-, ⟨f, rest, hq, rfl⟩ | ⟨e, rest, r, p, -, hd, -, -, rfl⟩⟩
  · exact hs
  · refine hs.shrink ?_ (Nat.le_refl _) (Nat.le_refl _) rfl rfl
    rw [hq]; exact Nat.le_succ _
  · refine hs.shrink (Nat.le_refl _) ?_ (Nat.le_refl _) rfl rfl
    rw [hd]; exact Nat.le_succ _

theorem softReset_queuesOk {s : State} (hs : QueuesOk s) :
    QueuesOk (takeCommand (fun c => c = codeSoftReset) (fun _ t => softResetTaken t) s) := by
  rcases takeCommand_cases (fun c => c = codeSoftReset) (fun _ t => softResetTaken t) s with
    h | ⟨r, rest, ⟨_, _, hfifo⟩, _, h⟩ <;> rw [h]
  · exact hs
  · rw [queuesOk_iff] at hs ⊢
    obtain ⟨-, hpass, hf⟩ := hs
    rw [hfifo] at hf
    rw [softResetTaken_eq]
    exact ⟨⟨Nat.zero_le _, Nat.zero_le _⟩, hpass, hf.tail⟩

theorem exec_queuesOk {c : Instr} {s t : State} (hs : QueuesOk s) (h : exec c s = .next t) : QueuesOk t := by
  by_cases hcore : coreCommand c = true
  · exact hs.coreStep (exec_coreStep hcore h) (exec_coreCommand_fifoOk hcore ((queuesOk_iff s).1 hs).2.2 h)
  by_cases hbeside : besideRau c = true
  · obtain ⟨hrau, -, hfifo⟩ := exec_besideRau hbeside h
    rw [queuesOk_iff] at hs ⊢
    obtain ⟨hown, hpass, hf⟩ := hs
    exact ⟨hrau ▸ hown, hrau ▸ hpass, hfifo hf⟩
  cases c <;> first | exact absurd rfl hcore | exact absurd rfl hbeside | skip
  case resetNAsserted => cases h; exact queuesOk_reset
  case startPeriodExpiry => cases h; exact startPeriodExpires_queuesOk hs
  case symbolInUp sym =>
    rcases exec_symbolInUp_cases h with rfl | ⟨u, hu, rfl⟩
    · exact hs
    · exact (hs.settle.symbolToRau hu).countInUp sym
  case quietTimerExpiry =>
    rcases exec_quietTimerExpiry_cases h with rfl | rfl
    · exact hs
    · exact hs.settle.linkDown
  case headerDecision => cases h; exact hs.decidePending
  case forwardStart =>
    cases h
    unfold startForward
    repeat' split
    all_goals exact hs
  case forwardEnd => cases h; exact endForward_queuesOk hs
  case insertionStart => exact exec_insertionStart_queuesOk hs h
  case insertionEnd => cases h; exact endInsertion_queuesOk hs
  case yieldThresholdExpiry =>
    cases h
    unfold thresholdExpires
    split <;> exact hs
  case yieldHoldExpiry =>
    cases h
    unfold holdExpires
    split <;> exact hs
  case softReset => cases h; exact softReset_queuesOk hs

/-- A symbol that is sent takes at most one byte out of the pass FIFO. -/
theorem emitSymbol_queuesOk {s : State} (hs : QueuesOk s) : QueuesOk (emitSymbol s) := by
  have hbyte {f : PassFrame} {fs : List PassFrame} {b : Byte} {bs : List Byte} (hfifo : s.rau.passFifo = f :: fs)
      (hf : f.bytes = b :: bs) : ({ s.rau with passFifo := { f with bytes := bs } :: fs } : Rau).passBytes ≤
        s.rau.passBytes := by
    simp only [passBytes_def, hfifo, List.map_cons, List.sum_cons, hf, List.length_cons]
    omega
  unfold emitSymbol
  repeat' split
  · exact hs
  · exact hs
  · exact hs
  · unfold emitForwarded
    repeat' split
    all_goals first
      | exact hs
      | exact hs.shrink (Nat.le_refl _) (Nat.le_refl _) (hbyte (by assumption) (by assumption)) rfl rfl
  · unfold emitInserted
    split <;> exact hs

theorem tick_queuesOk {s : State} (hs : QueuesOk s) : QueuesOk (tick s) := by
  have hsymbol : QueuesOk (tickSymbol (tickTimers s)) := by
    have htimers : QueuesOk (tickTimers s) := hs
    unfold tickSymbol
    split
    · exact htimers
    · exact emitSymbol_queuesOk htimers
  obtain ⟨_, _, hbus, -⟩ := tickBus_spec (tickSymbol (tickTimers s))
  unfold tick
  rw [hbus]; exact hsymbol

/-- Settles O54: a REFCLK period takes at most a byte out of a queue, and every command keeps the capacities. -/
theorem queuesStayWithinCapacity : Obligations.QueuesStayWithinCapacity :=
  fun _ _ => step_keeps (fun _ _ h => h) (fun _ h => tick_queuesOk h) fun _ _ _ h hexec => exec_queuesOk h hexec

end Sys2Proof.Machine
end

section
/-! The Run Table and the data queue (O56), and the invariants right after a hardware reset (O60). Every operation of
the Run Engine has its law in Laws/Runs; the Port Engine and the rows beside the RAU do not touch the Run Table. -/

namespace Sys2Proof.Machine

open Sys2Proof

theorem firstBeacon_runsOk {s : State} (hs : RunsOk s) : RunsOk (firstBeacon s) := by
  unfold firstBeacon
  split
  · exact hs
  · exact offerBeacon_runsOk _ (setRollCall_runsOk _ _ hs)

theorem startPeriodExpires_runsOk {s : State} (hs : RunsOk s) : RunsOk (startPeriodExpires s) := by
  unfold startPeriodExpires
  split
  · exact setRollCall_runsOk _ _
      (firstBeacon_runsOk (s := { s with tx := { state := .run, startTimer := none } }) (runsOk_same hs rfl rfl rfl))
  · exact hs

theorem linkDown_runsOk {s : State} (hs : RunsOk s) : RunsOk (linkDown s) :=
  runsOk_same hs (linkDown_slots s) (by rw [linkDown_keeps]) (by rw [linkDown_keeps])

theorem countInUp_runsOk (sym : Symbol) {s : State} (hs : RunsOk s) : RunsOk (countInUp sym s) := by
  rcases countInUp_cases sym s with h | h <;> rw [h]
  · exact linkDown_runsOk hs
  · exact runsOk_same hs rfl rfl rfl

theorem symbolToRau_runsOk {sym : Symbol} {s t : State} (hs : RunsOk s) (h : symbolToRau sym s = .ok t) : RunsOk t := by
  have hshape : SymbolShape s t := symbolToRau_shape h
  unfold SymbolShape at hshape
  rw [hshape]; exact runsOk_same hs rfl rfl rfl

/-- No BLOCK is being inserted where a forwarded frame begins or ends, so no slot is in ENDING there (R42). -/
theorem runsOk_ofNoInsertion {s t : State} (hs : RunsOk s) (hnone : ∀ i, beingInserted i s = false)
    (hslots : t.slots = s.slots) (hdata : t.rau.dataQueue = s.rau.dataQueue) : RunsOk t :=
  runsOk_congr hs hslots hdata fun i hi => by rw [hnone i] at hi; cases hi

theorem startForward_runsOk {s : State} (hs : RunsOk s) : RunsOk (startForward s) := by
  unfold startForward
  split
  · exact hs
  split
  · rename_i hfree
    refine runsOk_ofNoInsertion hs (fun i => ?_) rfl rfl
    unfold beingInserted
    rw [hfree.1]
  · exact hs

theorem endForward_runsOk {s : State} (hs : RunsOk s) : RunsOk (endForward s) := by
  unfold endForward
  split
  · rename_i hout _
    split
    · refine runsOk_ofNoInsertion hs (fun i => ?_) rfl rfl
      unfold beingInserted
      rw [hout]
    · exact hs
  · exact hs

theorem exec_runsOk {c : Instr} {s t : State} (hs : RunsOk s) (h : exec c s = .next t) : RunsOk t := by
  by_cases htakes : takesHandover c = true
  · rcases exec_takesHandover htakes h with rfl | rfl
    · exact hs
    · exact deliverPending_runsOk s hs
  by_cases hbeside : besideRau c = true
  · have hkept := exec_besideRau hbeside h
    exact runsOk_same hs hkept.slots (by rw [hkept.rau]) (by rw [hkept.rau])
  cases c <;> first | exact absurd rfl htakes | exact absurd rfl hbeside | skip
  case resetNAsserted => cases h; exact reset_runsOk
  case startPeriodExpiry => cases h; exact startPeriodExpires_runsOk hs
  case symbolInUp sym =>
    rcases exec_symbolInUp_cases h with rfl | ⟨u, hu, rfl⟩
    · exact hs
    · exact countInUp_runsOk sym (symbolToRau_runsOk (settle_runsOk s hs) hu)
  case quietTimerExpiry =>
    rcases exec_quietTimerExpiry_cases h with rfl | rfl
    · exact hs
    · exact linkDown_runsOk (settle_runsOk s hs)
  case headerDecision => cases h; exact decidePending_runsOk s hs
  case beaconPeriodExpiry => cases h; exact beaconPeriodExpires_runsOk s hs
  case answerExpiryOpening i => cases h; exact answerExpiresOpening_runsOk i s hs
  case answerExpiryStreaming i => cases h; exact answerExpiresStreaming_runsOk i s hs
  case answerExpiryClosing i => cases h; exact answerExpiresClosing_runsOk i s hs
  case probeTimerExpiry i => cases h; exact probeExpires_runsOk i s hs
  case pauseTimerExpiry i => cases h; exact pauseExpires_runsOk i s hs
  case idleTimerExpiry i => cases h; exact runsOk_portStep hs (idleExpires_portStep i s)
  case dataQueueGrant => cases h; exact grantPlace_runsOk s hs
  case forwardStart => cases h; exact startForward_runsOk hs
  case forwardEnd => cases h; exact endForward_runsOk hs
  case insertionStart => exact exec_insertionStart_runsOk hs h
  case insertionEnd => exact exec_insertionEnd_runsOk hs h
  case yieldThresholdExpiry =>
    cases h
    unfold thresholdExpires
    split
    · exact runsOk_same hs rfl rfl rfl
    · exact hs
  case yieldHoldExpiry =>
    cases h
    unfold holdExpires
    split
    · exact runsOk_same hs rfl rfl rfl
    · exact hs
  case startRun => cases h; exact takeCommand_runsOk startRunTaken_runsOk s hs
  case cancelRun => cases h; exact takeCommand_runsOk cancelRunTaken_runsOk s hs
  case openPort => cases h; exact takeCommand_runsOk openPortTaken_runsOk s hs
  case releaseBank => cases h; exact takeCommand_runsOk releaseBankTaken_runsOk s hs
  case haltPort => cases h; exact takeCommand_runsOk haltPortTaken_runsOk s hs
  case unhaltPort => cases h; exact takeCommand_runsOk unhaltPortTaken_runsOk s hs
  case closePort => cases h; exact takeCommand_runsOk closePortTaken_runsOk s hs
  case softReset => cases h; exact takeCommand_runsOk (fun _ t => softResetTaken_runsOk t) s hs
  case unknownCommand => cases h; exact takeCommand_runsOk (fun _ t => post_runsOk _ t) s hs

/-- Settles O56: a REFCLK period runs down timers alone, and every command keeps the Run Table in order. -/
theorem runTableStaysInOrder : Obligations.RunTableStaysInOrder :=
  fun _ _ => step_keeps (fun _ _ h => runsOk_same h rfl rfl rfl) tick_runsOk fun _ _ _ h hexec => exec_runsOk h hexec

/-! ### A hardware reset -/

theorem reset_slots (i : Fin 8) : State.reset.slots[i] = none := by revert i; decide

theorem reset_ports (i : Fin 8) : State.reset.ports[i] = none := by revert i; decide

theorem receiverOk_reset : ReceiverOk State.reset := ⟨rfl, nofun⟩

theorem regionsOk_reset : RegionsOk State.reset := by
  have hregions (i : Fin 8) : portRegions State.reset.ports[i] = [] := by rw [reset_ports]; rfl
  refine ⟨fun i p hp => ?_, fun i j _ a ha => ?_, fun a ha => ?_, fun i r hr => ?_⟩
  · rw [reset_ports] at hp; cases hp
  · rw [hregions] at ha; cases ha
  · obtain ⟨i, hi⟩ := mem_fencedBanks.1 ha
    rw [reset_ports] at hi; cases hi
  · rw [reset_slots] at hr; cases hr

/-- The station is not SILENT after a hardware reset. -/
theorem silentOk_reset : SilentOk State.reset := nofun

/-- No frame is in reception and no window transaction is accepted. -/
theorem accessOk_reset : AccessOk State.reset := ⟨nofun, nofun⟩

/-- Settles O60: the tables, the queues, the log and the memory are empty, and the receiver is in DOWN. -/
theorem resetStateIsInOrder : Obligations.ResetStateIsInOrder :=
  ⟨wf_nil, logOk_nil, queuesOk_reset, receiverOk_reset, reset_runsOk, regionsOk_reset, silentOk_reset, accessOk_reset⟩

/-- Settles O4: the tables are empty at every entry, and the rest of the reset state is as listed. -/
theorem resetStateValues : Obligations.ResetStateValues := by
  unfold Obligations.ResetStateValues
  refine ⟨rfl, rfl, rfl, rfl, rfl, rfl, rfl, rfl, rfl, rfl, rfl, rfl, rfl, rfl, reset_slots, rfl, rfl, reset_ports,
    fun _ => rfl, rfl, rfl, rfl, rfl, rfl⟩

end Sys2Proof.Machine
end

section
/-! The replies that reach the Run Engine (O21 to O27). Each reply gets one equation for each state of the slot in which
it has a use, and one lemma for everything else, in which it changes nothing (R19, R40). -/

namespace Sys2Proof.Machine

open Sys2Proof

/-! ### The slot a reply concerns (R19, R23) -/

/-- Settles O21: `findRun` walks the slots upward. -/
theorem slotOfAReply : Obligations.SlotOfAReply :=
  fun _ _ _ _ => ⟨fun _ _ => findRun_eq_some, findRun_eq_none⟩

/-- A reply changes nothing where it has no use in the slot it concerns. -/
theorem replyReaches_unused (f : Fin 8 → Run → State → State) {h : Header} {s : State}
    (hf : ∀ i r, findRun h.src h.port h.tag s = some (i, r) → r.phase ≠ .ending → f i r s = s) :
    replyReaches f h s = s := by
  rcases replyReaches_cases f h s with hs | ⟨i, r, hfind, hphase, hs⟩
  · exact hs
  · rw [hs]; exact hf i r hfind hphase

section
variable {h : Header} {s : State} {i : Fin 8} {r : Run} (hf : findRun h.src h.port h.tag s = some (i, r))
include hf

/-- The slot a reply concerns is the only one it may be used in. -/
theorem replyReaches_unused_at {f : Fin 8 → Run → State → State} (hu : r.phase ≠ .ending → f i r s = s) :
    replyReaches f h s = s := by
  refine replyReaches_unused f fun j q hj hphase => ?_
  rw [hf] at hj
  cases hj; exact hu hphase

/-! ### GRANT and REFUSE (R20, R21) -/

theorem grantReaches_opening (x : List Byte) (hp : r.phase = .opening) :
    grantReaches h x s = setSlot i (some { r with granted := some (clampWindow r.window (byteAt x 0).toNat),
                                                  answer := none, phase := .streaming }) s := by
  rw [grantReaches, replyReaches_at _ h s hf (by simp [hp])]
  simp only [hp]

theorem refuseReaches_opening (x : List Byte) (hp : r.phase = .opening) :
    refuseReaches h x s = endRunNow i r .refused (some (byteAt x 0)) s := by
  rw [refuseReaches, replyReaches_at _ h s hf (by simp [hp])]
  simp only [hp]

end

theorem grantReaches_unused {h : Header} {s : State} (x : List Byte)
    (hu : ∀ i r, findRun h.src h.port h.tag s = some (i, r) → r.phase ≠ .opening) : grantReaches h x s = s := by
  refine replyReaches_unused _ fun i r hf _ => ?_
  split
  · exact absurd (by assumption) (hu i r hf)
  all_goals rfl

theorem refuseReaches_unused {h : Header} {s : State} (x : List Byte)
    (hu : ∀ i r, findRun h.src h.port h.tag s = some (i, r) → r.phase ≠ .opening) : refuseReaches h x s = s := by
  refine replyReaches_unused _ fun i r hf _ => ?_
  split
  · exact absurd (by assumption) (hu i r hf)
  all_goals rfl

/-- The clamp of R20, case by case. -/
theorem clampWindow_byte (window : Nat) (w : Byte) :
    clampWindow window w.toNat = if w = 0 then min 1 window else if window < w.toNat then window else w.toNat := by
  unfold clampWindow
  by_cases hw : w = 0
  · subst hw; rfl
  · have hpos : 1 ≤ w.toNat := Nat.one_le_iff_ne_zero.2 fun h0 => hw (BitVec.eq_of_toNat_eq h0)
    rw [if_neg hw]
    split <;> omega

/-- Settles O22: the clamp of R20 in OPENING; where a reply names no slot, or a GRANT no slot in OPENING, it is
discarded. -/
theorem grantOpensTheRun : Obligations.GrantOpensTheRun := by
  unfold Obligations.GrantOpensTheRun
  refine ⟨fun s h w hs => ?grant, fun s h x hnone => ⟨fun hs => ?taken, fun hs => ?resume, fun hs => ?busy⟩⟩
  case grant =>
    rw [exec_grantFrame hs]
    refine ⟨fun i r hf hp => ?_, fun i r hf hp => ?_, fun hnone => ?_⟩
    · rw [grantReaches_opening (s := clearHandover s) hf _ hp, show byteAt [w] 0 = w from rfl, clampWindow_byte]
    · rw [grantReaches_unused]
      intro j q hj
      rw [findRun_clearHandover, hf] at hj
      cases hj; exact hp
    · exact congrArg _ (replyReaches_none _ h (clearHandover s) hnone)
  case taken =>
    rw [exec_takenFrame hs]; exact congrArg _ (replyReaches_none _ h (clearHandover s) hnone)
  case resume =>
    rw [exec_resumeFrame hs]; exact congrArg _ (replyReaches_none _ h (clearHandover s) hnone)
  case busy =>
    rw [exec_busyFrame hs]; exact congrArg _ (replyReaches_none _ h (clearHandover s) hnone)

/-- Settles O23: the ending procedure is entered with the reason byte as received. -/
theorem refuseEndsTheRun : Obligations.RefuseEndsTheRun := by
  intro s h reason i r hs hf hp
  rw [exec_refuseFrame hs, refuseReaches_opening (s := clearHandover s) hf _ hp]
  rfl

/-! ### HALTED, CLOSED and a returned OPEN (R23, R36, R39) -/

section
variable {h : Header} {s : State} {i : Fin 8} {r : Run}

theorem haltedReaches_at (x : List Byte) (hf : findRun h.src h.port h.tag s = some (i, r)) (hp : r.phase ≠ .ending) :
    haltedReaches h x s = endRunNow i r .haltedByPeer (some (byteAt x 0)) s :=
  replyReaches_at _ h s hf hp

theorem haltedReaches_unused (x : List Byte)
    (hu : ∀ i r, findRun h.src h.port h.tag s = some (i, r) → r.phase = .ending) : haltedReaches h x s = s :=
  replyReaches_unused _ fun i r hf hp => absurd (hu i r hf) hp

/-- The run is DONE where the result byte is 0 and the accepted count is the block count (R36). -/
theorem closedReaches_closing (x : List Byte) (hf : findRun h.src h.port h.tag s = some (i, r))
    (hp : r.phase = .closing) :
    closedReaches h x s = endRunNow i r
      (if byteAt x 0 = 0 ∧ (word16At x 2).toNat = r.count then .done else .digestMismatch) none s := by
  rw [closedReaches, replyReaches_at _ h s hf (by simp [hp])]
  simp only [hp]
  split <;> rfl

theorem closedReaches_unused (x : List Byte)
    (hu : ∀ i r, findRun h.src h.port h.tag s = some (i, r) → r.phase ≠ .closing) : closedReaches h x s = s := by
  refine replyReaches_unused _ fun i r hf _ => ?_
  split
  · exact absurd (by assumption) (hu i r hf)
  all_goals rfl

theorem returnedReaches_open (hk : h.kind = 0x21) (hf : findRun h.dest h.port h.tag s = some (i, r))
    (hp : r.phase ≠ .ending) : returnedReaches h s = endRunNow i r .undelivered none s := by
  have hkind : kindOf h.kind = some .open_ := (kindOf_eq_some _ _).2 hk
  rw [returnedReaches, if_pos hkind, hf]
  exact if_neg hp

theorem returnedReaches_unused
    (hu : h.kind ≠ 0x21 ∨ ∀ i r, findRun h.dest h.port h.tag s = some (i, r) → r.phase = .ending) :
    returnedReaches h s = s := by
  unfold returnedReaches
  split
  · rename_i hkind
    have hk : h.kind = 0x21 := (kindOf_eq_some _ _).1 hkind
    have hending := hu.resolve_left (not_not_intro hk)
    split
    · exact if_pos (hending _ _ (by assumption))
    · rfl
  · rfl

end

/-- Settles O24: each of the four frames has one state, or one kind, in which it ends the run. -/
theorem finalFramesEndTheRun : Obligations.FinalFramesEndTheRun := by
  unfold Obligations.FinalFramesEndTheRun
  refine ⟨fun s h reason hs => ?halted, fun s h result x c1 c0 hs => ?closed, fun s h hs => ?returned,
    fun s h reason hs hu => ?refuse⟩
  case halted =>
    rw [exec_haltedFrame hs]
    exact ⟨fun i r hf hp => congrArg _ (haltedReaches_at (s := clearHandover s) _ hf hp),
      fun hu => congrArg _ (haltedReaches_unused (s := clearHandover s) _ hu)⟩
  case closed =>
    rw [exec_closedFrame hs]
    exact ⟨fun i r hf hp => congrArg _ (closedReaches_closing (s := clearHandover s) _ hf hp),
      fun hu => congrArg _ (closedReaches_unused (s := clearHandover s) _ hu)⟩
  case returned =>
    rw [exec_returnedFrame hs]
    exact ⟨fun i r hk hf hp => congrArg _ (returnedReaches_open (s := clearHandover s) hk hf hp),
      fun hu => congrArg _ (returnedReaches_unused (s := clearHandover s) hu)⟩
  case refuse =>
    rw [exec_refuseFrame hs]
    exact congrArg _ (refuseReaches_unused (s := clearHandover s) _ hu)

/-! ### Acknowledging and rewinding (R27, R33) -/

theorem distance_eq (r : Run) (seq : Byte) : r.distance seq = (seq.toNat + 8 - r.taken % 8) % 8 := by
  rw [Run.distance, seqDistance, Nat.mod_mod]

/-- Progress clears the consecutive timeouts. -/
theorem acknowledge_succ (r : Run) (d : Nat) :
    r.acknowledge (d + 1) = { r with taken := r.taken + d + 1, timeouts := 0 } := by
  rw [Run.acknowledge, if_pos (Nat.succ_pos d)]; rfl

theorem acknowledge_rewound (r : Run) (d : Nat) : (r.acknowledge d).rewound =
    { r with taken := r.taken + d, sent := r.taken + d, timeouts := if d = 0 then r.timeouts else 0,
             answer := none } := by
  cases d <;> rfl

/-! ### TAKEN (R28) -/

section
variable {h : Header} {s : State} {i : Fin 8} {r : Run} (hf : findRun h.src h.port h.tag s = some (i, r))
include hf

theorem takenReaches_streaming (hp : r.phase = .streaming) (hd : r.distance h.seq < r.outstanding) :
    let r1 := r.acknowledge (r.distance h.seq + 1)
    takenReaches h s = closeOr i { r1 with answer := if r1.taken < r1.sent then some s.answerTime else none }
      (dropBelow i r1.taken s) := by
  rw [takenReaches, replyReaches_at _ h s hf (by simp [hp])]
  simp only [hp, if_pos hd]

theorem takenReaches_paused (hp : r.phase = .paused) (hd : r.distance h.seq < r.outstanding) :
    takenReaches h s = closeOr i { r.acknowledge (r.distance h.seq + 1) with phase := .streaming, answer := none,
                                                                             probe := none, pause := none }
      (purge i s) := by
  rw [takenReaches, replyReaches_at _ h s hf (by simp [hp])]
  simp only [hp, if_pos hd]

theorem takenReaches_unused (hu : r.phase = .streaming ∨ r.phase = .paused → ¬r.distance h.seq < r.outstanding) :
    takenReaches h s = s := by
  refine replyReaches_unused_at hf fun _ => ?_
  dsimp only
  split
  · exact if_neg (hu (.inl (by assumption)))
  · exact if_neg (hu (.inr (by assumption)))
  all_goals rfl

/-! ### RESUME (R29, R38) -/

theorem resumeReaches_streaming (hp : r.phase = .streaming) (hd : r.distance h.seq ≤ r.outstanding) :
    resumeReaches h s = closeOr i (r.acknowledge (r.distance h.seq)).rewound (purge i s) := by
  rw [resumeReaches, replyReaches_at _ h s hf (by simp [hp])]
  simp only [hp, if_pos hd]

theorem resumeReaches_paused (hp : r.phase = .paused) (hd : r.distance h.seq ≤ r.outstanding) :
    resumeReaches h s = closeOr i { (r.acknowledge (r.distance h.seq)).rewound with
                                      phase := .streaming, probe := none, pause := none } (purge i s) := by
  rw [resumeReaches, replyReaches_at _ h s hf (by simp [hp])]
  simp only [hp, if_pos hd]

theorem resumeReaches_closing (hp : r.phase = .closing) (hd : r.distance h.seq = 0) :
    resumeReaches h s = enterClosing i r.rewound s := by
  rw [resumeReaches, replyReaches_at _ h s hf (by simp [hp])]
  simp only [hp, if_pos hd]

theorem resumeReaches_unused (hu : r.phase = .streaming ∨ r.phase = .paused → ¬r.distance h.seq ≤ r.outstanding)
    (hc : r.phase = .closing → r.distance h.seq ≠ 0) : resumeReaches h s = s := by
  refine replyReaches_unused_at hf fun _ => ?_
  dsimp only
  split
  · exact if_neg (hu (.inl (by assumption)))
  · exact if_neg (hu (.inr (by assumption)))
  · exact if_neg (hc (by assumption))
  all_goals rfl

/-! ### BUSY (R30) -/

theorem busyReaches_streaming (hp : r.phase = .streaming) (hd : r.distance h.seq ≤ r.outstanding) :
    busyReaches h s = closeOr i { (r.acknowledge (r.distance h.seq)).rewound with
                                    phase := .paused, probe := some (Config.probeTime s.straps.tcl),
                                    pause := some (Config.pauseTime s.straps.tcl) } (purge i s) := by
  rw [busyReaches, replyReaches_at _ h s hf (by simp [hp])]
  simp only [hp, if_pos hd]

theorem busyReaches_paused (hp : r.phase = .paused) (hd : r.distance h.seq ≤ r.outstanding) :
    busyReaches h s = closeOr i (r.acknowledge (r.distance h.seq)).rewound (purge i s) := by
  rw [busyReaches, replyReaches_at _ h s hf (by simp [hp])]
  simp only [hp, if_pos hd]

theorem busyReaches_unused (hu : r.phase = .streaming ∨ r.phase = .paused → ¬r.distance h.seq ≤ r.outstanding) :
    busyReaches h s = s := by
  refine replyReaches_unused_at hf fun _ => ?_
  dsimp only
  split
  · exact if_neg (hu (.inl (by assumption)))
  · exact if_neg (hu (.inr (by assumption)))
  all_goals rfl

end

/-- An answer in which a slot closes or goes on, in the two cases of R35. -/
theorem closeOr_answers {answers : State → Prop} {i : Fin 8} {r : Run} {s : State} (h : answers (closeOr i r s)) :
    (r.taken ≠ r.count → answers (setSlot i (some r) s)) ∧ (r.taken = r.count → answers (enterClosing i r s)) :=
  ⟨fun hn => closeOr_ne hn ▸ h, fun he => closeOr_eq he ▸ h⟩

theorem not_streaming_or_paused {p : Phase} (h : p = .opening ∨ p = .closing ∨ p = .ending) :
    ¬(p = .streaming ∨ p = .paused) := by
  rcases h with rfl | rfl | rfl <;> decide

/-- Settles O25: a fresh TAKEN acknowledges, in STREAMING with the answer timer set anew and in PAUSED leaving the
pause. -/
theorem takenAcknowledges : Obligations.TakenAcknowledges := by
  intro s h x i r hs hf d u taken r' timed left answers
  have hexec {t : State} (ht : takenReaches h u = t) : answers t := (exec_takenFrame hs).trans (congrArg _ ht)
  have hd : r.distance h.seq = d := distance_eq r h.seq
  have hack : r.acknowledge (r.distance h.seq + 1) = r' := by rw [hd]; exact acknowledge_succ r d
  have hfu : findRun h.src h.port h.tag u = some (i, r) := hf
  refine ⟨fun hp hfresh => ?streaming, fun hp hfresh => ?paused, fun hstale => ?stale, fun hp => ?other⟩
  case streaming =>
    have hclose : takenReaches h u = closeOr i timed (dropBelow i taken u) := by
      rw [takenReaches_streaming hfu hp (by rw [hd]; exact hfresh), hack]; rfl
    exact closeOr_answers (hexec hclose)
  case paused =>
    have hclose : takenReaches h u = closeOr i left (purge i u) := by
      rw [takenReaches_paused hfu hp (by rw [hd]; exact hfresh), hack]
    exact closeOr_answers (hexec hclose)
  case stale => exact hexec (takenReaches_unused hfu fun _ => by rw [hd]; exact Nat.not_lt.2 hstale)
  case other => exact hexec (takenReaches_unused hfu fun hu => absurd hu (not_streaming_or_paused hp))

/-- Entering CLOSING (R35): the FINISH carries the digest with its final inversion, and the block count. -/
theorem enterClosing_def (i : Fin 8) (r : Run) (s : State) :
    enterClosing i r s = offer
      { dest := r.dest, kind := .finish, port := r.port, tag := r.tag, seq := 0,
        payload := bytes32 (~~~r.digest) ++ bytes16 (BitVec.ofNat 16 r.count) }
      (setSlot i (some { r with phase := .closing, probe := none, pause := none, attempts := 1,
                                answer := some (Config.answerTime s.straps.tcl) }) (purge i s)) := rfl

/-- Settles O26: a fresh RESUME acknowledges and rewinds; in CLOSING the FINISH is drawn anew. -/
theorem resumeRewinds : Obligations.ResumeRewinds := by
  refine ⟨?_, enterClosing_def⟩
  intro s h x i r hs hf d u taken r' left answers
  have hexec {t : State} (ht : resumeReaches h u = t) : answers t := (exec_resumeFrame hs).trans (congrArg _ ht)
  have hd : r.distance h.seq = d := distance_eq r h.seq
  have hack : (r.acknowledge (r.distance h.seq)).rewound = r' := by rw [hd]; exact acknowledge_rewound r d
  have hfu : findRun h.src h.port h.tag u = some (i, r) := hf
  refine ⟨fun hp hfresh => ?streaming, fun hp hfresh => ?paused, fun hp hzero => ?closing, fun hp hstale => ?stale,
    fun hp hne => ?closingStale, fun hp => ?other⟩
  case streaming =>
    have hclose : resumeReaches h u = closeOr i r' (purge i u) := by
      rw [resumeReaches_streaming hfu hp (by rw [hd]; exact hfresh), hack]
    exact closeOr_answers (hexec hclose)
  case paused =>
    have hclose : resumeReaches h u = closeOr i left (purge i u) := by
      rw [resumeReaches_paused hfu hp (by rw [hd]; exact hfresh), hack]
    exact closeOr_answers (hexec hclose)
  case closing => exact hexec (resumeReaches_closing hfu hp (hd.trans hzero))
  case stale =>
    refine hexec (resumeReaches_unused hfu (fun _ => ?_) fun hc => ?_)
    · rw [hd]; exact Nat.not_le.2 hstale
    · rcases hp with hp | hp <;> rw [hp] at hc <;> cases hc
  case closingStale =>
    refine hexec (resumeReaches_unused hfu (fun hu => ?_) fun _ => hd ▸ hne)
    rcases hu with hu | hu <;> rw [hp] at hu <;> cases hu
  case other =>
    refine hexec (resumeReaches_unused hfu (fun hu => ?_) fun hc => ?_)
    · exact absurd hu (not_streaming_or_paused (hp.imp_right .inr))
    · rcases hp with hp | hp <;> rw [hp] at hc <;> cases hc

/-- Settles O27: a fresh BUSY acknowledges and rewinds, and pauses a STREAMING slot that does not close. -/
theorem busyPauses : Obligations.BusyPauses := by
  intro s h x i r hs hf d u taken r' paused answers
  have hexec {t : State} (ht : busyReaches h u = t) : answers t := (exec_busyFrame hs).trans (congrArg _ ht)
  have hd : r.distance h.seq = d := distance_eq r h.seq
  have hack : (r.acknowledge (r.distance h.seq)).rewound = r' := by rw [hd]; exact acknowledge_rewound r d
  have hfu : findRun h.src h.port h.tag u = some (i, r) := hf
  refine ⟨fun hp hfresh => ?streaming, fun hp hfresh => ?paused, fun hstale => ?stale, fun hp => ?other⟩
  case streaming =>
    have hbusy : busyReaches h u = closeOr i paused (purge i u) := by
      rw [busyReaches_streaming hfu hp (by rw [hd]; exact hfresh), hack]; rfl
    obtain ⟨hpauses, hcloses⟩ := closeOr_answers (hexec hbusy)
    refine ⟨hpauses, fun he => ⟨_, hcloses he, ?_⟩⟩
    rw [enterClosing_def, purge_purge]; rfl
  case paused =>
    have hclose : busyReaches h u = closeOr i r' (purge i u) := by
      rw [busyReaches_paused hfu hp (by rw [hd]; exact hfresh), hack]
    exact closeOr_answers (hexec hclose)
  case stale => exact hexec (busyReaches_unused hfu fun _ => by rw [hd]; exact Nat.not_le.2 hstale)
  case other => exact hexec (busyReaches_unused hfu fun hu => absurd hu (not_streaming_or_paused hp))

end Sys2Proof.Machine
end

section
/-! The ending procedure, the timers of a slot and the data-queue arbiter (O28 to O31). -/

namespace Sys2Proof.Machine

open Sys2Proof

/-! ### The ending procedure and the end of an insertion (R41, R42, R111) -/

theorem endRunNow_inserting {i : Fin 8} {s : State} (hi : beingInserted i s = true) (r : Run) (result : RunResult)
    (reason : Option Byte) : endRunNow i r result reason s = setSlot i (some
      { r with phase := .ending, owed := some (result, reason), answer := none, probe := none, pause := none })
      (purge i s) := by
  rw [endRunNow, endRun, if_pos hi]; rfl

theorem endRunNow_free {i : Fin 8} {s : State} (hi : beingInserted i s = false) (r : Run) (result : RunResult)
    (reason : Option Byte) : endRunNow i r result reason s =
      post (.runEnd i r.tag r.dest r.port r.taken result reason) (setSlot i none (purge i s)) := by
  rw [endRunNow, endRun, if_neg (Bool.eq_false_iff.1 hi)]; rfl

/-- EOF goes out for the frame that was being inserted (R111). -/
def eofSent (s : State) : State :=
  { s with rau := { s.rau with output := .free, gap := 0 }, ringOut := .carries .eof }

theorem endInsertion_waits {s : State} {block : Option (Fin 8 × Nat)} {sym : Symbol} {left : List Symbol}
    (h : s.rau.output = .inserting block (sym :: left)) : endInsertion s = s := by
  unfold endInsertion; rw [h]

theorem endInsertion_control {s : State} (h : s.rau.output = .inserting none []) : endInsertion s = eofSent s := by
  unfold endInsertion; rw [h]; rfl

theorem endInsertion_block {s : State} {i : Fin 8} {n : Nat} (h : s.rau.output = .inserting (some (i, n)) []) :
    endInsertion s = blockInsertionEnds i (eofSent s) := by
  unfold endInsertion; rw [h]; rfl

section
variable {i : Fin 8} {s : State}

theorem blockInsertionEnds_free (h : s.slots[i] = none) : blockInsertionEnds i s = s := by
  unfold blockInsertionEnds; rw [h]

theorem blockInsertionEnds_active {r : Run} (h : s.slots[i] = some r) (hp : r.phase ≠ .ending) :
    blockInsertionEnds i s = s := by
  unfold blockInsertionEnds; rw [h]; exact if_neg hp

theorem blockInsertionEnds_silent {r : Run} (h : s.slots[i] = some r) (hp : r.phase = .ending) (ho : r.owed = none) :
    blockInsertionEnds i s = setSlot i none s := by
  unfold blockInsertionEnds; rw [h]
  simp only [hp, ho, if_true]

theorem blockInsertionEnds_owed {r : Run} {result : RunResult} {reason : Option Byte} (h : s.slots[i] = some r)
    (hp : r.phase = .ending) (ho : r.owed = some (result, reason)) :
    blockInsertionEnds i s = post (.runEnd i r.tag r.dest r.port r.taken result reason) (setSlot i none s) := by
  unfold blockInsertionEnds; rw [h]
  simp only [hp, ho, if_true]; rfl

end

/-- Settles O28: a run ends by `endRunNow`, and an insertion by `endInsertion` with the slot its BLOCK was of. -/
theorem endingProcedure : Obligations.EndingProcedure := by
  unfold Obligations.EndingProcedure
  refine ⟨fun i r result reason s =>
      ⟨fun hi => endRunNow_inserting hi r result reason, fun hi => endRunNow_free hi r result reason⟩,
    fun s sym left block ho => congrArg _ (endInsertion_waits ho), fun s block ho => ⟨?control, ?block⟩⟩
  case control =>
    rintro rfl
    exact congrArg _ (endInsertion_control ho)
  case block =>
    rintro i n rfl
    have hexec {t : State} (ht : blockInsertionEnds i (eofSent s) = t) : exec .insertionEnd s = .next t :=
      congrArg _ ((endInsertion_block ho).trans ht)
    exact ⟨fun hnone => hexec (blockInsertionEnds_free hnone), fun r hr =>
      ⟨fun hp => hexec (blockInsertionEnds_active hr hp), fun hp howed => hexec (blockInsertionEnds_silent hr hp howed),
        fun result reason hp howed => hexec (blockInsertionEnds_owed hr hp howed)⟩⟩

/-! ### The answer timer (R22, R31, R37) -/

section
variable {i : Fin 8} {s : State} {r : Run}

/-- The run tries once more, and its answer timer is restarted (R22, R37). -/
def Run.tryAgain (r : Run) (time : Nat) : Run := { r with attempts := r.attempts + 1, answer := some time }

theorem answerExpiresOpening_eq (hr : s.slots[i] = some r) (hp : r.phase = .opening) (ha : r.answer.isSome = true) :
    answerExpiresOpening i s = if r.attempts < 4 then offer r.openOffer (setSlot i (some (r.tryAgain s.answerTime)) s)
      else endRunNow i r .noAnswer none s := by
  unfold answerExpiresOpening; rw [hr]; exact if_pos ⟨hp, ha⟩

theorem answerExpiresClosing_eq (hr : s.slots[i] = some r) (hp : r.phase = .closing) (ha : r.answer.isSome = true) :
    answerExpiresClosing i s = if r.attempts < 4 then offer r.finishOffer (setSlot i (some (r.tryAgain s.answerTime)) s)
      else endRunNow i r .closeUnconfirmed none s := by
  unfold answerExpiresClosing; rw [hr]; exact if_pos ⟨hp, ha⟩

theorem answerExpiresStreaming_eq (hr : s.slots[i] = some r) (hp : r.phase = .streaming)
    (ha : r.answer.isSome = true) :
    answerExpiresStreaming i s =
      if r.timeouts + 1 < 8 then setSlot i (some { r.rewound with timeouts := r.timeouts + 1 }) (purge i s)
      else endRunNow i r .noAnswer none s := by
  unfold answerExpiresStreaming; rw [hr]; exact if_pos ⟨hp, ha⟩

end

/-- Settles O29: each expiry tries again while its attempts or timeouts are left, and ends the run with the last. -/
theorem answerTimerExpiries : Obligations.AnswerTimerExpiries := by
  intro s i r n hr hn again
  have ha : r.answer.isSome = true := by rw [hn]; rfl
  refine ⟨fun hp hleft => ?_, fun hp hlast => ?_, fun hp hleft => ?_, fun hp hlast => ?_, fun hp hleft => ?_,
    fun hp hlast => ?_⟩
  · exact congrArg _ ((answerExpiresOpening_eq hr hp ha).trans (if_pos hleft))
  · exact congrArg _ ((answerExpiresOpening_eq hr hp ha).trans (if_neg (Nat.not_lt.2 hlast)))
  · exact congrArg _ ((answerExpiresClosing_eq hr hp ha).trans (if_pos hleft))
  · exact congrArg _ ((answerExpiresClosing_eq hr hp ha).trans (if_neg (Nat.not_lt.2 hlast)))
  · exact congrArg _ ((answerExpiresStreaming_eq hr hp ha).trans (if_pos hleft))
  · exact congrArg _ ((answerExpiresStreaming_eq hr hp ha).trans (if_neg (Nat.not_lt.2 hlast)))

/-! ### The timers of a pause (R32, R34) -/

section
variable {i : Fin 8} {s : State} {r : Run}

theorem probeExpires_eq (hr : s.slots[i] = some r) (hp : r.phase = .paused) (ht : r.probe.isSome = true) :
    let again : Run := { r with probe := some (Config.probeTime s.straps.tcl) }
    let entry : DataEntry := { slot := i, index := r.taken }
    probeExpires i s = if ¬entry ∈ s.rau.dataQueue ∧ s.rau.dataQueue.length < 8 then
        setSlot i (some { again with sent := r.taken + 1 }) (setData (s.rau.dataQueue ++ [entry]) s)
      else setSlot i (some again) s := by
  unfold probeExpires; rw [hr]; exact if_pos ⟨hp, ht⟩

theorem pauseExpires_eq (hr : s.slots[i] = some r) (hp : r.phase = .paused) (ht : r.pause.isSome = true) :
    pauseExpires i s = endRunNow i r .stalled none s := by
  unfold pauseExpires; rw [hr]; exact if_pos ⟨hp, ht⟩

end

/-- Settles O30: the probe's entry is queued where it is not queued already and there is room. -/
theorem probeAndPauseExpiries : Obligations.ProbeAndPauseExpiries := by
  intro s i r n hr hp again entry
  refine ⟨fun ht hnew hroom => ?_, fun ht hkept => ?_, fun ht => ?_⟩
  · exact congrArg _ ((probeExpires_eq hr hp (by rw [ht]; rfl)).trans (if_pos ⟨hnew, hroom⟩))
  · exact congrArg _ ((probeExpires_eq hr hp (by rw [ht]; rfl)).trans
      (if_neg fun ⟨hnew, hroom⟩ => hkept.elim hnew (Nat.not_le.2 hroom)))
  · exact congrArg _ (pauseExpires_eq hr hp (by rw [ht]; rfl))

/-! ### The data-queue arbiter (R24, R25) -/

theorem wants_iff (r : Run) :
    r.wants = true ↔ r.phase = .streaming ∧ r.sent < r.count ∧ r.sent - r.taken < r.granted.getD 0 := by
  simp [Run.wants, and_assoc]

/-- The wanting run of a slot, with the slot's number: what the arbiter looks for. -/
def wantingAt (s : State) (i : Fin 8) : Option (Fin 8 × Run) :=
  match s.slots[i] with
  | some r => if r.wants then some (i, r) else none
  | none => none

theorem nextWanting_def (s : State) : nextWanting s = (arbiterOrder s.rrPointer).findSome? (wantingAt s) := rfl

theorem wantingAt_some {s : State} {i : Fin 8} {r : Run} (hr : s.slots[i] = some r) (hw : r.wants = true) :
    wantingAt s i = some (i, r) := by
  unfold wantingAt; rw [hr]; exact if_pos hw

theorem wantingAt_none {s : State} {i : Fin 8} (h : ∀ r, s.slots[i] = some r → r.wants ≠ true) :
    wantingAt s i = none := by
  unfold wantingAt
  split
  · exact if_neg (h _ (by assumption))
  · rfl

theorem grantPlace_next {s : State} {i : Fin 8} {r : Run} (hn : nextWanting s = some (i, r))
    (hroom : s.rau.dataQueue.length < 8) :
    grantPlace s = { setSlot i (some { r with sent := r.sent + 1,
                                              answer := if r.answer.isSome then r.answer else some s.answerTime })
      (setData (s.rau.dataQueue ++ [{ slot := i, index := r.sent }]) s) with rrPointer := i } := by
  unfold grantPlace; rw [hn]; exact if_pos hroom

theorem grantPlace_full {s : State} (hfull : 8 ≤ s.rau.dataQueue.length) : grantPlace s = s := by
  unfold grantPlace
  split
  · exact if_neg (Nat.not_lt.2 hfull)
  · rfl

theorem grantPlace_none {s : State} (hn : nextWanting s = none) : grantPlace s = s := by
  unfold grantPlace; rw [hn]

/-- Settles O31: the arbiter's order is upward from the slot after the pointer. -/
theorem dataQueueGrant : Obligations.DataQueueGrant := by
  intro s wants
  have hunwanted {j : Fin 8} (hj : ¬wants s.slots[j]) : wantingAt s j = none :=
    wantingAt_none fun r hr hw => hj ⟨r, hr, (wants_iff r).1 hw⟩
  refine ⟨fun i r hroom hr hwants hfirst => ?_, fun h => ?_⟩
  · obtain ⟨q, hq, hw⟩ := hwants
    cases hq
    have hnext : nextWanting s = some (i, r) := by
      rw [nextWanting_def]
      exact arbiter_first _ _ _ _ (wantingAt_some hr ((wants_iff r).2 hw)) fun j hj => hunwanted (hfirst j hj)
    exact congrArg _ (grantPlace_next hnext hroom)
  · rcases h with hfull | hnone
    · exact congrArg _ (grantPlace_full hfull)
    · exact congrArg _ (grantPlace_none (arbiter_none _ _ fun j => hunwanted (hnone j)))

end Sys2Proof.Machine
end

section
/-! The insertion arbiter (O37) and the commands that start, cancel and clear runs (O38, O39, O44). -/

namespace Sys2Proof.Machine

open Sys2Proof

/-! ### The insertion arbiter (R109 to R111, R113) -/

theorem passBytes_eq_zero (r : Rau) : r.passBytes = 0 ↔ ∀ f ∈ r.passFifo, f.bytes = [] := by
  simp [passBytes_def, List.sum_eq_zero_iff]

theorem insertionOpen_iff (s : State) : insertionOpen s = true ↔
    (∀ f ∈ s.rau.passFifo, f.bytes = []) ∧ s.rau.reception = none ∧ s.rau.output = .free ∧ s.tx.state = .run ∧
      s.rollCall.silent = false := by
  simp [insertionOpen, Rau.passIdle, passBytes_eq_zero, and_assoc]

/-- The bytes of an own frame (R110, R111): the header with its check, the payload, and the payload check where there
is a payload. -/
theorem frameBytes_eq (own ringSize dest : Byte) (k : Kind) (port tag seq : Byte) (payload : List Byte) :
    let len : Word16 := BitVec.ofNat 16 payload.length
    frameBytes own ringSize dest k port tag seq payload =
      [dest, own, k.code, 0, ringSize, port, tag, seq] ++ bytes16 len ++
        bytes16 (crc16 ([dest, own, k.code, port, tag, seq] ++ bytes16 len)) ++ payload ++
        (if payload = [] then [] else bytes32 (crc32 payload)) := by
  cases payload <;> rfl

theorem startInsertion_closed {s : State} (h : ¬insertionOpen s = true) : startInsertion s = .ok s := if_neg h

section
variable {s : State} (h : insertionOpen s = true)
include h

theorem startInsertion_control {f : OwnFrame} {rest : List OwnFrame} (hc : s.rau.controlQueue = f :: rest) :
    startInsertion s = .ok (insertControl f rest s) := by
  rw [startInsertion, if_pos h, hc]

theorem startInsertion_data {e : DataEntry} {rest : List DataEntry} {r : Run} (hc : s.rau.controlQueue = [])
    (hd : s.rau.dataQueue = e :: rest) (hhold : s.rau.inHold = false) (hr : s.slots[e.slot] = some r) :
    startInsertion s = insertBlock e rest r s := by
  rw [startInsertion, if_pos h, hc, hd]
  simp only [hhold, hr]
  rfl

theorem startInsertion_idle (hc : s.rau.controlQueue = []) (hd : s.rau.dataQueue = [] ∨ s.rau.inHold = true) :
    startInsertion s = .ok s := by
  rw [startInsertion, if_pos h, hc]
  dsimp only
  rcases hd with hd | hhold
  · rw [hd]
  · split
    · exact if_pos hhold
    · rfl

end

/-- The BLOCK of a region within the memory is read whole and inserted (R85, R111). -/
theorem insertBlock_ok {e : DataEntry} {r : Run} {s : State} (rest : List DataEntry)
    (hm : r.base + e.index * r.size + r.size ≤ Config.memoryBytes) :
    let payload := Memory.bytesFrom s.mem (r.base + e.index * r.size) r.size
    insertBlock e rest r s = .ok (setSlot e.slot (some (r.fold e.index payload))
      (setRau { s.rau.afterDataInsertion rest with
                  output := .inserting (some (e.slot, e.index))
                    (leadSymbols s.rau.gap ++ (blockBytes r e.index payload s).map .data) } s)) := by
  rw [insertBlock, readBytes_of_le s hm]

theorem afterDataInsertion_eq (r : Rau) (rest : List DataEntry) : r.afterDataInsertion rest =
    { r with dataQueue := rest, marking := false, threshold := if rest = [] then none else some 5000 } := by
  cases rest <;> rfl

/-- Settles O37: the arbiter's conditions are `insertionOpen`, and its two kinds of frame are `frameBytes`. -/
theorem insertionStart : Obligations.InsertionStart := by
  intro s may lead framed
  have hframed (dest : Byte) (k : Kind) (port tag seq : Byte) (payload : List Byte) :
      leadSymbols s.rau.gap ++ (frameBytes s.own s.ringSize dest k port tag seq payload).map .data =
        framed dest k port tag seq payload := by
    rw [frameBytes_eq]; rfl
  have hexec {t : State} (ht : startInsertion s = .ok t) : exec .insertionStart s = .next t := outcome_eq_next.2 ht
  refine ⟨fun f rest hmay hc => ?control, fun e rest r hmay hc hd hhold hr hm => ?data, fun hstays => hexec ?stays⟩
  case control =>
    intro out
    refine hexec ?_
    rw [startInsertion_control ((insertionOpen_iff s).2 hmay) hc, insertControl, OwnFrame.bytes, hframed]; rfl
  case data =>
    intro payload folded out timer
    refine hexec ?_
    rw [startInsertion_data ((insertionOpen_iff s).2 hmay) hc hd hhold hr, insertBlock_ok rest hm, blockBytes, hframed,
      afterDataInsertion_eq]
    rfl
  case stays =>
    by_cases hopen : insertionOpen s = true
    · obtain ⟨hc, hd⟩ := hstays.resolve_left (not_not_intro ((insertionOpen_iff s).1 hopen))
      exact startInsertion_idle hopen hc hd
    · exact startInsertion_closed hopen

/-! ### START_RUN (R157, R18) -/

theorem byte_eq_zero_iff (b : Byte) : b = 0 ↔ b.toNat = 0 :=
  ⟨fun h => by rw [h]; rfl, fun h => BitVec.eq_of_toNat_eq h⟩

theorem startRunBad_iff (a : StartRunArgs) (own : Byte) : startRunBad a own = true ↔
    a.size < 16 ∨ 1024 < a.size ∨ a.size % 16 ≠ 0 ∨ a.count = 0 ∨ a.window = 0 ∨ 4 < a.window ∨ 8 ≤ a.port.toNat ∨
      16 ≤ a.dest.toNat ∨ a.dest = own ∨ a.base % 16 ≠ 0 ∨ 131072 < a.base + a.count * a.size := by
  simp only [startRunBad, Bool.or_eq_true, badSize_iff, badWindow_iff, pastEnd_iff, decide_eq_true_eq, or_assoc,
    StartRunArgs.region]

theorem startRunTaken_silent (r : List Byte) {s : State} (h : s.rollCall.silent = true) :
    startRunTaken r s = reject r .silent s := if_pos h

section
variable {r : List Byte} {s : State} (h : s.rollCall.silent = false)
include h

theorem startRunTaken_badSlot (hslot : 8 ≤ (recordIndex r).toNat) : startRunTaken r s = reject r .badSlot s := by
  rw [startRunTaken, if_neg (Bool.eq_false_iff.1 h), slotNumber_eq_none.2 hslot]

variable {i : Fin 8} (hi : (recordIndex r).toNat = i.val)
include hi

/-- The checks at the slot, in the order of R157. -/
theorem startRunTaken_at : startRunTaken r s =
    if (s.slots[i]).isSome then reject r .slotBusy s
    else if startRunBad (startRunArgs r) s.own then reject r .badParam s
    else if peerAbsent (startRunArgs r).dest s then reject r .noPeer s
    else if (startRunArgs r).region.overlapsAny (fencedBanks s) then reject r .overlap s
    else beginRun i (startRunArgs r) s := by
  rw [startRunTaken, if_neg (Bool.eq_false_iff.1 h), slotNumber_eq_some.2 hi]

theorem startRunTaken_busy (hslot : s.slots[i] ≠ none) : startRunTaken r s = reject r .slotBusy s := by
  rw [startRunTaken_at h hi, if_pos (Option.isSome_iff_ne_none.2 hslot)]

variable (hfree : s.slots[i] = none)
include hfree

theorem startRunTaken_bad (hbad : startRunBad (startRunArgs r) s.own = true) :
    startRunTaken r s = reject r .badParam s := by
  rw [startRunTaken_at h hi, if_neg (by simp [hfree]), if_pos hbad]

variable (hgood : ¬startRunBad (startRunArgs r) s.own = true)
include hgood

theorem startRunTaken_absent (habsent : peerAbsent (startRunArgs r).dest s = true) :
    startRunTaken r s = reject r .noPeer s := by
  rw [startRunTaken_at h hi, if_neg (by simp [hfree]), if_neg hgood, if_pos habsent]

variable (hpeer : ¬peerAbsent (startRunArgs r).dest s = true)
include hpeer

theorem startRunTaken_overlap (hover : (startRunArgs r).region.overlapsAny (fencedBanks s) = true) :
    startRunTaken r s = reject r .overlap s := by
  rw [startRunTaken_at h hi, if_neg (by simp [hfree]), if_neg hgood, if_neg hpeer, if_pos hover]

theorem startRunTaken_begins (hapart : (startRunArgs r).region.overlapsAny (fencedBanks s) = false) :
    startRunTaken r s = beginRun i (startRunArgs r) s := by
  rw [startRunTaken_at h hi, if_neg (by simp [hfree]), if_neg hgood, if_neg hpeer, if_neg (Bool.eq_false_iff.1 hapart)]

end

theorem nat16_append (a b : Byte) : nat16 (a ++ b).toNat = [a, b] := by
  rw [nat16, BitVec.ofNat_toNat, BitVec.setWidth_eq, bytes16_append]

/-- The run that START_RUN opens, and the OPEN it offers: size, count and window as the record gives them (R18). -/
theorem beginRun_eq (i : Fin 8) (a : StartRunArgs) (s : State) (s1 s0 c1 c0 w : Byte)
    (hsize : a.size = (s1 ++ s0).toNat) (hcount : a.count = (c1 ++ c0).toNat) (hwindow : a.window = w.toNat) :
    beginRun i a s = offer
      { dest := a.dest, kind := .open_, port := a.port, tag := s.tagCounter, seq := 0,
        payload := [s1, s0, c1, c0, w, 0] }
      { setSlot i (some
          { phase := .opening, tag := s.tagCounter, dest := a.dest, port := a.port, base := a.base, size := a.size,
            count := a.count, window := a.window, granted := none, taken := 0, sent := 0, digestIndex := 0,
            digest := 0xFFFFFFFF, attempts := 1, timeouts := 0, owed := none,
            answer := some (Config.answerTime s.straps.tcl), probe := none, pause := none }) s
        with tagCounter := s.tagCounter + 1 } := by
  have hpayload : nat16 a.size ++ nat16 a.count ++ [BitVec.ofNat 8 a.window, 0] = [s1, s0, c1, c0, w, 0] := by
    rw [hsize, hcount, hwindow, nat16_append, nat16_append, BitVec.ofNat_toNat, BitVec.setWidth_eq]; rfl
  rw [← hpayload]; rfl

/-- Settles O38: the checks fall in the order of `startRunTaken_at`. -/
theorem startRunCommand : Obligations.StartRunCommand := by
  intro s rest slot dest port b2 b1 b0 s1 s0 c1 c0 w x y z v htakes u base size count region rejected bad absent
  let r : List Byte := [0x01, slot, dest, port, b2, b1, b0, s1, s0, c1, c0, w, x, y, z, v]
  have hexec {t : State} (ht : startRunTaken r u = t) : exec .startRun s = .next t :=
    (exec_startRun htakes).trans (congrArg _ ht)
  have hbad : startRunBad (startRunArgs r) u.own = true ↔ bad := by
    show _ ↔ _ ∨ _ ∨ _ ∨ _ ∨ w = 0 ∨ _
    rw [startRunBad_iff, byte_eq_zero_iff]; rfl
  have habsent (hgood : ¬bad) : peerAbsent dest u = true ↔ absent :=
    peerAbsent_iff (Nat.not_le.1 fun hd => hgood (by simp only [bad, hd, true_or, or_true])) u
  refine ⟨fun hsilent => hexec (startRunTaken_silent r hsilent),
    fun hlive hslot => hexec (startRunTaken_badSlot (r := r) (s := u) hlive hslot), fun i hlive hi => ?_⟩
  have hi' : (recordIndex r).toNat = i.val := hi
  have hlive' : u.rollCall.silent = false := hlive
  refine ⟨fun hbusy => hexec (startRunTaken_busy hlive' hi' hbusy),
    fun hfree hb => hexec (startRunTaken_bad hlive' hi' hfree (hbad.2 hb)),
    fun hfree hb ha => hexec (startRunTaken_absent hlive' hi' hfree (mt hbad.1 hb) ((habsent hb).2 ha)),
    fun hfree hb ha hover => hexec (startRunTaken_overlap hlive' hi' hfree (mt hbad.1 hb) (mt (habsent hb).1 ha)
      ((overlapsAny_iff _ _).2 hover)),
    fun hfree hb ha hapart => hexec ((startRunTaken_begins hlive' hi' hfree (mt hbad.1 hb) (mt (habsent hb).1 ha)
      ((overlapsAny_eq_false _ _).2 hapart)).trans (beginRun_eq i _ u s1 s0 c1 c0 w rfl rfl rfl))⟩

/-! ### CANCEL_RUN and unknown codes (R156, R158) -/

section
variable {r : List Byte} {s : State}

theorem cancelRunTaken_badSlot (hslot : 8 ≤ (recordIndex r).toNat) : cancelRunTaken r s = reject r .badSlot s := by
  rw [cancelRunTaken, slotNumber_eq_none.2 hslot]

variable {i : Fin 8} (hi : (recordIndex r).toNat = i.val)
include hi

theorem cancelRunTaken_free (hfree : s.slots[i] = none) : cancelRunTaken r s = reject r .wrongState s := by
  rw [cancelRunTaken, slotNumber_eq_some.2 hi]
  simp only [hfree]

theorem cancelRunTaken_ending {q : Run} (hq : s.slots[i] = some q) (hp : q.phase = .ending) :
    cancelRunTaken r s = reject r .wrongState s := by
  rw [cancelRunTaken, slotNumber_eq_some.2 hi]
  simp only [hq, if_pos hp]

theorem cancelRunTaken_active {q : Run} (hq : s.slots[i] = some q) (hp : q.phase ≠ .ending) :
    cancelRunTaken r s = endRunNow i q .cancelled none (offer q.cancelOffer s) := by
  rw [cancelRunTaken, slotNumber_eq_some.2 hi]
  simp only [hq, if_neg hp]

end

/-- Settles O39: CANCEL_RUN ends an active run only; any other code is rejected. -/
theorem cancelAndUnknownCommands : Obligations.CancelAndUnknownCommands := by
  unfold Obligations.CancelAndUnknownCommands
  refine ⟨fun s rest slot x htakes => ?_, fun s rest code index x htakes hcode => exec_unknownCommand htakes hcode⟩
  have hexec {t : State} (ht : cancelRunTaken (0x02 :: slot :: x) { s with commandFifo := rest } = t) :
      exec .cancelRun s = .next t := (exec_cancelRun htakes).trans (congrArg _ ht)
  intro u rejected
  refine ⟨fun hslot => hexec (cancelRunTaken_badSlot (r := 0x02 :: slot :: x) hslot), fun i hi => ?_⟩
  have hi' : (recordIndex (0x02 :: slot :: x)).toNat = i.val := hi
  exact ⟨fun hfree => hexec (cancelRunTaken_free hi' hfree), fun q hq =>
    ⟨fun hp => hexec (cancelRunTaken_ending hi' hq hp), fun hp => hexec (cancelRunTaken_active hi' hq hp)⟩⟩

/-! ### SOFT_RESET (R46, R79, R116, R162, R171) -/

theorem softResetSlot_free {inserting : Bool} {slot : Slot} (h : slot = none ∨ inserting = false) :
    softResetSlot inserting slot = none := by
  rcases h with rfl | rfl
  · rfl
  · cases slot <;> rfl

theorem softResetSlot_inserting (r : Run) : softResetSlot true (some r) =
    some { r with phase := .ending, owed := none, answer := none, probe := none, pause := none } := rfl

/-- Settles O44: what a soft reset leaves is `softResetTaken_eq`, slot by slot `softResetRuns_spec`. -/
theorem softResetCommand : Obligations.SoftResetCommand := by
  intro s rest x htakes
  refine ⟨_, exec_softReset htakes, ?_, fun i => ?_⟩
  · rw [softResetTaken_eq]
  · obtain ⟨-, hslots⟩ := softResetRuns_spec { s with commandFifo := rest }
    have hslot : (softResetTaken { s with commandFifo := rest }).slots[i] =
        softResetSlot (beingInserted i s) s.slots[i] := by rw [softResetTaken_eq]; exact hslots i
    rw [hslot]
    exact ⟨softResetSlot_free, fun r hr hb => by rw [hr, hb, softResetSlot_inserting]⟩

end Sys2Proof.Machine
end

section
/-! The Link Receiver in UP (O8), the bank writer (O10) and the class of a BLOCK at its header (O15). A symbol in UP is
`symbolToRau` on the settled state and then `countInUp`; a header decision is `decide98`, which for a BLOCK to this
station is `blockHeader`. -/

namespace Sys2Proof.Machine

open Sys2Proof

/-! ### The count of a symbol (R136 to R138) -/

theorem symbol_valid_iff (sym : Symbol) : Symbol.valid sym = true ↔ sym ≠ .invalid := by
  cases sym <;> simp [Symbol.valid]

theorem count_of_valid {sym : Symbol} (h : sym ≠ .invalid) (r : Receiver) :
    r.count sym = { r with span := r.span + 1, quiet := some 400 } := by
  have hv : Symbol.valid sym = true := (symbol_valid_iff sym).2 h
  simp only [Receiver.count, hv, if_true, Config.quietTime]

theorem count_invalid (r : Receiver) : r.count .invalid = { r with span := r.span + 1, errors := r.errors + 1 } := rfl

/-- A span ends at its 1024th symbol. -/
theorem endSpan_eq {r : Receiver} (h : r.span ≤ 1024) :
    r.endSpan = { r with span := if r.span = 1024 then 0 else r.span,
                         errors := if r.span = 1024 then 0 else r.errors } := by
  unfold Receiver.endSpan Config.spanLength
  by_cases hend : r.span = 1024
  · simp only [hend, le_refl, if_true]
  · have hgoes : ¬1024 ≤ r.span := by omega
    simp only [hend, hgoes, if_false]

section
variable {sym : Symbol} {s : State}

theorem countInUp_goesOn (h : (s.rx.count sym).errors < 8) :
    countInUp sym s = { s with rx := (s.rx.count sym).endSpan } :=
  if_neg (Nat.not_le.2 h)

theorem countInUp_loses (h : 8 ≤ (s.rx.count sym).errors) : countInUp sym s = linkDown s := if_pos h

end

/-! ### The loss of the link outside any frame (R137 to R139) -/

theorem linkDown_of_align {s : State} (h : s.rx.state = .align) : linkDown s = { s with rx := Receiver.reset } := by
  have hup : ¬s.rx.state = .up := by simp [h]
  rw [linkDown_eq, linkDown_rau, linkDown_log, if_neg hup, if_neg hup]

theorem linkDown_of_up_outside {s : State} (h : s.rx.state = .up) (hr : s.rau.reception = none) :
    linkDown s = { s with rx := Receiver.reset, log := postTo s.log .linkDown } := by
  rw [linkDown_of_up h, abandon_none _ hr]

/-- Outside any frame a symbol but SOF goes nowhere (R2). -/
theorem symbolToRau_outside {sym : Symbol} {s : State} (hr : s.rau.reception = none) (hsof : sym ≠ .sof) :
    symbolToRau sym s = .ok s := by
  have hcut : setRau (abandon s.rau) s = s := by rw [abandon_none _ hr]; rfl
  cases sym with
  | data b => simp only [symbolToRau, dataByte, hr]
  | idle => exact congrArg _ hcut
  | sof => exact absurd rfl hsof
  | eof => simp only [symbolToRau, hr]
  | abort => exact congrArg _ hcut
  | invalid => exact congrArg _ hcut

/-! ### What is settled before a symbol and before the quiet timer's expiry (log 4) -/

theorem settle_handover (s : State) : (settle s).rau.handover = none :=
  (decidePending_handover _).trans (deliverPending_handover s)

theorem settle_not_waits (s : State) (q : Reception) : ¬(settle s).waits q := by
  intro hq
  have hdecided : q.undecided = false := decidePending_reception _ hq.1
  rw [waits_undecided hq] at hdecided
  cases hdecided

/-- Settles O8: a symbol is counted by `countInUp`, the link is lost by `linkDown`, and the rows that are still due lead
to `settle s`. -/
theorem receiverInUpAndLinkLoss : Obligations.ReceiverInUpAndLinkLoss := by
  unfold Obligations.ReceiverInUpAndLinkLoss
  refine ⟨fun s sym hup hspan herrors => ⟨fun hsym => ?valid, ?invalid, ?lost⟩,
    fun s sym hs hr hsof => exec_symbolInUp_idle s s sym hs hr (symbolToRau_outside hr hsof),
    fun s halign hquiet hnone hr => ?quietInAlign, fun s hup hquiet hnone hr => ?quietInUp, fun s => ?settled⟩
  case valid =>
    rw [countInUp_goesOn (by rw [count_of_valid hsym]; exact herrors), count_of_valid hsym,
      endSpan_eq (r := { s.rx with span := s.rx.span + 1, quiet := some 400 }) hspan]
  case invalid =>
    rintro rfl hleft
    rw [countInUp_goesOn (by rw [count_invalid]; exact hleft), count_invalid,
      endSpan_eq (r := { s.rx with span := s.rx.span + 1, errors := s.rx.errors + 1 }) hspan]
  case lost =>
    rintro rfl hlast hr
    rw [countInUp_loses (by rw [count_invalid]; exact Nat.le_of_eq hlast.symm), linkDown_of_up_outside hup hr]
    rfl
  case quietInAlign =>
    rw [exec_quietTimerExpiry s (by simp [halign]) hquiet, settle_idle s hnone hr, linkDown_of_align halign]
  case quietInUp =>
    rw [exec_quietTimerExpiry s (by simp [hup]) hquiet, settle_idle s hnone hr, linkDown_of_up_outside hup hr]
  case settled =>
    intro actsAs
    have hsettled : actsAs (settle s) :=
      ⟨settle_handover s, settle_not_waits s, settle_rx s, settle_resetLow s,
        fun hup hreset sym => exec_symbolInUp_settle s sym hup hreset,
        fun hdown hquiet => exec_quietTimerExpiry_settle s hdown hquiet⟩
    refine ⟨fun hnone => ⟨settle s, ?_, hsettled⟩,
      fun x c hx hrow => ⟨deliverPending s, settle s, exec_row hx hrow, rfl, hsettled⟩⟩
    rw [settle, deliverPending_none s hnone]; rfl

/-! ### The bank writer (R57, R84) -/

section
variable {w : BankWrite} {s : State} (b : Byte)

theorem bankWrite_within (hlimit : w.written < w.limit) (hmem : w.target + w.written < 131072) :
    bankWrite b w s = .ok ({ w with written := w.written + 1, trial := crc32Byte w.trial b },
      { s with mem := s.mem.write (w.target + w.written) b }) := by
  rw [bankWrite, if_pos hlimit, writeByte_of_lt b s hmem]

theorem bankWrite_past (hlimit : w.limit ≤ w.written) : bankWrite b w s = .ok (w, s) := if_neg (Nat.not_lt.2 hlimit)

/-- A byte of an expected BLOCK goes through the bank writer. -/
theorem bodyByte_expected {q : Reception} {w' : BankWrite} {t : State} (hcount : q.count + 1 < 1041)
    (hw : bankWrite b w s = .ok (w', t)) :
    bodyByte b (.strip (.block (.expected w))) q s = .ok (setReception
      { q with count := q.count + 1, body := q.body ++ [b],
               decision := some (.strip (.block (.expected w'))) } t) := by
  have hlimit : ¬Config.stripLimit ≤ q.count + 1 := Nat.not_le.2 hcount
  simp only [bodyByte, if_neg hlimit, hw]

end

/-- Settles O10: the byte is `bankWrite`'s, and the 1041st abandons the frame. -/
theorem bankWriterByte : Obligations.BankWriterByte := by
  intro s q w b hs hr hd q' w' written
  refine ⟨fun hwf hcount hlimit hmem => ?written, fun hcount hlimit => ?past, fun hcount => ?cut⟩
  case written =>
    have hbyte := bodyByte_expected b hcount (bankWrite_within (s := s) b hlimit hmem)
    refine ⟨_, exec_data_decided hs hr hd hbyte, ?_, fun a ha => ?_, ?_⟩
    · rw [countInUp_mem]; exact read_write_self s.mem _ b hwf
    · rw [countInUp_mem]; exact read_write_ne s.mem b ha
    · rw [countInUp_mem]; rfl
  case past =>
    rw [exec_data_decided hs hr hd (bodyByte_expected b hcount (bankWrite_past b hlimit)), ← hd]; rfl
  case cut => exact dataLeaves_abandons hs hr hd (bodyByte_strip_full b _ q s hcount)

/-! ### A BLOCK at its header (R55 to R57) -/

theorem decide98_block {h : Header} {s : State} (hdest : h.dest = s.own) (hkind : h.kind = 0x10)
    (hsrc : h.src.toNat < 16) (hown : h.src ≠ s.own) (hseq : h.seq.toNat < 8) (hlive : s.rollCall.silent = false) :
    decide98 h s = (.strip (.block (blockHeader h s).1), (blockHeader h s).2) := by
  have hk : kindOf h.kind = some .block := (kindOf_eq_some _ _).2 hkind
  have husable : ¬(blockUnusable h s.own || s.rollCall.silent) = true := by
    simp [blockUnusable, hlive, hown, hsrc, hseq]
  rw [decide98, if_pos hdest, stripOwn, if_pos hk, if_neg husable]

theorem blockHeader_closed {h : Header} {s : State} (hp : portOf h.port s = none) :
    blockHeader h s = (.refused .portClosed, s) := by
  rw [blockHeader, hp]

section
variable {h : Header} {s : State} {i : Fin 8} {p : OpenPort} (hp : portOf h.port s = some (i, p))
include hp

theorem blockHeader_halted (hm : p.mode = .halted) : blockHeader h s = (.refused .localHalt, s) := by
  simp only [blockHeader, hp, hm]

theorem blockHeader_listening (hm : p.mode = .listening) : blockHeader h s = (.refused .notBound, s) := by
  simp only [blockHeader, hp, hm]

variable {b : Binding} {current : Option BankId} {idle : Timer} (hm : p.mode = .bound b current idle)
include hm

theorem blockHeader_otherRun (hb : ¬(b.source = h.src ∧ b.tag = h.tag)) :
    blockHeader h s = (.refused .notBound, s) := by
  simp only [blockHeader, hp, hm, isOf_iff, if_neg hb]

theorem blockHeader_bound (hb : b.source = h.src ∧ b.tag = h.tag) : blockHeader h s = (classify h p b current,
    setPort i (some { p with mode := .bound b current (some (256 * Config.answerTime s.straps.tcl)) }) s) := by
  simp only [blockHeader, hp, hm, isOf_iff, if_pos hb, Config.idleTime]

end

/-! ### The classes of a BLOCK of the bound run (R56, R57) -/

section
variable {h : Header} {p : OpenPort} {b : Binding} {current : Option BankId} {d : Nat}
  (hd : (h.seq.toNat + 8 - b.accepted % 8) % 8 = d)
include hd

theorem classify_noneAccepted (hfar : 4 ≤ d) (h0 : b.accepted = 0) : classify h p b current = .noReply := by
  simp only [classify, seqDistance, Nat.mod_mod, hd, if_pos hfar, if_pos h0]

theorem classify_behind (hfar : 4 ≤ d) (h0 : b.accepted ≠ 0) : classify h p b current = .behind := by
  simp only [classify, seqDistance, Nat.mod_mod, hd, if_pos hfar, if_neg h0]

theorem classify_pastEnd (hnear : d < 4) (hall : b.accepted = b.count) : classify h p b current = .noReply := by
  simp only [classify, seqDistance, Nat.mod_mod, hd, if_neg (Nat.not_le.2 hnear), if_pos hall]

theorem classify_ahead (hnear : d < 4) (hleft : b.accepted ≠ b.count) (hpos : 1 ≤ d) :
    classify h p b current = .ahead := by
  simp only [classify, seqDistance, Nat.mod_mod, hd, if_neg (Nat.not_le.2 hnear), if_neg hleft,
    if_neg (Nat.one_le_iff_ne_zero.1 hpos)]

end

section
variable {h : Header} {p : OpenPort} {b : Binding} (hd : (h.seq.toNat + 8 - b.accepted % 8) % 8 = 0)
  (hleft : b.accepted ≠ b.count)
include hd hleft

theorem classify_noBank : classify h p b none = .expectedNoBank := by
  simp only [classify, seqDistance, Nat.mod_mod, hd, if_neg (show ¬4 ≤ 0 by decide), if_neg hleft, if_true]

theorem classify_expected {k : BankId} {o : Owner} {fill : Nat} (hk : (p.bank k).content = .filling o fill) :
    classify h p b (some k) = .expected { target := (p.bank k).base + fill * b.size, limit := min h.len.toNat b.size,
                                          written := 0, trial := b.digest } := by
  simp only [classify, seqDistance, Nat.mod_mod, hd, if_neg (show ¬4 ≤ 0 by decide), if_neg hleft, if_true, hk]

end

/-- Settles O15: the decision is that of `decide98_block`, and the class that of `blockHeader` and `classify`. -/
theorem blockClassAtHeader : Obligations.BlockClassAtHeader := by
  intro s q hq h hintact hdest hkind hsrc hown hseq hlive classed
  have hvalid : h.valid = true := (valid_iff h).2 ⟨hintact, .inl (by rw [hdest]; exact own_lt s)⟩
  have hdecide : decide98 h (s.yielded q) =
      (.strip (.block (blockHeader h (s.yielded q)).1), (blockHeader h (s.yielded q)).2) :=
    decide98_block hdest hkind hsrc hown hseq hlive
  have hclassed {c : BlockClass} (hc : blockHeader h (s.yielded q) = (c, s.yielded q)) : classed c := by
    rw [hc] at hdecide
    exact exec_headerDecision_of_not_forwards hq hvalid hdecide rfl
  refine ⟨fun hout => hclassed (blockHeader_closed (portOf_out _ hout)), fun i hi =>
    ⟨fun hnone => hclassed (blockHeader_closed (portOf_closed _ hi hnone)), fun p hp => ?_⟩⟩
  have hport : portOf h.port (s.yielded q) = some (i, p) := portOf_open _ hi hp
  refine ⟨fun hm => hclassed (blockHeader_halted hport hm), fun hm => hclassed (blockHeader_listening hport hm),
    fun b current idle hm => ⟨fun hother => ?otherRun, fun hsource htag => ?bound⟩⟩
  case otherRun =>
    exact hclassed (blockHeader_otherRun hport hm fun ⟨hsource, htag⟩ => hother.elim (absurd hsource) (absurd htag))
  case bound =>
    intro d bound
    have hbound {c : BlockClass} (hc : classify h p b current = c) : bound c := by
      rw [blockHeader_bound hport hm ⟨hsource, htag⟩, hc] at hdecide
      show exec .headerDecision s = _
      rw [exec_headerDecision s q hq, decideHeader_valid s q hvalid hdecide]
      rfl
    have hd : (h.seq.toNat + 8 - b.accepted % 8) % 8 = d := rfl
    refine ⟨fun hfar h0 => hbound (classify_noneAccepted hd hfar h0),
      fun hfar h0 => hbound (classify_behind hd hfar h0),
      fun hnear hall => hbound (classify_pastEnd hd hnear hall),
      fun hpos hnear hleft => hbound (classify_ahead hd hnear hleft hpos), fun h0 hleft hnone => hbound ?noBank,
      fun k o fill h0 hleft hk hfilling => hbound ?expected⟩
    case noBank => rw [hnone]; exact classify_noBank h0 hleft
    case expected => rw [hk]; exact classify_expected h0 hleft hfilling

end Sys2Proof.Machine
end

section
/-! The frames that reach the Port Engine (O16 to O20). Each frame gets one equation for each state of the port it
names; a BLOCK at its end gets them by its class. -/

namespace Sys2Proof.Machine

open Sys2Proof

/-! ### A port that is not bound to the run -/

theorem not_isOf_of_not_bindsTo {p : OpenPort} {b : Binding} {current : Option BankId} {idle : Timer}
    {source tag : Byte} (h : ¬bindsTo (some p) source tag) (hm : p.mode = .bound b current idle) :
    ¬b.isOf source tag = true := by
  rw [isOf_iff]
  rintro ⟨hsource, htag⟩
  exact h ⟨p, b, current, idle, rfl, hm, hsource, htag⟩

theorem not_bindsTo_of_portOf {h : Header} {s : State} {i : Fin 8} {p : OpenPort}
    (hu : ∀ i : Fin 8, h.port.toNat = i.val → ¬bindsTo s.ports[i] h.src h.tag) (hp : portOf h.port s = some (i, p)) :
    ¬bindsTo (some p) h.src h.tag := by
  obtain ⟨hi, hport⟩ := portOf_eq_some hp
  rw [← hport]; exact hu i hi

/-! ### OPEN (R53, R54) -/

theorem openParamBad_iff (a : OpenArgs) (p : OpenPort) : openParamBad a p = true ↔
    a.size < 16 ∨ p.maxSize < a.size ∨ a.size % 16 ≠ 0 ∨ a.count = 0 ∨ a.window = 0 ∨ 4 < a.window := by
  simp only [openParamBad, Bool.or_eq_true, decide_eq_true_eq, or_assoc]

theorem openReaches_closed {h : Header} {s : State} (x : List Byte) (hp : portOf h.port s = none) :
    openReaches h x s = refuse h .noPort s := by
  rw [openReaches, hp]

/-- The binding that an accepted OPEN makes (R54). -/
def openBinding (h : Header) (a : OpenArgs) (p : OpenPort) : Binding :=
  { source := h.src, tag := h.tag, size := a.size, count := a.count, granted := min a.window p.maxWindow,
    accepted := 0, digest := digestStart, busyOwed := false, resumeSent := false }

section
variable {h : Header} {s : State} {i : Fin 8} {p : OpenPort} (x : List Byte) (hp : portOf h.port s = some (i, p))
include hp

theorem openReaches_halted (hm : p.mode = .halted) : openReaches h x s = refuse h .halted s := by
  simp only [openReaches, hp, hm]

theorem openReaches_bound {b : Binding} {current : Option BankId} {idle : Timer} (hm : p.mode = .bound b current idle)
    (hb : b.source = h.src ∧ b.tag = h.tag) : openReaches h x s = grant h b.granted s := by
  simp only [openReaches, hp, hm, isOf_iff, if_pos hb]

theorem openReaches_otherRun {b : Binding} {current : Option BankId} {idle : Timer}
    (hm : p.mode = .bound b current idle) (hb : ¬(b.source = h.src ∧ b.tag = h.tag)) :
    openReaches h x s = refuse h .portBusy s := by
  simp only [openReaches, hp, hm, isOf_iff, if_neg hb]

variable (hm : p.mode = .listening)
include hm

theorem openReaches_bad (hbad : openParamBad (openArgs x) p = true) : openReaches h x s = refuse h .badParam s := by
  simp only [openReaches, hp, hm, if_pos hbad]

variable (hgood : ¬openParamBad (openArgs x) p = true)
include hgood

theorem openReaches_elsewhere (he : boundElsewhere i h.src h.tag s = true) :
    openReaches h x s = refuse h .portBusy s := by
  simp only [openReaches, hp, hm, if_neg hgood, if_pos he]

/-- A LISTENING port binds the run (R54). -/
theorem openReaches_binds (he : ¬boundElsewhere i h.src h.tag s = true) :
    let b := openBinding h (openArgs x) p
    openReaches h x s = grant h b.granted
      (setPort i (some (p.bind b (firstFree p) (256 * Config.answerTime s.straps.tcl))) s) := by
  simp only [openReaches, hp, hm, if_neg hgood, if_neg he]
  rfl

end

/-! ### The current bank of a new binding (R54) -/

section
variable {p : OpenPort}

theorem firstFree_a (ha : p.bankA.content = .free) : firstFree p = some .a := if_pos ((isFree_iff _).2 ha)

theorem firstFree_b (ha : p.bankA.content ≠ .free) (hb : p.bankB.content = .free) : firstFree p = some .b := by
  rw [firstFree, if_neg (mt (isFree_iff _).1 ha), if_pos ((isFree_iff _).2 hb)]

theorem firstFree_none (ha : p.bankA.content ≠ .free) (hb : p.bankB.content ≠ .free) : firstFree p = none := by
  rw [firstFree, if_neg (mt (isFree_iff _).1 ha), if_neg (mt (isFree_iff _).1 hb)]

end

/-- Settles O16: the cases of R53 are the equations of `openReaches`, the bank that of `firstFree`. -/
theorem openExchange : Obligations.OpenExchange := by
  intro s h s1 s0 c1 c0 w r hs u size count refused granted
  let x : List Byte := [s1, s0, c1, c0, w, r]
  have hexec {t : State} (ht : openReaches h x u = t) : exec .openFrame s = .next t :=
    (exec_openFrame hs).trans (congrArg _ ht)
  refine ⟨fun hout => hexec (openReaches_closed x (portOf_out u hout)), fun i hi =>
    ⟨fun hnone => hexec (openReaches_closed x (portOf_closed u hi hnone)), fun p hp => ?_⟩⟩
  have hport : portOf h.port u = some (i, p) := portOf_open u hi hp
  refine ⟨fun hm => hexec (openReaches_halted x hport hm),
    fun b current idle hm => ⟨fun hb => hexec (openReaches_bound x hport hm hb),
      fun hb => hexec (openReaches_otherRun x hport hm hb)⟩, fun hm => ?listening⟩
  case listening =>
    intro bad elsewhere g binding filling idle
    have hbad : openParamBad (openArgs x) p = true ↔ bad := by
      show _ ↔ _ ∨ _ ∨ _ ∨ _ ∨ w = 0 ∨ _
      rw [openParamBad_iff, byte_eq_zero_iff]; rfl
    have helsewhere : boundElsewhere i h.src h.tag u = true ↔ elsewhere := boundElsewhere_iff i h.src h.tag u
    have hbinds (hb : ¬bad) (he : ¬elsewhere) {current : Option BankId} (hc : firstFree p = current) :
        granted g (setPort i (some (p.bind binding current (256 * Config.answerTime s.straps.tcl))) u) := by
      rw [← hc]; exact hexec (openReaches_binds x hport hm (mt hbad.1 hb) (mt helsewhere.1 he))
    exact ⟨fun hb => hexec (openReaches_bad x hport hm (hbad.2 hb)),
      fun hb he => hexec (openReaches_elsewhere x hport hm (mt hbad.1 hb) (helsewhere.2 he)),
      fun hb he ha => hbinds hb he (firstFree_a ha), fun hb he ha hB => hbinds hb he (firstFree_b ha hB),
      fun hb he ha hB => hbinds hb he (firstFree_none ha hB)⟩

/-! ### A BLOCK at its end (R55, R58 to R64) -/

section
variable {h : Header} {c : BlockClass} {e : BlockEnd} {s : State}

theorem blockEnds_refused {reason : HaltReason} (he : e ≠ .abandoned) :
    blockEnds h (.refused reason) e s = haltedReply h reason s := by
  cases e with
  | abandoned => exact absurd rfl he
  | intact | damaged => rfl

theorem blockEnds_unbound (hc : ∀ reason, c ≠ .refused reason)
    (hu : ∀ i : Fin 8, h.port.toNat = i.val → ¬bindsTo s.ports[i] h.src h.tag) : blockEnds h c e s = s := by
  unfold blockEnds
  split
  · rfl
  all_goals
    split
    · exact absurd rfl (hc _)
    all_goals
      split
      · rfl
      · rename_i hp
        split
        · rename_i hm
          exact if_neg (not_isOf_of_not_bindsTo (not_bindsTo_of_portOf hu hp) hm)
        all_goals rfl

theorem blockEnds_bound {i : Fin 8} {p : OpenPort} {b : Binding} {current : Option BankId} {idle : Timer}
    (he : e ≠ .abandoned) (hc : ∀ reason, c ≠ .refused reason) (hp : portOf h.port s = some (i, p))
    (hm : p.mode = .bound b current idle) (hb : b.source = h.src ∧ b.tag = h.tag) :
    blockEnds h c e s = boundBlockEnds i p b current idle h c (e = .intact) s := by
  unfold blockEnds
  split
  · exact absurd rfl he
  all_goals
    split
    · exact absurd rfl (hc _)
    all_goals simp only [hp, hm, isOf_iff, if_pos hb]

end

section
variable (i : Fin 8) (p : OpenPort) {b : Binding} (current : Option BankId) (idle : Timer) {h : Header} (s : State)

/-- An expected BLOCK that is not accepted: damaged, or of another size than the binding's (R63). -/
theorem boundBlockEnds_unfit {w : BankWrite} {intact : Bool} (hbad : ¬(intact = true ∧ h.len.toNat = b.size)) :
    boundBlockEnds i p b current idle h (.expected w) intact s = resumeUnlessSent i p b current idle h s :=
  if_neg (by simpa using hbad)

theorem boundBlockEnds_fit {w : BankWrite} (hlen : h.len.toNat = b.size) :
    boundBlockEnds i p b current idle h (.expected w) true s = accept i p b current idle h w.trial s :=
  if_pos (by simpa using hlen)

theorem resumeUnlessSent_sent (hsent : b.resumeSent = true) : resumeUnlessSent i p b current idle h s = s :=
  if_pos hsent

theorem resumeUnlessSent_unsent (hsent : b.resumeSent = false) :
    resumeUnlessSent i p b current idle h s = offer (replyTo h .resume b.expected [])
      (setPort i (some { p with mode := .bound { b with resumeSent := true } current idle }) s) :=
  if_neg (Bool.eq_false_iff.1 hsent)

end

/-- Settles O17: by the class, `blockEnds` comes down to `resumeUnlessSent`, one frame, or nothing. -/
theorem blockEndReplies : Obligations.BlockEndReplies := by
  intro s h c e hs u reply answers
  have hexec {t : State} (ht : blockEnds h c e u = t) : answers t := (exec_blockFrame hs).trans (congrArg _ ht)
  refine ⟨?abandoned, ?refused, fun hc hu => hexec (blockEnds_unbound (s := u) hc hu),
    fun i p b current idle he hi hp hm hsource htag => ?bound⟩
  case abandoned =>
    rintro rfl
    exact hexec rfl
  case refused =>
    rintro reason he rfl
    refine (hexec (blockEnds_refused he)).trans ?_
    cases reason <;> rfl
  case bound =>
    intro expected resumes
    have hbound {t : State} (hc : ∀ reason, c ≠ .refused reason)
        (ht : boundBlockEnds i p b current idle h c (e = .intact) u = t) : answers t :=
      hexec ((blockEnds_bound he hc (portOf_open u hi hp) hm ⟨hsource, htag⟩).trans ht)
    have hresumes (hc : ∀ reason, c ≠ .refused reason)
        (ht : boundBlockEnds i p b current idle h c (e = .intact) u = resumeUnlessSent i p b current idle h u) :
        resumes :=
      ⟨fun hsent => hbound hc (ht.trans (resumeUnlessSent_sent i p current idle u hsent)),
        fun hsent => hbound hc (ht.trans (resumeUnlessSent_unsent i p current idle u hsent))⟩
    refine ⟨?ahead, ?noBankThen, ?noBank, fun w => ?expected, ?behind, ?noReply⟩
    case ahead =>
      rintro rfl
      exact hresumes nofun rfl
    case noBankThen =>
      rintro rfl hcurrent
      exact hresumes nofun (if_neg (mt Option.isNone_iff_eq_none.1 hcurrent))
    case noBank =>
      rintro rfl rfl
      exact hbound nofun rfl
    case expected =>
      rintro rfl hbad
      refine hresumes nofun (boundBlockEnds_unfit i p current idle u ?_)
      rintro ⟨hintact, hlen⟩
      rcases hbad with rfl | hbad
      · cases hintact
      · exact hbad hlen
    case behind =>
      rintro rfl
      exact hbound nofun rfl
    case noReply =>
      rintro rfl
      exact hbound nofun rfl

/-! ### The acceptance of a block (R61, R62) -/

section
variable {i : Fin 8} {p : OpenPort} {b : Binding} {k : BankId} {idle : Timer} {o : Owner} {fill : Nat}

theorem accept_filling {h : Header} {trial : Word32} {s : State} (hk : (p.bank k).content = .filling o fill) :
    let b' := { b with accepted := b.accepted + 1, digest := trial, resumeSent := false }
    let f := fillBank i p b' k o fill idle
    accept i p b (some k) idle h trial s =
      postAll f.2 (offer (replyTo h .taken h.seq []) (setPort i (some f.1) s)) := by
  simp only [accept, hk]
  rfl

theorem fillBank_room (hroom : fill + 1 < (p.bank k).capacity) : fillBank i p b k o fill idle =
    ({ p.setBank k { p.bank k with content := .filling o (fill + 1) } with mode := .bound b (some k) idle }, []) :=
  if_pos hroom

variable (hfull : (p.bank k).capacity ≤ fill + 1)
include hfull

/-- The bank is FULL, and the other bank, where FREE, becomes current (R62). -/
theorem fillBank_next (hother : (p.bank k.other).content = .free) : fillBank i p b k o fill idle =
    ({ (p.setBank k { p.bank k with content := .full o (fill + 1) }).setBank k.other
        ((p.bank k.other).startFilling b) with mode := .bound b (some k.other) idle },
      [bankFullRecord i k (p.bank k) (fill + 1) false o]) := by
  simp only [fillBank, if_neg (Nat.not_lt.2 hfull), bank_setBank_other, if_pos ((isFree_iff _).2 hother)]

theorem fillBank_none (hother : (p.bank k.other).content ≠ .free) : fillBank i p b k o fill idle =
    ({ p.setBank k { p.bank k with content := .full o (fill + 1) } with mode := .bound b none idle },
      [bankFullRecord i k (p.bank k) (fill + 1) false o]) := by
  simp only [fillBank, if_neg (Nat.not_lt.2 hfull), bank_setBank_other, if_neg (mt (isFree_iff _).1 hother)]

end

/-- Settles O18: the acceptance is `accept`, and the bank after it `fillBank`. -/
theorem blockAccepted : Obligations.BlockAccepted := by
  intro s h w i p b k idle o fill hs hi hp hm hsource htag hlen hk b' taken full record other filled
  have hexec {f : OpenPort × List Record} (hf : fillBank i p b' k o fill idle = f) :
      exec .blockFrame s = .next (postAll f.2 (offer taken (setPort i (some f.1) (clearHandover s)))) := by
    have haccepts : blockEnds h (.expected w) .intact (clearHandover s) =
        accept i p b (some k) idle h w.trial (clearHandover s) :=
      (blockEnds_bound (c := .expected w) (e := .intact) nofun nofun (portOf_open (clearHandover s) hi hp) hm
        ⟨hsource, htag⟩).trans (boundBlockEnds_fit i p (some k) idle _ hlen)
    rw [exec_blockFrame hs, haccepts, accept_filling hk, hf]
    rfl
  exact ⟨fun hroom => hexec (fillBank_room hroom), fun hfull hother => hexec (fillBank_next hfull hother),
    fun hfull hother => hexec (fillBank_none hfull hother)⟩

/-! ### The end of a binding (R69, R70) -/

section
variable (i : Fin 8) (b : Binding) (result : PortResult) (mode : PortMode) (s : State)

theorem unbindNow_noBank (p : OpenPort) : unbindNow i p b none result mode s =
    post (.portRunEnd i b.source b.tag b.accepted result) (setPort i (some { p with mode := mode }) s) := rfl

variable {p : OpenPort} {k : BankId} {o : Owner}

theorem unbindNow_empty (hk : (p.bank k).content = .filling o 0) : unbindNow i p b (some k) result mode s =
    post (.portRunEnd i b.source b.tag b.accepted result)
      (setPort i (some { p.setBank k { p.bank k with content := .free } with mode := mode }) s) := by
  simp only [unbindNow, unbind, closeCurrent, closeBank, hk, if_true]
  rfl

theorem unbindNow_partial {fill : Nat} (hk : (p.bank k).content = .filling o fill) (hfill : fill ≠ 0) :
    unbindNow i p b (some k) result mode s = post (.portRunEnd i b.source b.tag b.accepted result)
      (post (.bankFull i k (p.bank k).base fill true o.source o.tag)
        (setPort i (some { p.setBank k { p.bank k with content := .full o fill } with mode := mode }) s)) := by
  simp only [unbindNow, unbind, closeCurrent, closeBank, hk, if_neg hfill]
  rfl

end

/-! ### CANCEL and the idle timer (R68, R71) -/

section
variable {h : Header} {s : State}

theorem cancelReaches_bound {i : Fin 8} {p : OpenPort} {b : Binding} {current : Option BankId} {idle : Timer}
    (hp : portOf h.port s = some (i, p)) (hm : p.mode = .bound b current idle)
    (hb : b.source = h.src ∧ b.tag = h.tag) :
    cancelReaches h s = unbindNow i p b current .cancelledByPeer .listening s := by
  simp only [cancelReaches, hp, hm, isOf_iff, if_pos hb]

theorem cancelReaches_unbound (hu : ∀ i : Fin 8, h.port.toNat = i.val → ¬bindsTo s.ports[i] h.src h.tag) :
    cancelReaches h s = s := by
  unfold cancelReaches
  split
  · rfl
  · rename_i hp
    split
    · rename_i hm
      exact if_neg (not_isOf_of_not_bindsTo (not_bindsTo_of_portOf hu hp) hm)
    all_goals rfl

end

theorem idleExpires_running {s : State} {i : Fin 8} {p : OpenPort} {b : Binding} {current : Option BankId} {n : Nat}
    (hp : s.ports[i] = some p) (hm : p.mode = .bound b current (some n)) :
    idleExpires i s = unbindNow i p b current .abandoned .listening s := by
  simp only [idleExpires, hp, hm, Option.isSome_some, if_true]

/-- Settles O19: a binding ends by `unbindNow`, which closes its current bank. -/
theorem bindingEnds : Obligations.BindingEnds := by
  unfold Obligations.BindingEnds
  refine ⟨fun i p b result mode s => ⟨unbindNow_noBank i b result mode s p,
      fun k o fill hk => ⟨?empty, fun hfill => unbindNow_partial i b result mode s hk hfill⟩⟩,
    fun s h x hs => ⟨fun i p b current idle hi hp hm hsource htag => ?cancels, fun hu => ?cancelsNothing⟩,
    fun s i p b current n hp hm => congrArg _ (idleExpires_running hp hm)⟩
  case empty =>
    rintro rfl
    exact unbindNow_empty i b result mode s hk
  case cancels =>
    rw [exec_cancelFrame hs, cancelReaches_bound (portOf_open (clearHandover s) hi hp) hm ⟨hsource, htag⟩]
  case cancelsNothing =>
    rw [exec_cancelFrame hs, cancelReaches_unbound (s := clearHandover s) hu]

/-! ### FINISH (R65, R66) -/

section
variable {p : OpenPort} {source tag : Byte}

theorem noteOf_some {n : Note} (hn : p.note = some n) (hs : n.source = source) (ht : n.tag = tag) :
    p.noteOf source tag = some n := by
  rw [OpenPort.noteOf, hn]; exact if_pos ⟨hs, ht⟩

theorem noteOf_none (h : ¬∃ n, p.note = some n ∧ n.source = source ∧ n.tag = tag) : p.noteOf source tag = none := by
  unfold OpenPort.noteOf
  split
  · rename_i n hn
    exact if_neg fun hrun => h ⟨n, hn, hrun⟩
  · rfl

end

theorem finishReaches_closed {h : Header} {s : State} (x : List Byte) (hp : portOf h.port s = none) :
    finishReaches h x s = haltedReply h .notBound s := by
  rw [finishReaches, hp]

section
variable {h : Header} {s : State} {i : Fin 8} {p : OpenPort} (x : List Byte) (hp : portOf h.port s = some (i, p))
include hp

theorem finishReaches_noted {n : Note} (hn : p.noteOf h.src h.tag = some n) :
    finishReaches h x s = offer (replyTo h .closed 0 (closedPayload n.matched n.accepted)) s := by
  simp only [finishReaches, hp, hn]

variable (hn : p.noteOf h.src h.tag = none)
include hn

theorem finishReaches_unbound (hu : ¬bindsTo (some p) h.src h.tag) :
    finishReaches h x s = haltedReply h .notBound s := by
  simp only [finishReaches, hp, hn]
  split
  · rename_i hm
    exact if_neg (not_isOf_of_not_bindsTo hu hm)
  all_goals rfl

variable {b : Binding} {current : Option BankId} {idle : Timer} (hm : p.mode = .bound b current idle)
  (hb : b.source = h.src ∧ b.tag = h.tag)
include hm hb

theorem finishReaches_short (hleft : b.accepted < b.count) :
    finishReaches h x s = offer (replyTo h .resume b.expected []) s := by
  simp only [finishReaches, hp, hn, hm, isOf_iff, if_pos hb, if_pos hleft]

theorem finishReaches_all (hall : b.count ≤ b.accepted) : finishReaches h x s = closeRun i p b current h x s := by
  simp only [finishReaches, hp, hn, hm, isOf_iff, if_pos hb, if_neg (Nat.not_lt.2 hall)]

end

/-- The end of a binding leaves the note as it is. -/
theorem unbind_note (i : Fin 8) (p : OpenPort) (b : Binding) (current : Option BankId) (result : PortResult)
    (mode : PortMode) (note : Option Note) :
    unbind i { p with note := note } b current result mode =
      ({ (unbind i p b current result mode).1 with note := note }, (unbind i p b current result mode).2) := by
  cases current with
  | none => rfl
  | some k => cases k <;> rfl

/-- The close of a run (R66) is a CLOSED, the note, and the end of the binding. -/
theorem closeRun_eq (i : Fin 8) (p : OpenPort) (b : Binding) (current : Option BankId) (h : Header) (x : List Byte)
    (s : State) :
    let matched : Bool := word32At x 0 = ~~~b.digest ∧ (word16At x 4).toNat = b.count
    let note : Note := { source := b.source, tag := b.tag, matched := matched, accepted := b.accepted }
    closeRun i p b current h x s = unbindNow i { p with note := some note } b current
      (if matched then .matched else .mismatched) .listening
      (offer (replyTo h .closed 0 (closedPayload matched b.accepted)) s) := by
  intro matched note
  rw [unbindNow, unbind_note]; rfl

/-- Settles O20: the note answers first, then the binding by its count, and HALTED otherwise. -/
theorem finishAnswers : Obligations.FinishAnswers := by
  intro s h d3 d2 d1 d0 c1 c0 hs u reply notBound
  let x : List Byte := [d3, d2, d1, d0, c1, c0]
  have hexec {t : State} (ht : finishReaches h x u = t) : exec .finishFrame s = .next t :=
    (exec_finishFrame hs).trans (congrArg _ ht)
  refine ⟨fun hout => hexec (finishReaches_closed x (portOf_out u hout)), fun i hi =>
    ⟨fun hnone => hexec (finishReaches_closed x (portOf_closed u hi hnone)), fun p hp => ?_⟩⟩
  have hport : portOf h.port u = some (i, p) := portOf_open u hi hp
  intro noted
  refine ⟨fun n hn hsource htag => hexec (finishReaches_noted x hport (noteOf_some hn hsource htag)),
    fun hnoted hu => hexec (finishReaches_unbound x hport (noteOf_none hnoted) (hp ▸ hu)),
    fun b current idle hnoted hm hsource htag =>
      ⟨fun hleft => hexec (finishReaches_short x hport (noteOf_none hnoted) hm ⟨hsource, htag⟩ hleft),
        fun hall => ?close⟩⟩
  case close =>
    intro matched note
    refine hexec ?_
    rw [finishReaches_all x hport (noteOf_none hnoted) hm ⟨hsource, htag⟩ hall, closeRun_eq, hsource, htag]
    rfl

end Sys2Proof.Machine
end

section
/-! A stripped ROLL with the own Src (O34): the own beacon's return, or the entry to SILENT, whose effects are those of
`enterSilent_order`, slot by slot and port by port. -/

namespace Sys2Proof.Machine

open Sys2Proof

/-! ### The beacon in flight (R127, R129) -/

theorem isBeaconInFlight_iff (r : RollCall) (number stamp : Word16) : isBeaconInFlight r number stamp = true ↔
    ∃ b, r.inFlight = some b ∧ b.sent = true ∧ b.number = number ∧ r.stamp = some stamp := by
  unfold isBeaconInFlight
  split
  · rename_i b hb
    simp only [Bool.and_eq_true, decide_eq_true_eq, hb, Option.some.injEq, exists_eq_left']
    tauto
  · rename_i hnone
    simp [hnone]

theorem alreadyReturned_eq {r : RollCall} {b : Beacon} (hb : r.inFlight = some b) : alreadyReturned r = b.returned := by
  rw [alreadyReturned, hb]

/-- The beacon's return clears the misses (R127), and closes a ring that was reported open (R129). -/
theorem beaconReturns_eq {s : State} {b : Beacon} (hb : s.rollCall.inFlight = some b) :
    let back : RollCall :=
      { s.rollCall with inFlight := some { b with returned := true }, misses := 0, ringOpen := false }
    beaconReturns s = if s.rollCall.ringOpen then post .ringClosed { s with rollCall := back }
      else { s with rollCall := back } := by
  simp only [beaconReturns, hb, Option.map_some]
  rfl

section
variable {s : State} (x : List Byte)

theorem ownRollReaches_silent (h : s.rollCall.silent = true) : ownRollReaches x s = s := if_pos h

variable (h : s.rollCall.silent = false)
include h

theorem ownRollReaches_duplicate (hown : ¬isBeaconInFlight s.rollCall (word16At x 2) (word16At x 4) = true) :
    ownRollReaches x s = enterSilent s := by
  rw [ownRollReaches, if_neg (Bool.eq_false_iff.1 h), if_neg hown]

theorem ownRollReaches_own (hown : isBeaconInFlight s.rollCall (word16At x 2) (word16At x 4) = true) :
    ownRollReaches x s = if alreadyReturned s.rollCall then s else beaconReturns s := by
  rw [ownRollReaches, if_neg (Bool.eq_false_iff.1 h), if_pos hown]

end

/-! ### What the end of every run and binding leaves (R41, R69, R70) -/

section
variable {i : Fin 8} {ends : Run → Bool} {result : RunResult} {inserting : Bool} {r : Run}

theorem slotAfterEnding_ending (hp : r.phase = .ending) :
    slotAfterEnding i inserting ends result (some r) = (some r, []) := if_pos (.inl hp)

variable (hp : r.phase ≠ .ending) (he : ends r = true)
include hp he

theorem slotAfterEnding_inserting : slotAfterEnding i true ends result (some r) =
    (some { r with phase := .ending, owed := some (result, none), answer := none, probe := none, pause := none },
      []) := by
  simp [slotAfterEnding, hp, he]

theorem slotAfterEnding_free : slotAfterEnding i false ends result (some r) =
    (none, [.runEnd i r.tag r.dest r.port r.taken result none]) := by
  simp [slotAfterEnding, hp, he]

end

theorem closeCurrent_note (i : Fin 8) (current : Option BankId) (p : OpenPort) :
    (closeCurrent i current p).1.note = p.note := by
  cases current with
  | none => rfl
  | some k => exact setBank_note p k _

section
variable (i : Fin 8) {ends : Binding → Bool} (result : PortResult)

theorem portAfterEnding_bound {p : OpenPort} {b : Binding} {current : Option BankId} {idle : Timer}
    (hm : p.mode = .bound b current idle) (he : ends b = true) :
    .portRunEnd i b.source b.tag b.accepted result ∈ (portAfterEnding i ends result (some p)).2 ∧
      ∃ p', (portAfterEnding i ends result (some p)).1 = some p' ∧ p'.mode = .listening ∧ p'.note = p.note := by
  have hends : unbindsAt ends (some p) = true := by simp only [unbindsAt, hm, he]
  have hport : portAfterEnding i ends result (some p) =
      (some (unbind i p b current result .listening).1, (unbind i p b current result .listening).2) := by
    rw [portAfterEnding_eq, if_pos hends]
    simp only [unboundPort, hm]
  rw [hport]
  exact ⟨List.mem_append_right _ (List.mem_singleton_self _), _, rfl, rfl, closeCurrent_note i current p⟩

theorem portAfterEnding_unbound {port : Port}
    (h : ∀ p b current idle, port = some p → p.mode ≠ .bound b current idle) :
    portAfterEnding i ends result port = (port, []) := by
  have hends : ¬unbindsAt ends port = true := by
    unfold unbindsAt
    split
    · split
      · rename_i hm
        exact absurd hm (h _ _ _ _ rfl)
      all_goals exact Bool.false_ne_true
    · exact Bool.false_ne_true
  rw [portAfterEnding_eq, if_neg hends]

end

/-- Settles O34: a ROLL of the beacon in flight is its return; any other enters SILENT by `enterSilent_order`. -/
theorem ownBeacon : Obligations.OwnBeacon := by
  intro s h size cls n1 n0 s1 s0 x y hs u own
  let payload : List Byte := [size, cls, n1, n0, s1, s0, x, y]
  have hexec {t : State} (ht : ownRollReaches payload u = t) : exec .ownBeacon s = .next t :=
    (exec_ownBeacon hs).trans (congrArg _ ht)
  have hown : isBeaconInFlight u.rollCall (word16At payload 2) (word16At payload 4) = true ↔ ∃ b, own b :=
    isBeaconInFlight_iff u.rollCall (n1 ++ n0) (s1 ++ s0)
  refine ⟨fun hsilent => hexec (ownRollReaches_silent (s := u) payload hsilent), fun b hlive hb => ?returns,
    fun hlive hnone => ?silent⟩
  case returns =>
    intro back
    have hflight : u.rollCall.inFlight = some b := hb.1
    have hreach : ownRollReaches payload u = if b.returned then u else beaconReturns u := by
      rw [ownRollReaches_own (s := u) payload hlive (hown.2 ⟨b, hb⟩), alreadyReturned_eq hflight]
    have hback (hnew : b.returned = false) : ownRollReaches payload u =
        if u.rollCall.ringOpen then post .ringClosed { u with rollCall := back } else { u with rollCall := back } := by
      rw [hreach, if_neg (Bool.eq_false_iff.1 hnew), beaconReturns_eq hflight]; rfl
    exact ⟨fun hold => hexec (hreach.trans (if_pos hold)),
      fun hnew hclosed => hexec ((hback hnew).trans (if_neg (Bool.eq_false_iff.1 hclosed))),
      fun hnew hopen => hexec ((hback hnew).trans (if_pos hopen))⟩
  case silent =>
    have hreach : ownRollReaches payload u = enterSilent u :=
      ownRollReaches_duplicate (s := u) payload hlive (mt hown.1 fun ⟨b, hb⟩ => hnone b hb)
    obtain ⟨z, rs, hz, hkept, hpeers, hslots, hports, hruns, hbindings, hothers⟩ := enterSilent_order u
    have hrun {i : Fin 8} {r : Record}
        (hr : r ∈ (slotAfterEnding i (beingInserted i s) (fun _ => true) .silenced s.slots[i]).2) : r ∈ rs :=
      List.mem_of_mem_filter (hruns ▸ List.mem_flatMap.2 ⟨i, mem_slotNumbers i, hr⟩)
    have hbinding {i : Fin 8} {r : Record}
        (hr : r ∈ (portAfterEnding i (fun _ => true) .silenced s.ports[i]).2) : r ∈ rs :=
      List.mem_of_mem_filter (hbindings ▸ List.mem_flatMap.2 ⟨i, mem_portNumbers i, hr⟩)
    refine ⟨_, rs, hexec (hreach.trans hz), hkept.rollCall, rfl, hkept.controlQueue, hkept.output, hkept.passFifo,
      hpeers, hkept.mem, hkept.commandFifo, fun i hfree => ?free, fun i r hr hp => ?ending, fun i r hr hp hb => ?inserting,
      fun i r hr hp hb => ?active, fun i p b current idle hp hm => ?bound, fun i hu => ?unbound,
      fun i => ⟨hslots i, hports i⟩, hruns, hbindings, hothers⟩
    case free => exact (hslots i).trans (by rw [show u.slots[i] = none from hfree]; rfl)
    case ending =>
      exact (hslots i).trans (by rw [show u.slots[i] = some r from hr, slotAfterEnding_ending hp])
    case inserting =>
      refine (hslots i).trans ?_
      rw [show u.slots[i] = some r from hr, show beingInserted i u = true from hb, slotAfterEnding_inserting hp rfl]
    case active =>
      have hslot : slotAfterEnding i (beingInserted i s) (fun _ => true) .silenced s.slots[i] =
          (none, [.runEnd i r.tag r.dest r.port r.taken .silenced none]) := by
        rw [hr, hb, slotAfterEnding_free hp rfl]
      exact ⟨(hslots i).trans (congrArg Prod.fst hslot), hrun (by rw [hslot]; exact List.mem_singleton_self _)⟩
    case bound =>
      obtain ⟨hrecord, p', hp', hmode, hnote⟩ :=
        portAfterEnding_bound i (ends := fun _ => true) .silenced hm rfl
      rw [← hp] at hrecord hp'
      exact ⟨hbinding hrecord, p', (hports i).trans hp', hmode, hnote⟩
    case unbound => exact (hports i).trans (congrArg Prod.fst (portAfterEnding_unbound i .silenced hu))

end Sys2Proof.Machine
end

section
/-! The commands on ports (O40 to O43): each check of R159 to R161 is one lemma, in the order of the checks. -/

namespace Sys2Proof.Machine

open Sys2Proof

/-! ### The port a command names (R160, R161) -/

section
variable {r : List Byte} (f : Fin 8 → OpenPort → State → State) {s : State}

theorem onOpenPort_badPort (hport : 8 ≤ (recordIndex r).toNat) : onOpenPort r f s = reject r .badPort s := by
  rw [onOpenPort, portNumber_eq_none.2 hport]

variable {i : Fin 8} (hi : (recordIndex r).toNat = i.val)
include hi

theorem onOpenPort_closed (hp : s.ports[i] = none) : onOpenPort r f s = reject r .wrongState s := by
  simp only [onOpenPort, portNumber_eq_some.2 hi, hp]

theorem onOpenPort_open {p : OpenPort} (hp : s.ports[i] = some p) : onOpenPort r f s = f i p s := by
  simp only [onOpenPort, portNumber_eq_some.2 hi, hp]

end

/-! ### OPEN_PORT (R91, R159) -/

theorem openPortBad_iff (a : OpenPortArgs) : openPortBad a = true ↔
    a.maxSize < 16 ∨ 1024 < a.maxSize ∨ a.maxSize % 16 ≠ 0 ∨ a.maxWindow = 0 ∨ 4 < a.maxWindow ∨ a.capacityA = 0 ∨
      a.capacityB = 0 ∨ a.baseA % 16 ≠ 0 ∨ a.baseB % 16 ≠ 0 ∨ 131072 < a.regionA.hi ∨ 131072 < a.regionB.hi := by
  simp only [openPortBad, Bool.or_eq_true, badSize_iff, badWindow_iff, pastEnd_iff, decide_eq_true_eq, or_assoc]

/-- A region shares a byte with a bank of another port or with an active source region (R91). -/
def Hits (i : Fin 8) (s : State) (a : Region) : Prop :=
  (∃ j : Fin 8, j ≠ i ∧ ∃ b ∈ portRegions s.ports[j], a.overlaps b = true) ∨ ∃ b ∈ sourceRegions s, a.overlaps b = true

theorem overlapsAny_otherBanks (i : Fin 8) (s : State) (a : Region) : a.overlapsAny (otherBankRegions i s) = true ↔
    ∃ j : Fin 8, j ≠ i ∧ ∃ b ∈ portRegions s.ports[j], a.overlaps b = true := by
  simp only [overlapsAny_iff, mem_otherBankRegions]
  constructor
  · rintro ⟨b, ⟨j, hj, hb⟩, hover⟩
    exact ⟨j, hj, b, hb, hover⟩
  · rintro ⟨j, hj, b, hb, hover⟩
    exact ⟨b, ⟨j, hj, hb⟩, hover⟩

theorem openPortOverlaps_iff (i : Fin 8) (a : OpenPortArgs) (s : State) : openPortOverlaps i a s = true ↔
    a.regionA.overlaps a.regionB = true ∨ Hits i s a.regionA ∨ Hits i s a.regionB := by
  have regroup (o a b c d : Prop) : (((o ∨ a) ∨ b) ∨ c) ∨ d ↔ o ∨ (a ∨ c) ∨ (b ∨ d) := by tauto
  simp only [openPortOverlaps, Bool.or_eq_true, overlapsAny_otherBanks, overlapsAny_iff _ (sourceRegions s), regroup,
    Hits]

theorem openPortTaken_silent (r : List Byte) {s : State} (h : s.rollCall.silent = true) :
    openPortTaken r s = reject r .silent s := if_pos h

section
variable {r : List Byte} {s : State} (h : s.rollCall.silent = false)
include h

theorem openPortTaken_badPort (hport : 8 ≤ (recordIndex r).toNat) : openPortTaken r s = reject r .badPort s := by
  rw [openPortTaken, if_neg (Bool.eq_false_iff.1 h), portNumber_eq_none.2 hport]

variable {i : Fin 8} (hi : (recordIndex r).toNat = i.val)
include hi

/-- The checks at the port, in the order of R159. -/
theorem openPortTaken_at : openPortTaken r s =
    if (s.ports[i]).isSome then reject r .wrongState s
    else if openPortBad (openPortArgs r) then reject r .badParam s
    else if openPortOverlaps i (openPortArgs r) s then reject r .overlap s
    else beginPort i (openPortArgs r) s := by
  rw [openPortTaken, if_neg (Bool.eq_false_iff.1 h), portNumber_eq_some.2 hi]

theorem openPortTaken_open (hp : s.ports[i] ≠ none) : openPortTaken r s = reject r .wrongState s := by
  rw [openPortTaken_at h hi, if_pos (Option.isSome_iff_ne_none.2 hp)]

variable (hp : s.ports[i] = none)
include hp

theorem openPortTaken_bad (hbad : openPortBad (openPortArgs r) = true) :
    openPortTaken r s = reject r .badParam s := by
  rw [openPortTaken_at h hi, if_neg (by simp [hp]), if_pos hbad]

variable (hgood : ¬openPortBad (openPortArgs r) = true)
include hgood

theorem openPortTaken_overlap (hover : openPortOverlaps i (openPortArgs r) s = true) :
    openPortTaken r s = reject r .overlap s := by
  rw [openPortTaken_at h hi, if_neg (by simp [hp]), if_neg hgood, if_pos hover]

theorem openPortTaken_begins (hapart : ¬openPortOverlaps i (openPortArgs r) s = true) :
    openPortTaken r s = beginPort i (openPortArgs r) s := by
  rw [openPortTaken_at h hi, if_neg (by simp [hp]), if_neg hgood, if_neg hapart]

end

/-- Settles O40: the checks fall in the order of `openPortTaken_at`. -/
theorem openPortCommand : Obligations.OpenPortCommand := by
  intro s rest port s1 s0 w a2 a1 a0 ca b2 b1 b0 cb x y z htakes u size baseA baseB regionA regionB rejected bad
  let r : List Byte := [0x03, port, s1, s0, w, a2, a1, a0, ca, b2, b1, b0, cb, x, y, z]
  have hexec {t : State} (ht : openPortTaken r u = t) : exec .openPort s = .next t :=
    (exec_openPort htakes).trans (congrArg _ ht)
  have hbad : openPortBad (openPortArgs r) = true ↔ bad := by
    show _ ↔ _ ∨ _ ∨ _ ∨ w = 0 ∨ _ ∨ ca = 0 ∨ cb = 0 ∨ _
    rw [openPortBad_iff, byte_eq_zero_iff, byte_eq_zero_iff, byte_eq_zero_iff]; rfl
  refine ⟨fun hsilent => hexec (openPortTaken_silent r hsilent),
    fun hlive hport => hexec (openPortTaken_badPort (r := r) (s := u) hlive hport), fun i hlive hi => ?_⟩
  intro hit overlap
  have hoverlap : openPortOverlaps i (openPortArgs r) u = true ↔ overlap := openPortOverlaps_iff i (openPortArgs r) u
  have hi' : (recordIndex r).toNat = i.val := hi
  have hlive' : u.rollCall.silent = false := hlive
  exact ⟨fun hopen => hexec (openPortTaken_open hlive' hi' hopen),
    fun hclosed hb => hexec (openPortTaken_bad hlive' hi' hclosed (hbad.2 hb)),
    fun hclosed hb ho => hexec (openPortTaken_overlap hlive' hi' hclosed (mt hbad.1 hb) (hoverlap.2 ho)),
    fun hclosed hb ho => hexec (openPortTaken_begins hlive' hi' hclosed (mt hbad.1 hb) (mt hoverlap.1 ho))⟩

/-! ### RELEASE_BANK (R75, R94, R160) -/

/-- The base a RELEASE_BANK leaves the bank with. -/
def releaseBase (r : List Byte) (bank : Bank) : Nat := (releaseNewBase r).getD bank.base

/-- The region a RELEASE_BANK would leave the bank with (R94). -/
def releaseRegion (r : List Byte) (p : OpenPort) : Region :=
  let bank := p.bank (releaseBankId r)
  bankRegion p.maxSize (releaseBase r bank) bank.capacity

/-- BAD_PARAM of RELEASE_BANK (R160). -/
def releaseBad (r : List Byte) (p : OpenPort) : Bool :=
  (releaseNewBase r).isSome &&
    (releaseBase r (p.bank (releaseBankId r)) % 16 ≠ 0 || (releaseRegion r p).pastEnd)

/-- IN_USE of RELEASE_BANK (R160). -/
def releaseInUse (r : List Byte) (p : OpenPort) (s : State) : Bool :=
  (p.region (p.bank (releaseBankId r))).overlapsAny (sourceRegions s) ||
    (releaseRegion r p).overlapsAny (sourceRegions s)

/-- OVERLAP of RELEASE_BANK (R94). -/
def releaseOverlaps (i : Fin 8) (r : List Byte) (p : OpenPort) (s : State) : Bool :=
  (releaseRegion r p).overlaps (p.region (p.bank (releaseBankId r).other)) ||
    (releaseRegion r p).overlapsAny (otherBankRegions i s)

theorem releaseInUse_iff (r : List Byte) (p : OpenPort) (s : State) : releaseInUse r p s = true ↔
    ∃ a ∈ sourceRegions s, (p.region (p.bank (releaseBankId r))).overlaps a = true ∨
      (releaseRegion r p).overlaps a = true := by
  simp only [releaseInUse, Bool.or_eq_true, overlapsAny_iff, ← exists_or, ← and_or_left]

theorem releaseOverlaps_iff (i : Fin 8) (r : List Byte) (p : OpenPort) (s : State) : releaseOverlaps i r p s = true ↔
    (releaseRegion r p).overlaps (p.region (p.bank (releaseBankId r).other)) = true ∨
      ∃ j : Fin 8, j ≠ i ∧ ∃ b ∈ portRegions s.ports[j], (releaseRegion r p).overlaps b = true := by
  rw [releaseOverlaps, Bool.or_eq_true, overlapsAny_otherBanks]

section
variable {r : List Byte} {s : State} {i : Fin 8} {p : OpenPort} (hi : (recordIndex r).toNat = i.val)
  (hp : s.ports[i] = some p)
include hi hp

/-- The checks at the bank, in the order of R160: IN_USE before OVERLAP. -/
theorem releaseBankTaken_at : releaseBankTaken r s =
    if !(p.bank (releaseBankId r)).isFull then reject r .wrongState s
    else if releaseBad r p then reject r .badParam s
    else if releaseInUse r p s then reject r .inUse s
    else if releaseOverlaps i r p s then reject r .overlap s
    else releaseTo i p (releaseBankId r) (releaseBase r (p.bank (releaseBankId r))) s :=
  onOpenPort_open _ hi hp

theorem releaseBankTaken_notFull (hfull : ¬∃ o fill, (p.bank (releaseBankId r)).content = .full o fill) :
    releaseBankTaken r s = reject r .wrongState s := by
  rw [releaseBankTaken_at hi hp, if_pos (by simpa using mt (isFull_iff _).1 hfull)]

variable (hfull : ∃ o fill, (p.bank (releaseBankId r)).content = .full o fill)
include hfull

theorem releaseBankTaken_bad (hbad : releaseBad r p = true) : releaseBankTaken r s = reject r .badParam s := by
  rw [releaseBankTaken_at hi hp, if_neg (by simp [(isFull_iff _).2 hfull]), if_pos hbad]

variable (hgood : ¬releaseBad r p = true)
include hgood

theorem releaseBankTaken_inUse (huse : releaseInUse r p s = true) : releaseBankTaken r s = reject r .inUse s := by
  rw [releaseBankTaken_at hi hp, if_neg (by simp [(isFull_iff _).2 hfull]), if_neg hgood, if_pos huse]

variable (hunused : ¬releaseInUse r p s = true)
include hunused

theorem releaseBankTaken_overlap (hover : releaseOverlaps i r p s = true) :
    releaseBankTaken r s = reject r .overlap s := by
  rw [releaseBankTaken_at hi hp, if_neg (by simp [(isFull_iff _).2 hfull]), if_neg hgood, if_neg hunused, if_pos hover]

theorem releaseBankTaken_releases (hapart : ¬releaseOverlaps i r p s = true) : releaseBankTaken r s =
    releaseTo i p (releaseBankId r) (releaseBase r (p.bank (releaseBankId r))) s := by
  rw [releaseBankTaken_at hi hp, if_neg (by simp [(isFull_iff _).2 hfull]), if_neg hgood, if_neg hunused, if_neg hapart]

end

/-! ### What an accepted release does (R75) -/

section
variable (i : Fin 8) {p : OpenPort} (k : BankId) (base : Nat) (s : State)

section
variable {b : Binding} {idle : Timer} (hm : p.mode = .bound b none idle)
include hm

theorem releaseTo_owed (ho : b.busyOwed = true) : releaseTo i p k base s = offer (unsolicited i b .resume b.expected [])
    (setPort i (some { p.setBank k ({ p.bank k with base := base }.startFilling b) with
      mode := .bound { b with busyOwed := false, resumeSent := true } (some k) idle }) s) := by
  simp only [releaseTo, hm, if_pos ho]

theorem releaseTo_notOwed (ho : b.busyOwed = false) : releaseTo i p k base s =
    setPort i (some { p.setBank k ({ p.bank k with base := base }.startFilling b) with
      mode := .bound b (some k) idle }) s := by
  simp only [releaseTo, hm, if_neg (Bool.eq_false_iff.1 ho)]

end

theorem releaseTo_free (hm : ∀ b idle, p.mode ≠ .bound b none idle) : releaseTo i p k base s =
    setPort i (some (p.setBank k { p.bank k with base := base, content := .free })) s := by
  unfold releaseTo
  dsimp only
  split
  · exact absurd (by assumption) (hm _ _)
  all_goals rfl

end

/-- Settles O41: the checks fall in the order of `releaseBankTaken_at`, and the release is `releaseTo`. -/
theorem releaseBankCommand : Obligations.ReleaseBankCommand := by
  intro s rest port flags n2 n1 n0 x htakes u k moved rejected
  let r : List Byte := 0x04 :: port :: flags :: n2 :: n1 :: n0 :: x
  have hexec {t : State} (ht : releaseBankTaken r u = t) : exec .releaseBank s = .next t :=
    (exec_releaseBank htakes).trans (congrArg _ ht)
  refine ⟨fun hport => hexec (onOpenPort_badPort (r := r) (s := u) _ hport), fun i hi => ?_⟩
  have hi' : (recordIndex r).toNat = i.val := hi
  refine ⟨fun hnone => hexec (onOpenPort_closed (s := u) _ hi' hnone), fun p hp => ?_⟩
  intro bank base present resulting bad inUse overlap full
  have hp' : u.ports[i] = some p := hp
  have hbase : releaseBase r bank = base := by
    show (if moved then some (n2 ++ n1 ++ n0).toNat else none).getD bank.base = base
    cases hmoved : moved <;> simp only [base, hmoved] <;> rfl
  have hregion : releaseRegion r p = resulting := by
    show bankRegion p.maxSize (releaseBase r bank) bank.capacity = resulting
    rw [hbase]; rfl
  have hmoved : (releaseNewBase r).isSome = moved := by
    show (if moved then some (n2 ++ n1 ++ n0).toNat else none).isSome = moved
    cases moved <;> rfl
  have hbad : releaseBad r p = true ↔ bad := by
    have hbase' : releaseBase r (p.bank (releaseBankId r)) = base := hbase
    rw [releaseBad, hmoved, hregion, hbase', Bool.and_eq_true, Bool.or_eq_true, pastEnd_iff, decide_eq_true_eq]
  have hinUse : releaseInUse r p u = true ↔ inUse := by
    rw [releaseInUse_iff, hregion]; rfl
  have hoverlap : releaseOverlaps i r p u = true ↔ overlap := by
    rw [releaseOverlaps_iff, hregion]; rfl
  refine ⟨fun hf => hexec (releaseBankTaken_notFull hi' hp' hf),
    fun hf hb => hexec (releaseBankTaken_bad hi' hp' hf (hbad.2 hb)),
    fun hf hb hu => hexec (releaseBankTaken_inUse hi' hp' hf (mt hbad.1 hb) (hinUse.2 hu)),
    fun hf hb hu ho => hexec (releaseBankTaken_overlap hi' hp' hf (mt hbad.1 hb) (mt hinUse.1 hu) (hoverlap.2 ho)),
    fun hf hb hu ho => ?releases⟩
  case releases =>
    have hreleases {t : State} (ht : releaseTo i p k base u = t) : exec .releaseBank s = .next t := by
      refine hexec ((releaseBankTaken_releases hi' hp' hf (mt hbad.1 hb) (mt hinUse.1 hu) (mt hoverlap.1 ho)).trans ?_)
      rw [← ht, ← hbase]; rfl
    exact ⟨fun b idle hm => ⟨fun howed => hreleases (releaseTo_owed i k base u hm howed),
        fun howed => hreleases (releaseTo_notOwed i k base u hm howed)⟩,
      fun hm => hreleases (releaseTo_free i k base u hm)⟩

/-! ### HALT_PORT, UNHALT_PORT and CLOSE_PORT (R76 to R78, R161) -/

section
variable {i : Fin 8} {p : OpenPort} {s : State}

theorem haltNow_bound {b : Binding} {current : Option BankId} {idle : Timer} (hm : p.mode = .bound b current idle) :
    haltNow i p s = unbindNow i p b current .haltedLocally .halted
      (offer (unsolicited i b .halted 0 [HaltReason.localHalt.code]) s) := by
  simp only [haltNow, hm]

theorem haltNow_listening (hm : p.mode = .listening) :
    haltNow i p s = setPort i (some { p with mode := .halted }) s := by
  simp only [haltNow, hm]

theorem closeNow_bound {b : Binding} {current : Option BankId} {idle : Timer} (hm : p.mode = .bound b current idle) :
    closeNow i p s = post (b.endRecord i .closedLocally) (setPort i none
      (offer (unsolicited i b .halted 0 [HaltReason.portClosed.code]) s)) := by
  simp only [closeNow, hm]

theorem closeNow_unbound (hm : p.mode = .halted ∨ p.mode = .listening) : closeNow i p s = setPort i none s := by
  rcases hm with hm | hm <;> simp only [closeNow, hm]

variable {r : List Byte} (hi : (recordIndex r).toNat = i.val) (hp : s.ports[i] = some p)
include hi hp

theorem haltPortTaken_halted (hm : p.mode = .halted) : haltPortTaken r s = reject r .wrongState s :=
  (onOpenPort_open _ hi hp).trans (if_pos hm)

theorem haltPortTaken_halts (hm : p.mode ≠ .halted) : haltPortTaken r s = haltNow i p s :=
  (onOpenPort_open _ hi hp).trans (if_neg hm)

end

/-- Settles O43: the binding of a bound port ends in `haltNow` and `closeNow`, after its HALTED. -/
theorem haltAndCloseCommands : Obligations.HaltAndCloseCommands := by
  unfold Obligations.HaltAndCloseCommands
  refine ⟨fun s rest port x htakes => ?halt, fun s rest port x htakes => ?close⟩
  case halt =>
    intro u rejected
    have hexec {t : State} (ht : haltPortTaken (0x05 :: port :: x) u = t) : exec .haltPort s = .next t :=
      (exec_haltPort htakes).trans (congrArg _ ht)
    refine ⟨fun hport => hexec (onOpenPort_badPort (r := 0x05 :: port :: x) (s := u) _ hport), fun i hi => ?_⟩
    have hi' : (recordIndex (0x05 :: port :: x)).toNat = i.val := hi
    refine ⟨fun hnone => hexec (onOpenPort_closed (s := u) _ hi' hnone), fun p hp => ?_⟩
    have hhalts (hm : p.mode ≠ .halted) {t : State} (ht : haltNow i p u = t) : exec .haltPort s = .next t :=
      hexec ((haltPortTaken_halts (s := u) hi' hp hm).trans ht)
    exact ⟨fun hm => hexec (haltPortTaken_halted (s := u) hi' hp hm),
      fun hm => hhalts (by simp [hm]) (haltNow_listening hm),
      fun b current idle hm => hhalts (by simp [hm]) (haltNow_bound hm)⟩
  case close =>
    intro u rejected
    have hexec {t : State} (ht : closePortTaken (0x07 :: port :: x) u = t) : exec .closePort s = .next t :=
      (exec_closePort htakes).trans (congrArg _ ht)
    refine ⟨fun hport => hexec (onOpenPort_badPort (r := 0x07 :: port :: x) (s := u) _ hport), fun i hi => ?_⟩
    have hi' : (recordIndex (0x07 :: port :: x)).toNat = i.val := hi
    refine ⟨fun hnone => hexec (onOpenPort_closed (s := u) _ hi' hnone), fun p hp => ?_⟩
    have hcloses {t : State} (ht : closeNow i p u = t) : exec .closePort s = .next t :=
      hexec ((onOpenPort_open (s := u) closeNow hi' hp).trans ht)
    exact ⟨fun hm => hcloses (closeNow_unbound hm), fun b current idle hm => hcloses (closeNow_bound hm)⟩

theorem unhaltPortTaken_silent (r : List Byte) {s : State} (h : s.rollCall.silent = true) :
    unhaltPortTaken r s = reject r .silent s := if_pos h

section
variable {r : List Byte} {s : State} (h : s.rollCall.silent = false)
include h

/-- UNHALT_PORT of a station that is not SILENT. -/
theorem unhaltPortTaken_live : unhaltPortTaken r s =
    onOpenPort r (fun i p s => if p.mode = .halted then unhaltNow i p s else reject r .wrongState s) s :=
  if_neg (Bool.eq_false_iff.1 h)

variable {i : Fin 8} {p : OpenPort} (hi : (recordIndex r).toNat = i.val) (hp : s.ports[i] = some p)
include hi hp

theorem unhaltPortTaken_halted (hm : p.mode = .halted) : unhaltPortTaken r s = unhaltNow i p s := by
  rw [unhaltPortTaken_live h, onOpenPort_open _ hi hp, if_pos hm]

theorem unhaltPortTaken_notHalted (hm : p.mode ≠ .halted) : unhaltPortTaken r s = reject r .wrongState s := by
  rw [unhaltPortTaken_live h, onOpenPort_open _ hi hp, if_neg hm]

end

/-- Settles O42: SILENT comes first, then the port's checks of `onOpenPort`. -/
theorem unhaltPortCommand : Obligations.UnhaltPortCommand := by
  intro s rest port x htakes u rejected
  let r : List Byte := 0x06 :: port :: x
  have hexec {t : State} (ht : unhaltPortTaken r u = t) : exec .unhaltPort s = .next t :=
    (exec_unhaltPort htakes).trans (congrArg _ ht)
  have hlive {t : State} (h : s.rollCall.silent = false)
      (ht : onOpenPort r (fun i p s => if p.mode = .halted then unhaltNow i p s else reject r .wrongState s) u = t) :
      exec .unhaltPort s = .next t := hexec ((unhaltPortTaken_live (s := u) h).trans ht)
  refine ⟨fun hsilent => hexec (unhaltPortTaken_silent r hsilent),
    fun h hport => hlive h (onOpenPort_badPort (r := r) (s := u) _ hport), fun i h hi => ?_⟩
  have hi' : (recordIndex r).toNat = i.val := hi
  exact ⟨fun hnone => hlive h (onOpenPort_closed (s := u) _ hi' hnone), fun p hp =>
    ⟨fun hm => hexec (unhaltPortTaken_notHalted (s := u) h hi' hp hm),
      fun hm => hexec (unhaltPortTaken_halted (s := u) h hi' hp hm)⟩⟩

end Sys2Proof.Machine
end

section
/-! What a frame or a timer of one engine leaves as it is (O50). A row delivers the frame that was handed over for it,
or changes nothing; what a delivery changes is a `RunStep` of the slot, or a `PortStep` of the port, that the frame
names. -/

namespace Sys2Proof.Machine

open Sys2Proof

/-- What a step of an engine leaves, in the words of the statement. -/
theorem EngineStep.kept {s t : State} (h : EngineStep s t) :
    t.straps = s.straps ∧ t.refclk = s.refclk ∧ t.rx = s.rx ∧ t.tx = s.tx ∧ t.ringOut = s.ringOut ∧
      t.rau.passFifo = s.rau.passFifo ∧ t.rau.reception = s.rau.reception ∧ t.rau.output = s.rau.output ∧
      t.rau.gap = s.rau.gap ∧ t.rau.inHold = s.rau.inHold ∧ t.rau.holdTimer = s.rau.holdTimer ∧ t.peers = s.peers ∧
      t.rollCall = s.rollCall ∧ t.mem = s.mem ∧ t.commandFifo = s.commandFifo ∧ t.spi = s.spi ∧
      t.logCopied = s.logCopied ∧ t.tagCounter = s.tagCounter ∧ t.rrPointer = s.rrPointer :=
  ⟨h.straps, h.refclk, h.rx, h.tx, h.ringOut, h.passFifo, h.reception, h.output, h.gap, h.inHold, h.holdTimer, h.peers,
    h.rollCall, h.mem, h.commandFifo, h.spi, h.logCopied, h.tagCounter, h.rrPointer⟩

/-! ### The frames of each engine (R10) -/

/-- The kinds that reach the Run Engine. -/
def Kind.toRunEngine : Kind → Bool
  | .grant | .refuse | .taken | .resume | .busy | .halted | .closed => true
  | .block | .open_ | .finish | .cancel | .roll => false

/-- The kinds that reach the Port Engine at their end, but for a BLOCK. -/
def Kind.toPortEngine : Kind → Bool
  | .open_ | .finish | .cancel => true
  | .block | .grant | .refuse | .taken | .resume | .busy | .halted | .closed | .roll => false

/-- A control frame for the Run Engine changes no other slot than the one it names. -/
theorem frameReaches_run {k : Kind} (hk : k.toRunEngine = true) (h : Header) (x : List Byte) (s : State) :
    frameReaches k h x s = s ∨
      ∃ i r, findRun h.src h.port h.tag s = some (i, r) ∧ RunStep i s (frameReaches k h x s) := by
  cases k with
  | grant => exact grantReaches_runStep h x s
  | refuse => exact refuseReaches_runStep h x s
  | taken => exact takenReaches_runStep h s
  | resume => exact resumeReaches_runStep h s
  | busy => exact busyReaches_runStep h s
  | halted => exact haltedReaches_runStep h x s
  | closed => exact closedReaches_runStep h x s
  | block | open_ | finish | cancel | roll => cases hk

/-- A control frame for the Port Engine changes no other port than the one it names. -/
theorem frameReaches_port {k : Kind} (hk : k.toPortEngine = true) (h : Header) (x : List Byte) (s : State) :
    PortStep h.port.toNat s (frameReaches k h x s) := by
  cases k with
  | open_ => exact openReaches_portStep h x s
  | finish => exact finishReaches_portStep h x s
  | cancel => exact cancelReaches_portStep h s
  | block | grant | refuse | taken | resume | busy | halted | closed | roll => cases hk

/-! ### What a row takes (R52, R100) -/

/-- A row that takes a frame delivers the one handed over for it, or changes nothing. -/
theorem exec_row_cases {c : Instr} {s t : State} (hc : takesHandover c = true) (h : exec c s = .next t) :
    t = s ∨ ∃ x, s.rau.handover = some x ∧ x.row = some c ∧ t = deliverPending s := by
  by_cases hx : ∃ x, s.rau.handover = some x ∧ x.row = some c
  · obtain ⟨x, hx, hrow⟩ := hx
    rw [exec_row hx hrow] at h
    cases h
    exact .inr ⟨x, hx, hrow, rfl⟩
  · rw [exec_otherRow hc fun x hh hrow => hx ⟨x, hh, hrow⟩] at h
    cases h
    exact .inl rfl

/-- The rows by which the Run Engine takes a control frame. -/
def runRow : Instr → Bool
  | .grantFrame | .refuseFrame | .takenFrame | .resumeFrame | .busyFrame | .haltedFrame | .closedFrame => true
  | _ => false

/-- The rows by which the Port Engine takes a control frame. -/
def portRow : Instr → Bool
  | .openFrame | .finishFrame | .cancelFrame => true
  | _ => false

theorem frame_of_runRow {x : Handover} {c : Instr} (hrow : x.row = some c) (hc : runRow c = true) :
    ∃ k h p, x = .frame k h p ∧ k.toRunEngine = true := by
  cases x with
  | frame k h p =>
    refine ⟨k, h, p, rfl, ?_⟩
    cases k with
    | grant | refuse | taken | resume | busy | halted | closed => rfl
    | block | roll => cases hrow
    | open_ | finish | cancel => cases hrow; cases hc
  | block | returned | roll | ownRoll => cases hrow; cases hc

theorem frame_of_portRow {x : Handover} {c : Instr} (hrow : x.row = some c) (hc : portRow c = true) :
    ∃ k h p, x = .frame k h p ∧ k.toPortEngine = true := by
  cases x with
  | frame k h p =>
    refine ⟨k, h, p, rfl, ?_⟩
    cases k with
    | open_ | finish | cancel => rfl
    | block | roll => cases hrow
    | grant | refuse | taken | resume | busy | halted | closed => cases hrow; cases hc
  | block | returned | roll | ownRoll => cases hrow; cases hc

theorem returned_of_row {x : Handover} (hrow : x.row = some .returnedFrame) : ∃ h, x = .returned h := by
  cases x with
  | frame k => cases k <;> cases hrow
  | returned h => exact ⟨h, rfl⟩
  | block | roll | ownRoll => cases hrow

theorem block_of_row {x : Handover} (hrow : x.row = some .blockFrame) : ∃ h c e, x = .block h c e := by
  cases x with
  | frame k => cases k <;> cases hrow
  | block h c e => exact ⟨h, c, e, rfl⟩
  | returned | roll | ownRoll => cases hrow

/-! ### What a row leaves -/

section
variable {c : Instr} {s t : State} (h : exec c s = .next t)
include h

theorem exec_runRow (hc : runRow c = true) : EngineStep s t ∧ t.ports = s.ports ∧
    ∀ k hd p, s.rau.handover = some (.frame k hd p) →
      ∀ j : Fin 8, (∀ r, findRun hd.src hd.port hd.tag s ≠ some (j, r)) → t.slots[j] = s.slots[j] := by
  have htakes : takesHandover c = true := by cases c <;> first | rfl | cases hc
  rcases exec_row_cases htakes h with rfl | ⟨x, hx, hrow, rfl⟩
  · exact ⟨.refl _, rfl, fun _ _ _ _ _ _ => rfl⟩
  · obtain ⟨k, hd, p, rfl, hk⟩ := frame_of_runRow hrow hc
    have hdelivers : deliverPending s = delivered (frameReaches k hd p) s := by rw [deliverPending, hx]
    obtain ⟨hstep, hports, hslots⟩ := delivered_run (frameReaches_run hk hd p) s
    rw [hdelivers]
    refine ⟨hstep, hports, fun k' hd' p' hx' => ?_⟩
    cases hx.symm.trans hx'
    exact hslots

theorem exec_portRow (hc : portRow c = true) : t = s ∨
    ∃ k hd p, s.rau.handover = some (.frame k hd p) ∧ PortStep hd.port.toNat s t := by
  have htakes : takesHandover c = true := by cases c <;> first | rfl | cases hc
  rcases exec_row_cases htakes h with rfl | ⟨x, hx, hrow, rfl⟩
  · exact .inl rfl
  · obtain ⟨k, hd, p, rfl, hk⟩ := frame_of_portRow hrow hc
    have hdelivers : deliverPending s = delivered (frameReaches k hd p) s := by rw [deliverPending, hx]
    rw [hdelivers]
    exact .inr ⟨k, hd, p, hx, delivered_port (frameReaches_port hk hd p) s⟩

end

theorem exec_returnedFrame_frame {s t : State} (h : exec .returnedFrame s = .next t) :
    EngineStep s t ∧ t.ports = s.ports ∧ ∀ hd, s.rau.handover = some (.returned hd) →
      ∀ j : Fin 8, (∀ r, findRun hd.dest hd.port hd.tag s ≠ some (j, r)) → t.slots[j] = s.slots[j] := by
  rcases exec_row_cases rfl h with rfl | ⟨x, hx, hrow, rfl⟩
  · exact ⟨.refl _, rfl, fun _ _ _ _ => rfl⟩
  · obtain ⟨hd, rfl⟩ := returned_of_row hrow
    have hdelivers : deliverPending s = delivered (returnedReaches hd) s := by rw [deliverPending, hx]
    obtain ⟨hstep, hports, hslots⟩ := delivered_run (returnedReaches_runStep hd) s
    rw [hdelivers]
    refine ⟨hstep, hports, fun hd' hx' => ?_⟩
    cases hx.symm.trans hx'
    exact hslots

theorem exec_blockFrame_frame {s t : State} (h : exec .blockFrame s = .next t) : t = s ∨
    ∃ hd c e, s.rau.handover = some (.block hd c e) ∧ PortStep hd.port.toNat s t := by
  rcases exec_row_cases rfl h with rfl | ⟨x, hx, hrow, rfl⟩
  · exact .inl rfl
  · obtain ⟨hd, c, e, rfl⟩ := block_of_row hrow
    have hdelivers : deliverPending s = delivered (blockEnds hd c e) s := by rw [deliverPending, hx]
    rw [hdelivers]
    exact .inr ⟨hd, c, e, hx, delivered_port (blockEnds_portStep hd c e) s⟩

/-- The idle timer's expiry sends nothing. -/
theorem idleExpires_rau (i : Fin 8) (s : State) : (idleExpires i s).rau = s.rau := by
  unfold idleExpires
  split
  · split
    · split <;> rfl
    all_goals rfl
  · rfl

/-- Settles O50: every row of an engine is a step of the slot or of the port it names. -/
theorem engineFrames : Obligations.EngineFrames := by
  intro i s t h kept
  refine ⟨fun hi => ?runFrame, ?returned, fun n hi => ?slotTimer, fun hi => ?portFrame, ?block, ?idleTimer⟩
  case runFrame =>
    have hrow : runRow i = true := by rcases hi with rfl | rfl | rfl | rfl | rfl | rfl | rfl <;> rfl
    obtain ⟨hstep, hports, hslots⟩ := exec_runRow h hrow
    exact ⟨hstep.kept, hports, hslots⟩
  case returned =>
    rintro rfl
    obtain ⟨hstep, hports, hslots⟩ := exec_returnedFrame_frame h
    exact ⟨hstep.kept, hports, hslots⟩
  case slotTimer =>
    have hstep : RunStep n s t := by
      rcases hi with rfl | rfl | rfl | rfl | rfl <;> cases h
      · exact answerExpiresOpening_runStep n s
      · exact answerExpiresStreaming_runStep n s
      · exact answerExpiresClosing_runStep n s
      · exact probeExpires_runStep n s
      · exact pauseExpires_runStep n s
    exact ⟨hstep.kept, hstep.ports, hstep.others⟩
  case portFrame =>
    have hrow : portRow i = true := by rcases hi with rfl | rfl | rfl <;> rfl
    rcases exec_portRow h hrow with rfl | ⟨k, hd, p, hx, hstep⟩
    · exact ⟨(EngineStep.refl t).kept, rfl, rfl, rfl, rfl, fun _ _ _ _ _ _ => rfl⟩
    · refine ⟨hstep.kept, hstep.slots, hstep.dataQueue, hstep.threshold, hstep.marking, fun k' hd' p' hx' => ?_⟩
      cases hx.symm.trans hx'
      exact hstep.others
  case block =>
    rintro rfl
    rcases exec_blockFrame_frame h with rfl | ⟨hd, c, e, hx, hstep⟩
    · exact ⟨(EngineStep.refl t).kept, rfl, rfl, fun _ _ _ _ _ _ => rfl⟩
    · refine ⟨hstep.kept, hstep.slots, hstep.dataQueue, fun hd' c' e' hx' => ?_⟩
      cases hx.symm.trans hx'
      exact hstep.others
  case idleTimer =>
    rintro n rfl
    cases h
    have hstep := idleExpires_portStep n s
    exact ⟨hstep.kept, hstep.slots, idleExpires_rau n s, fun j hj => hstep.others j fun he => hj (Fin.ext he)⟩

end Sys2Proof.Machine
end

section
/-! Block memory (O49, O52). Three rows reach a byte of it: a symbol in UP through the bank writer (R84), a
MEM_WRITE_DATA through the window (R89), and RESET_N_ASSERTED, after which no byte is listed (R82). Every other row, and
a REFCLK period, keeps it whole. -/

namespace Sys2Proof.Machine

open Sys2Proof

/-! ### What a row leaves of memory, the window and the frame in reception -/

/-- Memory, the Local Port and the frame in reception are as they were: nothing is written, and the bounds of the
accesses to come stay. -/
structure AccessKept (s t : State) : Prop where
  mem : t.mem = s.mem
  spi : t.spi = s.spi
  reception : t.rau.reception = s.rau.reception

theorem AccessKept.refl (s : State) : AccessKept s s := ⟨rfl, rfl, rfl⟩

theorem CoreStep.accessKept {s t : State} (h : CoreStep s t) : AccessKept s t := ⟨h.mem, h.spi, h.reception⟩

theorem startPeriodExpires_accessKept (s : State) : AccessKept s (startPeriodExpires s) := by
  unfold startPeriodExpires
  split
  · obtain ⟨hmem, hspi, hreception⟩ :=
      (CoreStep.beginBeacons { s with tx := { state := .run, startTimer := none } }).accessKept
    exact ⟨hmem, hspi, hreception⟩
  · exact .refl s

theorem startForward_accessKept (s : State) : AccessKept s (startForward s) := by
  unfold startForward
  split
  · exact .refl s
  split
  · exact ⟨rfl, rfl, rfl⟩
  · exact .refl s

theorem endForward_accessKept (s : State) : AccessKept s (endForward s) := by
  unfold endForward
  repeat' split
  all_goals exact ⟨rfl, rfl, rfl⟩

theorem endInsertion_accessKept (s : State) : AccessKept s (endInsertion s) := by
  unfold endInsertion
  split
  · dsimp only
    split
    · obtain ⟨hmem, hspi, hreception⟩ := (blockInsertionEnds_runStep _ _).toCoreStep.accessKept
      exact ⟨hmem, hspi, hreception⟩
    · exact ⟨rfl, rfl, rfl⟩
  all_goals exact .refl s

theorem exec_insertionStart_accessKept {s t : State} (h : exec .insertionStart s = .next t) : AccessKept s t := by
  rcases exec_insertionStart_cases h with rfl | ⟨-, ⟨_, _, -, rfl⟩ | ⟨_, _, _, _, -, -, -, -, rfl⟩⟩ <;>
    exact ⟨rfl, rfl, rfl⟩

theorem softReset_accessKept (s : State) :
    AccessKept s (takeCommand (fun c => c = codeSoftReset) (fun _ t => softResetTaken t) s) := by
  rcases takeCommand_cases (fun c => c = codeSoftReset) (fun _ t => softResetTaken t) s with
    h | ⟨r, rest, -, -, h⟩ <;> rw [h]
  · exact .refl s
  · rw [softResetTaken_eq]; exact ⟨rfl, rfl, rfl⟩

/-- The rows that may change the frame in reception, or end it, and RESET_N_ASSERTED. -/
def readsRing : Instr → Bool
  | .resetNAsserted | .symbolInUp _ | .quietTimerExpiry | .headerDecision => true
  | _ => false

/-- Every row but those and the rows beside the RAU leaves the accesses as they are. -/
theorem exec_accessKept {c : Instr} {s t : State} (hring : readsRing c = false) (hbeside : besideRau c = false)
    (h : exec c s = .next t) : AccessKept s t := by
  by_cases hcore : coreCommand c = true
  · exact (exec_coreStep hcore h).accessKept
  cases c <;> first | exact absurd rfl hcore | (cases hbeside; done) | (cases hring; done) | skip
  case startPeriodExpiry => cases h; exact startPeriodExpires_accessKept s
  case forwardStart => cases h; exact startForward_accessKept s
  case forwardEnd => cases h; exact endForward_accessKept s
  case insertionStart => exact exec_insertionStart_accessKept h
  case insertionEnd => cases h; exact endInsertion_accessKept s
  case yieldThresholdExpiry =>
    cases h
    unfold thresholdExpires
    split <;> exact ⟨rfl, rfl, rfl⟩
  case yieldHoldExpiry =>
    cases h
    unfold holdExpires
    split <;> exact ⟨rfl, rfl, rfl⟩
  case softReset => cases h; exact softReset_accessKept s

/-! ### The rows beside the RAU -/

/-- The window's accesses lie within the memory: an accepted transaction's addresses do (R88, R90). -/
def WindowOk (p : LocalPort) : Prop := p.verdict = some .accepted → p.addr.toNat + p.len.toNat ≤ Config.memoryBytes

theorem windowOk_of_verdict {p : LocalPort} (h : p.verdict ≠ some .accepted) : WindowOk p := fun hv => absurd hv h

/-- The Port Table and memory are as they were, and the window's accesses lie within the memory if they did. -/
structure PortsKept (s t : State) : Prop where
  ports : t.ports = s.ports
  mem : t.mem = s.mem
  window : WindowOk s.spi → WindowOk t.spi

theorem PortsKept.refl (s : State) : PortsKept s s := ⟨rfl, rfl, id⟩

theorem takeInAlign_portsKept (sym : Symbol) (s : State) : PortsKept s (takeInAlign sym s) := by
  unfold takeInAlign
  dsimp only
  split
  · exact ⟨linkDown_ports s, linkDown_mem s, by rw [linkDown_spi]; exact id⟩
  split <;> exact ⟨rfl, rfl, id⟩

/-- A rise of CS_N ends the window transaction (R145). -/
theorem riseOfCs_portsKept (s : State) : PortsKept s (riseOfCs s) := ⟨rfl, rfl, fun _ => nofun⟩

theorem commandRise_portsKept (bytes : List Byte) (s : State) : PortsKept s (commandRise bytes s) := by
  unfold commandRise enqueueCommand
  repeat' split
  · exact .refl s
  all_goals exact ⟨rfl, rfl, fun _ => nofun⟩

theorem startLogRead_portsKept (s : State) : PortsKept s (startLogRead s) := by
  unfold startLogRead
  split
  · exact ⟨rfl, rfl, fun _ => nofun⟩
  · exact .refl s

theorem finishLogRead_portsKept (s : State) : PortsKept s (finishLogRead s) := by
  unfold finishLogRead removeCopied
  repeat' split
  all_goals exact ⟨rfl, rfl, id⟩

/-- A transaction whose range the window does not serve is not accepted. -/
theorem startWindow_portsKept (k : SpiKind) (addr : BitVec 24) (len : Word16) {v : Verdict} (s : State)
    (hv : windowRange addr.toNat len.toNat = true → v ≠ .accepted) : PortsKept s (startWindow k addr len v s) := by
  refine ⟨rfl, rfl, fun _ haccepted => ?_⟩
  have hrange : ¬windowRange addr.toNat len.toNat = true := fun hr => hv hr (Option.some.inj haccepted)
  simp only [windowRange, Bool.or_eq_true, decide_eq_true_eq, not_or] at hrange
  exact Nat.not_lt.1 hrange.2

theorem writeVerdict_range {addr len : Nat} (s : State) (h : windowRange addr len = true) :
    writeVerdict addr len s = .range := if_pos h

theorem readVerdict_range {addr len : Nat} (h : windowRange addr len = true) : readVerdict addr len = .range := if_pos h

theorem readData_portsKept {s t : State} (h : readData s = .ok t) : PortsKept s t := by
  unfold readData at h
  repeat' split at h
  all_goals cases h
  all_goals exact ⟨rfl, rfl, id⟩

/-- A MEM_WRITE_DATA writes the next byte of an accepted window, within the memory, or none (R89). -/
theorem writeData_ok {b : Byte} {s t : State} (h : writeData b s = .ok t) :
    t.ports = s.ports ∧ (WindowOk s.spi → WindowOk t.spi) ∧ (t.mem = s.mem ∨
      t.mem = s.mem.write (s.spi.addr.toNat + s.spi.moved) b ∧
        s.spi.addr.toNat + s.spi.moved < Config.memoryBytes) := by
  unfold writeData at h
  repeat' split at h
  · rename_i hw
    obtain ⟨rfl, hlt⟩ := writeByte_ok hw
    cases h
    exact ⟨rfl, id, .inr ⟨rfl, hlt⟩⟩
  · cases h
  all_goals
    cases h
    exact ⟨rfl, id, .inl rfl⟩

/-- The rows beside the RAU, but for MEM_WRITE_DATA, leave memory as it is. -/
theorem exec_portsKept {c : Instr} {s t : State} (hc : besideRau c = true) (hdata : ∀ b, c ≠ .memWriteData b)
    (h : exec c s = .next t) : PortsKept s t := by
  have guarded {p : Prop} [Decidable p] {u : State} (hu : PortsKept s u)
      (h : (if p then .next u else .next s : Host.Outcome State Fault Refusal) = .next t) : PortsKept s t := by
    split at h <;> cases h
    · exact hu
    · exact .refl s
  cases c <;> first | (cases hc; done) | skip
  case resetNReleased =>
    cases h
    unfold releaseReset
    split <;> exact ⟨rfl, rfl, id⟩
  case symbolInDown sym =>
    refine guarded ?_ h
    unfold takeInDown
    split <;> exact ⟨rfl, rfl, id⟩
  case symbolInAlign => exact guarded (takeInAlign_portsKept _ s) h
  case command => cases h; exact commandRise_portsKept _ s
  case logRead => cases h; exact startLogRead_portsKept s
  case logReadDone => cases h; exact finishLogRead_portsKept s
  case memWrite addr len =>
    exact guarded (startWindow_portsKept _ _ _ s fun hr => by rw [writeVerdict_range s hr]; nofun) h
  case memWriteData b => exact absurd rfl (hdata b)
  case memWriteClose => exact guarded (riseOfCs_portsKept s) h
  case memRead addr len =>
    exact guarded (startWindow_portsKept _ _ _ s fun hr => by rw [readVerdict_range hr]; nofun) h
  case memReadData => exact readData_portsKept (outcome_eq_next.1 h)
  case transactionEnd =>
    change (if s.resetLow = true then .next s else .next (riseOfCs s)) = Host.Outcome.next t at h
    split at h <;> cases h
    · exact .refl s
    · exact riseOfCs_portsKept s
  case inspect | transactionIgnored =>
    refine guarded ?_ h
    exact ⟨rfl, rfl, fun _ => nofun⟩

/-! ### The bank writer -/

theorem settle_mem (s : State) : (settle s).mem = s.mem := by
  have hdecide : DecisionShape (deliverPending s) (settle s) := decidePending_shape (deliverPending s)
  unfold DecisionShape at hdecide
  rw [hdecide]; exact (deliverPending_coreStep s).mem

/-- A data byte of a decided frame writes the next byte of an expected BLOCK, within the memory, or none (R84). -/
theorem bodyByte_mem {b : Byte} {d : Decision} {q : Reception} {s t : State} (h : bodyByte b d q s = .ok t) :
    t.mem = s.mem ∨ ∃ w, d = .strip (.block (.expected w)) ∧ t.mem = s.mem.write (w.target + w.written) b ∧
      w.target + w.written < Config.memoryBytes := by
  have hpass (q' : Reception) : (passByte b q' s).mem = s.mem := by
    unfold passByte
    split <;> rfl
  unfold bodyByte at h
  dsimp only at h
  cases d with
  | drop => cases h; exact .inl rfl
  | forward => cases h; exact .inl (hpass _)
  | copy forwarded =>
    cases forwarded <;> cases h
    · exact .inl rfl
    · exact .inl (hpass _)
  | strip k =>
    dsimp only at h
    split at h
    · cases h; exact .inl rfl
    split at h
    · split at h
      · rename_i w _ w' u hwrite
        cases h
        obtain ⟨-, -, -, hmem | ⟨hmem, hlt⟩⟩ := bankWrite_ok hwrite
        · exact .inl hmem
        · exact .inr ⟨w, rfl, hmem, hlt⟩
      · cases h
    all_goals cases h; exact .inl rfl

/-- A symbol handed to the RAU writes the next byte of an expected BLOCK in reception, or none. -/
theorem symbolToRau_mem {sym : Symbol} {s t : State} (h : symbolToRau sym s = .ok t) :
    t.mem = s.mem ∨ ∃ q w b, s.rau.reception = some q ∧ q.decision = some (.strip (.block (.expected w))) ∧
      t.mem = s.mem.write (w.target + w.written) b ∧ w.target + w.written < Config.memoryBytes := by
  cases sym with
  | data b =>
    change dataByte b s = .ok t at h
    unfold dataByte at h
    split at h
    · cases h; exact .inl rfl
    rename_i q hq
    split at h
    · rename_i d hd
      rcases bodyByte_mem h with hmem | ⟨w, rfl, hmem, hlt⟩
      · exact .inl hmem
      · exact .inr ⟨q, w, b, hq, hd, hmem, hlt⟩
    split at h <;> cases h <;> exact .inl rfl
  | eof =>
    unfold symbolToRau at h
    dsimp only at h
    split at h <;> cases h <;> exact .inl rfl
  | sof | idle | abort | invalid => cases h; exact .inl rfl

/-! ### What a step does to memory -/

/-- The byte of memory that a row may write, and that lies within the memory: the next byte of an expected BLOCK in
reception, once what is left before the symbol is settled, and the next byte of the window. -/
inductive Writes (s : State) : Instr → Nat → Prop
  | bank {sym : Symbol} {q : Reception} {w : BankWrite} (hq : (settle s).rau.reception = some q)
      (hd : q.decision = some (.strip (.block (.expected w)))) : Writes s (.symbolInUp sym) (w.target + w.written)
  | window {b : Byte} : Writes s (.memWriteData b) (s.spi.addr.toNat + s.spi.moved)

/-- A row leaves memory as it is, writes the one byte it may write, or is RESET_N_ASSERTED, which empties it. -/
theorem exec_mem {c : Instr} {s t : State} (h : exec c s = .next t) :
    t.mem = s.mem ∨ (c = .resetNAsserted ∧ t.mem = []) ∨
      ∃ a b, Writes s c a ∧ t.mem = s.mem.write a b ∧ a < Config.memoryBytes := by
  cases hbeside : besideRau c with
  | true =>
    by_cases hdata : ∃ b, c = .memWriteData b
    · obtain ⟨b, rfl⟩ := hdata
      obtain ⟨-, -, hmem | ⟨hmem, hlt⟩⟩ := writeData_ok (outcome_eq_next.1 h)
      · exact .inl hmem
      · exact .inr (.inr ⟨_, b, .window, hmem, hlt⟩)
    · exact .inl (exec_portsKept hbeside (fun b hb => hdata ⟨b, hb⟩) h).mem
  | false =>
    cases hring : readsRing c with
    | false => exact .inl (exec_accessKept hring hbeside h).mem
    | true =>
      cases c <;> first | (cases hring; done) | skip
      case resetNAsserted => cases h; exact .inr (.inl ⟨rfl, rfl⟩)
      case symbolInUp sym =>
        rcases exec_symbolInUp_cases h with rfl | ⟨u, hu, rfl⟩
        · exact .inl rfl
        · rw [countInUp_mem, ← settle_mem s]
          rcases symbolToRau_mem hu with hmem | ⟨q, w, b, hq, hd, hmem, hlt⟩
          · exact .inl hmem
          · exact .inr (.inr ⟨_, b, .bank hq hd, hmem, hlt⟩)
      case quietTimerExpiry =>
        rcases exec_quietTimerExpiry_cases h with rfl | rfl
        · exact .inl rfl
        · exact .inl ((linkDown_mem _).trans (settle_mem s))
      case headerDecision =>
        cases h
        have hdecide : DecisionShape s (decidePending s) := decidePending_shape s
        unfold DecisionShape at hdecide
        exact .inl (by rw [hdecide])

/-- What the transmitter does in a symbol time: the output, the gap, the pass FIFO, RING_OUT, and the row of a frame's
end. -/
theorem emitSymbol_shape (s : State) : emitSymbol s =
    { s with pending := (emitSymbol s).pending, ringOut := (emitSymbol s).ringOut,
             rau := { s.rau with output := (emitSymbol s).rau.output, gap := (emitSymbol s).rau.gap,
                                 passFifo := (emitSymbol s).rau.passFifo } } := by
  unfold emitSymbol
  split
  · rfl
  · rfl
  split
  · rfl
  · unfold emitForwarded
    repeat' split
    all_goals rfl
  · unfold emitInserted
    split <;> rfl

/-- A REFCLK period runs down the timers of both tables, and leaves memory and the frame in reception; the pins accept
no window transaction. -/
theorem tick_kept (s : State) : (tick s).mem = s.mem ∧ (tick s).rau.reception = s.rau.reception ∧
    (tick s).slots = (tickTimers s).slots ∧ (tick s).ports = (tickTimers s).ports ∧
    (WindowOk s.spi → WindowOk (tick s).spi) := by
  have hsymbol : ∃ pending line output gap pass, tickSymbol (tickTimers s) =
      { tickTimers s with pending := pending, ringOut := line,
                          rau := { tickRau s.rau with output := output, gap := gap, passFifo := pass } } := by
    unfold tickSymbol
    split
    · exact ⟨s.pending, s.ringOut, s.rau.output, s.rau.gap, s.rau.passFifo, rfl⟩
    · exact ⟨_, _, _, _, _, emitSymbol_shape (tickTimers s)⟩
  obtain ⟨pending, line, output, gap, pass, hsymbol⟩ := hsymbol
  obtain ⟨p, queue, hbus, hverdict⟩ := tickBus_spec (tickSymbol (tickTimers s))
  unfold tick
  rw [hbus, hsymbol]
  refine ⟨rfl, rfl, rfl, rfl, fun hs => ?_⟩
  rw [hsymbol] at hverdict
  rcases hverdict with hnone | ⟨hv, haddr, hlen⟩
  · exact windowOk_of_verdict (by rw [hnone]; nofun)
  · show WindowOk p
    unfold WindowOk
    rw [hv, haddr, hlen]; exact hs

/-- Settles O52: a byte is written within the memory, and a write keeps the canonical form. -/
theorem memoryStaysCanonical : Obligations.MemoryStaysCanonical := by
  refine fun _ _ => step_keeps (P := fun s => s.mem.wf = true) (fun _ _ h => h) (fun s hs => ?tick)
    (fun c s t hs h => ?exec)
  case tick => rw [(tick_kept s).1]; exact hs
  case exec =>
    rcases exec_mem h with hmem | ⟨-, hmem⟩ | ⟨a, b, -, hmem, hlt⟩ <;> rw [hmem]
    · exact hs
    · exact wf_nil
    · exact wf_write hs a b hlt

/-- Settles O49: a row writes at most the byte that `Writes` names. -/
theorem memoryFrame : Obligations.MemoryFrame := by
  intro c s t h
  have hframe {a : Nat} (hreset : c ≠ .resetNAsserted) (ha : ∀ x, Writes s c x → a ≠ x) :
      Memory.read t.mem a = Memory.read s.mem a := by
    rcases exec_mem h with hmem | ⟨hc, -⟩ | ⟨x, b, hx, hmem, -⟩
    · rw [hmem]
    · exact absurd hc hreset
    · rw [hmem]; exact read_write_ne s.mem b (ha x hx)
  refine ⟨fun hsym hdata hreset a => hframe hreset fun x hx => ?others, ?window, ?bank⟩
  case others =>
    cases hx with
    | bank => exact absurd rfl (hsym _)
    | window => exact absurd rfl (hdata _)
  case window =>
    rintro b rfl a ha
    refine hframe nofun fun x hx => ?_
    cases hx; exact ha
  case bank =>
    rintro sym rfl a ha
    refine hframe nofun fun x hx => ?_
    cases hx with
    | bank hq hd => exact ha _ _ hq hd

end Sys2Proof.Machine
end

section
/-! The regions (O57). What an engine does keeps both tables' regions (`TablesFrom`); a region is made by START_RUN,
OPEN_PORT and RELEASE_BANK alone, each after the checks of the fence (R91 to R94). -/

namespace Sys2Proof.Machine

open Sys2Proof

/-! ### Time and the ring -/

theorem RegionsOk.tables {s t : State} (hs : RegionsOk s) (h : TablesFrom s t) : RegionsOk t :=
  regionsOk_from hs h.1 h.2

theorem tickSlot_some {slot : Slot} {q : Run} (h : tickSlot slot = some q) :
    ∃ r, slot = some r ∧ q.base = r.base ∧ q.count = r.count ∧ q.size = r.size := by
  obtain ⟨r, hr, rfl⟩ := Option.map_eq_some_iff.1 h
  exact ⟨r, hr, rfl, rfl, rfl⟩

theorem tickPort_some {port : Port} {q : OpenPort} (h : tickPort port = some q) :
    ∃ p, port = some p ∧ PortFrom p q := by
  obtain ⟨p, hp, hq⟩ := Option.map_eq_some_iff.1 h
  refine ⟨p, hp, ?_⟩
  split at hq <;> subst hq
  · rename_i b current idle hm
    exact rebound_portFrom hm rfl rfl rfl fun hidle => by rw [Timer.tick, Option.isSome_map]; exact hidle
  · exact .refl p
  · exact .refl p

theorem tickTimers_tables (s : State) : TablesFrom s (tickTimers s) := by
  refine ⟨fun i q hq => tickSlot_some ?_, fun i q hq => tickPort_some ?_⟩
  · rw [← hq]; simp [tickTimers, mapTable]
  · rw [← hq]; simp [tickTimers, mapTable]

theorem tick_tables (s : State) : TablesFrom s (tick s) := by
  obtain ⟨-, -, hslots, hports, -⟩ := tick_kept s
  exact (tickTimers_tables s).trans (.same hslots hports)

theorem TablesFrom.firstBeacon (s : State) : TablesFrom s (firstBeacon s) := by
  unfold Machine.firstBeacon
  split
  · exact .refl s
  · exact (TablesFrom.setRollCall _ s).trans (.offerBeacon _)

theorem startPeriodExpires_tables (s : State) : TablesFrom s (startPeriodExpires s) := by
  unfold startPeriodExpires
  split
  · exact (TablesFrom.same (s := s) rfl rfl).trans
      ((TablesFrom.firstBeacon { s with tx := { state := .run, startTimer := none } }).trans (.setRollCall _ _))
  · exact .refl s

theorem linkDown_tables (s : State) : TablesFrom s (linkDown s) := .same (linkDown_slots s) (linkDown_ports s)

theorem symbolToRau_tables {sym : Symbol} {s t : State} (h : symbolToRau sym s = .ok t) : TablesFrom s t := by
  have hshape : SymbolShape s t := symbolToRau_shape h
  unfold SymbolShape at hshape
  rw [hshape]; exact .same rfl rfl

theorem exec_symbolInUp_tables {sym : Symbol} {s t : State} (h : exec (.symbolInUp sym) s = .next t) :
    TablesFrom s t := by
  rcases exec_symbolInUp_cases h with rfl | ⟨u, hu, rfl⟩
  · exact .refl _
  · exact ((TablesFrom.settle s).trans (symbolToRau_tables hu)).trans
      (.same (countInUp_slots sym u) (countInUp_ports sym u))

theorem exec_quietTimerExpiry_tables {s t : State} (h : exec .quietTimerExpiry s = .next t) : TablesFrom s t := by
  rcases exec_quietTimerExpiry_cases h with rfl | rfl
  · exact .refl _
  · exact (TablesFrom.settle s).trans (linkDown_tables _)

/-! ### Forwarding and insertion -/

theorem startForward_tables (s : State) : TablesFrom s (startForward s) := by
  unfold startForward
  repeat' split
  all_goals exact .same rfl rfl

theorem endForward_tables (s : State) : TablesFrom s (endForward s) := by
  unfold endForward
  repeat' split
  all_goals exact .same rfl rfl

theorem fold_region (r : Run) (index : Nat) (payload : List Byte) : (r.fold index payload).base = r.base ∧
    (r.fold index payload).count = r.count ∧ (r.fold index payload).size = r.size := by
  unfold Run.fold
  split <;> exact ⟨rfl, rfl, rfl⟩

theorem exec_insertionStart_tables {s t : State} (h : exec .insertionStart s = .next t) : TablesFrom s t := by
  rcases exec_insertionStart_cases h with rfl | ⟨-, ⟨f, rest, -, rfl⟩ | ⟨e, rest, r, p, -, -, hr, -, rfl⟩⟩
  · exact .refl _
  · exact .same rfl rfl
  · exact ⟨.put hr rfl (fold_region r e.index p), .of rfl⟩

theorem blockInsertionEnds_tables (i : Fin 8) (s : State) : TablesFrom s (blockInsertionEnds i s) := by
  have hfree : SlotsFrom s (setSlot i none s) := .set nofun
  refine .run ?_ (blockInsertionEnds_runStep i s)
  unfold blockInsertionEnds
  repeat' split
  · exact hfree.trans (.of rfl)
  · exact hfree
  all_goals exact .of rfl

theorem endInsertion_tables (s : State) : TablesFrom s (endInsertion s) := by
  unfold endInsertion
  split
  · dsimp only
    split
    · exact (TablesFrom.same (s := s) rfl rfl).trans (blockInsertionEnds_tables _ _)
    · exact .same rfl rfl
  all_goals exact .refl s

/-! ### Commands that make no region (R43, R76 to R79, R161, R162) -/

theorem cancelRunTaken_tables (r : List Byte) (s : State) : TablesFrom s (cancelRunTaken r s) := by
  unfold cancelRunTaken
  split
  · exact .post _ s
  split
  · exact .post _ s
  · rename_i q hq
    split
    · exact .post _ s
    · refine (TablesFrom.offer _ s).trans (.run (endRunNow_slotsFrom ?_ _ _) (.endRunNow _ _ _ _ _))
      rw [offer_slots]; exact hq

/-- A command on an open port that keeps both tables' regions keeps them through its checks. -/
theorem onOpenPort_tables (r : List Byte) {f : Fin 8 → OpenPort → State → State} {s : State}
    (hf : ∀ i p, s.ports[i] = some p → TablesFrom s (f i p s)) : TablesFrom s (onOpenPort r f s) := by
  unfold onOpenPort
  split
  · exact .post _ s
  split
  · exact .post _ s
  · exact hf _ _ (by assumption)

theorem haltNow_tables {i : Fin 8} {p : OpenPort} {s : State} (hp : s.ports[i] = some p) (hm : p.mode ≠ .halted) :
    TablesFrom s (haltNow i p s) := by
  unfold haltNow
  split
  · rename_i b current idle hbound
    exact ⟨.of (by simp [unbindNow, posting]),
      unbindNow_portsFrom hp (offer_ports _ s) hbound .haltedLocally (.inr rfl)⟩
  · rename_i hlistening
    exact ⟨.of rfl, .put hp rfl (unbound_portFrom (.inl hlistening) (.inr rfl))⟩
  · exact absurd (by assumption) hm

theorem haltPortTaken_tables (r : List Byte) (s : State) : TablesFrom s (haltPortTaken r s) := by
  refine onOpenPort_tables r fun i p hp => ?_
  split
  · exact .post _ s
  · exact haltNow_tables hp (by assumption)

theorem unhaltPortTaken_tables (r : List Byte) (s : State) : TablesFrom s (unhaltPortTaken r s) := by
  unfold unhaltPortTaken
  split
  · exact .post _ s
  refine onOpenPort_tables r fun i p hp => ?_
  split
  · exact ⟨.of rfl, .put hp rfl (unbound_portFrom (.inr (by assumption)) (.inl rfl))⟩
  · exact .post _ s

theorem closeNow_tables (i : Fin 8) (p : OpenPort) (s : State) : TablesFrom s (closeNow i p s) := by
  have hclosed (u : State) : TablesFrom u (setPort i none u) := ⟨.of rfl, .set nofun⟩
  unfold closeNow
  split
  · exact ((TablesFrom.offer _ s).trans (hclosed _)).trans (.post _ _)
  all_goals exact hclosed s

theorem softResetTaken_tables (s : State) : TablesFrom s (softResetTaken s) := by
  obtain ⟨-, hslots⟩ := softResetRuns_spec s
  rw [softResetTaken_eq]
  refine ⟨fun i q hq => ?_, fun i q hq => ?_⟩
  · have hq : softResetSlot (beingInserted i s) s.slots[i] = some q := (hslots i).symm.trans hq
    unfold softResetSlot at hq
    split at hq
    · cases hq
    rename_i r hr
    split at hq <;> cases hq
    exact ⟨r, hr, rfl, rfl, rfl⟩
  · have hq : (Vector.replicate 8 (none : Port))[i] = some q := hq
    simp at hq

/-! ### Commands that make a region (R91 to R94, R157, R159, R160) -/

theorem startRunTaken_regionsOk (r : List Byte) {s : State} (hs : RegionsOk s) : RegionsOk (startRunTaken r s) := by
  have hreject (reason : RejectReason) : RegionsOk (reject r reason s) := hs.tables (.post _ s)
  unfold startRunTaken
  dsimp only
  repeat' split
  all_goals first
    | exact hreject _
    | exact beginRun_regionsOk hs (Bool.eq_false_iff.2 (by assumption)) (Bool.eq_false_iff.2 (by assumption))

theorem openPortArgs_capacities (r : List Byte) :
    (openPortArgs r).capacityA ≤ 255 ∧ (openPortArgs r).capacityB ≤ 255 :=
  ⟨Nat.le_of_lt_succ (BitVec.isLt _), Nat.le_of_lt_succ (BitVec.isLt _)⟩

theorem openPortTaken_regionsOk (r : List Byte) {s : State} (hs : RegionsOk s) : RegionsOk (openPortTaken r s) := by
  have hreject (reason : RejectReason) : RegionsOk (reject r reason s) := hs.tables (.post _ s)
  unfold openPortTaken
  dsimp only
  repeat' split
  all_goals first
    | exact hreject _
    | exact beginPort_regionsOk hs (Bool.eq_false_iff.2 (by assumption)) (Bool.eq_false_iff.2 (by assumption))
        (openPortArgs_capacities r)

/-- The base that a RELEASE_BANK leaves is a multiple of 16 with the region within the memory: as tested where it is
given, and as it was where it is not. -/
theorem releaseBase_ok {r : List Byte} {p : OpenPort} (hp : PortOk p) (hgood : ¬releaseBad r p = true) :
    releaseBase r (p.bank (releaseBankId r)) % 16 = 0 ∧ (releaseRegion r p).hi ≤ Config.memoryBytes := by
  cases hnew : (releaseNewBase r).isSome with
  | true =>
    simp only [releaseBad, hnew, Bool.true_and, Bool.or_eq_true, decide_eq_true_eq, pastEnd_iff, not_or, not_not,
      Nat.not_lt] at hgood
    exact hgood
  | false =>
    have hbase : releaseBase r (p.bank (releaseBankId r)) = (p.bank (releaseBankId r)).base := by
      rw [releaseBase, Option.isSome_eq_false_iff.1 hnew |> Option.isNone_iff_eq_none.1, Option.getD_none]
    obtain ⟨-, -, -, hbanks, -⟩ := (portOk_iff p).1 hp
    obtain ⟨hmod, -, -, hend, -⟩ := hbanks (releaseBankId r)
    refine ⟨by rw [hbase]; exact hmod, ?_⟩
    rw [releaseRegion, hbase]; exact hend

theorem releaseBankTaken_regionsOk (r : List Byte) {s : State} (hs : RegionsOk s) :
    RegionsOk (releaseBankTaken r s) := by
  have hreject (reason : RejectReason) : RegionsOk (reject r reason s) := hs.tables (.post _ s)
  cases hi : portNumber (recordIndex r) with
  | none =>
    rw [releaseBankTaken, onOpenPort_badPort _ (portNumber_eq_none.1 hi)]; exact hreject _
  | some i =>
    have hi := portNumber_eq_some.1 hi
    cases hp : s.ports[i] with
    | none => rw [releaseBankTaken, onOpenPort_closed _ hi hp]; exact hreject _
    | some p =>
      rw [releaseBankTaken_at hi hp]
      split
      · exact hreject _
      rename_i hfull
      split
      · exact hreject _
      rename_i hgood
      split
      · exact hreject _
      rename_i hunused
      split
      · exact hreject _
      rename_i hapart
      simp only [releaseInUse, Bool.or_eq_true, not_or, Bool.not_eq_true] at hunused
      simp only [releaseOverlaps, Bool.or_eq_true, not_or, Bool.not_eq_true] at hapart
      obtain ⟨hmod, hend⟩ := releaseBase_ok (hs.1 i p hp).1 hgood
      exact releaseTo_regionsOk hs hp (by simpa using hfull) hmod hend hunused.2 hapart.1 hapart.2

/-! ### All of them -/

theorem takeCommand_regionsOk {test : Byte → Bool} {f : List Byte → State → State}
    (hf : ∀ r s, RegionsOk s → RegionsOk (f r s)) {s : State} (hs : RegionsOk s) :
    RegionsOk (takeCommand test f s) := by
  rcases takeCommand_cases test f s with h | ⟨r, rest, -, -, h⟩ <;> rw [h]
  · exact hs
  · exact hf r _ (hs.tables (.same rfl rfl))

theorem exec_besideRau_tables {c : Instr} {s t : State} (hc : besideRau c = true) (h : exec c s = .next t) :
    TablesFrom s t := by
  refine .same (exec_besideRau hc h).slots ?_
  by_cases hdata : ∃ b, c = .memWriteData b
  · obtain ⟨b, rfl⟩ := hdata
    exact (writeData_ok (outcome_eq_next.1 h)).1
  · exact (exec_portsKept hc (fun b hb => hdata ⟨b, hb⟩) h).ports

theorem exec_regionsOk {c : Instr} {s t : State} (hs : RegionsOk s) (h : exec c s = .next t) : RegionsOk t := by
  by_cases htakes : takesHandover c = true
  · rcases exec_takesHandover htakes h with rfl | rfl
    · exact hs
    · exact hs.tables (.deliver s)
  by_cases hbeside : besideRau c = true
  · exact hs.tables (exec_besideRau_tables hbeside h)
  cases c <;> first | exact absurd rfl htakes | exact absurd rfl hbeside | skip
  case resetNAsserted => cases h; exact regionsOk_reset
  case startPeriodExpiry => cases h; exact hs.tables (startPeriodExpires_tables s)
  case symbolInUp => exact hs.tables (exec_symbolInUp_tables h)
  case quietTimerExpiry => exact hs.tables (exec_quietTimerExpiry_tables h)
  case headerDecision => cases h; exact hs.tables (.decide s)
  case beaconPeriodExpiry => cases h; exact hs.tables (.beacon s)
  case answerExpiryOpening i =>
    cases h; exact hs.tables (.run (answerExpiresOpening_slotsFrom i s) (answerExpiresOpening_runStep i s))
  case answerExpiryStreaming i =>
    cases h; exact hs.tables (.run (answerExpiresStreaming_slotsFrom i s) (answerExpiresStreaming_runStep i s))
  case answerExpiryClosing i =>
    cases h; exact hs.tables (.run (answerExpiresClosing_slotsFrom i s) (answerExpiresClosing_runStep i s))
  case probeTimerExpiry i => cases h; exact hs.tables (.run (probeExpires_slotsFrom i s) (probeExpires_runStep i s))
  case pauseTimerExpiry i => cases h; exact hs.tables (.run (pauseExpires_slotsFrom i s) (pauseExpires_runStep i s))
  case idleTimerExpiry i => cases h; exact hs.tables (.port (idleExpires_portsFrom i s) (idleExpires_portStep i s))
  case dataQueueGrant =>
    cases h; exact hs.tables ⟨grantPlace_slotsFrom s, .of (grantPlace_coreStep s).2⟩
  case forwardStart => cases h; exact hs.tables (startForward_tables s)
  case forwardEnd => cases h; exact hs.tables (endForward_tables s)
  case insertionStart => exact hs.tables (exec_insertionStart_tables h)
  case insertionEnd => cases h; exact hs.tables (endInsertion_tables s)
  case yieldThresholdExpiry =>
    cases h
    unfold thresholdExpires
    split
    · exact hs.tables (.same rfl rfl)
    · exact hs
  case yieldHoldExpiry =>
    cases h
    unfold holdExpires
    split
    · exact hs.tables (.same rfl rfl)
    · exact hs
  case startRun => cases h; exact takeCommand_regionsOk (fun r _ hs => startRunTaken_regionsOk r hs) hs
  case cancelRun => cases h; exact takeCommand_regionsOk (fun r u hs => hs.tables (cancelRunTaken_tables r u)) hs
  case openPort => cases h; exact takeCommand_regionsOk (fun r _ hs => openPortTaken_regionsOk r hs) hs
  case releaseBank => cases h; exact takeCommand_regionsOk (fun r _ hs => releaseBankTaken_regionsOk r hs) hs
  case haltPort => cases h; exact takeCommand_regionsOk (fun r u hs => hs.tables (haltPortTaken_tables r u)) hs
  case unhaltPort => cases h; exact takeCommand_regionsOk (fun r u hs => hs.tables (unhaltPortTaken_tables r u)) hs
  case closePort =>
    cases h
    exact takeCommand_regionsOk (fun r u hs => hs.tables (onOpenPort_tables r fun i p _ => closeNow_tables i p u)) hs
  case softReset => cases h; exact takeCommand_regionsOk (fun _ u hs => hs.tables (softResetTaken_tables u)) hs
  case unknownCommand => cases h; exact takeCommand_regionsOk (fun _ u hs => hs.tables (.post _ u)) hs

/-- Settles O57: a REFCLK period and every command but three keep the regions, and those three check the fence. -/
theorem regionsStayApart : Obligations.RegionsStayApart :=
  fun _ _ => step_keeps (fun _ _ h => h.tables (.same rfl rfl)) (fun s h => h.tables (tick_tables s))
    fun _ _ _ h hexec => exec_regionsOk h hexec

end Sys2Proof.Machine
end

section
/-! Progress (O59). The model's one fault is an access past the memory (log 7), and four rows make an access: a symbol
in UP, INSERTION_START, MEM_WRITE_DATA and MEM_READ_DATA. The bounds of each stand in the invariants: a BLOCK's bytes go
into a bank (`RegionsOk`), a queued block lies in its run's source region (`RunsOk`), and an accepted window lies within
the memory. -/

namespace Sys2Proof.Machine

open Sys2Proof

/-! ### The frame in reception -/

/-- What the frame in reception may still write lies within the memory. -/
def ReceptionOk (r : Rau) : Prop := ∀ q, r.reception = some q → q.inMemory

theorem accessOk_iff (s : State) : AccessOk s ↔ ReceptionOk s.rau ∧ WindowOk s.spi := Iff.rfl

theorem receptionOk_none {r : Rau} (h : r.reception = none) : ReceptionOk r := fun q hq => by rw [h] at hq; cases hq

theorem receptionOk_some {r : Rau} {q : Reception} (hr : r.reception = some q) (hq : q.inMemory) : ReceptionOk r :=
  fun q' h => by rw [hr] at h; cases h; exact hq

theorem ReceptionOk.of_eq {r r' : Rau} (h : ReceptionOk r) (he : r'.reception = r.reception) : ReceptionOk r' := by
  unfold ReceptionOk
  rw [he]; exact h

/-- A frame whose decision is of no expected BLOCK writes nothing. -/
theorem inMemory_of_decision {q : Reception} (h : ∀ w, q.decision ≠ some (.strip (.block (.expected w)))) :
    q.inMemory := fun w hw => absurd hw (h w)

theorem AccessOk.kept {s t : State} (hs : AccessOk s) (h : AccessKept s t) : AccessOk t := by
  rw [accessOk_iff] at hs ⊢
  exact ⟨hs.1.of_eq h.reception, h.spi.symm ▸ hs.2⟩

/-! ### A BLOCK at its header (R56, R57) -/

/-- An expected BLOCK goes to the block position of a FILLING bank, and no further than its size. -/
theorem classify_isExpected {h : Header} {p : OpenPort} {b : Binding} {current : Option BankId} {w : BankWrite}
    (hc : classify h p b current = .expected w) : ∃ k o fill, (p.bank k).content = .filling o fill ∧
      w.target = (p.bank k).base + fill * b.size ∧ w.limit ≤ b.size := by
  unfold classify at hc
  dsimp only at hc
  repeat' split at hc
  all_goals first
    | (cases hc; done)
    | (cases hc; exact ⟨_, _, _, by assumption, rfl, Nat.min_le_right _ _⟩)

/-- The block position of a FILLING bank lies within its region, and so within the memory (R49). -/
theorem classify_within {h : Header} {p : OpenPort} {b : Binding} {current : Option BankId} {idle : Timer}
    {w : BankWrite} (hp : PortOk p) (hm : p.mode = .bound b current idle) (hc : classify h p b current = .expected w) :
    w.target + w.limit ≤ Config.memoryBytes := by
  obtain ⟨k, o, fill, hk, htarget, hlimit⟩ := classify_isExpected hc
  obtain ⟨-, -, -, hbanks, hmode⟩ := (portOk_iff p).1 hp
  obtain ⟨-, hsize, -⟩ := (modeOk_bound hm).1 hmode
  obtain ⟨-, -, -, hend, hcontent⟩ := hbanks k
  unfold Bank.contentOk at hcontent
  rw [hk] at hcontent
  have hend : (p.bank k).base + (p.bank k).capacity * p.maxSize ≤ Config.memoryBytes := hend
  have hposition : (fill + 1) * b.size ≤ (p.bank k).capacity * p.maxSize := Nat.mul_le_mul hcontent.1 hsize
  rw [Nat.add_mul, Nat.one_mul] at hposition
  omega

theorem blockHeader_within {h : Header} {s : State} {w : BankWrite} (hs : RegionsOk s)
    (hc : (blockHeader h s).1 = .expected w) : w.target + w.limit ≤ Config.memoryBytes := by
  unfold blockHeader at hc
  split at hc
  · cases hc
  rename_i i p hp
  split at hc
  · cases hc
  · cases hc
  rename_i b current idle hm
  split at hc
  · exact classify_within (hs.1 i p (portOf_some hp)).1 hm hc
  · cases hc

theorem decide98_within {h : Header} {s : State} {w : BankWrite} (hs : RegionsOk s)
    (hd : (decide98 h s).1 = .strip (.block (.expected w))) : w.target + w.limit ≤ Config.memoryBytes := by
  unfold decide98 stripOwn at hd
  repeat' split at hd
  all_goals first
    | cases hd
    | exact blockHeader_within hs (Strip.block.inj (Decision.strip.inj hd))

/-- A header that finds the pass FIFO full leaves no frame in reception (R104). -/
theorem enterPass_receptionOk (bs : List Byte) {r : Rau} (h : ReceptionOk r) : ReceptionOk (enterPass bs r) := by
  unfold enterPass
  dsimp only
  split
  · exact h
  · exact receptionOk_none rfl

theorem decideHeader_receptionOk (q : Reception) {s : State} (hs : RegionsOk s) :
    ReceptionOk (decideHeader q s).rau := by
  cases hv : (headerOf q.header).valid with
  | false =>
    rw [decideHeader_invalid s q hv]
    exact receptionOk_some rfl (inMemory_of_decision nofun)
  | true =>
    have hyield : RegionsOk (setRau (s.rau.yieldOn s.straps.stn (headerOf q.header).flags) s) :=
      hs.tables (.same rfl rfl)
    obtain ⟨d, t, hd⟩ : ∃ d t, decide98 (headerOf q.header)
      (setRau (s.rau.yieldOn s.straps.stn (headerOf q.header).flags) s) = (d, t) := ⟨_, _, rfl⟩
    rw [decideHeader_valid s q hv hd]
    have hdecided : ReceptionOk { t.rau with reception := some { q with decision := some d } } :=
      receptionOk_some rfl fun w hw => decide98_within hyield ((congrArg Prod.fst hd).trans (Option.some.inj hw))
    split
    · exact enterPass_receptionOk _ hdecided
    · exact hdecided

theorem decidePending_receptionOk {s : State} (hs : RegionsOk s) (hr : ReceptionOk s.rau) :
    ReceptionOk (decidePending s).rau := by
  unfold decidePending
  split
  · split
    · exact decideHeader_receptionOk _ hs
    · exact hr
  · exact hr

theorem settle_receptionOk {s : State} (hs : RegionsOk s) (hr : ReceptionOk s.rau) : ReceptionOk (settle s).rau :=
  decidePending_receptionOk (hs.tables (.deliver s)) (hr.of_eq (deliverPending_coreStep s).reception)

theorem decidePending_spi (s : State) : (decidePending s).spi = s.spi := by
  have hshape : DecisionShape s (decidePending s) := decidePending_shape s
  unfold DecisionShape at hshape
  rw [hshape]

theorem settle_spi (s : State) : (settle s).spi = s.spi :=
  (decidePending_spi _).trans (deliverPending_coreStep s).spi

/-! ### A symbol in UP (R84) -/

/-- A byte of the bank writer within the memory is written, and what may follow it lies within the memory too. -/
theorem bankWrite_completes (b : Byte) {w : BankWrite} (s : State)
    (hw : w.target + w.limit ≤ Config.memoryBytes) :
    ∃ w' t, bankWrite b w s = .ok (w', t) ∧ w'.target + w'.limit ≤ Config.memoryBytes := by
  by_cases hlimit : w.written < w.limit
  · exact ⟨_, _, bankWrite_within b hlimit (by have hw : w.target + w.limit ≤ 131072 := hw; omega), hw⟩
  · exact ⟨_, _, bankWrite_past b (Nat.not_lt.1 hlimit), hw⟩

theorem passByte_receptionOk (b : Byte) {q : Reception} (s : State) (hq : q.inMemory) :
    ReceptionOk (passByte b q s).rau := by
  unfold passByte
  split
  · exact receptionOk_some rfl hq
  · exact receptionOk_none (abandon_reception _)

/-- A data byte of a decided frame is taken. -/
theorem bodyByte_completes (b : Byte) {d : Decision} {q : Reception} (s : State) (hq : q.inMemory)
    (hd : q.decision = some d) : ∃ t, bodyByte b d q s = .ok t ∧ ReceptionOk t.rau := by
  cases d with
  | drop => exact ⟨_, rfl, receptionOk_some rfl hq⟩
  | forward => exact ⟨_, rfl, passByte_receptionOk b s hq⟩
  | copy forwarded =>
    cases forwarded
    · exact ⟨_, rfl, receptionOk_some rfl hq⟩
    · exact ⟨_, rfl, passByte_receptionOk b s hq⟩
  | strip k =>
    by_cases hlimit : 1041 ≤ q.count + 1
    · exact ⟨_, bodyByte_strip_full b k q s hlimit, receptionOk_none (abandon_reception _)⟩
    have hcount : q.count + 1 < 1041 := Nat.not_le.1 hlimit
    by_cases hk : ∃ w, k = .block (.expected w)
    · obtain ⟨w, rfl⟩ := hk
      obtain ⟨w', t, hwrite, hw'⟩ := bankWrite_completes b s (hq w hd)
      exact ⟨_, bodyByte_expected b hcount hwrite, receptionOk_some rfl fun _ he => by cases he; exact hw'⟩
    · exact ⟨_, bodyByte_strip_kept b q s (fun w hw => hk ⟨w, hw⟩) hcount, receptionOk_some rfl hq⟩

/-- A symbol is taken, and what the frame in reception may still write lies within the memory. -/
theorem symbolToRau_completes (sym : Symbol) {s : State} (hs : ReceptionOk s.rau) :
    ∃ t, symbolToRau sym s = .ok t ∧ ReceptionOk t.rau := by
  cases sym with
  | data b =>
    show ∃ t, dataByte b s = .ok t ∧ ReceptionOk t.rau
    unfold dataByte
    split
    · exact ⟨s, rfl, hs⟩
    rename_i q hq
    split
    · exact bodyByte_completes b s (hs q hq) (by assumption)
    rename_i hundecided
    split
    · exact ⟨_, rfl, receptionOk_some rfl (inMemory_of_decision (by simp [hundecided]))⟩
    · exact ⟨s, rfl, hs⟩
  | sof => exact ⟨_, rfl, receptionOk_some rfl (inMemory_of_decision nofun)⟩
  | eof =>
    unfold symbolToRau
    dsimp only
    split
    · exact ⟨_, rfl, receptionOk_none (by rw [setRau_rau, endFrame_eq])⟩
    · exact ⟨s, rfl, hs⟩
  | idle | abort | invalid => exact ⟨_, rfl, receptionOk_none (abandon_reception _)⟩

theorem linkDown_receptionOk {s : State} (hs : ReceptionOk s.rau) : ReceptionOk (linkDown s).rau := by
  rw [linkDown_rau]
  split
  · exact receptionOk_none (abandon_reception _)
  · exact hs

theorem countInUp_receptionOk (sym : Symbol) {s : State} (hs : ReceptionOk s.rau) :
    ReceptionOk (countInUp sym s).rau := by
  rcases countInUp_cases sym s with h | h <;> rw [h]
  · exact linkDown_receptionOk hs
  · exact hs

/-! ### Every command completes -/

/-- The bytes of a queued block lie in its run's source region, and so within the memory (R16, R108). -/
theorem queuedBlock_within {s : State} {e : DataEntry} {r : Run} (hs : RunsOk s) (he : e ∈ s.rau.dataQueue)
    (hr : s.slots[e.slot] = some r) : r.base + e.index * r.size + r.size ≤ Config.memoryBytes := by
  obtain ⟨hruns, -, hentries, -⟩ := hs
  obtain ⟨r', hr', -, -, hindex⟩ := hentries e he
  rw [hr] at hr'
  cases hr'
  obtain ⟨⟨-, -, -, -, hregion, -, -, -, -, -, hsent, -⟩, -⟩ := hruns e.slot r hr
  have hblock : (e.index + 1) * r.size ≤ r.count * r.size :=
    Nat.mul_le_mul_right _ (Nat.lt_of_lt_of_le hindex hsent)
  rw [Nat.add_mul, Nat.one_mul] at hblock
  omega

theorem startInsertion_completes {s : State} (hs : RunsOk s) : ∃ t, startInsertion s = .ok t := by
  unfold startInsertion
  split
  · split
    · exact ⟨_, rfl⟩
    split
    · rename_i e rest hdata
      split
      · exact ⟨_, rfl⟩
      split
      · rename_i r hr
        rw [insertBlock, readBytes_of_le s (queuedBlock_within hs (by rw [hdata]; exact List.mem_cons_self) hr)]
        exact ⟨_, rfl⟩
      · exact ⟨_, rfl⟩
    · exact ⟨_, rfl⟩
  · exact ⟨_, rfl⟩

theorem moving_iff (p : LocalPort) : p.moving = true ↔ p.verdict = some .accepted ∧ p.moved < p.len.toNat := by
  simp only [LocalPort.moving, Bool.and_eq_true, decide_eq_true_eq]

/-- The next byte of an accepted window lies within the memory. -/
theorem moving_within {p : LocalPort} (hp : WindowOk p) (hmoving : p.moving = true) :
    p.addr.toNat + p.moved < Config.memoryBytes := by
  obtain ⟨hverdict, hmoved⟩ := (moving_iff p).1 hmoving
  have hend := hp hverdict
  omega

theorem writeData_completes (b : Byte) {s : State} (hs : WindowOk s.spi) : ∃ t, writeData b s = .ok t := by
  unfold writeData
  split
  · dsimp only
    split
    · rw [writeByte_of_lt b s (moving_within hs (by assumption))]; exact ⟨_, rfl⟩
    · exact ⟨_, rfl⟩
  · exact ⟨_, rfl⟩

theorem readData_completes {s : State} (hs : WindowOk s.spi) : ∃ t, readData s = .ok t := by
  unfold readData
  split
  · dsimp only
    split
    · rw [readByte_of_lt s (moving_within hs (by assumption))]; exact ⟨_, rfl⟩
    · exact ⟨_, rfl⟩
  · exact ⟨_, rfl⟩

theorem outcome_completes {x : Except Fault State} (h : ∃ t, x = .ok t) : ∃ t, outcome x = .next t := by
  obtain ⟨t, rfl⟩ := h
  exact ⟨t, rfl⟩

theorem takeInUp_completes (sym : Symbol) {s : State} (hs : ReceptionOk (settle s).rau) :
    ∃ t, takeInUp sym s = .ok t := by
  obtain ⟨t, ht, -⟩ := symbolToRau_completes sym hs
  rw [takeInUp, ht]
  exact ⟨_, rfl⟩

theorem takesHandover_completes {c : Instr} (hc : takesHandover c = true) (s : State) : ∃ t, exec c s = .next t := by
  by_cases hx : ∃ x, s.rau.handover = some x ∧ x.row = some c
  · obtain ⟨x, hx, hrow⟩ := hx
    exact ⟨_, exec_row hx hrow⟩
  · exact ⟨_, exec_otherRow hc fun x hh hrow => hx ⟨x, hh, hrow⟩⟩

/-- From a state in order no command faults, and none is refused. -/
theorem exec_completes (c : Instr) {s : State} (hs : Safe s) : ∃ t, exec c s = .next t := by
  obtain ⟨hruns, hregions, hreception, hwindow⟩ := hs
  have guarded {p : Prop} [Decidable p] {x y : Host.Outcome State Fault Refusal} (hx : ∃ t, x = .next t)
      (hy : ∃ t, y = .next t) : ∃ t, (if p then x else y) = .next t := by
    split
    · exact hx
    · exact hy
  by_cases htakes : takesHandover c = true
  · exact takesHandover_completes htakes s
  cases c <;> first | exact absurd rfl htakes | skip
  case symbolInUp sym =>
    exact guarded (outcome_completes (takeInUp_completes sym (settle_receptionOk hregions hreception))) ⟨_, rfl⟩
  case insertionStart => exact outcome_completes (startInsertion_completes hruns)
  case memWriteData b => exact outcome_completes (writeData_completes b hwindow)
  case memReadData => exact outcome_completes (readData_completes hwindow)
  case symbolInDown | symbolInAlign | quietTimerExpiry | memWrite | memWriteClose | memRead | inspect
      | transactionIgnored | transactionEnd => exact guarded ⟨_, rfl⟩ ⟨_, rfl⟩
  all_goals exact ⟨_, rfl⟩

/-! ### Every command leaves the accesses to come within the memory -/

theorem exec_besideRau_accessOk {c : Instr} {s t : State} (hc : besideRau c = true) (hs : AccessOk s)
    (h : exec c s = .next t) : AccessOk t := by
  rw [accessOk_iff] at hs ⊢
  refine ⟨(exec_besideRau hc h).rau.symm ▸ hs.1, ?_⟩
  by_cases hdata : ∃ b, c = .memWriteData b
  · obtain ⟨b, rfl⟩ := hdata
    exact (writeData_ok (outcome_eq_next.1 h)).2.1 hs.2
  · exact (exec_portsKept hc (fun b hb => hdata ⟨b, hb⟩) h).window hs.2

theorem exec_accessOk {c : Instr} {s t : State} (hregions : RegionsOk s) (hs : AccessOk s)
    (h : exec c s = .next t) : AccessOk t := by
  cases hbeside : besideRau c with
  | true => exact exec_besideRau_accessOk hbeside hs h
  | false =>
    cases hring : readsRing c with
    | false => exact hs.kept (exec_accessKept hring hbeside h)
    | true =>
      rw [accessOk_iff] at hs ⊢
      obtain ⟨hreception, hwindow⟩ := hs
      have hsettled := settle_receptionOk hregions hreception
      have hspi : WindowOk (settle s).spi := (settle_spi s).symm ▸ hwindow
      cases c <;> first | (cases hring; done) | skip
      case resetNAsserted => cases h; exact accessOk_reset
      case symbolInUp sym =>
        rcases exec_symbolInUp_cases h with rfl | ⟨u, hu, rfl⟩
        · exact ⟨hreception, hwindow⟩
        · obtain ⟨u', hu', hreception'⟩ := symbolToRau_completes sym hsettled
          rw [hu] at hu'
          cases hu'
          have hshape : SymbolShape (settle s) u := symbolToRau_shape hu
          unfold SymbolShape at hshape
          refine ⟨countInUp_receptionOk sym hreception', ?_⟩
          rw [countInUp_spi, hshape]; exact hspi
      case quietTimerExpiry =>
        rcases exec_quietTimerExpiry_cases h with rfl | rfl
        · exact ⟨hreception, hwindow⟩
        · exact ⟨linkDown_receptionOk hsettled, by rw [linkDown_spi]; exact hspi⟩
      case headerDecision =>
        cases h
        exact ⟨decidePending_receptionOk hregions hreception, (decidePending_spi s).symm ▸ hwindow⟩

theorem tick_accessOk {s : State} (hs : AccessOk s) : AccessOk (tick s) := by
  obtain ⟨-, hreception, -, -, hwindow⟩ := tick_kept s
  rw [accessOk_iff] at hs ⊢
  exact ⟨hs.1.of_eq hreception, hwindow hs.2⟩

theorem step_completes {s : State} (hs : Safe s) : ∃ t, step s = .next t := by
  unfold step
  split
  · exact exec_completes _ hs
  · exact ⟨_, rfl⟩

theorem step_safe {s t : State} (hs : Safe s) (h : step s = .next t) : Safe t := by
  refine step_keeps (P := Safe) (fun _ _ h => h) (fun s ⟨hruns, hregions, haccess⟩ => ?_)
    (fun c s t ⟨hruns, hregions, haccess⟩ h => ?_) hs h
  · exact ⟨tick_runsOk s hruns, hregions.tables (tick_tables s), tick_accessOk haccess⟩
  · exact ⟨exec_runsOk hruns h, exec_regionsOk hregions h, exec_accessOk hregions haccess h⟩

/-- Settles O59: a step from a state in order completes (`step_completes`), and leaves the part in order
(`step_safe`). -/
theorem everyStepCompletes : Obligations.EveryStepCompletes := by
  intro s hs
  obtain ⟨t, ht⟩ := step_completes hs
  exact ⟨t, ht, step_safe hs ht⟩

end Sys2Proof.Machine
end

section
/-! The memory window (O46): the verdict of R88 and R90, the bytes that R89 and R86 move, the hold of R152, and the
bytes at the pins (R144, R150, R151). -/

namespace Sys2Proof.Machine

open Sys2Proof

/-! ### The verdict (R88, R90) -/

theorem windowRange_iff (addr : Nat) (len : Word16) : windowRange addr len.toNat = true ↔
    len = 0 ∨ 1024 < len.toNat ∨ 131072 < addr + len.toNat := by
  simp only [windowRange, Bool.or_eq_true, decide_eq_true_eq, word16_eq_zero_iff, or_assoc]; exact Iff.rfl

theorem readVerdict_accepted {addr len : Nat} (h : ¬windowRange addr len = true) : readVerdict addr len = .accepted :=
  if_neg h

/-- A range shares a byte with the fence (R87, R88). -/
theorem overlapsFence_iff (addr len : Nat) (s : State) :
    Region.overlapsAny { lo := addr, hi := addr + len } (fence s) = true ↔
      ∃ a ∈ fence s, addr < a.hi ∧ a.lo < addr + len := by
  simp only [overlapsAny_iff, overlaps_iff]

section
variable {addr len : Nat} {s : State} (h : ¬windowRange addr len = true)
include h

theorem writeVerdict_fenced (hf : ∃ a ∈ fence s, addr < a.hi ∧ a.lo < addr + len) :
    writeVerdict addr len s = .fenced := by
  rw [writeVerdict, if_neg h, if_pos ((overlapsFence_iff addr len s).2 hf)]

theorem writeVerdict_accepted (hf : ¬∃ a ∈ fence s, addr < a.hi ∧ a.lo < addr + len) :
    writeVerdict addr len s = .accepted := by
  rw [writeVerdict, if_neg h, if_neg (mt (overlapsFence_iff addr len s).1 hf)]

end

/-- The transaction of a window at its verdict, with its status byte. -/
def windowAt (k : SpiKind) (addr : BitVec 24) (len : Word16) (v : Verdict) (status : Byte) : LocalPort :=
  { LocalPort.reset with csLow := true, sck := true, sdo := some false, phase := .body, kind := some k, bytes := 6,
                         addr := addr, len := len, verdict := some v,
                         outgoing := [status, 0, 0, 0, 0, 0, v.code] }

theorem startWindow_eq (k : SpiKind) (addr : BitVec 24) (len : Word16) (v : Verdict) (s : State) :
    startWindow k addr len v s =
      { s with logCopied := none, spi := windowAt k addr len v (openingStatus (some k) 6 s) } := rfl

/-- A row that opens a window continues the transaction at the pins, or stands for it from its fall of CS_N on. -/
theorem startWindow_opens {k : SpiKind} {addr : BitVec 24} {len : Word16} {v : Verdict} {c : Instr} {s : State}
    (hexec : exec c s = .next (startWindow k addr len v s)) :
    let begun : Prop :=
      s.spi.phase = .code ∨ (s.spi.phase = .body ∧ s.spi.kind = some k ∧ 1 ≤ s.spi.bytes ∧ s.spi.bytes < 6)
    (∀ x l, begun → s.spi.outgoing = x :: l →
      exec c s = .next { s with logCopied := none, spi := windowAt k addr len v x }) ∧
    (¬begun → exec c s = .next { s with logCopied := none, spi := windowAt k addr len v (statusByte s) }) := by
  intro begun
  refine ⟨fun x l hbegun hout => ?_, fun hnew => ?_⟩
  · rw [hexec, startWindow_eq, openingStatus_begun hbegun hout]
  · rw [hexec, startWindow_eq, openingStatus_new hnew]

theorem busLive_of {s : State} (hreset : s.resetLow = false) (hwait : s.spi.waitRise = false) : s.busLive = true := by
  simp [State.busLive, hreset, hwait]

theorem exec_memWrite {s : State} (addr : BitVec 24) (len : Word16) {v : Verdict} (hlive : s.busLive = true)
    (hv : writeVerdict addr.toNat len.toNat s = v) :
    exec (.memWrite addr len) s = .next (startWindow .memWrite addr len v s) := by
  rw [← hv]; exact if_pos hlive

theorem exec_memRead {s : State} (addr : BitVec 24) (len : Word16) {v : Verdict} (hlive : s.busLive = true)
    (hv : readVerdict addr.toNat len.toNat = v) :
    exec (.memRead addr len) s = .next (startWindow .memRead addr len v s) := by
  rw [← hv]; exact if_pos hlive

/-! ### The bytes moved (R86, R89) -/

theorem not_moving {p : LocalPort} (h : p.verdict ≠ some .accepted ∨ p.len.toNat ≤ p.moved) :
    ¬p.moving = true := by
  rw [moving_iff, not_and_or, Nat.not_lt]; exact h

section
variable {s : State}

theorem writeData_moves (b : Byte) (hk : s.spi.kind = some .memWrite) (hm : s.spi.moving = true)
    (ha : s.spi.addr.toNat + s.spi.moved < 131072) : writeData b s =
      .ok { s with mem := s.mem.write (s.spi.addr.toNat + s.spi.moved) b,
                   spi := { s.spi with bytes := s.spi.bytes + 1, outgoing := s.spi.outgoing ++ [0],
                                       moved := s.spi.moved + 1 } } := by
  rw [writeData, if_pos hk, if_pos hm, writeByte_of_lt b s ha]; rfl

theorem writeData_ignores (b : Byte) (hk : s.spi.kind = some .memWrite) (hm : ¬s.spi.moving = true) : writeData b s =
    .ok { s with spi := { s.spi with bytes := s.spi.bytes + 1, outgoing := s.spi.outgoing ++ [0] } } := by
  rw [writeData, if_pos hk, if_neg hm]; rfl

theorem readData_moves (hk : s.spi.kind = some .memRead) (hm : s.spi.moving = true)
    (ha : s.spi.addr.toNat + s.spi.moved < 131072) : readData s =
      .ok { s with spi := { s.spi with bytes := s.spi.bytes + 1, moved := s.spi.moved + 1,
                                       outgoing := s.spi.outgoing ++
                                         [Memory.read s.mem (s.spi.addr.toNat + s.spi.moved)] } } := by
  rw [readData, if_pos hk, if_pos hm, readByte_of_lt s ha]; rfl

theorem readData_zero (hk : s.spi.kind = some .memRead) (hm : ¬s.spi.moving = true) : readData s =
    .ok { s with spi := { s.spi with bytes := s.spi.bytes + 1, outgoing := s.spi.outgoing ++ [0] } } := by
  rw [readData, if_pos hk, if_neg hm]; rfl

end

/-! ### The hold on commands (R152) -/

/-- The rows that take a command from the FIFO. -/
def takesCommand : Instr → Bool
  | .startRun | .cancelRun | .openPort | .releaseBank | .haltPort | .unhaltPort | .closePort | .softReset
  | .unknownCommand => true
  | _ => false

theorem exec_takesCommand_held {c : Instr} {s : State} (hc : takesCommand c = true)
    (hk : s.spi.kind = some .memWrite) : exec c s = .next s := by
  cases c <;> first | (cases hc; done) | skip
  all_goals exact congrArg Host.Outcome.next (takeCommand_held _ _ (.inr hk))

theorem exec_memWriteClose {s : State} (hk : s.spi.kind = some .memWrite) :
    exec .memWriteClose s = .next (riseOfCs s) := if_pos (decide_eq_true hk)

/-! ### The fields at the pins (R144, R150, R151) -/

/-- A byte that arrives most significant byte first goes in at the right. -/
theorem extractLsb'_append_eq {n : Nat} (x : BitVec (n + 8)) (b : Byte) :
    x.extractLsb' 0 n ++ b = x <<< 8 ||| b.setWidth (n + 8) := by
  ext i hi
  simp only [← BitVec.getLsbD_eq_getElem, BitVec.getLsbD_append, BitVec.getLsbD_or, BitVec.getLsbD_shiftLeft,
    BitVec.getLsbD_setWidth, BitVec.getLsbD_extractLsb']
  by_cases h8 : i < 8
  · simp [h8, hi]
  · have hhigh : b.getLsbD i = false := BitVec.getLsbD_of_ge b i (Nat.not_lt.1 h8)
    have hlow : i - 8 < n := by omega
    simp [h8, hi, hhigh, hlow]

/-- The row that opens the window of a kind of transaction. -/
def opensWindow (k : SpiKind) (addr : BitVec 24) (len : Word16) : Instr :=
  if k = .memWrite then .memWrite addr len else .memRead addr len

/-- The row of a data byte of a window transaction. -/
def movesByte (k : SpiKind) (b : Byte) : Instr := if k = .memWrite then .memWriteData b else .memReadData

theorem byteArrives_window {s : State} {k : SpiKind} (b : Byte) (hp : s.spi.phase = .body) (hk : s.spi.kind = some k)
    (hwindow : k = .memWrite ∨ k = .memRead) :
    byteArrives b s = windowArrives (opensWindow k) (movesByte k b) b s := by
  rcases hwindow with rfl | rfl <;> (unfold byteArrives bodyArrives; simp only [hp, hk]; rfl)

section
variable (opened : BitVec 24 → Word16 → Instr) (data : Instr) (b : Byte) {s : State}

theorem windowArrives_addr (h : s.spi.bytes < 4) : windowArrives opened data b s =
    { s with spi := { s.spi.counted with addr := s.spi.addr <<< 8 ||| b.setWidth 24, verdict := none } } := by
  rw [windowArrives, if_pos h, extractLsb'_append_eq (n := 16)]; rfl

theorem windowArrives_lenHigh (h : s.spi.bytes = 4) : windowArrives opened data b s =
    { s with spi := { s.spi.counted with len := s.spi.len <<< 8 ||| b.setWidth 16, verdict := none } } := by
  rw [windowArrives, if_neg (by omega), if_pos (by omega), extractLsb'_append_eq (n := 8)]; rfl

theorem windowArrives_lenLow (h : s.spi.bytes = 5) : windowArrives opened data b s =
    due (opened s.spi.addr (s.spi.len <<< 8 ||| b.setWidth 16)) s := by
  rw [windowArrives, if_neg (by omega), if_neg (by omega), if_pos (by omega), extractLsb'_append_eq (n := 8)]

theorem windowArrives_data (h : 6 ≤ s.spi.bytes) : windowArrives opened data b s = due data s := by
  rw [windowArrives, if_neg (by omega), if_neg (by omega), if_neg (by omega)]

end

/-- Settles O46: the verdict goes out by `startWindow`, the bytes move by `writeData` and `readData`, no command is
taken while a MEM_WRITE is open, and the fields arrive by `windowArrives`. -/
theorem memoryWindow : Obligations.MemoryWindow := by
  refine ⟨fun s addr len hreset hwait => ?verdict, fun s b hk => ?write, fun s hk => ?hold, fun s hk => ?read,
    fun s b k hp hk hwindow => ?pins⟩
  case verdict =>
    intro range fenced opened
    have hrange : windowRange addr.toNat len.toNat = true ↔ range := windowRange_iff addr.toNat len
    have hlive := busLive_of hreset hwait
    refine ⟨fun hr => startWindow_opens (exec_memWrite addr len hlive (writeVerdict_range s (hrange.2 hr))),
      fun hr hf => startWindow_opens (exec_memWrite addr len hlive (writeVerdict_fenced (mt hrange.1 hr) hf)),
      fun hr hf => startWindow_opens (exec_memWrite addr len hlive (writeVerdict_accepted (mt hrange.1 hr) hf)),
      fun hr => startWindow_opens (exec_memRead addr len hlive (readVerdict_range (hrange.2 hr))),
      fun hr => startWindow_opens (exec_memRead addr len hlive (readVerdict_accepted (mt hrange.1 hr)))⟩
  case write =>
    intro a p
    refine ⟨fun hwf hv hlen ha => ?_, fun hstays => congrArg outcome (writeData_ignores b hk (not_moving hstays))⟩
    have hmoves := writeData_moves b hk ((moving_iff _).2 ⟨hv, hlen⟩) ha
    exact ⟨_, congrArg outcome hmoves, read_write_self s.mem a b hwf, fun x hx => read_write_ne s.mem b hx, rfl⟩
  case hold =>
    refine ⟨exec_memWriteClose hk, fun c hc => exec_takesCommand_held ?_ hk⟩
    rcases hc with rfl | rfl | rfl | rfl | rfl | rfl | rfl | rfl | rfl <;> rfl
  case read =>
    exact ⟨fun hv hlen ha => congrArg outcome (readData_moves hk ((moving_iff _).2 ⟨hv, hlen⟩) ha),
      fun hstays => congrArg outcome (readData_zero hk (not_moving hstays))⟩
  case pins =>
    have harrives := byteArrives_window b hp hk hwindow
    exact ⟨fun h => harrives.trans (windowArrives_addr _ _ b h),
      fun h => harrives.trans (windowArrives_lenHigh _ _ b h),
      fun h => harrives.trans (windowArrives_lenLow _ _ b h),
      fun h => harrives.trans (windowArrives_data _ _ b h)⟩

end Sys2Proof.Machine
end

section
/-! A step on an empty queue (O2): the timers of the part, then the symbol of every second period, then the pins. The
transmitter's part changes the output alone, so every other field of the next state is that of `tickTimers`. -/

namespace Sys2Proof.Machine

open Sys2Proof

/-! ### Timers -/

theorem mapTable_get {α β : Type} {n : Nat} (f : α → β) (v : Vector α n) (i : Fin n) : (mapTable f v)[i] = f v[i] := by
  simp [mapTable]

theorem tickTimers_slots (s : State) (i : Fin 8) : (tickTimers s).slots[i] = tickSlot s.slots[i] :=
  mapTable_get tickSlot s.slots i

theorem tickTimers_ports (s : State) (i : Fin 8) : (tickTimers s).ports[i] = tickPort s.ports[i] :=
  mapTable_get tickPort s.ports i

theorem tickPort_bound {p : OpenPort} {b : Binding} {current : Option BankId} {idle : Timer}
    (hm : p.mode = .bound b current idle) : tickPort (some p) = some { p with mode := .bound b current idle.tick } := by
  simp only [tickPort, Option.map_some, hm]

/-- Only a BOUND port has a timer. -/
theorem tickPort_unbound {port : Port} (h : ∀ p b current idle, port = some p → p.mode ≠ .bound b current idle) :
    tickPort port = port := by
  cases port with
  | none => rfl
  | some p =>
    unfold tickPort
    rw [Option.map_some]
    split
    · exact absurd (by assumption) (h p _ _ _ rfl)
    · rfl
    · rfl

/-! ### The symbol of a period (R101, R141, R142) -/

/-- The part `s` with what the transmitter can change in a period as `t` has it: the output, the gap, the pass FIFO,
RING_OUT, and the row of a frame's end. -/
def State.withSymbolOf (t s : State) : State :=
  { s with pending := t.pending, ringOut := t.ringOut,
           rau := { s.rau with output := t.rau.output, gap := t.rau.gap, passFifo := t.rau.passFifo } }

theorem tickSymbol_shape (s : State) : tickSymbol s = (tickSymbol s).withSymbolOf s := by
  unfold tickSymbol
  split
  · rfl
  · exact emitSymbol_shape s

section
variable {s : State}

theorem tickSymbol_even (h : s.refclk.getLsbD 0 = false) : tickSymbol s = emitSymbol s :=
  if_neg (Bool.eq_false_iff.1 h)

theorem tickSymbol_odd (h : ¬s.refclk.getLsbD 0 = false) : tickSymbol s = s := if_pos (Bool.eq_true_of_not_eq_false h)

theorem emitSymbol_held (h : s.tx.state = .held) : emitSymbol s = s := by
  unfold emitSymbol; rw [h]

theorem emitSymbol_start (h : s.tx.state = .start) : emitSymbol s = emitIdle s := by
  unfold emitSymbol; rw [h]

theorem tickSymbol_silent (h : ¬s.refclk.getLsbD 0 = false ∨ s.tx.state = .held) : tickSymbol s = s := by
  by_cases heven : s.refclk.getLsbD 0 = false
  · exact (tickSymbol_even heven).trans (emitSymbol_held (h.resolve_left (not_not_intro heven)))
  · exact tickSymbol_odd heven

variable (h : s.tx.state = .run)
include h

theorem emitSymbol_free (ho : s.rau.output = .free) : emitSymbol s = emitIdle s := by
  unfold emitSymbol; rw [h, ho]

theorem emitSymbol_forwarding {lead : List Symbol} (ho : s.rau.output = .forwarding lead) :
    emitSymbol s = emitForwarded lead s := by
  unfold emitSymbol; rw [h, ho]

theorem emitSymbol_inserting {block : Option (Fin 8 × Nat)} {left : List Symbol}
    (ho : s.rau.output = .inserting block left) : emitSymbol s = emitInserted block left s := by
  unfold emitSymbol; rw [h, ho]

end

section
variable {s : State} {f : PassFrame} {fs : List PassFrame} (hfifo : s.rau.passFifo = f :: fs)
include hfifo

theorem emitForwarded_byte {b : Byte} {bs : List Byte} (hf : f.bytes = b :: bs) : emitForwarded [] s =
    { s with rau := { s.rau with passFifo := { f with bytes := bs } :: fs }, ringOut := .carries (.data b) } := by
  simp only [emitForwarded, hfifo, hf]; rfl

theorem emitForwarded_end (hf : f.bytes = []) (he : f.ended ≠ none) : emitForwarded [] s = due .forwardEnd s := by
  simp only [emitForwarded, hfifo, hf, Option.isSome_iff_ne_none.2 he, if_true]

/-- Nothing of the frame has arrived that has not been sent (R142, log 11). -/
theorem emitForwarded_dry (hf : f.bytes = []) (he : f.ended = none) :
    emitForwarded [] s = { s with ringOut := .carries .idle } := by
  simp only [emitForwarded, hfifo, hf, he]; rfl

end

/-- The pins' part of a tick is the next level of the bus. -/
theorem tickBus_eq (s : State) :
    tickBus s = match s.drive with | [] => s | l :: rest => busPeriod l { s with drive := rest } := by
  cases hd : s.drive with
  | nil => exact tickBus_nil hd
  | cons l rest => exact tickBus_cons hd

theorem step_tick {s : State} (h : s.pending = []) : step s = .next (tick s) := by
  unfold step; rw [h]

/-- Settles O2: the timers are those of `tickTimers`, and the symbol is that of `emitSymbol`, case by case. -/
theorem emptyQueueStepTicks : Obligations.EmptyQueueStepTicks := by
  intro s hqueue
  have hkept {α : Type} (g : State → α) :
      g (tickSymbol (tickTimers s)) = g ((tickSymbol (tickTimers s)).withSymbolOf (tickTimers s)) :=
    congrArg g (tickSymbol_shape (tickTimers s))
  have hdrive : (tickSymbol (tickTimers s)).drive = s.drive := hkept State.drive
  have hslots : (tickSymbol (tickTimers s)).slots = (tickTimers s).slots := hkept State.slots
  have hports : (tickSymbol (tickTimers s)).ports = (tickTimers s).ports := hkept State.ports
  have hstep : step s = .next (match s.drive with
      | [] => tickSymbol (tickTimers s)
      | l :: rest => busPeriod l { tickSymbol (tickTimers s) with drive := rest }) := by
    rw [step_tick hqueue, tick, tickBus_eq, hdrive]
  refine ⟨tickSymbol (tickTimers s), hstep, hdrive, hkept State.resetLow, hkept State.straps, hkept State.logCopied,
    hkept State.refclk, hkept State.rx, hkept State.tx, hkept (·.rau.threshold), hkept (·.rau.holdTimer),
    hkept State.rollCall, fun i => ?slots, fun i p b current idle hp hm => ?bound, fun i hu => ?unbound,
    hkept State.peers, hkept State.mem, hkept State.log, hkept State.commandFifo, hkept State.spi,
    hkept (·.rau.controlQueue), hkept (·.rau.dataQueue), hkept (·.rau.reception), hkept (·.rau.handover),
    hkept State.tagCounter, hkept State.rrPointer, ?symbol⟩
  case slots => rw [hslots, tickTimers_slots]; rfl
  case bound => rw [hports, tickTimers_ports, hp, tickPort_bound hm]; rfl
  case unbound => rw [hports, tickTimers_ports, tickPort_unbound hu]
  case symbol =>
    intro sends sent idle ends
    have hsent {x : State} {line : Line} {gap : Nat} {out : Output} {pass : List PassFrame}
        (he : tickSymbol (tickTimers s) = x) (hx : x.pending = [] ∧ x.ringOut = line ∧ x.rau.gap = gap ∧
          x.rau.output = out ∧ x.rau.passFifo = pass) : sent line gap out pass := by
      rw [← he] at hx; exact hx
    have hidle (he : tickSymbol (tickTimers s) = emitIdle (tickTimers s)) : idle :=
      hsent he ⟨hqueue, rfl, rfl, rfl, rfl⟩
    have hends {c : Instr} (he : tickSymbol (tickTimers s) = due c (tickTimers s)) : ends c := by
      have hpending : (due c (tickTimers s)).pending = [c] := congrArg (· ++ [c]) hqueue
      rw [← he] at hpending
      refine ⟨hpending, ?_, ?_, ?_, ?_⟩ <;> rw [he] <;> rfl
    have heven (h : sends) : tickSymbol (tickTimers s) = emitSymbol (tickTimers s) := tickSymbol_even h
    refine ⟨fun h => hsent (tickSymbol_silent h) ⟨hqueue, rfl, rfl, rfl, rfl⟩,
      fun h hstart => hidle ((heven h).trans (emitSymbol_start hstart)),
      fun h hrun => ⟨fun ho => hidle ((heven h).trans (emitSymbol_free hrun ho)), fun sym rest ho => ?lead,
        fun f fs ho hfifo => ⟨fun b bs hf => ?byte, fun hf he => ?endOfFrame, fun hf he => ?dry⟩,
        fun block sym rest ho => ?inserted, fun block ho => ?endOfInsertion⟩⟩
    case lead =>
      exact hsent ((heven h).trans (emitSymbol_forwarding (s := tickTimers s) hrun ho)) ⟨hqueue, rfl, rfl, rfl, rfl⟩
    case byte =>
      exact hsent ((heven h).trans ((emitSymbol_forwarding (s := tickTimers s) hrun ho).trans
        (emitForwarded_byte (s := tickTimers s) hfifo hf))) ⟨hqueue, rfl, rfl, ho, rfl⟩
    case endOfFrame =>
      exact hends ((heven h).trans ((emitSymbol_forwarding (s := tickTimers s) hrun ho).trans
        (emitForwarded_end (s := tickTimers s) hfifo hf he)))
    case dry =>
      exact hsent ((heven h).trans ((emitSymbol_forwarding (s := tickTimers s) hrun ho).trans
        (emitForwarded_dry (s := tickTimers s) hfifo hf he))) ⟨hqueue, rfl, rfl, ho, rfl⟩
    case inserted =>
      exact hsent ((heven h).trans (emitSymbol_inserting (s := tickTimers s) hrun ho)) ⟨hqueue, rfl, rfl, rfl, rfl⟩
    case endOfInsertion => exact hends ((heven h).trans (emitSymbol_inserting (s := tickTimers s) hrun ho))

end Sys2Proof.Machine
end

section
/-! The yield logic (O14, O32), the emission of a forwarded frame (O36), and the postings and offers that the engines
share (O48). Each operation gets one equation for each of its cases. -/

namespace Sys2Proof.Machine

open Sys2Proof

/-! ### The yield hold (R115) -/

/-- The frame is marked, and by another station. -/
theorem markedByOther_iff (flags : Byte) (own : BitVec 4) :
    (yieldMark flags && decide (yieldOwner flags ≠ own)) = true ↔
      flags.getLsbD 7 = true ∧ flags.extractLsb' 0 4 ≠ own := by
  rw [Bool.and_eq_true, decide_eq_true_eq, yieldMark, BitVec.msb_eq_getLsbD_last, yieldOwner]

section
variable {r : Rau} {own : BitVec 4} {flags : Byte}

theorem yieldOn_other (h : flags.getLsbD 7 = true ∧ flags.extractLsb' 0 4 ≠ own) : r.yieldOn own flags =
    if r.inHold then r else { r with inHold := true, holdTimer := some 20000 } :=
  if_pos ((markedByOther_iff flags own).2 h)

theorem yieldOn_noOther (h : ¬(flags.getLsbD 7 = true ∧ flags.extractLsb' 0 4 ≠ own)) : r.yieldOn own flags =
    if r.inHold then { r with inHold := false, holdTimer := none } else r :=
  if_neg (mt (markedByOther_iff flags own).1 h)

end

/-- A decision on a valid header leaves the hold as R115 says; the pass FIFO and the Port Engine do not touch it. -/
theorem decideHeader_yield (s : State) {q : Reception} (hv : (headerOf q.header).valid = true) :
    (decideHeader q s).rau.inHold = (s.rau.yieldOn s.straps.stn (headerOf q.header).flags).inHold ∧
      (decideHeader q s).rau.holdTimer = (s.rau.yieldOn s.straps.stn (headerOf q.header).flags).holdTimer := by
  have hrau : (decide98 (headerOf q.header) (s.yielded q)).2.rau =
      s.rau.yieldOn s.straps.stn (headerOf q.header).flags := by rw [decide98_eq]; rfl
  rw [← hrau, decideHeader_valid s q hv (d := (decide98 (headerOf q.header) (s.yielded q)).1)
    (t := (decide98 (headerOf q.header) (s.yielded q)).2) rfl]
  split
  · rw [setRau_rau, enterPass_eq]
    exact ⟨rfl, rfl⟩
  · exact ⟨rfl, rfl⟩

/-- Settles O14: the hold after a decision is that of `yieldOn`, which looks at the mark, the owner and the hold. -/
theorem yieldHold : Obligations.YieldHold := by
  refine ⟨fun s q hq hintact hdest => ?decision, fun s ht => congrArg Host.Outcome.next (if_pos ht)⟩
  case decision =>
    intro flags other
    obtain ⟨hhold, htimer⟩ := decideHeader_yield s ((valid_iff _).2 ⟨hintact, hdest⟩)
    refine ⟨_, exec_headerDecision s q hq, fun ho hin => ?_, fun ho hin => ?_, fun ho hin => ?_, fun ho hin => ?_⟩ <;>
      rw [hhold, htimer]
    · rw [yieldOn_other ho, hin]; exact ⟨rfl, rfl⟩
    · rw [yieldOn_other ho, if_pos hin]; exact ⟨hin, rfl⟩
    · rw [yieldOn_noOther ho, hin]; exact ⟨rfl, rfl⟩
    · rw [yieldOn_noOther ho, hin]; exact ⟨hin, rfl⟩

/-! ### The yield threshold (R107, R113) -/

section
variable (s : State)

theorem setData_nil :
    setData [] s = { s with rau := { s.rau with dataQueue := [], threshold := none, marking := false } } := rfl

variable {q : List DataEntry} (hq : q ≠ [])
include hq

theorem setData_starts (h : s.rau.dataQueue = []) :
    setData q s = { s with rau := { s.rau with dataQueue := q, threshold := some 5000 } } := by
  rw [setData, Rau.withData, if_neg (by simpa using hq), if_pos (by simpa using h)]; rfl

theorem setData_runsOn (h : s.rau.dataQueue ≠ []) :
    setData q s = { s with rau := { s.rau with dataQueue := q } } := by
  rw [setData, Rau.withData, if_neg (by simpa using hq), if_neg (by simpa using h)]; rfl

end

theorem purge_eq_filter (i : Fin 8) (s : State) :
    purge i s = setData (s.rau.dataQueue.filter fun e => !decide (e.slot = i)) s := by
  rw [purge]; simp only [ne_eq, decide_not]

theorem dropBelow_eq_filter (i : Fin 8) (n : Nat) (s : State) : dropBelow i n s =
    setData (s.rau.dataQueue.filter fun e => !(decide (e.slot = i) && decide (e.index < n))) s := by
  rw [dropBelow]; simp only [decide_not, Bool.decide_and]

/-- Settles O32: the three cases of `setData`, and both removals as filters. -/
theorem yieldThreshold : Obligations.YieldThreshold :=
  ⟨fun s _ => ⟨fun h => h ▸ setData_nil s, setData_starts s, setData_runsOn s⟩,
    fun s i n => ⟨purge_eq_filter i s, dropBelow_eq_filter i n s⟩,
    fun _ ht => congrArg Host.Outcome.next (if_pos ht)⟩

/-! ### Forwarding (R101, R102) -/

/-- The symbol that a note of a frame's end sends (R101). -/
def FrameEnd.symbol : FrameEnd → Symbol
  | .eof => .eof
  | .abort => .abort

section
variable {s : State} {f : PassFrame} {rest : List PassFrame} (hfifo : s.rau.passFifo = f :: rest)
include hfifo

theorem startForward_starts (hf : f.bytes ≠ []) (ho : s.rau.output = .free) (hrun : s.tx.state = .run) :
    startForward s = { s with rau := { s.rau with output := .forwarding (leadSymbols s.rau.gap) } } := by
  unfold startForward; rw [hfifo]; exact if_pos ⟨ho, hrun, hf⟩

/-- The note of the frame's end is reached (R101). -/
theorem endForward_ends {e : FrameEnd} (ho : s.rau.output = .forwarding []) (hf : f.bytes = [])
    (he : f.ended = some e) : endForward s =
      { s with rau := { s.rau with output := .free, passFifo := rest, gap := 0 },
               ringOut := .carries e.symbol } := by
  simp only [endForward, ho, hfifo, hf, he]; rfl

/-- With symbols still to go or no note the end is not reached (logs 3, 11). -/
theorem endForward_waits {lead : List Symbol} (ho : s.rau.output = .forwarding lead)
    (h : lead ≠ [] ∨ f.bytes ≠ [] ∨ f.ended = none) : endForward s = s := by
  unfold endForward
  split
  · rename_i f' _ hout hpass
    cases hout.symm.trans ho
    cases hpass.symm.trans hfifo
    split
    · rename_i hbytes hended
      rcases h with h | h | h
      · exact absurd rfl h
      · exact absurd hbytes h
      · cases hended.symm.trans h
    · rfl
  · rfl

end

theorem startForward_waits {s : State} (h : s.rau.passFifo = [] ∨ s.rau.output ≠ .free ∨ s.tx.state ≠ .run) :
    startForward s = s := by
  unfold startForward
  split
  · rfl
  · rename_i hfifo
    refine if_neg fun ⟨ho, hrun, _⟩ => ?_
    rcases h with h | h | h
    · cases hfifo.symm.trans h
    · exact h ho
    · exact h hrun

/-- Settles O36: `startForward` and `endForward`, each where it acts and where it waits. -/
theorem forwarding : Obligations.Forwarding :=
  ⟨fun _ _ _ hfifo hf ho hrun => congrArg _ (startForward_starts hfifo hf ho hrun),
    fun _ _ _ _ hfifo ho h => congrArg _ (endForward_waits hfifo ho h),
    fun _ _ _ _ hfifo ho hf he => congrArg _ (endForward_ends hfifo ho hf he),
    fun _ h => congrArg _ (startForward_waits h)⟩

/-! ### Postings and offers (R106, R117, R165 to R167) -/

theorem postTo_overflowing (front : List Record) (n : Nat) (r : Record) :
    postTo (front ++ [.logOverflow n]) r = front ++ [.logOverflow (bumpLost n)] := by
  simp only [postTo, List.getLast?_concat, List.dropLast_concat]

section
variable {l : List Record} (h : ∀ x ∈ l, x.isOverflow = false)
include h

theorem getLast?_ne_overflow (n : Nat) : l.getLast? ≠ some (.logOverflow n) := fun hn =>
  absurd (h (.logOverflow n) (List.mem_of_getLast? hn)) (by simp [Record.isOverflow])

/-- No LOG_OVERFLOW is present: the record is appended, or a LOG_OVERFLOW in its place (R166). -/
theorem postTo_plain (r : Record) : postTo l r = if l.length < 31 then l ++ [r] else l ++ [.logOverflow 1] := by
  rcases postTo_cases l r with ⟨front, n, rfl, -⟩ | ⟨-, hlt, he⟩ | ⟨-, hle, he⟩
  · exact absurd List.getLast?_concat (getLast?_ne_overflow h n)
  · rw [he, if_pos hlt]
  · rw [he, if_neg (Nat.not_lt.2 hle)]

end

theorem canOffer_iff (s : State) :
    canOffer s = true ↔ s.rollCall.silent = false ∧ s.rau.controlQueue.length < 16 := by
  rw [canOffer, Bool.and_eq_true, Bool.not_eq_true', decide_eq_true_eq]; rfl

theorem offer_taken (f : OwnFrame) {s : State} (h : canOffer s = true) :
    offer f s = { s with rau := { s.rau with controlQueue := s.rau.controlQueue ++ [f] } } := if_pos h

theorem offer_refused (f : OwnFrame) {s : State} (h : canOffer s = false) : offer f s = s :=
  if_neg (Bool.eq_false_iff.1 h)

/-- Settles O48: the rows of R166 from the cases of `postTo`, and the offer by `canOffer`. -/
theorem postingsAndOffers : Obligations.PostingsAndOffers := by
  refine ⟨fun l r => ⟨?overflow, fun h hfull => ?replaced, fun h hroom => ?appended⟩,
    fun f s => ⟨fun hlive hroom => ?taken, fun hno => ?refused⟩⟩
  case overflow =>
    rintro front n rfl
    exact postTo_overflowing front n r
  case replaced => rw [postTo_plain h, if_neg (by omega)]
  case appended => rw [postTo_plain h, if_pos hroom]
  case taken =>
    have hcan : canOffer s = true := (canOffer_iff s).2 ⟨hlive, hroom⟩
    exact ⟨hcan, offer_taken f hcan⟩
  case refused =>
    have hcan : canOffer s = false := by
      rw [← Bool.not_eq_true, canOffer_iff, not_and_or, Bool.not_eq_false, Nat.not_lt]; exact hno
    exact ⟨hcan, offer_refused f hcan⟩

end Sys2Proof.Machine
end

section
/-! SILENT (O58). The flag is set by the entry to SILENT alone, which a delivery of a stripped ROLL makes (R127, R130),
and cleared by RESET_N_ASSERTED alone. Every other operation keeps the flag and what SILENT asks of the part
(`KeepsQuiet`): at a quiet station most rows find nothing to act on. -/

namespace Sys2Proof.Machine

open Sys2Proof

/-! ### A quiet station -/

/-- No slot is in another state than FREE or ENDING (R130). -/
def SlotsEnding (s : State) : Prop := ∀ i : Fin 8, ∀ r, s.slots[i] = some r → r.phase = .ending

/-- No port is BOUND (R130). -/
def PortsUnbound (s : State) : Prop :=
  ∀ i : Fin 8, ∀ p b current idle, s.ports[i] = some p → p.mode ≠ .bound b current idle

/-- What SILENT asks of the part (R117, R130). -/
structure Quiet (s : State) : Prop where
  control : s.rau.controlQueue = []
  data : s.rau.dataQueue = []
  slots : SlotsEnding s
  ports : PortsUnbound s

theorem silentOk_iff (s : State) : SilentOk s ↔ (s.rollCall.silent = true → Quiet s) :=
  imp_congr_right fun _ => ⟨fun ⟨hc, hd, hs, hp⟩ => ⟨hc, hd, hs, hp⟩, fun ⟨hc, hd, hs, hp⟩ => ⟨hc, hd, hs, hp⟩⟩

theorem SlotsEnding.setSlot {s : State} (h : SlotsEnding s) {i : Fin 8} {slot : Slot}
    (hslot : ∀ r, slot = some r → r.phase = .ending) : SlotsEnding (setSlot i slot s) := by
  intro j r hr
  rw [setSlot_get] at hr
  split at hr
  · exact hslot r hr
  · exact h j r hr

theorem PortsUnbound.setPort {s : State} (h : PortsUnbound s) {i : Fin 8} {port : Port}
    (hport : ∀ p b current idle, port = some p → p.mode ≠ .bound b current idle) :
    PortsUnbound (setPort i port s) := by
  intro j p b current idle hp
  rw [setPort_get] at hp
  split at hp
  · exact hport p b current idle hp
  · exact h j p b current idle hp

/-- An operation that keeps the silent flag, and at a SILENT station what SILENT asks of the part. -/
structure KeepsQuiet (s t : State) : Prop where
  flag : t.rollCall.silent = s.rollCall.silent
  quiet : s.rollCall.silent = true → Quiet s → Quiet t

theorem KeepsQuiet.refl (s : State) : KeepsQuiet s s := ⟨rfl, fun _ h => h⟩

theorem KeepsQuiet.trans {s t u : State} (h : KeepsQuiet s t) (k : KeepsQuiet t u) : KeepsQuiet s u :=
  ⟨k.flag.trans h.flag, fun hs hq => k.quiet (h.flag.trans hs) (h.quiet hs hq)⟩

/-- The own queues and both tables are as they were. -/
theorem KeepsQuiet.same {s t : State} (hflag : t.rollCall.silent = s.rollCall.silent)
    (hcontrol : t.rau.controlQueue = s.rau.controlQueue) (hdata : t.rau.dataQueue = s.rau.dataQueue)
    (hslots : t.slots = s.slots) (hports : t.ports = s.ports) : KeepsQuiet s t := by
  refine ⟨hflag, fun _ ⟨hc, hd, hs, hp⟩ => ⟨hcontrol.trans hc, hdata.trans hd, ?_, ?_⟩⟩
  · unfold SlotsEnding; rw [hslots]; exact hs
  · unfold PortsUnbound; rw [hports]; exact hp

/-- A row that finds nothing to act on at a quiet SILENT station. -/
theorem KeepsQuiet.idle {s t : State} (hflag : t.rollCall.silent = s.rollCall.silent)
    (h : s.rollCall.silent = true → Quiet s → t = s) : KeepsQuiet s t :=
  ⟨hflag, fun hs hq => (h hs hq).symm ▸ hq⟩

theorem KeepsQuiet.silentOk {s t : State} (h : KeepsQuiet s t) (hs : SilentOk s) : SilentOk t := by
  rw [silentOk_iff] at hs ⊢
  exact fun ht => h.quiet (h.flag.symm.trans ht) (hs (h.flag.symm.trans ht))

theorem KeepsQuiet.post (r : Record) (s : State) : KeepsQuiet s (post r s) := .same rfl rfl rfl rfl rfl

/-- A SILENT station offers no frame (R117). -/
theorem KeepsQuiet.offer (f : OwnFrame) (s : State) : KeepsQuiet s (offer f s) :=
  .idle (by rw [offer_rollCall]) fun hs _ => offer_silent f s hs

theorem KeepsQuiet.setRollCall {r : RollCall} {s : State} (h : r.silent = s.rollCall.silent) :
    KeepsQuiet s (setRollCall r s) := .same h rfl rfl rfl rfl

/-! ### The entry to SILENT (R127, R130) -/

theorem ending_of_not_endsAt {slot : Slot} (h : endsAt (fun _ => true) slot = false) :
    ∀ r, slot = some r → r.phase = .ending := by
  rintro r rfl
  simpa [endsAt] using h

theorem endsAt_of_ending {slot : Slot} (h : ∀ r, slot = some r → r.phase = .ending) (test : Run → Bool) :
    endsAt test slot = false := by
  cases slot with
  | none => rfl
  | some r => simp [endsAt, h r rfl]

theorem unbound_of_not_unbindsAt {port : Port} (h : unbindsAt (fun _ => true) port = false) :
    ∀ p b current idle, port = some p → p.mode ≠ .bound b current idle := by
  rintro p b current idle rfl hm
  simp [unbindsAt, hm] at h

theorem unbindsAt_of_unbound {port : Port} (h : ∀ p b current idle, port = some p → p.mode ≠ .bound b current idle)
    (test : Binding → Bool) : unbindsAt test port = false := by
  cases port with
  | none => rfl
  | some p =>
    cases hm : p.mode with
    | bound b current idle => exact absurd hm (h p b current idle rfl)
    | listening => simp [unbindsAt, hm]
    | halted => simp [unbindsAt, hm]

/-- A data-queue entry belongs to a slot in STREAMING or PAUSED (R108), so none is left where no slot is. -/
theorem RunsOk.dataQueue_nil {s : State} (h : RunsOk s) (hs : SlotsEnding s) : s.rau.dataQueue = [] := by
  obtain ⟨-, -, hentries, -⟩ := h
  refine List.eq_nil_iff_forall_not_mem.2 fun e he => ?_
  obtain ⟨r, hr, hphase, -⟩ := hentries e he
  rw [hs e.slot r hr] at hphase
  rcases hphase with hphase | hphase <;> cases hphase

theorem enterSilent_quiet {s : State} (hs : RunsOk s) : Quiet (enterSilent s) := by
  have hruns := enterSilent_runsOk s hs
  obtain ⟨z, tail, he, hkept, -, hslots, hports, -⟩ := enterSilent_spec s
  have hending : SlotsEnding (enterSilent s) := by
    rw [he]
    refine fun i => ending_of_not_endsAt ?_
    show endsAt _ z.slots[i] = false
    rw [hslots i]
    split
    · exact endsAt_endedSlot _ _ _ _
    · exact Bool.eq_false_iff.2 (by assumption)
  refine ⟨?_, hruns.dataQueue_nil hending, hending, ?_⟩
  · rw [he]; exact hkept.controlQueue
  · rw [he]
    refine fun i => unbound_of_not_unbindsAt ?_
    show unbindsAt _ z.ports[i] = false
    rw [hports i]
    split
    · exact unbindsAt_unboundPort _ _ _ _
    · exact Bool.eq_false_iff.2 (by assumption)

theorem ownRollReaches_silentOk (x : List Byte) {s : State} (hr : RunsOk s) (hs : SilentOk s) :
    SilentOk (ownRollReaches x s) := by
  unfold ownRollReaches
  split
  · exact hs
  rename_i hlive
  split
  · split
    · exact hs
    · refine KeepsQuiet.silentOk ?_ hs
      unfold beaconReturns
      dsimp only
      split <;> exact .same rfl rfl rfl rfl rfl
  · exact (silentOk_iff _).2 fun _ => enterSilent_quiet hr

/-! ### Deliveries (R52, R100, R131) -/

theorem rollReaches_keepsQuiet (h : Header) (x : List Byte) (s : State) : KeepsQuiet s (rollReaches h x s) := by
  unfold rollReaches
  split
  · exact .refl s
  · dsimp only
    split
    · exact .refl s
    all_goals exact .same rfl rfl rfl rfl rfl

theorem clearHandover_keepsQuiet (s : State) : KeepsQuiet s (clearHandover s) := .same rfl rfl rfl rfl rfl

/-- A SILENT station discards what is delivered (R131). -/
theorem delivered_keepsQuiet {f : State → State} (hf : ∀ s, EngineStep s (f s)) (s : State) :
    KeepsQuiet s (delivered f s) := by
  refine ⟨by rw [(delivered_engineStep hf s).rollCall], fun hs hq => ?_⟩
  rw [delivered_silent f s hs]
  exact (clearHandover_keepsQuiet s).quiet hs hq

theorem deliverPending_silentOk {s : State} (hr : RunsOk s) (hs : SilentOk s) : SilentOk (deliverPending s) := by
  have hcleared : SilentOk (clearHandover s) := (clearHandover_keepsQuiet s).silentOk hs
  unfold deliverPending
  split
  · exact hs
  · exact (delivered_keepsQuiet (frameReaches_engineStep _ _ _) s).silentOk hs
  · exact (delivered_keepsQuiet (fun s => (blockEnds_portStep _ _ _ s).toEngineStep) s).silentOk hs
  · exact (delivered_keepsQuiet (fun s => CoreStep.ofRun (returnedReaches_runStep _ s)) s).silentOk hs
  · exact (rollReaches_keepsQuiet _ _ _).silentOk hcleared
  · exact ownRollReaches_silentOk _ (clearHandover_runsOk s hr) hcleared

/-! ### The ring -/

/-- A SILENT station hands no BLOCK to the Port Engine at its header (R100). -/
theorem decide98_silent (h : Header) {s : State} (hs : s.rollCall.silent = true) : (decide98 h s).2 = s := by
  have hstrip : (stripOwn h s).2 = s := by
    unfold stripOwn
    split
    · rw [if_pos (by simp [hs])]
    · rfl
  unfold decide98
  repeat' split
  · exact hstrip
  all_goals rfl

theorem decideHeader_ports_silent (q : Reception) {s : State} (hs : s.rollCall.silent = true) :
    (decideHeader q s).ports = s.ports := by
  cases hv : (headerOf q.header).valid with
  | false => rw [decideHeader_invalid s q hv]
  | true =>
    have hstays : (decide98 (headerOf q.header) (s.yielded q)).2 = s.yielded q := decide98_silent _ hs
    rw [decideHeader_valid s q hv (d := (decide98 (headerOf q.header) (s.yielded q)).1) (t := s.yielded q)
      (Prod.ext rfl hstays)]
    split <;> rfl

theorem decidePending_keepsQuiet (s : State) : KeepsQuiet s (decidePending s) := by
  have hshape : DecisionShape s (decidePending s) := decidePending_shape s
  unfold DecisionShape at hshape
  have hflag : (decidePending s).rollCall.silent = s.rollCall.silent := by rw [hshape]
  refine ⟨hflag, fun hs => (KeepsQuiet.same hflag (by rw [hshape]) (by rw [hshape]) (by rw [hshape]) ?_).quiet hs⟩
  unfold decidePending
  repeat' split
  · exact decideHeader_ports_silent _ hs
  all_goals rfl

theorem symbolToRau_keepsQuiet {sym : Symbol} {s t : State} (h : symbolToRau sym s = .ok t) : KeepsQuiet s t := by
  have hshape : SymbolShape s t := symbolToRau_shape h
  unfold SymbolShape at hshape
  rw [hshape]; exact .same rfl rfl rfl rfl rfl

theorem linkDown_keepsQuiet (s : State) : KeepsQuiet s (linkDown s) := by
  rw [linkDown_keeps]; exact .same rfl rfl rfl rfl rfl

theorem countInUp_keepsQuiet (sym : Symbol) (s : State) : KeepsQuiet s (countInUp sym s) := by
  rw [countInUp_keeps]; exact .same rfl rfl rfl rfl rfl

theorem startForward_keepsQuiet (s : State) : KeepsQuiet s (startForward s) := by
  unfold startForward
  repeat' split
  all_goals exact .same rfl rfl rfl rfl rfl

theorem endForward_keepsQuiet (s : State) : KeepsQuiet s (endForward s) := by
  unfold endForward
  repeat' split
  all_goals exact .same rfl rfl rfl rfl rfl

/-- A SILENT station inserts no frame (R109, R117). -/
theorem exec_insertionStart_keepsQuiet {s t : State} (h : exec .insertionStart s = .next t) : KeepsQuiet s t := by
  refine .idle ?_ fun hs _ => ?_
  · rcases exec_insertionStart_cases h with rfl | ⟨-, ⟨_, _, -, rfl⟩ | ⟨_, _, _, _, -, -, -, -, rfl⟩⟩ <;> rfl
  · rcases exec_insertionStart_cases h with rfl | ⟨hopen, -⟩
    · rfl
    · obtain ⟨-, -, -, -, hlive⟩ := (insertionOpen_iff s).1 hopen
      rw [hs] at hlive; cases hlive

/-- The end of a BLOCK's insertion makes a slot in ENDING FREE (R42). -/
theorem blockInsertionEnds_keepsQuiet (i : Fin 8) (s : State) : KeepsQuiet s (blockInsertionEnds i s) := by
  have hfree : KeepsQuiet s (setSlot i none s) :=
    ⟨rfl, fun _ ⟨hc, hd, hs, hp⟩ => ⟨hc, hd, hs.setSlot (fun _ hnone => by cases hnone), hp⟩⟩
  unfold blockInsertionEnds
  repeat' split
  · exact hfree.trans (.post _ _)
  · exact hfree
  all_goals exact .refl s

theorem endInsertion_keepsQuiet (s : State) : KeepsQuiet s (endInsertion s) := by
  have heof : KeepsQuiet s (eofSent s) := .same rfl rfl rfl rfl rfl
  unfold endInsertion
  split
  · dsimp only
    split
    · exact heof.trans (blockInsertionEnds_keepsQuiet _ _)
    · exact heof
  all_goals exact .refl s

/-! ### Timers and the data-queue arbiter: each acts in a state that no slot or port of a quiet station is in -/

theorem Quiet.phase_ne {s : State} (h : Quiet s) {i : Fin 8} {r : Run} (hr : s.slots[i] = some r) {x : Phase}
    (hx : x ≠ .ending) : r.phase ≠ x := fun e => hx (e.symm.trans (h.slots i r hr))

section
variable {s : State} (h : Quiet s) (i : Fin 8)
include h

theorem answerExpiresOpening_quiet : answerExpiresOpening i s = s := by
  unfold answerExpiresOpening
  split
  · rename_i hr
    exact if_neg fun hp => h.phase_ne hr (by decide) hp.1
  · rfl

theorem answerExpiresStreaming_quiet : answerExpiresStreaming i s = s := by
  unfold answerExpiresStreaming
  split
  · rename_i hr
    exact if_neg fun hp => h.phase_ne hr (by decide) hp.1
  · rfl

theorem answerExpiresClosing_quiet : answerExpiresClosing i s = s := by
  unfold answerExpiresClosing
  split
  · rename_i hr
    exact if_neg fun hp => h.phase_ne hr (by decide) hp.1
  · rfl

theorem probeExpires_quiet : probeExpires i s = s := by
  unfold probeExpires
  split
  · rename_i hr
    exact if_neg fun hp => h.phase_ne hr (by decide) hp.1
  · rfl

theorem pauseExpires_quiet : pauseExpires i s = s := by
  unfold pauseExpires
  split
  · rename_i hr
    exact if_neg fun hp => h.phase_ne hr (by decide) hp.1
  · rfl

theorem idleExpires_quiet : idleExpires i s = s := by
  unfold idleExpires
  split
  · split
    · exact absurd (by assumption) (h.ports i _ _ _ _ (by assumption))
    all_goals rfl
  · rfl

omit i in
theorem grantPlace_quiet : grantPlace s = s := by
  refine grantPlace_none ?_
  rw [nextWanting_def]
  exact arbiter_none _ _ fun j => wantingAt_none fun r hr hw =>
    h.phase_ne hr (by decide) ((wants_iff r).1 hw).1

end

theorem grantPlace_rollCall (s : State) : (grantPlace s).rollCall = s.rollCall := by
  unfold grantPlace
  split
  · split <;> rfl
  · rfl

/-! ### The Roll Call Unit -/

theorem firstBeacon_silent {s : State} (h : s.rollCall.silent = true) : firstBeacon s = s := if_pos h

theorem firstBeacon_keepsQuiet (s : State) : KeepsQuiet s (firstBeacon s) := by
  refine .idle ?_ fun hs _ => firstBeacon_silent hs
  unfold firstBeacon
  split
  · rfl
  · show (offer _ _).rollCall.silent = _
    rw [offer_rollCall]; rfl

theorem startPeriodExpires_keepsQuiet (s : State) : KeepsQuiet s (startPeriodExpires s) := by
  unfold startPeriodExpires
  split
  · have hrun : KeepsQuiet s { s with tx := { state := .run, startTimer := none } } := .same rfl rfl rfl rfl rfl
    exact (hrun.trans (firstBeacon_keepsQuiet _)).trans (.setRollCall rfl)
  · exact .refl s

/-- The loss of a peer finds no run and no binding to end. -/
theorem presenceCheck_keepsQuiet (s : State) : KeepsQuiet s (presenceCheck s).1 := by
  obtain ⟨hkept, -, hslots, hports, -⟩ := presenceCheck_spec s
  refine ⟨by rw [hkept.rollCall], fun _ ⟨hc, hd, hs, hp⟩ => ⟨hkept.controlQueue.trans hc, ?_, fun i => ?_, fun i => ?_⟩⟩
  · exact List.sublist_nil.1 (hd ▸ hkept.dataQueue)
  · rw [hslots i, if_neg]
    · exact hs i
    · rintro ⟨j, -, hends⟩
      rw [endsAt_of_ending (hs i)] at hends; cases hends
  · rw [hports i, if_neg]
    · exact hp i
    · rintro ⟨j, -, hends⟩
      rw [unbindsAt_of_unbound (hp i)] at hends; cases hends

theorem postReports_keepsQuiet (l : List Report) (s : State) : KeepsQuiet s (postReports l s) :=
  .same rfl rfl rfl rfl rfl

theorem offerBeacon_keepsQuiet (s : State) : KeepsQuiet s (offerBeacon s) :=
  (KeepsQuiet.offer (beaconFrame s) s).trans (.setRollCall rfl)

theorem beaconPeriodExpires_keepsQuiet (s : State) : KeepsQuiet s (beaconPeriodExpires s) := by
  unfold beaconPeriodExpires
  split
  · dsimp only
    have hcheck := presenceCheck_keepsQuiet s
    generalize presenceCheck s = c at *
    split
    · exact (hcheck.trans (postReports_keepsQuiet c.2 _)).trans (.setRollCall (by exact rfl))
    · have hflag := ringHealth_silent c.1.rollCall
      generalize ringHealth c.1.rollCall = g at *
      exact (((hcheck.trans (.setRollCall (r := g.1) hflag)).trans (postReports_keepsQuiet (c.2 ++ g.2) _)).trans
        (offerBeacon_keepsQuiet _)).trans (.setRollCall (by exact rfl))
  · exact .refl s

/-! ### The Command Unit (R157 to R162) -/

theorem takeCommand_keepsQuiet {test : Byte → Bool} {f : List Byte → State → State}
    (hf : ∀ r s, KeepsQuiet s (f r s)) (s : State) : KeepsQuiet s (takeCommand test f s) := by
  rcases takeCommand_cases test f s with h | ⟨r, rest, -, -, h⟩ <;> rw [h]
  · exact .refl s
  · have htaken : KeepsQuiet s { s with commandFifo := rest } := .same rfl rfl rfl rfl rfl
    exact htaken.trans (hf r _)

theorem startRunTaken_keepsQuiet (r : List Byte) (s : State) : KeepsQuiet s (startRunTaken r s) := by
  refine ⟨?_, fun hs hq => ?_⟩
  · have hbegin (i : Fin 8) (a : StartRunArgs) : (beginRun i a s).rollCall = s.rollCall := by
      unfold beginRun; rw [offer_rollCall]; rfl
    unfold startRunTaken
    dsimp only
    repeat' split
    all_goals first
      | rfl
      | rw [hbegin]
  · rw [startRunTaken_silent r hs]
    exact (KeepsQuiet.post _ s).quiet hs hq

/-- A slot that is FREE or in ENDING has no run to cancel (R158). -/
theorem cancelRunTaken_keepsQuiet (r : List Byte) (s : State) : KeepsQuiet s (cancelRunTaken r s) := by
  refine ⟨by rw [(cancelRunTaken_engineStep r s).rollCall], fun hs hq => ?_⟩
  have hreject (reason : RejectReason) : Quiet (reject r reason s) := (KeepsQuiet.post _ s).quiet hs hq
  unfold cancelRunTaken
  split
  · exact hreject _
  split
  · exact hreject _
  · rename_i hslot
    rw [if_pos (hq.slots _ _ hslot)]
    exact hreject _

theorem openPortTaken_keepsQuiet (r : List Byte) (s : State) : KeepsQuiet s (openPortTaken r s) := by
  refine ⟨by rw [(openPortTaken_engineStep r s).rollCall], fun hs hq => ?_⟩
  rw [openPortTaken, if_pos hs]
  exact (KeepsQuiet.post _ s).quiet hs hq

/-- A command on an open port keeps a quiet station quiet where its own operation does. -/
theorem onOpenPort_keepsQuiet (r : List Byte) {f : Fin 8 → OpenPort → State → State}
    (hf : ∀ i p s, s.ports[i] = some p → KeepsQuiet s (f i p s)) (s : State) : KeepsQuiet s (onOpenPort r f s) := by
  unfold onOpenPort
  split
  · exact .post _ s
  split
  · exact .post _ s
  · exact hf _ _ _ (by assumption)

/-- A port is replaced by one that is not BOUND. -/
theorem Quiet.setPort {s : State} (h : Quiet s) {i : Fin 8} {port : Port}
    (hport : ∀ p b current idle, port = some p → p.mode ≠ .bound b current idle) : Quiet (setPort i port s) :=
  ⟨h.control, h.data, h.slots, h.ports.setPort hport⟩

theorem releaseTo_keepsQuiet {i : Fin 8} {p : OpenPort} (k : BankId) (base : Nat) {s : State}
    (hp : s.ports[i] = some p) : KeepsQuiet s (releaseTo i p k base s) := by
  refine ⟨by rw [(EngineStep.releaseTo i p k base s).rollCall], fun _ hq => ?_⟩
  rw [releaseTo_free i k base s fun b idle => hq.ports i p b none idle hp]
  refine hq.setPort fun p' b current idle hp' => ?_
  cases hp'
  rw [setBank_mode]
  exact hq.ports i p b current idle hp

theorem releaseBankTaken_keepsQuiet (r : List Byte) (s : State) : KeepsQuiet s (releaseBankTaken r s) := by
  refine onOpenPort_keepsQuiet r (fun i p s hp => ?_) s
  dsimp only
  repeat' split
  all_goals first
    | exact .post _ s
    | exact releaseTo_keepsQuiet _ _ hp

theorem haltNow_keepsQuiet {i : Fin 8} {p : OpenPort} {s : State} (hp : s.ports[i] = some p) :
    KeepsQuiet s (haltNow i p s) := by
  refine ⟨by rw [(EngineStep.haltNow i p s).rollCall], fun _ hq => ?_⟩
  unfold haltNow
  split
  · exact absurd (by assumption) (hq.ports i p _ _ _ hp)
  all_goals
    refine hq.setPort fun p' b current idle hp' => ?_
    cases hp'; nofun

theorem haltPortTaken_keepsQuiet (r : List Byte) (s : State) : KeepsQuiet s (haltPortTaken r s) := by
  refine onOpenPort_keepsQuiet r (fun i p s hp => ?_) s
  split
  · exact .post _ s
  · exact haltNow_keepsQuiet hp

theorem unhaltPortTaken_keepsQuiet (r : List Byte) (s : State) : KeepsQuiet s (unhaltPortTaken r s) := by
  refine ⟨by rw [(unhaltPortTaken_engineStep r s).rollCall], fun hs hq => ?_⟩
  rw [unhaltPortTaken, if_pos hs]
  exact (KeepsQuiet.post _ s).quiet hs hq

theorem closeNow_keepsQuiet {i : Fin 8} {p : OpenPort} {s : State} (hp : s.ports[i] = some p) :
    KeepsQuiet s (closeNow i p s) := by
  refine ⟨by rw [(EngineStep.closeNow i p s).rollCall], fun _ hq => ?_⟩
  unfold closeNow
  split
  · exact absurd (by assumption) (hq.ports i p _ _ _ hp)
  all_goals exact hq.setPort fun _ _ _ _ hnone => by cases hnone

theorem closePortTaken_keepsQuiet (r : List Byte) (s : State) : KeepsQuiet s (closePortTaken r s) :=
  onOpenPort_keepsQuiet r (fun _ _ _ hp => closeNow_keepsQuiet hp) s

/-- A soft reset leaves a slot FREE or in ENDING, and every port CLOSED (R46, R79). -/
theorem softResetTaken_keepsQuiet (s : State) : KeepsQuiet s (softResetTaken s) := by
  obtain ⟨-, hslots⟩ := softResetRuns_spec s
  rw [softResetTaken_eq]
  refine ⟨rfl, fun _ _ => ⟨rfl, rfl, fun i r hr => ?_, fun i p b current idle hp => ?_⟩⟩
  · have hr : softResetSlot (beingInserted i s) s.slots[i] = some r := (hslots i).symm.trans hr
    unfold softResetSlot at hr
    split at hr
    · cases hr
    · split at hr <;> cases hr
      rfl
  · have hp : (Vector.replicate 8 (none : Port))[i] = some p := hp
    simp at hp

/-! ### The rows beside the RAU -/

theorem exec_besideRau_rollCall {c : Instr} {s t : State} (hc : besideRau c = true) (h : exec c s = .next t) :
    t.rollCall = s.rollCall := by
  have guarded {p : Prop} [Decidable p] {u : State} (hu : u.rollCall = s.rollCall)
      (h : (if p then .next u else .next s : Host.Outcome State Fault Refusal) = .next t) :
      t.rollCall = s.rollCall := by
    split at h <;> cases h
    · exact hu
    · rfl
  cases c <;> first | (cases hc; done) | skip
  case resetNReleased =>
    cases h
    unfold releaseReset
    split <;> rfl
  case symbolInDown =>
    refine guarded ?_ h
    unfold takeInDown
    split <;> rfl
  case symbolInAlign =>
    refine guarded ?_ h
    unfold takeInAlign
    dsimp only
    split
    · exact linkDown_rollCall s
    · split <;> rfl
  case command =>
    cases h
    unfold commandRise enqueueCommand
    repeat' split
    all_goals rfl
  case logRead =>
    cases h
    unfold startLogRead
    split <;> rfl
  case logReadDone =>
    cases h
    unfold finishLogRead removeCopied
    repeat' split
    all_goals rfl
  case memWriteData =>
    have h := outcome_eq_next.1 h
    unfold writeData at h
    repeat' split at h
    · rename_i hw
      obtain ⟨rfl, -⟩ := writeByte_ok hw
      cases h; rfl
    all_goals cases h
    all_goals rfl
  case memReadData =>
    have h := outcome_eq_next.1 h
    unfold readData at h
    repeat' split at h
    all_goals cases h
    all_goals rfl
  case transactionEnd =>
    change (if s.resetLow = true then .next s else .next (riseOfCs s)) = Host.Outcome.next t at h
    split at h <;> cases h <;> rfl
  all_goals
    refine guarded ?_ h
    rfl

theorem exec_besideRau_keepsQuiet {c : Instr} {s t : State} (hc : besideRau c = true) (h : exec c s = .next t) :
    KeepsQuiet s t := by
  obtain ⟨hrau, hslots, -⟩ := exec_besideRau hc h
  have hports : t.ports = s.ports := by
    by_cases hdata : ∃ b, c = .memWriteData b
    · obtain ⟨b, rfl⟩ := hdata
      exact (writeData_ok (outcome_eq_next.1 h)).1
    · exact (exec_portsKept hc (fun b hb => hdata ⟨b, hb⟩) h).ports
  exact .same (by rw [exec_besideRau_rollCall hc h]) (by rw [hrau]) (by rw [hrau]) hslots hports

/-! ### All of them -/

/-- The rows whose first part is a delivery (R52, R100; log 4). -/
def delivers : Instr → Bool
  | .symbolInUp _ | .quietTimerExpiry => true
  | c => takesHandover c

/-- Such a row delivers, and what it does next keeps a SILENT station quiet. -/
theorem exec_delivers {c : Instr} {s t : State} (hc : delivers c = true) (h : exec c s = .next t) :
    t = s ∨ KeepsQuiet (deliverPending s) t := by
  by_cases htakes : takesHandover c = true
  · rcases exec_takesHandover htakes h with rfl | rfl
    · exact .inl rfl
    · exact .inr (.refl _)
  have hsettle : KeepsQuiet (deliverPending s) (settle s) := decidePending_keepsQuiet _
  cases c <;> first | exact absurd rfl htakes | (cases hc; done) | skip
  case symbolInUp sym =>
    rcases exec_symbolInUp_cases h with rfl | ⟨u, hu, rfl⟩
    · exact .inl rfl
    · exact .inr ((hsettle.trans (symbolToRau_keepsQuiet hu)).trans (countInUp_keepsQuiet sym u))
  case quietTimerExpiry =>
    rcases exec_quietTimerExpiry_cases h with rfl | rfl
    · exact .inl rfl
    · exact .inr (hsettle.trans (linkDown_keepsQuiet _))

/-- Every other row but RESET_N_ASSERTED keeps the silent flag and a SILENT station quiet. -/
theorem exec_keepsQuiet {c : Instr} {s t : State} (hc : delivers c = false) (hreset : c ≠ .resetNAsserted)
    (h : exec c s = .next t) : KeepsQuiet s t := by
  by_cases hbeside : besideRau c = true
  · exact exec_besideRau_keepsQuiet hbeside h
  cases c <;> first | (cases hc; done) | exact absurd rfl hbeside | skip
  case resetNAsserted => exact absurd rfl hreset
  case startPeriodExpiry => cases h; exact startPeriodExpires_keepsQuiet s
  case headerDecision => cases h; exact decidePending_keepsQuiet s
  case beaconPeriodExpiry => cases h; exact beaconPeriodExpires_keepsQuiet s
  case answerExpiryOpening i =>
    cases h
    exact .idle (by rw [(answerExpiresOpening_runStep i s).rollCall]) fun _ hq => answerExpiresOpening_quiet hq i
  case answerExpiryStreaming i =>
    cases h
    exact .idle (by rw [(answerExpiresStreaming_runStep i s).rollCall]) fun _ hq => answerExpiresStreaming_quiet hq i
  case answerExpiryClosing i =>
    cases h
    exact .idle (by rw [(answerExpiresClosing_runStep i s).rollCall]) fun _ hq => answerExpiresClosing_quiet hq i
  case probeTimerExpiry i =>
    cases h; exact .idle (by rw [(probeExpires_runStep i s).rollCall]) fun _ hq => probeExpires_quiet hq i
  case pauseTimerExpiry i =>
    cases h; exact .idle (by rw [(pauseExpires_runStep i s).rollCall]) fun _ hq => pauseExpires_quiet hq i
  case idleTimerExpiry i =>
    cases h; exact .idle (by rw [(idleExpires_portStep i s).rollCall]) fun _ hq => idleExpires_quiet hq i
  case dataQueueGrant => cases h; exact .idle (by rw [grantPlace_rollCall]) fun _ hq => grantPlace_quiet hq
  case forwardStart => cases h; exact startForward_keepsQuiet s
  case forwardEnd => cases h; exact endForward_keepsQuiet s
  case insertionStart => exact exec_insertionStart_keepsQuiet h
  case insertionEnd => cases h; exact endInsertion_keepsQuiet s
  case yieldThresholdExpiry =>
    cases h
    unfold thresholdExpires
    split <;> exact .same rfl rfl rfl rfl rfl
  case yieldHoldExpiry =>
    cases h
    unfold holdExpires
    split <;> exact .same rfl rfl rfl rfl rfl
  case startRun => cases h; exact takeCommand_keepsQuiet startRunTaken_keepsQuiet s
  case cancelRun => cases h; exact takeCommand_keepsQuiet cancelRunTaken_keepsQuiet s
  case openPort => cases h; exact takeCommand_keepsQuiet openPortTaken_keepsQuiet s
  case releaseBank => cases h; exact takeCommand_keepsQuiet releaseBankTaken_keepsQuiet s
  case haltPort => cases h; exact takeCommand_keepsQuiet haltPortTaken_keepsQuiet s
  case unhaltPort => cases h; exact takeCommand_keepsQuiet unhaltPortTaken_keepsQuiet s
  case closePort => cases h; exact takeCommand_keepsQuiet closePortTaken_keepsQuiet s
  case softReset => cases h; exact takeCommand_keepsQuiet (fun _ t => softResetTaken_keepsQuiet t) s
  case unknownCommand => cases h; exact takeCommand_keepsQuiet (fun r t => .post _ t) s

/-- Every command leaves a SILENT station quiet, whether it was SILENT before or has entered SILENT by it. -/
theorem exec_silentOk {c : Instr} {s t : State} (hr : RunsOk s) (hs : SilentOk s) (h : exec c s = .next t) :
    SilentOk t := by
  by_cases hreset : c = .resetNAsserted
  · subst hreset; cases h; exact fun hsilent => by cases hsilent
  cases hc : delivers c with
  | false => exact (exec_keepsQuiet hc hreset h).silentOk hs
  | true =>
    rcases exec_delivers hc h with rfl | hkeeps
    · exact hs
    · exact hkeeps.silentOk (deliverPending_silentOk hr hs)

/-- Only RESET_N_ASSERTED clears the silent flag (R130). -/
theorem exec_staysSilent {c : Instr} {s t : State} (hs : s.rollCall.silent = true) (hreset : c ≠ .resetNAsserted)
    (h : exec c s = .next t) : t.rollCall.silent = true := by
  cases hc : delivers c with
  | false => exact (exec_keepsQuiet hc hreset h).flag.trans hs
  | true =>
    rcases exec_delivers hc h with rfl | hkeeps
    · exact hs
    · exact hkeeps.flag.trans ((deliverPending_coreStep s).silent hs)

/-- A REFCLK period runs down timers, which no queue and no state of a slot or port depends on. -/
theorem tick_keepsQuiet (s : State) : KeepsQuiet s (tick s) := by
  have htimers : KeepsQuiet s (tickTimers s) := by
    refine ⟨rfl, fun _ ⟨hc, hd, hs, hp⟩ => ⟨hc, hd, fun i q hq => ?_, fun i => ?_⟩⟩
    · rw [tickTimers_slots] at hq
      obtain ⟨r, hr, rfl⟩ := Option.map_eq_some_iff.1 hq
      exact hs i r hr
    · rw [tickTimers_ports, tickPort_unbound (hp i)]
      exact hp i
  have hsymbol : KeepsQuiet (tickTimers s) (tickSymbol (tickTimers s)) := by
    rw [tickSymbol_shape]; exact .same rfl rfl rfl rfl rfl
  obtain ⟨p, q, hbus, -⟩ := tickBus_spec (tickSymbol (tickTimers s))
  unfold tick
  rw [hbus]
  exact (htimers.trans hsymbol).trans (.same rfl rfl rfl rfl rfl)

/-- Settles O58: the entry to SILENT leaves the part quiet, and every step but a hardware reset keeps it so. -/
theorem silentStaysQuiet : Obligations.SilentStaysQuiet := by
  refine ⟨fun s t hr hs h => ?_, fun _ _ _ hs hreset h => exec_staysSilent hs hreset h⟩
  have hkeep : RunsOk t ∧ SilentOk t := step_keeps (P := fun s => RunsOk s ∧ SilentOk s)
    (fun _ _ ⟨hr, hs⟩ => ⟨runsOk_same hr rfl rfl rfl, hs⟩)
    (fun s ⟨hr, hs⟩ => ⟨tick_runsOk s hr, (tick_keepsQuiet s).silentOk hs⟩)
    (fun _ _ _ ⟨hr, hs⟩ h => ⟨exec_runsOk hr h, exec_silentOk hr hs h⟩) ⟨hr, hs⟩ h
  exact hkeep.2

end Sys2Proof.Machine
end

section
/-! The edges of RESET_N (O5), the end of the start period (O6) and a copied ROLL (O33). An offered beacon gets its
equation here, and the beacon period (O35) uses it too. -/

namespace Sys2Proof.Machine

open Sys2Proof

/-! ### The edges of RESET_N (R119, R140, R144) -/

section
variable (stn rsz : BitVec 4) (tcl : BitVec 2) (csLow : Bool) {s : State}

theorem releaseReset_low (h : s.resetLow = true) : releaseReset stn rsz tcl csLow s =
    { setPeer stn.toFin { state := .self, heard := false } s with
      resetLow := false, straps := { stn := stn, rsz := rsz, tcl := tcl },
      tx := { state := .start, startTimer := some 3200 }, ringOut := .carries .idle,
      spi := { s.spi with waitRise := csLow, csLow := csLow } } := if_pos h

theorem releaseReset_high (h : s.resetLow = false) : releaseReset stn rsz tcl csLow s = s :=
  if_neg (Bool.eq_false_iff.1 h)

end

/-- Settles O5: `releaseReset` writes the one entry that the station strap names. -/
theorem hardwareReset : Obligations.HardwareReset := by
  refine ⟨fun s => rfl, fun s stn rsz tcl csLow hlow => ?release,
    fun s stn rsz tcl csLow hhigh => congrArg Host.Outcome.next (releaseReset_high stn rsz tcl csLow hhigh)⟩
  case release =>
    refine ⟨_, congrArg Host.Outcome.next (releaseReset_low stn rsz tcl csLow hlow), rfl, fun i => ?_⟩
    have hentry : stn.toFin = i ↔ i.val = stn.toNat := by rw [Fin.ext_iff, eq_comm]; rfl
    exact (setPeer_get stn.toFin i _ s).trans (if_congr hentry rfl rfl)

/-! ### Offering a beacon (R121, R131) -/

theorem offer_eq (f : OwnFrame) (s : State) : offer f s =
    { s with rau := if canOffer s then { s.rau with controlQueue := s.rau.controlQueue ++ [f] } else s.rau } := by
  cases hroom : canOffer s
  · exact offer_refused f hroom
  · exact offer_taken f hroom

theorem offer_controlQueue (f : OwnFrame) (s : State) :
    (offer f s).rau.controlQueue = s.rau.controlQueue ++ if canOffer s then [f] else [] := by
  rw [offer_eq]
  cases canOffer s
  · exact (List.append_nil _).symm
  · rfl

theorem offerBeacon_eq (s : State) : offerBeacon s =
    { offer (beaconFrame s) s with
      rollCall := { s.rollCall with
        inFlight := some { number := s.rollCall.number, sent := canOffer s, returned := false },
        number := s.rollCall.number + 1 } } := by
  rw [offerBeacon, offer_rollCall]; rfl

section
variable {s : State}

theorem startPeriodExpires_start (hstart : s.tx.state = .start) (htimer : s.tx.startTimer.isSome) :
    startPeriodExpires s = beginBeacons { s with tx := { state := .run, startTimer := none } } :=
  if_pos ⟨hstart, htimer⟩

theorem beginBeacons_silent (h : s.rollCall.silent = true) : beginBeacons s =
    { s with rollCall := { s.rollCall with timer := some (8 * Config.answerTime s.straps.tcl) } } := by
  rw [beginBeacons, firstBeacon_silent h]; rfl

/-- The first beacon is offered with the stamp that it captures (R122). -/
theorem beginBeacons_live (h : s.rollCall.silent = false) :
    let stamped : State := { s with rollCall := { s.rollCall with stamp := some s.refclk } }
    beginBeacons s = { offer (beaconFrame stamped) stamped with
      rollCall := { s.rollCall with
        timer := some (8 * Config.answerTime s.straps.tcl), stamp := some s.refclk,
        inFlight := some { number := s.rollCall.number, sent := canOffer s, returned := false },
        number := s.rollCall.number + 1 } } := by
  intro stamped
  have hfirst : firstBeacon s = offerBeacon stamped := if_neg (Bool.eq_false_iff.1 h)
  rw [beginBeacons, hfirst, offerBeacon_eq, offer_eq]
  rfl

end

/-- Settles O6: the beacons begin in RUN, with the first offered unless the station is SILENT. (The model has a function
`firstBeacon`, so the theorem stands under a name of its own.) -/
theorem StartPeriod.firstBeacon : Obligations.FirstBeacon := by
  refine ⟨fun s hstart htimer hsilent => ?silent, fun s hstart htimer hlive => ?live⟩
  case silent =>
    exact congrArg Host.Outcome.next ((startPeriodExpires_start hstart htimer).trans (beginBeacons_silent hsilent))
  case live =>
    let running : State := { s with tx := { state := .run, startTimer := none } }
    refine congrArg Host.Outcome.next ((startPeriodExpires_start hstart htimer).trans
      ((beginBeacons_live (s := running) hlive).trans ?_))
    rw [offer_eq]
    rfl

/-! ### A copied ROLL (R123, R124) -/

section
variable (i : Fin 16) (ownClass ownSize cls size : Byte)

theorem rollRecords_absent : rollRecords i .absent ownClass ownSize cls size =
    [.peerFound i] ++ (if cls = ownClass then [] else [.classMismatch i cls]) ++
      (if size = ownSize then [] else [.sizeMismatch i size]) := by
  simp only [rollRecords, ne_eq, ite_not]

theorem rollRecords_present (misses : Nat) (beacon : Word16) (oldCls oldSize : Byte) :
    rollRecords i (.present misses beacon oldCls oldSize) ownClass ownSize cls size =
      (if cls = ownClass ∨ cls = oldCls then [] else [.classMismatch i cls]) ++
        (if size = ownSize ∨ size = oldSize then [] else [.sizeMismatch i size]) := by
  simp only [rollRecords, ne_eq, ← not_or, ite_not]

end

/-- A ROLL heard of a station other than the own one. -/
theorem rollReaches_other {h : Header} {s : State} {i : Fin 16} (x : List Byte) (hi : h.src.toNat = i.val)
    (hself : s.peers[i].state ≠ .self) :
    rollReaches h x s = postAll
      (rollRecords i s.peers[i].state (s.straps.tcl.setWidth 8) s.ringSize (byteAt x 1) (byteAt x 0))
      (setPeer i { state := .present 0 (word16At x 2) (byteAt x 1) (byteAt x 0), heard := true } s) := by
  simp only [rollReaches, stationNumber_eq_some.2 hi]
  cases hstate : s.peers[i].state with
  | self => exact absurd hstate hself
  | absent => rfl
  | present misses beacon cls size => rfl

/-- Settles O33: the entry is written and the records of its state before are posted, by `rollReaches_other`. -/
theorem rollHeard : Obligations.RollHeard := by
  intro s h size cls n1 n0 s1 s0 x y i hs hi u ownClass ownSize
  let payload : List Byte := [size, cls, n1, n0, s1, s0, x, y]
  have hexec (hself : s.peers[i].state ≠ .self) :
      exec .rollFrame s = .next (postAll (rollRecords i s.peers[i].state ownClass ownSize cls size) u) :=
    (exec_rollFrame hs).trans (congrArg Host.Outcome.next (rollReaches_other (s := clearHandover s) payload hi hself))
  refine ⟨fun habsent => ?_, fun misses beacon oldCls oldSize hpresent => ?_⟩
  · rw [hexec (by rw [habsent]; exact nofun), habsent, rollRecords_absent]
  · rw [hexec (by rw [hpresent]; exact nofun), hpresent, rollRecords_present]

end Sys2Proof.Machine
end

section
/-! The beacon period timer's expiry (O35). The lost stations are one list in station order; the tables, the records and
the order of the records are each said over that list (`PeriodOutcome`), and the statement is read off it. -/

namespace Sys2Proof.Machine

open Sys2Proof

/-! ### One entry of the presence check (R125) -/

section
variable (misses : Nat) (beacon : Word16) (cls size : Byte)

theorem checkPeer_heard : checkPeer { state := .present misses beacon cls size, heard := true } =
    (.present 0 beacon cls size, false) := rfl

theorem checkPeer_missed (h : misses + 1 < 3) :
    checkPeer { state := .present misses beacon cls size, heard := false } =
      (.present (misses + 1) beacon cls size, false) := if_pos h

theorem checkPeer_lost (h : 3 ≤ misses + 1) :
    checkPeer { state := .present misses beacon cls size, heard := false } = (.absent, true) :=
  if_neg (Nat.not_lt.2 h)

end

theorem checkPeer_unlisted {p : Peer} (h : p.state = .absent ∨ p.state = .self) : checkPeer p = (p.state, false) := by
  rcases h with h | h <;> simp only [checkPeer, h]

theorem lost_iff (p : Peer) : p.lost = true ↔
    ∃ m beacon cls size, p = { state := .present m beacon cls size, heard := false } ∧ 3 ≤ m + 1 := by
  refine ⟨fun h => ?_, fun ⟨m, beacon, cls, size, hp, hm⟩ => ?_⟩
  · obtain ⟨state, heard⟩ := p
    cases state with
    | absent => cases h
    | self => cases h
    | present m beacon cls size =>
      cases heard with
      | true => cases h
      | false =>
        refine ⟨m, beacon, cls, size, rfl, Nat.not_lt.1 fun hm => ?_⟩
        rw [Peer.lost, checkPeer_missed m beacon cls size hm] at h
        cases h
  · rw [hp, Peer.lost, checkPeer_lost m beacon cls size hm]

/-! ### The stations lost in one expiry (R125, R126) -/

/-- The stations that the presence check finds lost, in its order. -/
def lostStations (s : State) : List (Fin 16) := stationNumbers.filter fun j => s.peers[j].lost

/-- The run goes to a station that is lost. -/
def runToLost (s : State) (r : Run) : Bool := (lostStations s).any fun j => runTo j r

/-- The binding is from a station that is lost. -/
def boundFromLost (s : State) (b : Binding) : Bool := (lostStations s).any fun j => boundFrom j b

theorem mem_lostStations {s : State} {j : Fin 16} : j ∈ lostStations s ↔ s.peers[j].lost = true := by
  simp only [lostStations, List.mem_filter, mem_stationNumbers, true_and]

theorem stationNumbers_sorted : stationNumbers.Pairwise (· < ·) := by decide

/-- A rising list of the lost stations is theirs. -/
theorem eq_lostStations {s : State} {l : List (Fin 16)} (hl : l.Pairwise (· < ·))
    (h : ∀ j, j ∈ l ↔ s.peers[j].lost = true) : l = lostStations s :=
  hl.eq_of_mem_iff (stationNumbers_sorted.filter _) fun j => (h j).trans mem_lostStations.symm

theorem eq_station_iff (b : Byte) (j : Fin 16) : b = BitVec.ofNat 8 j.val ↔ b.toNat = j.val := by
  rw [← BitVec.toNat_inj, BitVec.toNat_ofNat, Nat.mod_eq_of_lt (by omega)]

theorem runTo_eq (j : Fin 16) : runTo j = fun r => decide (r.dest.toNat = j.val) :=
  funext fun r => decide_eq_decide.2 (eq_station_iff r.dest j)

theorem boundFrom_eq (j : Fin 16) : boundFrom j = fun b => decide (b.source.toNat = j.val) :=
  funext fun b => decide_eq_decide.2 (eq_station_iff b.source j)

theorem runToLost_iff {s : State} {r : Run} :
    runToLost s r = true ↔ ∃ j : Fin 16, s.peers[j].lost = true ∧ r.dest.toNat = j.val := by
  simp only [runToLost, List.any_eq_true, mem_lostStations, runTo_eq, decide_eq_true_eq]

theorem boundFromLost_iff {s : State} {b : Binding} :
    boundFromLost s b = true ↔ ∃ j : Fin 16, s.peers[j].lost = true ∧ b.source.toNat = j.val := by
  simp only [boundFromLost, List.any_eq_true, mem_lostStations, boundFrom_eq, decide_eq_true_eq]

/-! ### The tables after the presence check -/

theorem endsAt_runToLost {s : State} {slot : Slot} : endsAt (runToLost s) slot = true ↔
    ∃ j : Fin 16, s.peers[j].lost = true ∧ endsAt (runTo j) slot = true := by
  cases slot with
  | none => simp [endsAt]
  | some r =>
    simp only [endsAt, runToLost, Bool.and_eq_true, List.any_eq_true, mem_lostStations]
    tauto

theorem unbindsAt_boundFromLost {s : State} {port : Port} : unbindsAt (boundFromLost s) port = true ↔
    ∃ j : Fin 16, s.peers[j].lost = true ∧ unbindsAt (boundFrom j) port = true := by
  cases port with
  | none => simp [unbindsAt]
  | some p =>
    cases hm : p.mode with
    | listening => simp [unbindsAt, hm]
    | halted => simp [unbindsAt, hm]
    | bound b current idle =>
      simp only [unbindsAt, hm, boundFromLost, List.any_eq_true, mem_lostStations]

theorem presenceCheck_slots (s : State) (i : Fin 8) : (presenceCheck s).1.slots[i] =
    (slotAfterEnding i (beingInserted i s) (runToLost s) .peerLost s.slots[i]).1 := by
  obtain ⟨-, -, hslots, -, -⟩ := presenceCheck_spec s
  rw [hslots i, slotAfterEnding_eq, apply_ite Prod.fst]
  exact if_congr endsAt_runToLost.symm rfl rfl

theorem presenceCheck_ports (s : State) (i : Fin 8) : (presenceCheck s).1.ports[i] =
    (portAfterEnding i (boundFromLost s) .peerLost s.ports[i]).1 := by
  obtain ⟨-, -, -, hports, -⟩ := presenceCheck_spec s
  rw [hports i, portAfterEnding_eq, apply_ite Prod.fst]
  exact if_congr unbindsAt_boundFromLost.symm rfl rfl

/-! ### What an ending leaves of one slot and of one port -/

theorem slotAfterEnding_spared {i : Fin 8} {inserting : Bool} {ends : Run → Bool} {result : RunResult} {r : Run}
    (h : r.phase = .ending ∨ ends r = false) :
    slotAfterEnding i inserting ends result (some r) = (some r, []) := if_pos h

theorem slotAfterEnding_ended {i : Fin 8} (inserting : Bool) {ends : Run → Bool} {result : RunResult} {r : Run}
    (hp : r.phase ≠ .ending) (he : ends r = true) : (slotAfterEnding i inserting ends result (some r)).1 =
      if inserting then some
        { r with phase := .ending, owed := some (result, none), answer := none, probe := none, pause := none }
      else none := by
  cases inserting
  · rw [slotAfterEnding_free hp he]; rfl
  · rw [slotAfterEnding_inserting hp he]; rfl

theorem portAfterEnding_spared {i : Fin 8} {ends : Binding → Bool} {result : PortResult} {p : OpenPort} {b : Binding}
    {current : Option BankId} {idle : Timer} (hm : p.mode = .bound b current idle) (he : ends b = false) :
    portAfterEnding i ends result (some p) = (some p, []) := by
  rw [portAfterEnding_eq, if_neg]
  simp only [unbindsAt, hm, he, Bool.false_eq_true, not_false_eq_true]

/-! ### Ring health (R128) -/

theorem beaconMissed_iff (r : RollCall) :
    beaconMissed r = true ↔ ∃ b, r.inFlight = some b ∧ b.sent = true ∧ b.returned = false := by
  unfold beaconMissed
  split
  · rename_i b hb
    simp only [hb, Bool.and_eq_true, Bool.not_eq_true', Option.some.injEq, exists_eq_left']
  · rename_i hnone
    simp [hnone]

/-- The report of RING_OPEN, which ends no run and no binding. -/
def ringOpenReport : Report := { record := .ringOpen, runs := [], ports := [] }

section
variable {r : RollCall}

theorem ringHealth_returned (h : ¬beaconMissed r = true) : ringHealth r = (r, []) := if_neg fun hm => h hm.1

theorem ringHealth_saturated (h : 3 ≤ r.misses) : ringHealth r = (r, []) := if_neg fun hm => Nat.not_lt.2 h hm.2

variable (hmissed : beaconMissed r = true)
include hmissed

theorem ringHealth_counting (h : r.misses < 2) : ringHealth r = ({ r with misses := r.misses + 1 }, []) := by
  unfold ringHealth Config.missLimit
  rw [if_pos ⟨hmissed, by omega⟩, if_neg fun hlimit => by omega]

theorem ringHealth_third (h : r.misses = 2) : ringHealth r =
    ({ r with misses := 3, ringOpen := true }, if r.ringOpen then [] else [ringOpenReport]) := by
  obtain ⟨timer, number, stamp, inFlight, misses, ringOpen, silent⟩ := r
  cases h
  cases ringOpen <;> exact if_pos ⟨hmissed, Nat.lt_succ_self 2⟩

end

/-- RING_OPEN is posted at the third miss, unless the ring is reported open already. -/
theorem ringHealth_reports (r : RollCall) : (ringHealth r).2 =
    if beaconMissed r = true ∧ r.misses = 2 ∧ r.ringOpen = false then [ringOpenReport] else [] := by
  by_cases hmissed : beaconMissed r = true
  · rcases Nat.lt_trichotomy r.misses 2 with h | h | h
    · rw [ringHealth_counting hmissed h, if_neg fun hopens => by omega]
    · rw [ringHealth_third hmissed h]
      cases r.ringOpen <;> simp [hmissed, h]
    · rw [ringHealth_saturated h, if_neg fun hopens => by omega]
  · rw [ringHealth_returned hmissed, if_neg fun hopens => hmissed hopens.1]

theorem ringHealth_number (r : RollCall) : (ringHealth r).1.number = r.number := by
  unfold ringHealth; repeat' split
  all_goals rfl

theorem ringHealth_stamp (r : RollCall) : (ringHealth r).1.stamp = r.stamp := by
  unfold ringHealth; repeat' split
  all_goals rfl

/-! ### The expiry -/

/-- The report of the ring-health check, which a SILENT station does not make (R131). -/
def ringReports (s : State) : List Report := if s.rollCall.silent then [] else (ringHealth s.rollCall).2

/-- The reports of one expiry, in the order of their records. -/
def periodReports (s : State) : List Report := ((lostStations s).map fun j => (losePeer j s).2) ++ ringReports s

/-- The Roll Call Unit after the expiry. -/
def rollCallAfterPeriod (s : State) : RollCall :=
  if s.rollCall.silent then { s.rollCall with timer := some (Config.beaconTime s.straps.tcl) }
  else { (ringHealth s.rollCall).1 with
    timer := some (Config.beaconTime s.straps.tcl),
    inFlight := some { number := s.rollCall.number, sent := canOffer s, returned := false },
    number := s.rollCall.number + 1 }

theorem presenceCheck_reports (s : State) :
    (presenceCheck s).2 = (lostStations s).map fun j => (losePeer j s).2 := (presenceCheck_spec s).2.2.2.2

section
variable {s : State}

theorem periodReports_silent (h : s.rollCall.silent = true) : periodReports s = (presenceCheck s).2 := by
  rw [periodReports, ringReports, if_pos h, List.append_nil, presenceCheck_reports]

theorem periodReports_live (h : s.rollCall.silent = false) :
    periodReports s = (presenceCheck s).2 ++ (ringHealth s.rollCall).2 := by
  rw [periodReports, ringReports, if_neg (Bool.eq_false_iff.1 h), presenceCheck_reports]

theorem rollCallAfterPeriod_silent (h : s.rollCall.silent = true) :
    rollCallAfterPeriod s = { s.rollCall with timer := some (Config.beaconTime s.straps.tcl) } := if_pos h

theorem rollCallAfterPeriod_live (h : s.rollCall.silent = false) : rollCallAfterPeriod s =
    { (ringHealth s.rollCall).1 with
      timer := some (Config.beaconTime s.straps.tcl),
      inFlight := some { number := s.rollCall.number, sent := canOffer s, returned := false },
      number := s.rollCall.number + 1 } := if_neg (Bool.eq_false_iff.1 h)

theorem canOffer_congr {t : State} (hsilent : t.rollCall.silent = s.rollCall.silent)
    (hqueue : t.rau.controlQueue = s.rau.controlQueue) : canOffer t = canOffer s := by
  rw [canOffer, canOffer, hsilent, hqueue]

theorem beaconFrame_congr {t : State} (hstraps : t.straps = s.straps)
    (hnumber : t.rollCall.number = s.rollCall.number) (hstamp : t.rollCall.stamp = s.rollCall.stamp) :
    beaconFrame t = beaconFrame s := by
  rw [beaconFrame, beaconFrame, State.ringSize, State.ringSize, hstraps, hnumber, hstamp]

/-- The expiry, SILENT or not: a SILENT station's offer is refused (R117). -/
theorem beaconPeriodExpires_eq (h : s.rollCall.timer.isSome) : beaconPeriodExpires s =
    { offer (beaconFrame s) (postReports (periodReports s) (presenceCheck s).1) with
      rollCall := rollCallAfterPeriod s } := by
  obtain ⟨hkept, -⟩ := presenceCheck_spec s
  have hroll := hkept.rollCall
  rw [beaconPeriodExpires, if_pos h]
  cases hsilent : s.rollCall.silent with
  | true =>
    rw [rollCallAfterPeriod_silent hsilent, periodReports_silent hsilent]
    generalize presenceCheck s = c at *
    have hrefused : canOffer (postReports c.2 c.1) = false := by
      have hflag : (postReports c.2 c.1).rollCall.silent = true := (congrArg RollCall.silent hroll).trans hsilent
      rw [canOffer, hflag]; rfl
    rw [offer_refused _ hrefused, ← hroll]
    rfl
  | false =>
    rw [rollCallAfterPeriod_live hsilent, periodReports_live hsilent, if_neg Bool.false_ne_true, hroll]
    generalize presenceCheck s = c at *
    have hflag := ringHealth_silent s.rollCall
    have hnumber := ringHealth_number s.rollCall
    have hstamp := ringHealth_stamp s.rollCall
    generalize ringHealth s.rollCall = g at *
    let checked : State := postReports (c.2 ++ g.2) (setRollCall g.1 c.1)
    have hoffers : canOffer checked = canOffer s := canOffer_congr (t := checked) hflag hkept.controlQueue
    have hrest : canOffer (postReports (c.2 ++ g.2) c.1) = canOffer s :=
      canOffer_congr (t := postReports (c.2 ++ g.2) c.1) (congrArg RollCall.silent hroll) hkept.controlQueue
    have hframe : beaconFrame checked = beaconFrame s :=
      beaconFrame_congr (t := checked) hkept.straps hnumber hstamp
    have hbeacon : checked.rollCall.number = s.rollCall.number := hnumber
    dsimp only
    rw [offerBeacon_eq checked, offer_eq, offer_eq, hoffers, hrest, hframe, hbeacon]
    rfl

end

/-! ### The records of the expiry -/

/-- The check at this expiry reports the ring open (R128). -/
def RingOpens (s : State) : Prop :=
  s.rollCall.silent = false ∧ beaconMissed s.rollCall = true ∧ s.rollCall.misses = 2 ∧ s.rollCall.ringOpen = false

theorem ringReports_opens {s : State} (h : RingOpens s) : ringReports s = [ringOpenReport] := by
  obtain ⟨hlive, hopens⟩ := h
  rw [ringReports, if_neg (Bool.eq_false_iff.1 hlive), ringHealth_reports, if_pos hopens]

theorem ringReports_quiet {s : State} (h : ¬RingOpens s) : ringReports s = [] := by
  unfold ringReports
  split
  · rfl
  · rename_i hlive
    rw [ringHealth_reports, if_neg fun hopens => h ⟨Bool.eq_false_iff.2 hlive, hopens⟩]

theorem mem_ringReports {s : State} {p : Report} (h : p ∈ ringReports s) : p = ringOpenReport := by
  by_cases hopens : RingOpens s
  · exact List.mem_singleton.1 (ringReports_opens hopens ▸ h)
  · rw [ringReports_quiet hopens] at h; cases h

theorem mem_periodReports {s : State} {p : Report} :
    p ∈ periodReports s ↔ (∃ j ∈ lostStations s, (losePeer j s).2 = p) ∨ p ∈ ringReports s := by
  rw [periodReports, List.mem_append, List.mem_map]

theorem periodReports_apart (s : State) : ∀ p ∈ periodReports s, p.apart := by
  intro p hp
  rcases mem_periodReports.1 hp with ⟨j, -, rfl⟩ | hring
  · exact (losePeer_order j s).1
  · rw [mem_ringReports hring]; exact ⟨⟨rfl, rfl⟩, nofun, nofun⟩

/-- Only the losses make the engines post records, in the order of the losses (R126). -/
theorem periodReports_flatMap (s : State) (f : Report → List Record) (hring : f ringOpenReport = []) :
    (periodReports s).flatMap f = (lostStations s).flatMap fun j => f (losePeer j s).2 := by
  have hnone : (ringReports s).flatMap f = [] := List.flatMap_eq_nil_iff.2 fun p hp => mem_ringReports hp ▸ hring
  rw [periodReports, List.flatMap_append, List.flatMap_map, hnone, List.append_nil]

theorem periodReports_records (s : State) : (periodReports s).map Report.record =
    (lostStations s).map .peerLost ++ (ringReports s).map Report.record := by
  rw [periodReports, List.map_append, List.map_map]
  exact congrArg (· ++ _) (List.map_congr_left fun j _ => (losePeer_order j s).2.1)

theorem losePeer_runs (j : Fin 16) (s : State) : (losePeer j s).2.runs = slotNumbers.flatMap fun i =>
    (slotAfterEnding i (beingInserted i s) (fun r => r.dest.toNat = j.val) .peerLost s.slots[i]).2 := by
  obtain ⟨-, -, hruns, -⟩ := losePeer_order j s
  rw [hruns, runTo_eq]

theorem losePeer_ports (j : Fin 16) (s : State) : (losePeer j s).2.ports = portNumbers.flatMap fun i =>
    (portAfterEnding i (fun b => b.source.toNat = j.val) .peerLost s.ports[i]).2 := by
  obtain ⟨-, -, -, hports⟩ := losePeer_order j s
  rw [hports, boundFrom_eq]

/-! ### Everything the expiry does -/

/-- The state `t` that the expiry leaves of `s`, and the records `rs` that it posts. -/
structure PeriodOutcome (s t : State) (rs : List Record) : Prop where
  rollCall : t.rollCall = rollCallAfterPeriod s
  controlQueue : t.rau.controlQueue = s.rau.controlQueue ++ if canOffer s then [beaconFrame s] else []
  output : t.rau.output = s.rau.output
  mem : t.mem = s.mem
  peers : ∀ j : Fin 16, t.peers[j] = { state := (checkPeer s.peers[j]).1, heard := false }
  slots : ∀ i : Fin 8,
    t.slots[i] = (slotAfterEnding i (beingInserted i s) (runToLost s) .peerLost s.slots[i]).1
  ports : ∀ i : Fin 8, t.ports[i] = (portAfterEnding i (boundFromLost s) .peerLost s.ports[i]).1
  posted : Posted s.log t.log rs
  order : InOrder (periodReports s) [] [] rs
  members : ∀ r, r ∈ rs ↔ ∃ p ∈ periodReports s, r = p.record ∨ r ∈ p.runs ∨ r ∈ p.ports

theorem beaconPeriodExpires_outcome {s : State} (h : s.rollCall.timer.isSome) :
    ∃ rs, PeriodOutcome s (beaconPeriodExpires s) rs := by
  obtain ⟨hkept, hpeers, -⟩ := presenceCheck_spec s
  have hslots := presenceCheck_slots s
  have hports := presenceCheck_ports s
  obtain ⟨rs, hpost, horder, hmembers, -⟩ :=
    postReports_order (periodReports s) (presenceCheck s).1 (periodReports_apart s)
  rw [beaconPeriodExpires_eq h]
  generalize (presenceCheck s).1 = z at *
  generalize postReports (periodReports s) z = u at *
  have hrau : u.rau = z.rau := by rw [hpost]
  have hqueue : u.rau.controlQueue = s.rau.controlQueue := (congrArg Rau.controlQueue hrau).trans hkept.controlQueue
  have hroll : u.rollCall = s.rollCall := by rw [hpost]; exact hkept.rollCall
  refine ⟨rs, { rollCall := rfl, controlQueue := ?_, output := ?_, mem := ?_, peers := fun j => ?_,
                slots := fun i => ?_, ports := fun i => ?_, posted := ?_, order := horder,
                members := hmembers }⟩ <;> dsimp only
  · rw [offer_controlQueue, hqueue, canOffer_congr (congrArg RollCall.silent hroll) hqueue]
  · rw [offer_rau_output, hrau, hkept.output]
  · rw [offer_mem, hpost]; exact hkept.mem
  · rw [offer_peers, hpost]; exact hpeers j
  · rw [offer_slots, hpost]; exact hslots i
  · rw [offer_ports, hpost]; exact hports i
  · rw [offer_log, hpost]; exact congrArg (rs.foldl postTo) hkept.log

namespace PeriodOutcome

variable {s t : State} {rs : List Record} (h : PeriodOutcome s t rs)
include h

theorem runRecords : rs.filter Record.ofRunEngine = (lostStations s).flatMap fun j => (losePeer j s).2.runs :=
  h.order.runs.trans (periodReports_flatMap s Report.runs rfl)

theorem portRecords : rs.filter Record.ofPortEngine = (lostStations s).flatMap fun j => (losePeer j s).2.ports :=
  h.order.ports.trans (periodReports_flatMap s Report.ports rfl)

theorem otherRecords : (rs.filter fun r => !r.ofRunEngine && !r.ofPortEngine) =
    (lostStations s).map .peerLost ++ (ringReports s).map Report.record :=
  h.order.others.trans (periodReports_records s)

theorem peerLost_posted {j : Fin 16} (hj : s.peers[j].lost = true) : .peerLost j ∈ rs :=
  (h.members _).2
    ⟨_, mem_periodReports.2 (.inl ⟨j, mem_lostStations.2 hj, rfl⟩), .inl (losePeer_order j s).2.1.symm⟩

theorem portRecord_posted {j : Fin 16} (hj : s.peers[j].lost = true) {r : Record} (hr : r ∈ (losePeer j s).2.ports) :
    r ∈ rs :=
  (h.members _).2 ⟨_, mem_periodReports.2 (.inl ⟨j, mem_lostStations.2 hj, rfl⟩), .inr (.inr hr)⟩

theorem ringOpen_posted (hopens : RingOpens s) : .ringOpen ∈ rs :=
  (h.members _).2 ⟨ringOpenReport, mem_periodReports.2 (.inr (by rw [ringReports_opens hopens]; exact .head _)),
    .inl rfl⟩

/-- PEER_LOST stands before each record of a run or a binding that it ends (R126). -/
theorem peerLost_first {j : Fin 16} (hj : j ∈ lostStations s) {r : Record}
    (hr : r ∈ (losePeer j s).2.runs ∨ r ∈ (losePeer j s).2.ports) : [.peerLost j, r].Sublist rs := by
  have hafter := h.order.after _ (mem_periodReports.2 (.inl ⟨j, hj, rfl⟩)) r hr
  rwa [(losePeer_order j s).2.1] at hafter

/-- The binding of a lost peer ends (R72). -/
theorem binding_ended {i : Fin 8} {p : OpenPort} {b : Binding} {current : Option BankId} {idle : Timer} {j : Fin 16}
    (hp : s.ports[i] = some p) (hm : p.mode = .bound b current idle) (hj : s.peers[j].lost = true)
    (hb : b.source.toNat = j.val) : .portRunEnd i b.source b.tag b.accepted .peerLost ∈ rs ∧
      ∃ p', t.ports[i] = some p' ∧ p'.mode = .listening ∧ p'.note = p.note := by
  obtain ⟨hrecord, -⟩ := portAfterEnding_bound (ends := fun b => b.source.toNat = j.val) i .peerLost hm
    (decide_eq_true hb)
  obtain ⟨-, p', hp', hmode, hnote⟩ := portAfterEnding_bound i .peerLost hm (boundFromLost_iff.2 ⟨j, hj, hb⟩)
  rw [← hp] at hrecord hp'
  refine ⟨h.portRecord_posted hj ?_, p', (h.ports i).trans hp', hmode, hnote⟩
  rw [losePeer_ports]
  exact List.mem_flatMap.2 ⟨i, mem_portNumbers i, hrecord⟩

end PeriodOutcome

/-- Settles O35: each part of the statement is a field of `PeriodOutcome` or read off one. -/
theorem beaconPeriod : Obligations.BeaconPeriod := by
  intro s htimer lost missed
  obtain ⟨rs, hout⟩ := beaconPeriodExpires_outcome htimer
  have hlost (j : Fin 16) : lost j ↔ s.peers[j].lost = true := (lost_iff s.peers[j]).symm
  have hmissed : missed ↔ beaconMissed s.rollCall = true := (beaconMissed_iff s.rollCall).symm
  have hstate {j : Fin 16} {p : Peer} {c : PeerState × Bool} (hp : s.peers[j] = p) (hc : checkPeer p = c) :
      (beaconPeriodExpires s).peers[j].state = c.1 := by rw [hout.peers j, hp, hc]
  refine ⟨beaconPeriodExpires s, rs, rfl, hout.posted, ?timer, hout.mem, hout.output,
    fun j => congrArg Peer.heard (hout.peers j), fun j hj => ?lost,
    fun j m beacon cls size hj => hstate hj (checkPeer_heard m beacon cls size),
    fun j m beacon cls size hj hm => hstate hj (checkPeer_missed m beacon cls size hm),
    fun j hj => hstate rfl (checkPeer_unlisted hj), fun i r hr hspared => ?runSpared,
    fun i r j hr hp hj hdest => ?runEnded, fun i p b current idle hp hm hspared => ?boundSpared,
    fun i p b current idle j hp hm hj hb => hout.binding_ended hp hm ((hlost j).1 hj) hb,
    fun hsilent => ?silent, fun hlive => ?live, fun losing hsorted hmem => ?order⟩
  case timer =>
    rw [hout.rollCall, rollCallAfterPeriod]
    split <;> rfl
  case lost =>
    have hposted := hout.peerLost_posted ((hlost j).1 hj)
    obtain ⟨m, beacon, cls, size, hp, hm⟩ := hj
    exact ⟨hstate hp (checkPeer_lost m beacon cls size hm), hposted⟩
  case runSpared =>
    have hends : r.phase = .ending ∨ runToLost s r = false := by
      refine hspared.symm.imp_right fun hother => Bool.eq_false_iff.2 fun hends => ?_
      obtain ⟨j, hj, hdest⟩ := runToLost_iff.1 hends
      exact hother j ((hlost j).2 hj) hdest
    rw [hout.slots i, hr, slotAfterEnding_spared hends]
  case runEnded =>
    rw [hout.slots i, hr, slotAfterEnding_ended _ hp (runToLost_iff.2 ⟨j, (hlost j).1 hj, hdest⟩)]
  case boundSpared =>
    have hends : boundFromLost s b = false := by
      refine Bool.eq_false_iff.2 fun hends => ?_
      obtain ⟨j, hj, hsource⟩ := boundFromLost_iff.1 hends
      exact hspared j ((hlost j).2 hj) hsource
    rw [hout.ports i, hp, portAfterEnding_spared hm hends]
  case silent =>
    have hrefused : canOffer s = false := by rw [canOffer, hsilent]; rfl
    refine ⟨?_, ?_⟩
    · rw [hout.rollCall, rollCallAfterPeriod_silent hsilent]
    · rw [hout.controlQueue, hrefused]; exact List.append_nil _
  case live =>
    rw [hout.rollCall, rollCallAfterPeriod_live hlive]
    refine ⟨rfl, ringHealth_stamp s.rollCall, rfl, hout.controlQueue, fun hback => ?returned,
      fun hmiss hfew => ?counting, fun hmiss hthird => ?third, fun _ hmany => ?saturated⟩
    case returned => rw [ringHealth_returned (mt hmissed.2 hback)]; exact ⟨rfl, rfl⟩
    case counting => rw [ringHealth_counting (hmissed.1 hmiss) hfew]; exact ⟨rfl, rfl⟩
    case third =>
      rw [ringHealth_third (hmissed.1 hmiss) hthird]
      exact ⟨rfl, rfl, fun hclosed => hout.ringOpen_posted ⟨hlive, hmissed.1 hmiss, hthird, hclosed⟩⟩
    case saturated => rw [ringHealth_saturated hmany]; exact ⟨rfl, rfl⟩
  case order =>
    obtain rfl : losing = lostStations s := eq_lostStations hsorted fun j => (hmem j).trans (hlost j)
    intro runTo boundFrom runs ports others opens
    have hruns : (fun j => (losePeer j s).2.runs) = runs := funext fun j => losePeer_runs j s
    have hports : (fun j => (losePeer j s).2.ports) = ports := funext fun j => losePeer_ports j s
    have hends : boundFromLost s = fun b => (lostStations s).any fun j => boundFrom j b := by
      funext b
      simp only [boundFromLost, boundFrom_eq, boundFrom]
    have hopens : opens ↔ RingOpens s := and_congr_right fun _ => and_congr_left fun _ => hmissed
    refine ⟨fun i => ?_, hruns ▸ hout.runRecords, hports ▸ hout.portRecords, fun ho => ?opens, fun ho => ?quiet,
      fun j hj r hr => hout.peerLost_first hj ?first⟩
    · rw [hout.ports i, hends]
    case opens => exact hout.otherRecords.trans (by rw [ringReports_opens (hopens.1 ho)]; rfl)
    case quiet =>
      exact hout.otherRecords.trans (by rw [ringReports_quiet (mt hopens.2 ho)]; exact List.append_nil _)
    case first => rwa [← hruns, ← hports] at hr

end Sys2Proof.Machine
end

section
/-! The Link Receiver (O7, O55). A symbol taken in ALIGN loses the link, brings it up, or is counted, and one law gives
each of the three. Four rows and RESET_N_ASSERTED reach the receiver; every other row leaves it, and puts no frame in
reception. -/

namespace Sys2Proof.Machine

open Sys2Proof

/-! ### A symbol in DOWN (R134) -/

section
variable {sym : Symbol} {s : State}

theorem exec_symbolInDown (h : s.rx.state = .down) (hreset : s.resetLow = false) :
    exec (.symbolInDown sym) s = .next (takeInDown sym s) :=
  if_pos ⟨h, by simp [hreset]⟩

theorem takeInDown_invalid : takeInDown .invalid s = s := rfl

theorem takeInDown_valid (h : sym ≠ .invalid) : takeInDown sym s =
    { s with rx := { state := .align, run := if sym = .idle then 1 else 0, span := 1, errors := 0, quiet := some 400 } } :=
  if_pos ((symbol_valid_iff sym).2 h)

/-! ### A symbol in ALIGN (R135, R138) -/

theorem exec_symbolInAlign (h : s.rx.state = .align) (hreset : s.resetLow = false) :
    exec (.symbolInAlign sym) s = .next (takeInAlign sym s) :=
  if_pos ⟨h, by simp [hreset]⟩

/-- The receiver's counts with a symbol taken in ALIGN, before the span's end is looked at. -/
def Receiver.taken (r : Receiver) (sym : Symbol) : Receiver := (r.count sym).align sym

theorem taken_idle (r : Receiver) :
    r.taken .idle = { r with run := r.run + 1, span := r.span + 1, quiet := some 400 } := rfl

theorem taken_invalid (r : Receiver) :
    r.taken .invalid = { r with run := 0, span := r.span + 1, errors := r.errors + 1 } := rfl

theorem taken_other (hidle : sym ≠ .idle) (hvalid : sym ≠ .invalid) (r : Receiver) :
    r.taken sym = { r with run := 0, span := r.span + 1, quiet := some 400 } := by
  rw [Receiver.taken, count_of_valid hvalid, Receiver.align, if_neg hidle]

theorem takeInAlign_loses (h : s.rx.state = .align) (herrors : 8 ≤ (s.rx.taken sym).errors) :
    takeInAlign sym s = { s with rx := Receiver.reset } :=
  (if_pos herrors).trans (linkDown_of_align h)

theorem takeInAlign_linkUp (herrors : (s.rx.taken sym).errors < 8) (hrun : 32 ≤ (s.rx.taken sym).run) :
    takeInAlign sym s =
      { s with rx := { (s.rx.taken sym).endSpan with state := .up, run := 0 }, log := postTo s.log .linkUp } :=
  (if_neg (Nat.not_le.2 herrors)).trans (if_pos hrun)

theorem takeInAlign_goesOn (herrors : (s.rx.taken sym).errors < 8) (hrun : (s.rx.taken sym).run < 32) :
    takeInAlign sym s = { s with rx := (s.rx.taken sym).endSpan } :=
  (if_neg (Nat.not_le.2 herrors)).trans (if_neg (Nat.not_le.2 hrun))

end

/-- Settles O7: in DOWN a valid symbol begins the alignment, and in ALIGN the counts of `Receiver.taken` decide between
going on, LINK_UP and the loss of the link. -/
theorem receiverTrains : Obligations.ReceiverTrains := by
  unfold Obligations.ReceiverTrains
  refine ⟨fun s sym hdown hreset => ?down, fun s sym halign hreset hrun hspan herrors => ?align⟩
  case down =>
    rw [exec_symbolInDown hdown hreset]
    split
    · rename_i hsym; rw [hsym, takeInDown_invalid]
    · rename_i hsym; rw [takeInDown_valid hsym]
  case align =>
    intro span errors
    have hend (r : Receiver) (h : r.span = s.rx.span + 1) :
        r.endSpan = { r with span := span, errors := errors r.errors } := by
      rw [endSpan_eq (by omega), h]
    rw [exec_symbolInAlign halign hreset, ← halign]
    refine ⟨?idle, ?linkUp, ?other, ?codeError, ?lost⟩
    case idle =>
      rintro rfl hmore
      rw [takeInAlign_goesOn (s := s) (sym := .idle) herrors hmore, taken_idle, hend _ rfl]
    case linkUp =>
      rintro rfl hlast
      rw [takeInAlign_linkUp (s := s) (sym := .idle) herrors hlast.ge, taken_idle, hend _ rfl]
    case other =>
      intro hidle hvalid
      have htaken := taken_other hidle hvalid s.rx
      rw [takeInAlign_goesOn (by rw [htaken]; exact herrors) (by rw [htaken]; exact Nat.zero_lt_succ 31), htaken,
        hend _ rfl]
    case codeError =>
      rintro rfl hmore
      rw [takeInAlign_goesOn (s := s) (sym := .invalid) hmore (Nat.zero_lt_succ 31), taken_invalid, hend _ rfl]
    case lost =>
      rintro rfl hlast
      rw [takeInAlign_loses (sym := .invalid) halign hlast.ge]; rfl

/-! ### The ranges of R133 -/

/-- The counts of a receiver in ALIGN or UP are in their ranges, and its quiet timer runs. -/
def Receiver.Counting (r : Receiver) : Prop := r.span < 1024 ∧ r.errors < 8 ∧ r.quiet.isSome

section
variable {s : State}

theorem receiverOk_of_down (h : s.rx.state = .down) :
    ReceiverOk s ↔ s.rx = Receiver.reset ∧ s.rau.reception = none := by
  simp [ReceiverOk, h]

theorem receiverOk_of_align (h : s.rx.state = .align) :
    ReceiverOk s ↔ s.rx.run < 32 ∧ s.rx.Counting ∧ s.rau.reception = none := by
  simp [ReceiverOk, h, Receiver.Counting, and_assoc]

theorem receiverOk_of_up (h : s.rx.state = .up) : ReceiverOk s ↔ s.rx.run = 0 ∧ s.rx.Counting := by
  simp [ReceiverOk, h, Receiver.Counting]

/-- No frame is in reception in DOWN or ALIGN. -/
theorem ReceiverOk.outside (hs : ReceiverOk s) (h : s.rx.state ≠ .up) : s.rau.reception = none := by
  obtain ⟨-, hreception⟩ := hs
  exact Option.not_isSome_iff_eq_none.1 (mt hreception h)

end

/-! ### What reaches the receiver keeps the ranges -/

/-- The receiver is as it was, and no frame has come into reception. -/
structure ReceiverKept (s t : State) : Prop where
  rx : t.rx = s.rx
  outside : s.rau.reception = none → t.rau.reception = none

theorem ReceiverKept.refl (s : State) : ReceiverKept s s := ⟨rfl, id⟩

theorem ReceiverKept.trans {s t u : State} (h : ReceiverKept s t) (k : ReceiverKept t u) : ReceiverKept s u :=
  ⟨k.rx.trans h.rx, fun hnone => k.outside (h.outside hnone)⟩

theorem CoreStep.receiverKept {s t : State} (h : CoreStep s t) : ReceiverKept s t :=
  ⟨h.rx, fun hnone => h.reception.trans hnone⟩

theorem ReceiverOk.kept {s t : State} (hs : ReceiverOk s) (h : ReceiverKept s t) : ReceiverOk t := by
  obtain ⟨hcounts, hreception⟩ := hs
  obtain ⟨hrx, houtside⟩ := h
  unfold ReceiverOk
  rw [hrx]
  refine ⟨hcounts, fun ht => hreception (Option.isSome_iff_ne_none.2 fun hnone => ?_)⟩
  rw [houtside hnone] at ht
  cases ht

/-- In UP a frame may come into reception, or end. -/
theorem ReceiverOk.keptInUp {s t : State} (hs : ReceiverOk s) (hup : s.rx.state = .up) (hrx : t.rx = s.rx) :
    ReceiverOk t := by
  rw [receiverOk_of_up hup] at hs
  rw [receiverOk_of_up (hrx ▸ hup), hrx]
  exact hs

theorem endSpan_state (r : Receiver) : r.endSpan.state = r.state := by
  unfold Receiver.endSpan; split <;> rfl

theorem endSpan_run (r : Receiver) : r.endSpan.run = r.run := by
  unfold Receiver.endSpan; split <;> rfl

/-- A position of 1024 does not outlast the span's end (R138). -/
theorem endSpan_counting {r : Receiver} (hspan : r.span ≤ 1024) (herrors : r.errors < 8) (hquiet : r.quiet.isSome) :
    r.endSpan.Counting := by
  unfold Receiver.endSpan Config.spanLength
  split
  · exact ⟨Nat.zero_lt_succ _, Nat.zero_lt_succ _, hquiet⟩
  · exact ⟨by omega, herrors, hquiet⟩

theorem count_quiet {r : Receiver} (h : r.quiet.isSome) (sym : Symbol) : (r.count sym).quiet.isSome := by
  unfold Receiver.count
  dsimp only
  split
  · rfl
  · exact h

/-- A symbol that does not reach the code-error limit leaves the counts in their ranges. -/
theorem Receiver.Counting.count {r : Receiver} (h : r.Counting) {sym : Symbol} (herrors : (r.count sym).errors < 8) :
    (r.count sym).endSpan.Counting :=
  endSpan_counting h.1 herrors (count_quiet h.2.2 sym)

theorem Receiver.Counting.taken {r : Receiver} (h : r.Counting) {sym : Symbol} (herrors : (r.taken sym).errors < 8) :
    (r.taken sym).endSpan.Counting :=
  endSpan_counting h.1 herrors (count_quiet h.2.2 sym)

/-- The loss of the link leaves no frame in reception (R139). -/
theorem linkDown_receiverOk {s : State} (hs : ReceiverOk s) : ReceiverOk (linkDown s) := by
  have hrx : (linkDown s).rx = Receiver.reset := by rw [linkDown_eq]
  rw [receiverOk_of_down (by rw [hrx]; rfl), linkDown_rau]
  refine ⟨hrx, ?_⟩
  split
  · exact abandon_reception _
  · exact hs.outside (by assumption)

theorem countInUp_receiverOk (sym : Symbol) {s : State} (hup : s.rx.state = .up) (hs : ReceiverOk s) :
    ReceiverOk (countInUp sym s) := by
  rcases Nat.lt_or_ge (s.rx.count sym).errors 8 with herrors | herrors
  · rw [countInUp_goesOn herrors]
    obtain ⟨hrun, hcounting⟩ := (receiverOk_of_up hup).1 hs
    rw [receiverOk_of_up ((endSpan_state (s.rx.count sym)).trans hup)]
    exact ⟨(endSpan_run _).trans hrun, hcounting.count herrors⟩
  · rw [countInUp_loses herrors]
    exact linkDown_receiverOk hs

theorem takeInAlign_receiverOk (sym : Symbol) {s : State} (halign : s.rx.state = .align) (hs : ReceiverOk s) :
    ReceiverOk (takeInAlign sym s) := by
  obtain ⟨-, hcounting, hnone⟩ := (receiverOk_of_align halign).1 hs
  rcases Nat.lt_or_ge (s.rx.taken sym).errors 8 with herrors | herrors
  · have hcounts := hcounting.taken herrors
    rcases Nat.lt_or_ge (s.rx.taken sym).run 32 with hrun | hrun
    · rw [takeInAlign_goesOn herrors hrun, receiverOk_of_align ((endSpan_state (s.rx.taken sym)).trans halign)]
      exact ⟨(endSpan_run _).trans_lt hrun, hcounts, hnone⟩
    · rw [takeInAlign_linkUp herrors hrun, receiverOk_of_up rfl]
      exact ⟨rfl, hcounts⟩
  · rw [takeInAlign_loses halign herrors, receiverOk_of_down rfl]
    exact ⟨rfl, hnone⟩

theorem takeInDown_receiverOk (sym : Symbol) {s : State} (hdown : s.rx.state = .down) (hs : ReceiverOk s) :
    ReceiverOk (takeInDown sym s) := by
  by_cases hsym : sym = .invalid
  · rw [hsym, takeInDown_invalid]; exact hs
  · obtain ⟨-, hnone⟩ := (receiverOk_of_down hdown).1 hs
    rw [takeInDown_valid hsym, receiverOk_of_align rfl]
    refine ⟨?_, ⟨Nat.one_lt_succ_succ _, Nat.zero_lt_succ _, rfl⟩, hnone⟩
    show (if sym = .idle then 1 else 0) < 32
    split <;> decide

theorem decidePending_receiverKept (s : State) : ReceiverKept s (decidePending s) := by
  have hshape : DecisionShape s (decidePending s) := decidePending_shape s
  unfold DecisionShape at hshape
  exact ⟨by rw [hshape], fun hnone => by rw [decidePending_none s hnone]; exact hnone⟩

theorem settle_receiverKept (s : State) : ReceiverKept s (settle s) :=
  (deliverPending_coreStep s).receiverKept.trans (decidePending_receiverKept _)

theorem exec_symbolInUp_notUp {sym : Symbol} {s : State} (h : s.rx.state ≠ .up) :
    exec (.symbolInUp sym) s = .next s := if_neg fun hup => h hup.1

theorem exec_symbolInUp_receiverOk {sym : Symbol} {s t : State} (hs : ReceiverOk s)
    (h : exec (.symbolInUp sym) s = .next t) : ReceiverOk t := by
  by_cases hup : s.rx.state = .up
  · rcases exec_symbolInUp_cases h with rfl | ⟨u, hu, rfl⟩
    · exact hs
    · have hshape : SymbolShape (settle s) u := symbolToRau_shape hu
      unfold SymbolShape at hshape
      have hrx : u.rx = s.rx := by rw [hshape]; exact settle_rx s
      exact countInUp_receiverOk sym (hrx ▸ hup) (hs.keptInUp hup hrx)
  · rw [exec_symbolInUp_notUp hup] at h
    cases h; exact hs

/-! ### The rows that do not reach the receiver -/

/-- The rows that change the Link Receiver. -/
def reachesReceiver : Instr → Bool
  | .resetNAsserted | .symbolInDown _ | .symbolInAlign _ | .symbolInUp _ | .quietTimerExpiry => true
  | _ => false

/-- The rows of the Local Port. -/
def localPortRow : Instr → Bool
  | .command _ | .logRead | .logReadDone | .memWrite _ _ | .memWriteData _ | .memWriteClose | .memRead _ _
  | .memReadData | .inspect _ _ | .transactionIgnored _ | .transactionEnd => true
  | _ => false

/-- What a row of the Local Port can change. -/
def LocalShape (s t : State) : Prop :=
  t = { s with spi := t.spi, logCopied := t.logCopied, commandFifo := t.commandFifo, log := t.log, mem := t.mem }

theorem commandRise_shape (bytes : List Byte) (s : State) : LocalShape s (commandRise bytes s) := by
  unfold commandRise enqueueCommand
  repeat' split
  all_goals rfl

theorem startLogRead_shape (s : State) : LocalShape s (startLogRead s) := by
  unfold startLogRead
  split <;> rfl

theorem finishLogRead_shape (s : State) : LocalShape s (finishLogRead s) := by
  unfold finishLogRead removeCopied
  repeat' split
  all_goals rfl

theorem writeData_shape {b : Byte} {s t : State} (h : writeData b s = .ok t) : LocalShape s t := by
  unfold writeData at h
  repeat' split at h
  · rename_i hw
    obtain ⟨rfl, -⟩ := writeByte_ok hw
    cases h; rfl
  all_goals cases h
  all_goals rfl

theorem readData_shape {s t : State} (h : readData s = .ok t) : LocalShape s t := by
  unfold readData at h
  repeat' split at h
  all_goals cases h
  all_goals rfl

theorem exec_localPortRow {c : Instr} {s t : State} (hc : localPortRow c = true) (h : exec c s = .next t) :
    LocalShape s t := by
  have guarded {p : Prop} [Decidable p] {u v : State} (hu : LocalShape s u) (hv : LocalShape s v)
      (h : (if p then .next u else .next v : Host.Outcome State Fault Refusal) = .next t) : LocalShape s t := by
    split at h <;> cases h
    · exact hu
    · exact hv
  cases c <;> first | (cases hc; done) | skip
  case command => cases h; exact commandRise_shape _ s
  case logRead => cases h; exact startLogRead_shape s
  case logReadDone => cases h; exact finishLogRead_shape s
  case memWriteData => exact writeData_shape (outcome_eq_next.1 h)
  case memReadData => exact readData_shape (outcome_eq_next.1 h)
  case memWrite | memWriteClose | memRead | inspect | transactionIgnored | transactionEnd =>
    refine guarded ?_ ?_ h <;> rfl

theorem LocalShape.receiverKept {s t : State} (h : LocalShape s t) : ReceiverKept s t := by
  unfold LocalShape at h
  rw [h]; exact ⟨rfl, id⟩

theorem startPeriodExpires_receiverKept (s : State) : ReceiverKept s (startPeriodExpires s) := by
  unfold startPeriodExpires
  split
  · obtain ⟨hrx, houtside⟩ :=
      (CoreStep.beginBeacons { s with tx := { state := .run, startTimer := none } }).receiverKept
    exact ⟨hrx, houtside⟩
  · exact .refl s

theorem endForward_receiverKept (s : State) : ReceiverKept s (endForward s) := by
  unfold endForward
  repeat' split
  all_goals exact ⟨rfl, id⟩

theorem endInsertion_receiverKept (s : State) : ReceiverKept s (endInsertion s) := by
  unfold endInsertion
  split
  · dsimp only
    split
    · obtain ⟨hrx, houtside⟩ := (blockInsertionEnds_runStep _ _).toCoreStep.receiverKept
      exact ⟨hrx, houtside⟩
    · exact ⟨rfl, id⟩
  all_goals exact .refl s

theorem softReset_receiverKept (s : State) :
    ReceiverKept s (takeCommand (fun c => c = codeSoftReset) (fun _ t => softResetTaken t) s) := by
  rcases takeCommand_cases (fun c => c = codeSoftReset) (fun _ t => softResetTaken t) s with
    h | ⟨r, rest, -, -, h⟩ <;> rw [h]
  · exact .refl s
  · rw [softResetTaken_eq]; exact ⟨rfl, id⟩

/-- Every row but the five of `reachesReceiver` leaves the receiver, and puts no frame in reception. -/
theorem exec_receiverKept {c : Instr} {s t : State} (hc : reachesReceiver c = false) (h : exec c s = .next t) :
    ReceiverKept s t := by
  by_cases hcore : coreCommand c = true
  · exact (exec_coreStep hcore h).receiverKept
  by_cases hlocal : localPortRow c = true
  · exact (exec_localPortRow hlocal h).receiverKept
  cases c <;> first | (cases hc; done) | exact absurd rfl hcore | exact absurd rfl hlocal | skip
  case resetNReleased =>
    cases h
    unfold releaseReset
    split <;> exact ⟨rfl, id⟩
  case startPeriodExpiry => cases h; exact startPeriodExpires_receiverKept s
  case headerDecision => cases h; exact decidePending_receiverKept s
  case forwardStart =>
    cases h
    unfold startForward
    repeat' split
    all_goals exact ⟨rfl, id⟩
  case forwardEnd => cases h; exact endForward_receiverKept s
  case insertionStart =>
    rcases exec_insertionStart_cases h with rfl | ⟨-, ⟨_, _, -, rfl⟩ | ⟨_, _, _, _, -, -, -, -, rfl⟩⟩ <;>
      exact ⟨rfl, id⟩
  case insertionEnd => cases h; exact endInsertion_receiverKept s
  case yieldThresholdExpiry =>
    cases h
    unfold thresholdExpires
    split <;> exact ⟨rfl, id⟩
  case yieldHoldExpiry =>
    cases h
    unfold holdExpires
    split <;> exact ⟨rfl, id⟩
  case softReset => cases h; exact softReset_receiverKept s

/-! ### Every step -/

theorem exec_receiverOk {c : Instr} {s t : State} (hs : ReceiverOk s) (h : exec c s = .next t) : ReceiverOk t := by
  have guarded {p : Prop} [Decidable p] {u : State} (hu : p → ReceiverOk u)
      (h : (if p then .next u else .next s : Host.Outcome State Fault Refusal) = .next t) : ReceiverOk t := by
    split at h <;> cases h
    · exact hu (by assumption)
    · exact hs
  cases hc : reachesReceiver c with
  | false => exact hs.kept (exec_receiverKept hc h)
  | true =>
    cases c <;> first | (cases hc; done) | skip
    case resetNAsserted => cases h; exact receiverOk_reset
    case symbolInDown sym => exact guarded (fun ⟨hdown, _⟩ => takeInDown_receiverOk sym hdown hs) h
    case symbolInAlign sym => exact guarded (fun ⟨halign, _⟩ => takeInAlign_receiverOk sym halign hs) h
    case symbolInUp => exact exec_symbolInUp_receiverOk hs h
    case quietTimerExpiry => exact guarded (fun _ => linkDown_receiverOk (hs.kept (settle_receiverKept s))) h

/-- A REFCLK period runs down the quiet timer, which stays running at 0 (log 2). -/
theorem tick_rx (s : State) : (tick s).rx = { s.rx with quiet := s.rx.quiet.tick } := by
  obtain ⟨_, _, hbus, -⟩ := tickBus_spec (tickSymbol (tickTimers s))
  rw [tick, hbus, tickSymbol_shape]; rfl

theorem tick_receiverOk {s : State} (hs : ReceiverOk s) : ReceiverOk (tick s) := by
  obtain ⟨-, hreception, -⟩ := tick_kept s
  have hquiet (h : s.rx.Counting) : (tick s).rx.Counting := by
    obtain ⟨hspan, herrors, hquiet⟩ := h
    rw [tick_rx]
    exact ⟨hspan, herrors, (Option.isSome_map).trans hquiet⟩
  have hstate : (tick s).rx.state = s.rx.state := by rw [tick_rx]
  have hrun : (tick s).rx.run = s.rx.run := by rw [tick_rx]
  cases hrx : s.rx.state with
  | down =>
    rw [receiverOk_of_down hrx] at hs
    rw [receiverOk_of_down (hstate.trans hrx), tick_rx, hreception]
    obtain ⟨hreset, hnone⟩ := hs
    exact ⟨by rw [hreset]; rfl, hnone⟩
  | align =>
    rw [receiverOk_of_align hrx] at hs
    rw [receiverOk_of_align (hstate.trans hrx), hrun, hreception]
    obtain ⟨hshort, hcounting, hnone⟩ := hs
    exact ⟨hshort, hquiet hcounting, hnone⟩
  | up =>
    rw [receiverOk_of_up hrx] at hs
    rw [receiverOk_of_up (hstate.trans hrx), hrun]
    exact hs.imp id hquiet

/-- Settles O55: a REFCLK period runs the quiet timer down, and every command keeps the ranges. -/
theorem receiverStaysInRange : Obligations.ReceiverStaysInRange :=
  fun _ _ => step_keeps (fun _ _ h => h) (fun _ h => tick_receiverOk h) fun _ _ _ h hexec => exec_receiverOk h hexec

end Sys2Proof.Machine
end


section
/-! What a row of the Local Port and a taken command leave as they are (O51). Each family of rows has one shape: the
fields it can change, and the rest as it was. A command is made of operations that have the shape of the Command Unit,
and the shapes compose. -/

namespace Sys2Proof.Machine

open Sys2Proof

/-! ### The rows of a transaction (R145, R147, R149) -/

/-- What a row that neither ends a COMMAND nor moves a byte into memory nor finishes a LOG_READ can change. -/
def TransactionShape (s t : State) : Prop := t = { s with spi := t.spi, logCopied := t.logCopied }

theorem startLogRead_transactionShape (s : State) : TransactionShape s (startLogRead s) := by
  unfold startLogRead
  split <;> rfl

theorem readData_transactionShape {s t : State} (h : readData s = .ok t) : TransactionShape s t := by
  unfold readData at h
  repeat' split at h
  all_goals cases h
  all_goals rfl

/-- The rows that change the transaction alone. -/
def transactionRow : Instr → Bool
  | .logRead | .memWrite _ _ | .memWriteClose | .memRead _ _ | .memReadData | .inspect _ _ | .transactionIgnored _
  | .transactionEnd => true
  | _ => false

theorem exec_transactionRow {c : Instr} {s t : State} (hc : transactionRow c = true) (h : exec c s = .next t) :
    TransactionShape s t := by
  have guarded {p : Prop} [Decidable p] {u v : State} (hu : TransactionShape s u) (hv : TransactionShape s v)
      (h : (if p then .next u else .next v : Host.Outcome State Fault Refusal) = .next t) : TransactionShape s t := by
    split at h <;> cases h
    · exact hu
    · exact hv
  cases c <;> first | (cases hc; done) | skip
  case logRead => cases h; exact startLogRead_transactionShape s
  case memReadData => exact readData_transactionShape (outcome_eq_next.1 h)
  case memWrite | memWriteClose | memRead | inspect | transactionIgnored | transactionEnd =>
    refine guarded ?_ ?_ h <;> rfl

/-- The end of a COMMAND reaches the command FIFO and the log besides (R147). -/
theorem commandRise_commandShape (bytes : List Byte) (s : State) : commandRise bytes s =
    { s with spi := (commandRise bytes s).spi, logCopied := (commandRise bytes s).logCopied,
             commandFifo := (commandRise bytes s).commandFifo, log := (commandRise bytes s).log } := by
  unfold commandRise enqueueCommand
  repeat' split
  all_goals rfl

/-- The end of a LOG_READ's copy reaches the log besides (R168). -/
theorem finishLogRead_logShape (s : State) : finishLogRead s =
    { s with spi := (finishLogRead s).spi, logCopied := (finishLogRead s).logCopied,
             log := (finishLogRead s).log } := by
  unfold finishLogRead removeCopied
  repeat' split
  all_goals rfl

/-- A data byte of a MEM_WRITE reaches memory besides (R89). -/
theorem writeData_memShape {b : Byte} {s t : State} (h : writeData b s = .ok t) :
    t = { s with spi := t.spi, mem := t.mem } := by
  unfold writeData at h
  repeat' split at h
  · rename_i hw
    obtain ⟨rfl, -⟩ := writeByte_ok hw
    cases h; rfl
  all_goals cases h
  all_goals rfl

/-! ### A taken command (R155, R156) -/

/-- What the Command Unit's operations can change. -/
def CommandShape (s t : State) : Prop :=
  t = { s with commandFifo := t.commandFifo, log := t.log, logCopied := t.logCopied, slots := t.slots,
               ports := t.ports, tagCounter := t.tagCounter, rrPointer := t.rrPointer,
               rau := { s.rau with controlQueue := t.rau.controlQueue, dataQueue := t.rau.dataQueue,
                                   threshold := t.rau.threshold, marking := t.rau.marking } }

namespace CommandShape

theorem refl (s : State) : CommandShape s s := rfl

theorem trans {s t u : State} (h : CommandShape s t) (k : CommandShape t u) : CommandShape s u := by
  unfold CommandShape at h k ⊢
  rw [k, h]

theorem setSlot (i : Fin 8) (r : Slot) (s : State) : CommandShape s (setSlot i r s) := rfl

theorem setPort (i : Fin 8) (p : Port) (s : State) : CommandShape s (setPort i p s) := rfl

theorem post (r : Record) (s : State) : CommandShape s (post r s) := rfl

theorem postAll (rs : List Record) (s : State) : CommandShape s (postAll rs s) := rfl

theorem reject (r : List Byte) (reason : RejectReason) (s : State) : CommandShape s (reject r reason s) := rfl

theorem offer (f : OwnFrame) (s : State) : CommandShape s (offer f s) := by
  unfold Machine.offer
  split <;> rfl

theorem purge (i : Fin 8) (s : State) : CommandShape s (purge i s) := by
  unfold Machine.purge setData Rau.withData
  repeat' split
  all_goals rfl

theorem endRunNow (i : Fin 8) (r : Run) (result : RunResult) (reason : Option Byte) (s : State) :
    CommandShape s (endRunNow i r result reason s) := by
  refine trans ?_ (postAll (endRun i r result reason s).2 _)
  rw [endRun_eq]
  exact (purge i s).trans (setSlot i _ _)

theorem beginRun (i : Fin 8) (a : StartRunArgs) (s : State) : CommandShape s (beginRun i a s) := by
  refine trans ?_ (offer _ _)
  rfl

theorem releaseTo (i : Fin 8) (p : OpenPort) (k : BankId) (base : Nat) (s : State) :
    CommandShape s (releaseTo i p k base s) := by
  unfold Machine.releaseTo
  dsimp only
  split
  · split
    · exact (setPort i _ s).trans (offer _ _)
    · exact setPort i _ s
  all_goals exact setPort i _ s

theorem haltNow (i : Fin 8) (p : OpenPort) (s : State) : CommandShape s (haltNow i p s) := by
  unfold Machine.haltNow
  split
  · exact ((offer _ s).trans (setPort i _ _)).trans (postAll _ _)
  all_goals exact setPort i _ s

theorem closeNow (i : Fin 8) (p : OpenPort) (s : State) : CommandShape s (closeNow i p s) := by
  unfold Machine.closeNow
  split
  · exact ((offer _ s).trans (setPort i none _)).trans (post _ _)
  all_goals exact setPort i none s

theorem onOpenPort (r : List Byte) {f : Fin 8 → OpenPort → State → State} (hf : ∀ i p s, CommandShape s (f i p s))
    (s : State) : CommandShape s (onOpenPort r f s) := by
  unfold Machine.onOpenPort
  repeat' split
  · exact reject r .badPort s
  · exact reject r .wrongState s
  · exact hf _ _ s

/-- What a command does to the state with its record taken has the shape, so what the row does has it. -/
theorem takeCommand {test : Byte → Bool} {f : List Byte → State → State} (hf : ∀ r s, CommandShape s (f r s))
    (s : State) : CommandShape s (takeCommand test f s) := by
  rcases takeCommand_cases test f s with h | ⟨r, rest, -, -, h⟩ <;> rw [h]
  · exact refl s
  · exact trans (t := { s with commandFifo := rest }) rfl (hf r _)

end CommandShape

theorem startRunTaken_commandShape (r : List Byte) (s : State) : CommandShape s (startRunTaken r s) := by
  unfold startRunTaken
  dsimp only
  repeat' split
  all_goals first
    | exact .reject r _ s
    | exact .beginRun _ _ s

theorem cancelRunTaken_commandShape (r : List Byte) (s : State) : CommandShape s (cancelRunTaken r s) := by
  unfold cancelRunTaken
  repeat' split
  all_goals first
    | exact .reject r _ s
    | exact (CommandShape.offer _ s).trans (.endRunNow _ _ _ _ _)

theorem openPortTaken_commandShape (r : List Byte) (s : State) : CommandShape s (openPortTaken r s) := by
  unfold openPortTaken
  dsimp only
  repeat' split
  all_goals first
    | exact .reject r _ s
    | exact .setPort _ _ s

theorem releaseBankTaken_commandShape (r : List Byte) (s : State) : CommandShape s (releaseBankTaken r s) := by
  refine .onOpenPort r (fun i p s => ?_) s
  dsimp only
  repeat' split
  all_goals first
    | exact .reject r _ s
    | exact .releaseTo _ _ _ _ s

theorem haltPortTaken_commandShape (r : List Byte) (s : State) : CommandShape s (haltPortTaken r s) := by
  refine .onOpenPort r (fun i p s => ?_) s
  split
  · exact .reject r _ s
  · exact .haltNow i p s

theorem unhaltPortTaken_commandShape (r : List Byte) (s : State) : CommandShape s (unhaltPortTaken r s) := by
  unfold unhaltPortTaken
  split
  · exact .reject r _ s
  · refine .onOpenPort r (fun i p s => ?_) s
    split
    · exact .setPort i _ s
    · exact .reject r _ s

theorem closePortTaken_commandShape (r : List Byte) (s : State) : CommandShape s (closePortTaken r s) :=
  .onOpenPort r .closeNow s

theorem softResetTaken_commandShape (s : State) : CommandShape s (softResetTaken s) := by
  rw [softResetTaken_eq]; rfl

theorem exec_takesCommand {c : Instr} {s t : State} (hc : takesCommand c = true) (h : exec c s = .next t) :
    CommandShape s t := by
  cases c <;> first | (cases hc; done) | cases h
  case startRun => exact .takeCommand startRunTaken_commandShape s
  case cancelRun => exact .takeCommand cancelRunTaken_commandShape s
  case openPort => exact .takeCommand openPortTaken_commandShape s
  case releaseBank => exact .takeCommand releaseBankTaken_commandShape s
  case haltPort => exact .takeCommand haltPortTaken_commandShape s
  case unhaltPort => exact .takeCommand unhaltPortTaken_commandShape s
  case closePort => exact .takeCommand closePortTaken_commandShape s
  case softReset => exact .takeCommand (fun _ => softResetTaken_commandShape) s
  case unknownCommand => exact .takeCommand (fun r => .reject r .badCommand) s

/-- Settles O51: a period of the bus is a `BusStep`, and every row of the Local Port or of the Command Unit has the
shape of its family. -/
theorem localFrames : Obligations.LocalFrames := by
  refine ⟨fun l s => ⟨_, _, (busPeriod_busStep l s).rest⟩, fun i s t h => ⟨?command, ?logReadDone, ?memWriteData,
    fun hi => ?transaction, fun hi => ?taken⟩⟩
  case command =>
    rintro ⟨bytes, rfl⟩
    cases h
    exact commandRise_commandShape bytes s
  case logReadDone =>
    rintro rfl
    cases h
    exact finishLogRead_logShape s
  case memWriteData =>
    rintro ⟨b, rfl⟩
    exact writeData_memShape (outcome_eq_next.1 h)
  case transaction =>
    refine exec_transactionRow ?_ h
    rcases hi with rfl | ⟨_, _, rfl⟩ | rfl | ⟨_, _, rfl⟩ | rfl | ⟨_, _, rfl⟩ | ⟨_, rfl⟩ | rfl <;> rfl
  case taken =>
    refine exec_takesCommand ?_ h
    rcases hi with rfl | rfl | rfl | rfl | rfl | rfl | rfl | rfl | rfl <;> rfl

end Sys2Proof.Machine
end


section
/-! LOG_READ (O45): the copy that follows the status byte, the removal of the record it was made of (R149, R168, R169),
and the layouts of the records (R179). -/

namespace Sys2Proof.Machine

open Sys2Proof

/-! ### Fields of several bytes, most significant first (R179) -/

/-- The byte of a number that stands `k` bytes above its lowest. -/
theorem extractLsb'_ofNat_byte {w : Nat} (k n : Nat) (h : 8 * k + 8 ≤ w) :
    (BitVec.ofNat w n).extractLsb' (8 * k) 8 = BitVec.ofNat 8 (n / 256 ^ k) := by
  ext i hi
  have hbit : i + 8 * k < w := by omega
  have hpow : 256 ^ k = 2 ^ (8 * k) := by rw [Nat.pow_mul]
  rw [← BitVec.getLsbD_eq_getElem, ← BitVec.getLsbD_eq_getElem, BitVec.getLsbD_extractLsb', BitVec.getLsbD_ofNat,
    BitVec.getLsbD_ofNat, hpow, Nat.testBit_div_two_pow]
  simp [hbit, hi, Nat.add_comm (8 * k) i]

theorem nat16_eq (n : Nat) : nat16 n = bigEndian 2 n := by
  rw [nat16, bytes16, extractLsb'_ofNat_byte 1 n (by decide), extractLsb'_ofNat_byte 0 n (by decide)]; rfl

theorem nat24_eq (n : Nat) : nat24 n = bigEndian 3 n := by
  rw [nat24, extractLsb'_ofNat_byte 2 n (by decide), extractLsb'_ofNat_byte 1 n (by decide),
    extractLsb'_ofNat_byte 0 n (by decide)]; rfl

/-! ### The records (R172, R179) -/

theorem record_bytes_eq {r : Record} {fields : List Byte} (h : r.fields = fields) :
    r.bytes = fields ++ List.replicate (16 - fields.length) 0 := by
  rw [← h]; rfl

theorem runEnd_fields (slot : Fin 8) (tag dest port : Byte) (taken : Nat) (result : RunResult) (reason : Option Byte) :
    (Record.runEnd slot tag dest port taken result reason).fields =
      [0x01, BitVec.ofNat 8 slot.val, tag, dest, port] ++ bigEndian 2 taken ++
        [result.code, if reason = none then 0 else 1, reason.getD 0] := by
  rw [Record.fields, nat16_eq]
  cases reason <;> rfl

theorem portRunEnd_fields (port : Fin 8) (source tag : Byte) (accepted : Nat) (result : PortResult) :
    (Record.portRunEnd port source tag accepted result).fields =
      [0x02, BitVec.ofNat 8 port.val, source, tag] ++ bigEndian 2 accepted ++ [result.code] := by
  rw [Record.fields, nat16_eq]; rfl

theorem bankFull_fields (port : Fin 8) (bank : BankId) (base blocks : Nat) (short : Bool) (source tag : Byte) :
    (Record.bankFull port bank base blocks short source tag).fields =
      [0x03, BitVec.ofNat 8 port.val, if bank = .a then 0 else 1] ++ bigEndian 3 base ++
        [BitVec.ofNat 8 blocks, if short then 1 else 0, source, tag] := by
  rw [Record.fields, nat24_eq]
  cases bank <;> rfl

/-! ### The copy (R149) -/

/-- The sixteen bytes that a LOG_READ shifts out after the status byte. -/
def logCopy (log : List Record) : List Byte :=
  match log.head? with
  | some r => r.bytes
  | none => List.replicate 16 0

/-- The transaction of a LOG_READ at the end of its code byte, with its status byte. -/
def logReadAt (status : Byte) (log : List Record) : LocalPort :=
  { LocalPort.reset with csLow := true, sck := true, sdo := some false, phase := .body, kind := some .logRead,
                         bytes := 1, outgoing := status :: logCopy log }

theorem exec_logRead {s : State} (hlive : s.busLive = true) : exec .logRead s =
    .next { s with logCopied := s.log.head?, spi := logReadAt (openingStatus (some .logRead) 1 s) s.log } :=
  congrArg Host.Outcome.next (if_pos hlive)

/-- A LOG_READ's row falls at its code byte, so the pins have begun it only where that byte is arriving. -/
theorem not_begunAtCode {k : Option SpiKind} {s : State} (h : s.spi.phase ≠ .code) :
    ¬(s.spi.phase = .code ∨ (s.spi.phase = .body ∧ s.spi.kind = k ∧ 1 ≤ s.spi.bytes ∧ s.spi.bytes < 1)) := by
  rintro (hcode | ⟨-, -, hone, hzero⟩)
  · exact h hcode
  · exact Nat.not_lt.2 hone hzero

/-! ### The removal (R168, R169) -/

theorem removeCopied_unchanged {s : State} {r : Record} {l : List Record} (hlog : s.log = r :: l)
    (hcopied : s.logCopied = some r) : removeCopied s = { s with log := l } := by
  rw [removeCopied, if_pos ⟨by rw [hcopied]; rfl, by rw [hlog, hcopied]; rfl⟩, hlog]; rfl

theorem removeCopied_gone {s : State} (h : s.logCopied = none ∨ s.log.head? ≠ s.logCopied) : removeCopied s = s := by
  rw [removeCopied, if_neg]
  rintro ⟨hsome, hhead⟩
  rcases h with hnone | hother
  · rw [hnone] at hsome; cases hsome
  · exact hother hhead

theorem exec_logReadDone {s u : State} (hk : s.spi.kind = some .logRead) (hb : s.spi.bytes < 17)
    (hu : removeCopied s = u) :
    exec .logReadDone s = .next { u with spi := { s.spi with bytes := 17 }, logCopied := none } := by
  rw [← hu]; exact congrArg Host.Outcome.next (if_pos ⟨hk, hb⟩)

theorem exec_transactionEnd {s : State} (hreset : s.resetLow = false) :
    exec .transactionEnd s = .next (riseOfCs s) := if_neg (by rw [hreset]; exact Bool.false_ne_true)

/-! ### The bytes at the pins (R144, R149) -/

theorem byteArrives_logRead (b : Byte) {s : State} (hp : s.spi.phase = .body) (hk : s.spi.kind = some .logRead) :
    byteArrives b s = if s.spi.bytes = 16 then due .logReadDone s else setSpi s.spi.counted s := by
  unfold byteArrives bodyArrives
  simp only [hp, hk]

/-- Settles O45: the row copies by `exec_logRead`, the last bit removes by `removeCopied`, and the layouts are the
fields of each record padded to sixteen bytes. -/
theorem logReadTransaction : Obligations.LogReadTransaction := by
  refine ⟨fun s hreset hwait => ?copy, fun s hk hb => ?removal, fun s hreset => exec_transactionEnd hreset,
    fun s b hp hk => ?pins, ?layouts, rfl, rfl, rfl⟩
  case copy =>
    intro copy
    refine ⟨_, exec_logRead (busLive_of hreset hwait), rfl, rfl, rfl, rfl, rfl, rfl, fun x l hp hout => ?_,
      fun hp => ?_, rfl⟩
    · exact congrArg (· :: copy) (openingStatus_begun (.inl hp) hout)
    · exact congrArg (· :: copy) (openingStatus_new (not_begunAtCode hp))
  case removal =>
    exact ⟨fun r l hlog hcopied => exec_logReadDone hk hb (removeCopied_unchanged hlog hcopied),
      fun hgone => exec_logReadDone hk hb (removeCopied_gone hgone)⟩
  case pins =>
    rw [byteArrives_logRead b hp hk]
    exact ⟨fun h => if_pos h, fun h => if_neg h⟩
  case layouts =>
    intro named
    refine ⟨fun slot tag dest port taken result reason => ?_, fun port source tag accepted result => ?_,
      fun port bank base blocks short source tag => ?_, fun _ _ _ => rfl, fun _ _ => ⟨rfl, rfl, rfl, rfl⟩,
      rfl, rfl, rfl, rfl, rfl, rfl, fun _ => rfl⟩
    · exact record_bytes_eq (runEnd_fields slot tag dest port taken result reason)
    · exact record_bytes_eq (portRunEnd_fields port source tag accepted result)
    · exact record_bytes_eq (bankFull_fields port bank base blocks short source tag)

end Sys2Proof.Machine
end


section
/-! The four snapshots of INSPECT (R153, R154, R179) in the numbers that stand in their bytes. -/

namespace Sys2Proof.Machine

open Sys2Proof

/-! ### Bytes made of smaller fields -/

theorem toNat_append_add {m n : Nat} (x : BitVec m) (y : BitVec n) : (x ++ y).toNat = x.toNat * 2 ^ n + y.toNat := by
  rw [BitVec.toNat_append, ← Nat.shiftLeft_add_eq_or_of_lt y.isLt, Nat.shiftLeft_eq]

theorem bytes16_eq (w : Word16) : bytes16 w = bigEndian 2 w.toNat := by
  rw [← nat16_eq, nat16, BitVec.ofNat_toNat, BitVec.setWidth_eq]

theorem bytes32_eq (w : Word32) : bytes32 w = bigEndian 4 w.toNat := by
  have hw : w = BitVec.ofNat 32 w.toNat := by rw [BitVec.ofNat_toNat, BitVec.setWidth_eq]
  rw [bytes32, hw, extractLsb'_ofNat_byte 3 _ (by decide), extractLsb'_ofNat_byte 2 _ (by decide),
    extractLsb'_ofNat_byte 1 _ (by decide), extractLsb'_ofNat_byte 0 _ (by decide), ← hw]; rfl

/-- A number below 256 is the byte it came from. -/
theorem nat8_of_toNat {index : Byte} {n : Nat} (h : index.toNat = n) : nat8 n = index := by
  rw [nat8, ← h, BitVec.ofNat_toNat, BitVec.setWidth_eq]

theorem padTo_eq {n k : Nat} {bs : List Byte} (h : bs.length + k = n) : padTo n bs = bs ++ List.replicate k 0 := by
  rw [padTo, ← h, Nat.add_sub_cancel_left]

/-! ### The part as a whole (R179) -/

theorem entryByte_eq (s : State) (e : DataEntry) : entryByte s e =
    BitVec.ofNat 8 (128 + 16 * e.slot.val + (e.index - (s.slots[e.slot].map fun r => r.taken).getD 0) % 4) := by
  have hfields (slot : Fin 8) (d : Nat) : (1 : BitVec 1) ++ BitVec.ofNat 3 slot.val ++ (0 : BitVec 2) ++
      BitVec.ofNat 2 d = BitVec.ofNat 8 (128 + 16 * slot.val + d % 4) := by
    apply BitVec.eq_of_toNat_eq
    simp only [toNat_append_add, BitVec.ofNat_eq_ofNat, BitVec.toNat_ofNat]
    omega
  unfold entryByte
  cases s.slots[e.slot] <;> exact hfields e.slot _

/-- The data queue's eight places, those it does not use being 0. -/
theorem dataQueue_places (s : State) (h : s.rau.dataQueue.length ≤ 8) :
    (padTo 8 (s.rau.dataQueue.map (entryByte s))).take 8 =
      s.rau.dataQueue.map (entryByte s) ++ List.replicate (8 - s.rau.dataQueue.length) 0 := by
  have hlen : (s.rau.dataQueue.map (entryByte s)).length + (8 - s.rau.dataQueue.length) = 8 := by
    rw [List.length_map]; omega
  rw [padTo_eq hlen, List.take_of_length_le]
  rw [List.length_append, List.length_replicate, hlen]

theorem partFlags_eq : ∀ marking hold ringOpen silent stamp : Bool,
    (0 : BitVec 3) ++ BitVec.ofBool stamp ++ BitVec.ofBool silent ++ BitVec.ofBool ringOpen ++ BitVec.ofBool hold ++
      BitVec.ofBool marking =
    BitVec.ofNat 8 (flagAt 0 marking + flagAt 1 hold + flagAt 2 ringOpen + flagAt 3 silent + flagAt 4 stamp) := by
  decide

/-- The snapshot of the part. -/
theorem globalSnapshot_eq {s : State} (h : s.rau.dataQueue.length ≤ 8) : globalSnapshot s =
    [0x80, s.own, s.ringSize, s.straps.tcl.setWidth 8,
      (0 : BitVec 3) ++ s.tx.state.code ++ (0 : BitVec 2) ++ s.rx.state.code, BitVec.ofNat 8 s.rx.errors] ++
    bigEndian 2 s.rau.passBytes ++
    [BitVec.ofNat 8 s.rau.controlQueue.length, BitVec.ofNat 8 s.rau.dataQueue.length] ++
    s.rau.dataQueue.map (entryByte s) ++ List.replicate (8 - s.rau.dataQueue.length) 0 ++
    [BitVec.ofNat 8 (flagAt 0 s.rau.marking + flagAt 1 s.rau.inHold + flagAt 2 s.rollCall.ringOpen +
      flagAt 3 s.rollCall.silent + flagAt 4 s.rollCall.stamp.isSome)] ++
    bigEndian 2 s.rollCall.number.toNat ++ bigEndian 2 (s.rollCall.stamp.getD 0).toNat ++
    [BitVec.ofNat 8 s.rollCall.misses, BitVec.ofNat 8 s.commandFifo.length, BitVec.ofNat 8 s.log.length] ++
    List.replicate 6 0 := by
  rw [globalSnapshot, dataQueue_places s h, partFlags_eq, nat16_eq, bytes16_eq, bytes16_eq, padTo_eq (k := 6),
    ← List.append_assoc _ (s.rau.dataQueue.map (entryByte s))]
  · rfl
  · simp [bigEndian]; omega

/-! ### A slot (R179) -/

theorem snapshot_slot {index : Byte} {i : Fin 8} (hi : index.toNat = i.val) (s : State) :
    snapshot 1 index s = slotSnapshot i s := by
  rw [snapshot, if_neg (by decide), if_pos rfl, slotNumber_eq_some.2 hi]

theorem slotSnapshot_head (i : Fin 8) (s : State) : (slotSnapshot i s).head? = some (0x90 + nat8 i.val) := by
  unfold slotSnapshot
  dsimp only
  split <;> rfl

theorem slotFlags_eq : ∀ answer probe pause inserted owed reason : Bool,
    (0 : BitVec 2) ++ BitVec.ofBool reason ++ BitVec.ofBool owed ++ BitVec.ofBool inserted ++ BitVec.ofBool pause ++
      BitVec.ofBool probe ++ BitVec.ofBool answer =
    BitVec.ofNat 8 (flagAt 0 answer + flagAt 1 probe + flagAt 2 pause + flagAt 3 inserted + flagAt 4 owed +
      flagAt 5 reason) := by
  decide

/-- The snapshot of a slot that is not FREE. -/
theorem slotSnapshot_run {i : Fin 8} {s : State} {r : Run} (hr : s.slots[i] = some r) : slotSnapshot i s =
    [0x90 + nat8 i.val, r.phase.code,
      BitVec.ofNat 8 (flagAt 0 r.answer.isSome + flagAt 1 r.probe.isSome + flagAt 2 r.pause.isSome +
        flagAt 3 (beingInserted i s) + flagAt 4 r.owed.isSome + flagAt 5 (r.owed.bind Prod.snd).isSome),
      r.tag, r.dest, r.port] ++
    bigEndian 3 r.base ++ bigEndian 2 r.size ++ bigEndian 2 r.count ++
    [BitVec.ofNat 8 r.window, BitVec.ofNat 8 (r.granted.getD 0)] ++ bigEndian 2 r.taken ++ bigEndian 2 r.sent ++
    bigEndian 2 r.digestIndex ++ bigEndian 4 r.digest.toNat ++
    [BitVec.ofNat 8 r.attempts, BitVec.ofNat 8 r.timeouts, (r.owed.map fun o => o.1.code).getD 0,
      (r.owed.bind Prod.snd).getD 0, 0, 0, 0] := by
  rw [slotSnapshot, hr]
  dsimp only
  rw [slotFlags_eq, nat24_eq, nat16_eq, nat16_eq, nat16_eq, nat16_eq, nat16_eq, bytes32_eq, padTo_eq (k := 3),
    List.append_assoc]
  · rfl
  · rfl

/-! ### A port (R179) -/

theorem snapshot_port {index : Byte} {i : Fin 8} (hi : index.toNat = i.val) (s : State) :
    snapshot 2 index s = portSnapshot i s := by
  rw [snapshot, if_neg (by decide), if_neg (by decide), if_pos rfl, portNumber_eq_some.2 hi]

theorem portSnapshot_head (i : Fin 8) (s : State) : (portSnapshot i s).head? = some (0xA0 + nat8 i.val) := by
  unfold portSnapshot
  dsimp only
  split <;> rfl

/-- The first two bytes of a bank: its state in bits 15 and 14, its base in units of 16 bytes below. -/
theorem bankWord_eq (base : Nat) {code : Nat} (h : code < 4) :
    bytes16 (BitVec.ofNat 2 code ++ (0 : BitVec 1) ++ BitVec.ofNat 13 (base / 16)) =
      bigEndian 2 (16384 * code + base / 16 % 8192) := by
  rw [bytes16_eq]
  simp only [toNat_append_add, BitVec.ofNat_eq_ofNat, BitVec.toNat_ofNat]
  congr 1
  omega

theorem bankSnapshot_free {k : Bank} (h : k.content = .free) :
    bankSnapshot k = bigEndian 2 (k.base / 16 % 8192) ++ [BitVec.ofNat 8 k.capacity, 0, 0, 0, 0] := by
  have hword := bankWord_eq k.base (code := 0) (by decide)
  rw [Nat.mul_zero, Nat.zero_add] at hword
  rw [bankSnapshot, h, ← hword]; rfl

theorem bankSnapshot_filling {k : Bank} {o : Owner} {fill : Nat} (h : k.content = .filling o fill) :
    bankSnapshot k = bigEndian 2 (16384 + k.base / 16 % 8192) ++
      [BitVec.ofNat 8 k.capacity, BitVec.ofNat 8 fill, o.source, o.tag, BitVec.ofNat 8 (o.size / 16)] := by
  rw [bankSnapshot, h, ← bankWord_eq k.base (code := 1) (by decide)]; rfl

theorem bankSnapshot_full {k : Bank} {o : Owner} {fill : Nat} (h : k.content = .full o fill) :
    bankSnapshot k = bigEndian 2 (32768 + k.base / 16 % 8192) ++
      [BitVec.ofNat 8 k.capacity, BitVec.ofNat 8 fill, o.source, o.tag, BitVec.ofNat 8 (o.size / 16)] := by
  rw [bankSnapshot, h, ← bankWord_eq k.base (code := 2) (by decide)]; rfl

/-- The code of a port's state (R48). -/
def PortMode.stateCode : PortMode → Nat
  | .listening => 1
  | .bound _ _ _ => 2
  | .halted => 3

/-- The code of its current bank. -/
def PortMode.currentCode : PortMode → Nat
  | .bound _ (some .a) _ => 1
  | .bound _ (some .b) _ => 2
  | .bound _ none _ | .listening | .halted => 0

/-- Its idle timer runs. -/
def PortMode.idleRuns : PortMode → Bool
  | .bound _ _ idle => idle.isSome
  | .listening | .halted => false

/-- Its binding, where it has one. -/
def PortMode.binding : PortMode → Option Binding
  | .bound b _ _ => some b
  | .listening | .halted => none

theorem PortMode.stateCode_lt (m : PortMode) : m.stateCode < 4 := by
  unfold stateCode
  split <;> decide

theorem PortMode.currentCode_lt (m : PortMode) : m.currentCode < 4 := by
  unfold currentCode
  split <;> decide

/-- The flags of a binding. -/
def bindingCode : Option Binding → Nat
  | some b => 1 + flagAt 1 b.busyOwed + flagAt 2 b.resumeSent
  | none => 0

/-- The flags of a last-closed note. -/
def noteCode : Option Note → Nat
  | some n => 1 + flagAt 1 (!n.matched)
  | none => 0

/-- The ten bytes of a binding. -/
def bindingBytes : Option Binding → List Byte
  | some b => [b.tag, BitVec.ofNat 8 (b.size / 16)] ++ bigEndian 2 b.count ++ bigEndian 2 b.accepted ++
      bigEndian 4 b.digest.toNat
  | none => List.replicate 10 0

/-- The three bytes of a last-closed note. -/
def lastClosedBytes : Option Note → List Byte
  | some n => n.tag :: bigEndian 2 n.accepted
  | none => [0, 0, 0]

theorem bindingBytes_eq (b : Option Binding) : bindingBytes b =
    match b with
    | some b => [b.tag, units b.size] ++ nat16 b.count ++ nat16 b.accepted ++ bytes32 b.digest
    | none => List.replicate 10 0 := by
  cases b with
  | none => rfl
  | some b =>
    dsimp only
    rw [nat16_eq, nat16_eq, bytes32_eq]; rfl

theorem lastClosedBytes_eq (n : Option Note) : lastClosedBytes n =
    match n with
    | some n => [n.tag] ++ nat16 n.accepted
    | none => [0, 0, 0] := by
  cases n with
  | none => rfl
  | some n =>
    dsimp only
    rw [nat16_eq]; rfl

theorem bindingCode_bits (b : Option Binding) : BitVec.ofNat 3 (bindingCode b) =
    match b with
    | some b => BitVec.ofBool b.resumeSent ++ BitVec.ofBool b.busyOwed ++ (1 : BitVec 1)
    | none => 0 := by
  have hbits : ∀ busy resume : Bool, BitVec.ofNat 3 (1 + flagAt 1 busy + flagAt 2 resume) =
      BitVec.ofBool resume ++ BitVec.ofBool busy ++ (1 : BitVec 1) := by decide
  cases b with
  | none => rfl
  | some b => exact hbits b.busyOwed b.resumeSent

theorem noteCode_bits (n : Option Note) : BitVec.ofNat 2 (noteCode n) =
    match n with
    | some n => BitVec.ofBool (!n.matched) ++ (1 : BitVec 1)
    | none => 0 := by
  have hbits : ∀ mismatch : Bool, BitVec.ofNat 2 (1 + flagAt 1 mismatch) =
      BitVec.ofBool mismatch ++ (1 : BitVec 1) := by decide
  cases n with
  | none => rfl
  | some n => exact hbits !n.matched

/-- The port's state in bits 0 and 1, its current bank in 2 and 3, its window in 4 to 6, its idle timer in 7. -/
theorem portModeByte_eq (idle : Bool) (window : Nat) {current state : Nat} (hc : current < 4) (hs : state < 4) :
    BitVec.ofNat 8 (state + 4 * current + 16 * (window % 8) + 128 * (if idle then 1 else 0)) =
      BitVec.ofBool idle ++ BitVec.ofNat 3 window ++ BitVec.ofNat 2 current ++ BitVec.ofNat 2 state := by
  apply BitVec.eq_of_toNat_eq
  simp only [toNat_append_add, BitVec.toNat_ofNat, BitVec.toNat_ofBool]
  cases idle <;> simp only [Bool.toNat_true, Bool.toNat_false, if_true, Bool.false_eq_true, if_false] <;> omega

/-- The binding's flags in bits 0 to 2, the note's in 3 and 4, the granted window in 5 to 7. -/
theorem portFlagsByte_eq (granted : Nat) {note binding : Nat} (hn : note < 4) (hb : binding < 8) :
    BitVec.ofNat 8 (binding + 32 * (granted % 8) + 8 * note) =
      BitVec.ofNat 3 granted ++ BitVec.ofNat 2 note ++ BitVec.ofNat 3 binding := by
  apply BitVec.eq_of_toNat_eq
  simp only [toNat_append_add, BitVec.toNat_ofNat]
  omega

theorem nibbles_eq (a b : Byte) : BitVec.ofNat 8 (16 * (a.toNat % 16) + b.toNat % 16) = nibble a ++ nibble b := by
  apply BitVec.eq_of_toNat_eq
  simp only [toNat_append_add, nibble, BitVec.extractLsb'_toNat, BitVec.toNat_ofNat, Nat.shiftRight_zero]
  omega

theorem bindingCode_lt (b : Option Binding) : bindingCode b < 8 := by
  have hcodes : ∀ busy resume : Bool, 1 + flagAt 1 busy + flagAt 2 resume < 8 := by decide
  cases b with
  | none => decide
  | some b => exact hcodes b.busyOwed b.resumeSent

theorem noteCode_lt (n : Option Note) : noteCode n < 4 := by
  have hcodes : ∀ mismatch : Bool, 1 + flagAt 1 mismatch < 4 := by decide
  cases n with
  | none => decide
  | some n => exact hcodes !n.matched

/-- The snapshot of a port that is not CLOSED. -/
theorem portSnapshot_open {i : Fin 8} {s : State} {p : OpenPort} (hp : s.ports[i] = some p) : portSnapshot i s =
    [0xA0 + nat8 i.val,
      BitVec.ofNat 8 (p.mode.stateCode + 4 * p.mode.currentCode + 16 * (p.maxWindow % 8) +
        128 * (if p.mode.idleRuns then 1 else 0)),
      BitVec.ofNat 8 (p.maxSize / 16),
      BitVec.ofNat 8 (bindingCode p.mode.binding + 32 * ((p.mode.binding.map Binding.granted).getD 0 % 8) +
        8 * noteCode p.note),
      BitVec.ofNat 8 (16 * (((p.mode.binding.map Binding.source).getD 0).toNat % 16) +
        ((p.note.map Note.source).getD 0).toNat % 16)] ++
    bankSnapshot p.bankA ++ bankSnapshot p.bankB ++ bindingBytes p.mode.binding ++ lastClosedBytes p.note := by
  rw [portModeByte_eq _ _ p.mode.currentCode_lt p.mode.stateCode_lt,
    portFlagsByte_eq _ (noteCode_lt p.note) (bindingCode_lt _), nibbles_eq, bindingCode_bits, noteCode_bits,
    bindingBytes_eq, lastClosedBytes_eq, portSnapshot, hp]
  dsimp only
  cases p.mode with
  | listening | halted => rfl
  | bound b current idle => rcases current with _ | _ | _ <;> rfl

/-! ### A station (R179) -/

theorem snapshot_peer {index : Byte} {i : Fin 16} (hi : index.toNat = i.val) (s : State) :
    snapshot 3 index s = peerSnapshot i s := by
  rw [snapshot, if_neg (by decide), if_neg (by decide), if_neg (by decide), if_pos rfl, stationNumber_eq_some.2 hi]

theorem peerSnapshot_head (i : Fin 16) (s : State) : (peerSnapshot i s).head? = some (0xB0 + nat8 i.val) := by
  unfold peerSnapshot
  dsimp only
  split <;> rfl

theorem unknownPeerFlags_eq : ∀ heard : Bool,
    (0 : BitVec 7) ++ BitVec.ofBool heard = BitVec.ofNat 8 (flagAt 0 heard) := by
  decide

theorem presentPeerFlags_eq : ∀ heard : Bool,
    (0 : BitVec 6) ++ (1 : BitVec 1) ++ BitVec.ofBool heard = BitVec.ofNat 8 (2 + flagAt 0 heard) := by
  decide

/-! ### A target or an index that names nothing (R153) -/

theorem snapshot_outside {target index : Byte} (h : 4 ≤ target.toNat ∨ ((target = 1 ∨ target = 2) ∧ 8 ≤ index.toNat) ∨
    (target = 3 ∧ 16 ≤ index.toNat)) (s : State) : snapshot target index s = List.replicate 32 0 := by
  rcases h with ht | ⟨rfl | rfl, hi⟩ | ⟨rfl, hi⟩
  · have hne (b : Byte) (hb : b.toNat < 4) : target ≠ b := by rintro rfl; omega
    rw [snapshot, if_neg (hne 0 (by decide)), if_neg (hne 1 (by decide)), if_neg (hne 2 (by decide)),
      if_neg (hne 3 (by decide))]
  · rw [snapshot, if_neg (by decide), if_pos rfl, slotNumber_eq_none.2 hi]
  · rw [snapshot, if_neg (by decide), if_neg (by decide), if_pos rfl, portNumber_eq_none.2 hi]
  · rw [snapshot, if_neg (by decide), if_neg (by decide), if_neg (by decide), if_pos rfl, stationNumber_eq_none.2 hi]

end Sys2Proof.Machine
end


section
/-! The bus and the transactions COMMAND and INSPECT (O47): what one REFCLK period at the pins does, case by case
(R144 to R146), what a byte does in each phase (R145, R147, R153), and the rows. -/

namespace Sys2Proof.Machine

open Sys2Proof

/-! ### The status byte (R146) -/

theorem statusByte_bits : ∀ attention full silent up ringOpen : Bool,
    let x : Byte := BitVec.ofBool attention ++ BitVec.ofBool full ++ BitVec.ofBool silent ++ BitVec.ofBool up ++
      BitVec.ofBool ringOpen ++ (0 : BitVec 3)
    x.getLsbD 7 = attention ∧ x.getLsbD 6 = full ∧ x.getLsbD 5 = silent ∧ x.getLsbD 4 = up ∧ x.getLsbD 3 = ringOpen ∧
      x.extractLsb' 0 3 = 0 := by
  decide

/-! ### One period at the pins (R144) -/

section
variable {l : BusLevels} {s : State}

theorem busPeriod_resetLow (hreset : s.resetLow = true) : busPeriod l s = s := if_pos hreset

variable (hreset : s.resetLow = false)
include hreset

theorem busPeriod_csFalls (hl : l.csLow = true) (hs : s.spi.csLow = false) : busPeriod l s = fallOfCs l.sck s := by
  simp [busPeriod, hreset, hl, hs]

theorem busPeriod_csRises (hl : l.csLow = false) (hs : s.spi.csLow = true) : busPeriod l s = due s.spi.atRise s := by
  simp [busPeriod, hreset, hl, hs]

theorem busPeriod_csHigh (hl : l.csLow = false) (hs : s.spi.csLow = false) :
    busPeriod l s = setSpi { s.spi with sck := l.sck } s := by
  simp [busPeriod, hreset, hl, hs]

variable (hl : l.csLow = true) (hs : s.spi.csLow = true)
include hl hs

theorem busPeriod_waits (hwait : s.spi.waitRise = true) : busPeriod l s = setSpi { s.spi with sck := l.sck } s := by
  simp [busPeriod, hreset, hl, hs, hwait]

theorem busPeriod_sckStays (hsck : l.sck = s.spi.sck) : busPeriod l s = s := by
  have hkept : busPeriod l s = setSpi { s.spi with sck := l.sck } s := by simp [busPeriod, hreset, hl, hs, hsck]
  rw [hkept, hsck]; rfl

variable (hwait : s.spi.waitRise = false)
include hwait

theorem busPeriod_sckRises (hl1 : l.sck = true) (hs0 : s.spi.sck = false) : busPeriod l s = sampleBit l.sdi s := by
  simp [busPeriod, hreset, hl, hs, hwait, hl1, hs0]

theorem busPeriod_sckFalls (hl0 : l.sck = false) (hs1 : s.spi.sck = true) :
    busPeriod l s = setSpi { s.spi with sck := false, sdo := some s.spi.outBit } s := by
  simp [busPeriod, hreset, hl, hs, hwait, hl0, hs1]

end

/-- The bit on SDO after a fall of SCK: the outgoing byte goes out most significant bit first. -/
theorem outBit_eq {p : LocalPort} (h : p.bits.length < 8) :
    p.outBit = (p.outgoing.getD p.bytes 0).getLsbD (7 - p.bits.length) := by
  simp [LocalPort.outBit, BitVec.getMsbD, h]

/-! ### Eight bits make a byte (R144) -/

theorem sampleBit_gathers (x : Bool) {s : State} (h : s.spi.bits.length < 7) :
    sampleBit x s = setSpi { s.spi with sck := true, bits := s.spi.bits ++ [x] } s := by
  refine if_pos ?_
  rw [List.length_append, List.length_singleton]
  omega

theorem sampleBit_completes (x : Bool) {s : State} (h : s.spi.bits.length = 7) :
    sampleBit x s = byteArrives (byteOfBits (s.spi.bits ++ [x])) (setSpi { s.spi with sck := true, bits := [] } s) := by
  refine if_neg ?_
  rw [List.length_append, List.length_singleton]
  omega

/-- A bit that goes in at the right moves the others up by one place. -/
theorem getLsbD_shiftIn (b : Byte) (x : Bool) {i : Nat} (hi : i < 8) :
    (b.extractLsb' 0 7 ++ BitVec.ofBool x).getLsbD i = if i = 0 then x else b.getLsbD (i - 1) := by
  rw [BitVec.getLsbD_append, BitVec.getLsbD_extractLsb', BitVec.getLsbD_ofBool]
  rcases i with _ | i
  · simp
  · have hlow : i < 7 := by omega
    simp [hlow]

theorem byteOfBits_bits (b7 b6 b5 b4 b3 b2 b1 b0 : Bool) :
    let b := byteOfBits [b7, b6, b5, b4, b3, b2, b1, b0]
    b.getLsbD 7 = b7 ∧ b.getLsbD 6 = b6 ∧ b.getLsbD 5 = b5 ∧ b.getLsbD 4 = b4 ∧ b.getLsbD 3 = b3 ∧ b.getLsbD 2 = b2 ∧
      b.getLsbD 1 = b1 ∧ b.getLsbD 0 = b0 := by
  simp (disch := decide) only [byteOfBits, List.foldl_cons, List.foldl_nil, getLsbD_shiftIn, OfNat.ofNat_ne_zero,
    one_ne_zero, if_true, if_false, Nat.reduceSub, and_self]

/-! ### The row of a rise of CS_N (R144, R145) -/

theorem atRise_command {p : LocalPort} (h : p.kind = some .command) : p.atRise = .command p.record := by
  rw [LocalPort.atRise, h]

theorem atRise_memWrite {p : LocalPort} (h : p.kind = some .memWrite) : p.atRise = .memWriteClose := by
  rw [LocalPort.atRise, h]

theorem atRise_other {p : LocalPort} (hcommand : p.kind ≠ some .command) (hwrite : p.kind ≠ some .memWrite) :
    p.atRise = .transactionEnd := by
  unfold LocalPort.atRise
  split
  · exact absurd (by assumption) hcommand
  · exact absurd (by assumption) hwrite
  all_goals rfl

/-! ### The code byte (R145) -/

theorem byteArrives_code (b : Byte) {s : State} (hp : s.spi.phase = .code) : byteArrives b s = codeArrives b s := by
  unfold byteArrives
  rw [hp]

/-- The codes stand together, so a byte outside their range names no transaction. -/
theorem ne_code {b : Byte} (h : b.toNat < 0xC1 ∨ 0xC5 < b.toNat) (k : SpiKind) : k.code ≠ b := by
  rintro rfl
  revert h
  cases k <;> decide

theorem kindOfCode_none {b : Byte} (h : b.toNat < 0xC1 ∨ 0xC5 < b.toNat) : kindOfCode b = none :=
  List.find?_eq_none.2 fun k _ => by rw [decide_eq_true_eq]; exact ne_code h k

theorem transactionCodes_eq :
    transactionCodes = [SpiKind.command, .logRead, .memWrite, .memRead, .inspect].map SpiKind.code := rfl

theorem not_transactionCode {b : Byte} (h : b.toNat < 0xC1 ∨ 0xC5 < b.toNat) : ¬transactionCodes.contains b = true := by
  rw [List.contains_iff_mem, transactionCodes_eq, List.mem_map]
  rintro ⟨k, -, hk⟩
  exact ne_code h k hk

/-- The kinds that go on to their body at the code byte. -/
def SpiKind.goesOn : SpiKind → Bool
  | .command | .memWrite | .memRead | .inspect => true
  | .logRead => false

theorem codeArrives_goesOn {k : SpiKind} (hk : k.goesOn = true) (s : State) :
    codeArrives k.code s = setSpi (s.spi.inBody k).counted s := by
  cases k with
  | logRead => cases hk
  | command | memWrite | memRead | inspect => rfl

theorem codeArrives_none {b : Byte} (h : b.toNat < 0xC1 ∨ 0xC5 < b.toNat) (s : State) :
    codeArrives b s = due (.transactionIgnored b) s := by
  rw [codeArrives, kindOfCode_none h]

/-! ### The bytes after it (R145, R147, R153) -/

theorem byteArrives_ignore (b : Byte) {s : State} (hp : s.spi.phase = .ignore) :
    byteArrives b s = setSpi s.spi.counted s := by
  unfold byteArrives
  rw [hp]

section
variable (b : Byte) {s : State} (hp : s.spi.phase = .body)
include hp

theorem byteArrives_command (hk : s.spi.kind = some .command) : byteArrives b s =
    setSpi { s.spi.counted with
      record := if s.spi.record.length < 16 then s.spi.record ++ [b] else s.spi.record } s := by
  unfold byteArrives bodyArrives
  simp only [hp, hk]

theorem byteArrives_inspect (hk : s.spi.kind = some .inspect) : byteArrives b s =
    if s.spi.bytes = 1 then setSpi { s.spi.counted with target := b } s
    else if s.spi.bytes = 2 then due (.inspect s.spi.target b) s
    else setSpi s.spi.counted s := by
  unfold byteArrives bodyArrives
  simp only [hp, hk]

end

/-! ### The rows -/

/-- A COMMAND's row where the bus is seen: the rise of CS_N, then the record (R147). -/
theorem exec_command {s : State} (bytes : List Byte) (hreset : s.resetLow = false) (hwait : s.spi.waitRise = false) :
    exec (.command bytes) s = .next (enqueueCommand bytes (riseOfCs s)) := by
  refine congrArg Host.Outcome.next ?_
  rw [commandRise, hreset, hwait]; rfl

theorem exec_command_resetLow {s : State} (bytes : List Byte) (hreset : s.resetLow = true) :
    exec (.command bytes) s = .next s := congrArg Host.Outcome.next (if_pos hreset)

theorem exec_command_waits {s : State} (bytes : List Byte) (hreset : s.resetLow = false)
    (hwait : s.spi.waitRise = true) : exec (.command bytes) s = .next (riseOfCs s) := by
  refine congrArg Host.Outcome.next ?_
  rw [commandRise, hreset, hwait]; rfl

section
variable {bytes : List Byte} {s : State}

theorem enqueueCommand_short (h : bytes.length < 16) : enqueueCommand bytes s = s := if_pos h

variable (h : 16 ≤ bytes.length)
include h

theorem enqueueCommand_joins (hroom : s.commandFifo.length < 8) :
    enqueueCommand bytes s = { s with commandFifo := s.commandFifo ++ [bytes.take 16] } := by
  rw [enqueueCommand, if_neg (Nat.not_lt.2 h)]; exact if_pos hroom

theorem enqueueCommand_rejected (hfull : 8 ≤ s.commandFifo.length) :
    enqueueCommand bytes s = post (.cmdRejected (bytes.getD 0 0) (bytes.getD 1 0) .fifoFull) s := by
  rw [enqueueCommand, if_neg (Nat.not_lt.2 h)]; exact if_neg (Nat.not_lt.2 hfull)

end

/-- The transaction of an INSPECT at its snapshot, with its status byte. -/
def inspectAt (target index : Byte) (s : State) (status : Byte) : LocalPort :=
  { LocalPort.reset with csLow := true, sck := true, sdo := some false, phase := .body, kind := some .inspect,
                         bytes := 3, target := target, index := index,
                         outgoing := [status, 0, 0] ++ snapshot target index s }

theorem exec_inspect {s : State} (target index : Byte) (hlive : s.busLive = true) : exec (.inspect target index) s =
    .next { s with logCopied := none, spi := inspectAt target index s (openingStatus (some .inspect) 3 s) } :=
  if_pos hlive

/-- An ignored transaction at the end of its code byte, with its status byte. -/
def ignoredAt (status : Byte) : LocalPort :=
  { LocalPort.reset with csLow := true, sck := true, sdo := some false, phase := .ignore, bytes := 1,
                         outgoing := [status] }

theorem exec_transactionIgnored {s : State} {code : Byte} (hlive : s.busLive = true)
    (hcode : code.toNat < 0xC1 ∨ 0xC5 < code.toNat) : exec (.transactionIgnored code) s =
    .next { s with logCopied := none, spi := ignoredAt (openingStatus none 1 s) } :=
  if_pos ⟨hlive, not_transactionCode hcode⟩

/-- The rows that begin a transaction, or continue the one at the pins. -/
def beginsTransaction : Instr → Bool
  | .logRead | .memWrite _ _ | .memRead _ _ | .inspect _ _ | .transactionIgnored _ => true
  | _ => false

/-- Such a row changes nothing where the bus is not seen (R144). -/
theorem exec_beginsTransaction_deaf {c : Instr} {s : State} (hc : beginsTransaction c = true)
    (h : s.resetLow = true ∨ s.spi.waitRise = true) : exec c s = .next s := by
  have hdeaf : ¬s.busLive = true := by
    rcases h with h | h <;> simp [State.busLive, h]
  cases c <;> first | (cases hc; done) | skip
  case logRead => exact congrArg Host.Outcome.next (if_neg hdeaf)
  case memWrite | memRead | inspect => exact if_neg hdeaf
  case transactionIgnored => exact if_neg fun hlive => hdeaf hlive.1

end Sys2Proof.Machine
end


section
/-! The snapshots, the rows and the pins as O47 states them. -/

namespace Sys2Proof.Machine

open Sys2Proof

/-- Settles O47: the rows by their `exec` laws, the snapshots by their bytes, and the bus by what one period does. -/
theorem otherTransactions : Obligations.OtherTransactions := by
  refine ⟨fun s bytes hreset hwait => ?command, fun s bytes => ?deafCommand,
    fun s target index hreset hwait => ?inspect, fun s index hq => ?part, fun s index i hi => ?slot,
    fun s index i hi => ?port, fun s index i hi => ?peer,
    fun s => statusByte_bits _ _ _ _ _, fun s code hreset hwait hcode => ?ignored, fun s c hdeaf hc => ?deaf,
    fun s l => ?bus, fun s b => ?bytes⟩
  case command =>
    intro u
    rw [exec_command bytes hreset hwait]
    exact ⟨fun h => congrArg _ (enqueueCommand_short h), fun h hroom => congrArg _ (enqueueCommand_joins h hroom),
      fun h hfull => congrArg _ (enqueueCommand_rejected h hfull)⟩
  case deafCommand => exact ⟨exec_command_resetLow bytes, exec_command_waits bytes⟩
  case inspect =>
    intro p begun
    rw [exec_inspect target index (busLive_of hreset hwait)]
    refine ⟨fun x l hbegun hout => ?_, fun hnew => ?_, fun h => snapshot_outside h s, ?_, fun ht hi => ?_,
      fun ht hi => ?_, fun ht hi => ?_⟩
    · rw [openingStatus_begun hbegun hout]; rfl
    · rw [openingStatus_new hnew]; rfl
    · rintro rfl; rfl
    · rw [ht, snapshot_slot (i := ⟨_, hi⟩) rfl, slotSnapshot_head, nat8_of_toNat rfl]
    · rw [ht, snapshot_port (i := ⟨_, hi⟩) rfl, portSnapshot_head, nat8_of_toNat rfl]
    · rw [ht, snapshot_peer (i := ⟨_, hi⟩) rfl, peerSnapshot_head, nat8_of_toNat rfl]
  case part =>
    intro entry rx tx
    have hlink : (0 : BitVec 3) ++ s.tx.state.code ++ (0 : BitVec 2) ++ s.rx.state.code = BitVec.ofNat 8 (rx + tx) := by
      dsimp only [rx, tx]
      cases s.rx.state <;> cases s.tx.state <;> rfl
    have hentries : s.rau.dataQueue.map (entryByte s) = s.rau.dataQueue.map entry :=
      List.map_congr_left fun e _ => entryByte_eq s e
    show globalSnapshot s = _
    rw [globalSnapshot_eq hq, hlink, hentries]; rfl
  case slot =>
    rw [snapshot_slot hi, ← nat8_of_toNat hi]
    refine ⟨fun hfree => ?_, fun r hr => ?_⟩
    · rw [slotSnapshot, hfree]; rfl
    · intro state reason
      have hstate : r.phase.code = state := by
        dsimp only [state]
        cases r.phase <;> rfl
      have hreason : r.owed.bind Prod.snd = reason := by
        dsimp only [reason]
        cases r.owed <;> rfl
      rw [slotSnapshot_run hr, hstate, hreason]
      cases r.owed <;> rfl
  case port =>
    rw [snapshot_port hi, ← nat8_of_toNat hi]
    refine ⟨fun hclosed => ?_, fun p hp => ?_⟩
    · rw [portSnapshot, hclosed]; rfl
    intro bank note noteSource noteBytes shows
    have hbank (k : Bank) : bankSnapshot k = bank k := by
      dsimp only [bank]
      cases h : k.content with
      | free => exact bankSnapshot_free h
      | filling o fill => exact bankSnapshot_filling h
      | full o fill => exact bankSnapshot_full h
    have hnote : 8 * noteCode p.note = note := by
      dsimp only [note]
      cases p.note with
      | none => rfl
      | some n => cases h : n.matched <;> simp [noteCode, flagAt, h]
    have hsource : ((p.note.map Note.source).getD 0).toNat % 16 = noteSource := by
      dsimp only [noteSource]
      cases p.note <;> rfl
    have hbytes : lastClosedBytes p.note = noteBytes := by
      dsimp only [noteBytes]
      cases p.note <;> rfl
    dsimp only [shows]
    rw [portSnapshot_open hp, hbank, hbank, hnote, hsource, hbytes]
    refine ⟨fun hm => ?_, fun hm => ?_, fun b current idle hm => ?_⟩
    · rw [hm]; rfl
    · rw [hm]; rfl
    · rw [hm]
      rcases current with _ | _ | _ <;> rfl
  case peer =>
    intro heard shows
    dsimp only [shows, heard]
    rw [snapshot_peer hi, ← nat8_of_toNat hi, peerSnapshot]
    refine ⟨fun h => ?_, fun h => ?_, fun misses beacon cls size h => ?_⟩
    · rw [h, ← unknownPeerFlags_eq]; rfl
    · rw [h, ← unknownPeerFlags_eq]; rfl
    · rw [h, ← presentPeerFlags_eq, ← bytes16_eq]; rfl
  case ignored =>
    intro p
    rw [exec_transactionIgnored (busLive_of hreset hwait) hcode]
    refine ⟨fun x l hp hout => ?_, fun hp => ?_⟩
    · rw [openingStatus_begun (.inl hp) hout]; rfl
    · rw [openingStatus_new (not_begunAtCode hp)]; rfl
  case deaf =>
    refine exec_beginsTransaction_deaf ?_ hdeaf
    rcases hc with rfl | ⟨_, _, rfl⟩ | ⟨_, _, rfl⟩ | ⟨_, _, rfl⟩ | ⟨_, rfl⟩ <;> rfl
  case bus =>
    intro holds brings
    refine ⟨busPeriod_resetLow, fun hr hl hs => ?falls, fun hr hl hs => ?rises,
      fun hr hl hs => busPeriod_csHigh hr hl hs, fun hr hl hs hw => busPeriod_waits hr hl hs hw,
      fun hr hl hs hw => ⟨busPeriod_sckStays hr hl hs, fun hl1 hs0 hbits => ?samples, ?completes,
        fun hl0 hs1 hbits => ?shifts⟩⟩
    case falls =>
      dsimp only [holds]
      rw [busPeriod_csFalls hr hl hs, fallOfCs, BitVec.msb_eq_getLsbD_last]; rfl
    case rises =>
      dsimp only [brings]
      rw [busPeriod_csRises hr hl hs]
      refine ⟨fun hk => ?_, fun hk => ?_, fun hcommand hwrite => ?_⟩
      · rw [atRise_command hk]; rfl
      · rw [atRise_memWrite hk]; rfl
      · rw [atRise_other hcommand hwrite]; rfl
    case samples =>
      dsimp only [holds]
      rw [busPeriod_sckRises hr hl hs hw hl1 hs0, sampleBit_gathers l.sdi hbits]; rfl
    case completes =>
      intro b7 b6 b5 b4 b3 b2 b1 hl1 hs0 hbits
      obtain ⟨h7, h6, h5, h4, h3, h2, h1, h0⟩ := byteOfBits_bits b7 b6 b5 b4 b3 b2 b1 l.sdi
      refine ⟨_, h7, h6, h5, h4, h3, h2, h1, h0, ?_⟩
      rw [busPeriod_sckRises hr hl hs hw hl1 hs0, sampleBit_completes l.sdi (by rw [hbits]; rfl), hbits]; rfl
    case shifts =>
      dsimp only [holds]
      rw [busPeriod_sckFalls hr hl hs hw hl0 hs1, outBit_eq hbits]; rfl
  case bytes =>
    intro counted goesOn brings
    refine ⟨rfl, fun hp => ?code, fun hp => byteArrives_ignore b hp, fun hp hk => ?command, fun hp hk => ?inspect⟩
    case code =>
      have goes (k : SpiKind) (hk : k.goesOn = true) (hb : b = k.code) : goesOn k := by
        dsimp only [goesOn]
        rw [byteArrives_code b hp, hb, codeArrives_goesOn hk]; rfl
      refine ⟨goes .command rfl, ?_, goes .memWrite rfl, goes .memRead rfl, goes .inspect rfl,
        fun h => (byteArrives_code b hp).trans (codeArrives_none h s)⟩
      rintro rfl
      exact byteArrives_code _ hp
    case command =>
      rw [byteArrives_command b hp hk]
      refine ⟨fun h => ?_, fun h => ?_⟩
      · rw [if_pos h]; rfl
      · rw [if_neg (Nat.not_lt.2 h)]; rfl
    case inspect =>
      dsimp only [brings]
      rw [byteArrives_inspect b hp hk]
      refine ⟨fun h => ?_, fun h => ?_, fun h => ?_⟩
      · rw [if_pos h]; rfl
      · rw [if_neg (by omega), if_pos h]; rfl
      · rw [if_neg (by omega), if_neg (by omega)]; rfl

end Sys2Proof.Machine
end

section
/-! The Completion Log (O53). An event of the part does one of three things to the log: it posts records of other kinds
than LOG_OVERFLOW (R165), it takes the oldest record out (R168), or it empties the log and posts from there (R162, R164).
Each keeps what R166 asks. -/

namespace Sys2Proof.Machine

open Sys2Proof

/-! ### What an event does to the log -/

theorem Postings.one {r : Record} (hr : r.isOverflow = false) (l : List Record) : Postings l (postTo l r) :=
  ⟨[r], plain_one hr, rfl⟩

theorem Postings.same {l l' : List Record} (h : l' = l) : Postings l l' := h ▸ .refl l

theorem Postings.trans {l l' l'' : List Record} (h : Postings l l') (k : Postings l' l'') : Postings l l'' := by
  obtain ⟨rs, hrs, rfl⟩ := h
  obtain ⟨rs', hrs', rfl⟩ := k
  exact ⟨rs ++ rs', hrs.append hrs', List.foldl_append.symm⟩

/-- The log after an event: posted to, without its oldest record, or emptied and posted to. -/
inductive LogStep (before after : List Record) : Prop
  | posts (h : Postings before after)
  | removes (h : after = before.tail)
  | restarts (h : Postings [] after)

theorem LogStep.same {l l' : List Record} (h : l' = l) : LogStep l l' := .posts (.same h)

theorem LogOk.postings {l l' : List Record} (hl : LogOk l) (h : Postings l l') : LogOk l' := by
  obtain ⟨rs, hrs, rfl⟩ := h
  induction rs generalizing l with
  | nil => exact hl
  | cons r rs ih =>
    obtain ⟨hr, hrest⟩ := List.forall_mem_cons.1 hrs
    exact ih (hl.postTo hr) hrest

theorem LogOk.step {l l' : List Record} (hl : LogOk l) (h : LogStep l l') : LogOk l' := by
  cases h with
  | posts h => exact hl.postings h
  | removes h => rw [h]; exact hl.tail
  | restarts h => exact logOk_nil.postings h

/-! ### The ring -/

theorem linkDown_postings (s : State) : Postings s.log (linkDown s).log := by
  rw [linkDown_log]
  split
  · exact .one rfl _
  · exact .refl _

theorem countInUp_postings (sym : Symbol) (s : State) : Postings s.log (countInUp sym s).log := by
  rcases countInUp_cases sym s with h | h <;> rw [h]
  · exact linkDown_postings s
  · exact .refl _

theorem takeInAlign_postings (sym : Symbol) (s : State) : Postings s.log (takeInAlign sym s).log := by
  unfold takeInAlign
  dsimp only
  split
  · exact linkDown_postings s
  split
  · exact .one rfl _
  · exact .refl _

theorem decidePending_log (s : State) : (decidePending s).log = s.log := by
  have hshape : DecisionShape s (decidePending s) := decidePending_shape s
  unfold DecisionShape at hshape
  rw [hshape]

theorem symbolToRau_log {sym : Symbol} {s t : State} (h : symbolToRau sym s = .ok t) : t.log = s.log := by
  have hshape : SymbolShape s t := symbolToRau_shape h
  unfold SymbolShape at hshape
  rw [hshape]

/-- What is settled before a symbol posts what its delivery posts (log 4). -/
theorem settle_postings (s : State) : Postings s.log (settle s).log :=
  (deliverPending_coreStep s).log.trans (.same (decidePending_log _))

theorem exec_symbolInUp_postings {sym : Symbol} {s t : State} (h : exec (.symbolInUp sym) s = .next t) :
    Postings s.log t.log := by
  rcases exec_symbolInUp_cases h with rfl | ⟨u, hu, rfl⟩
  · exact .refl _
  · exact ((settle_postings s).trans (.same (symbolToRau_log hu))).trans (countInUp_postings sym u)

theorem exec_quietTimerExpiry_postings {s t : State} (h : exec .quietTimerExpiry s = .next t) :
    Postings s.log t.log := by
  rcases exec_quietTimerExpiry_cases h with rfl | rfl
  · exact .refl _
  · exact (settle_postings s).trans (linkDown_postings _)

theorem startPeriodExpires_postings (s : State) : Postings s.log (startPeriodExpires s).log := by
  unfold startPeriodExpires
  split
  · exact (CoreStep.beginBeacons { s with tx := { state := .run, startTimer := none } }).log
  · exact .refl _

theorem startForward_log (s : State) : (startForward s).log = s.log := by
  unfold startForward
  repeat' split
  all_goals rfl

theorem endForward_log (s : State) : (endForward s).log = s.log := by
  unfold endForward
  repeat' split
  all_goals rfl

theorem exec_insertionStart_log {s t : State} (h : exec .insertionStart s = .next t) : t.log = s.log := by
  rcases exec_insertionStart_cases h with rfl | ⟨-, ⟨_, _, -, rfl⟩ | ⟨_, _, _, _, -, -, -, -, rfl⟩⟩ <;> rfl

/-- The end of a BLOCK's insertion may end its run, whose record is posted (R42). -/
theorem endInsertion_postings (s : State) : Postings s.log (endInsertion s).log := by
  unfold endInsertion
  split
  · dsimp only
    split
    · exact (blockInsertionEnds_runStep _ _).toCoreStep.log
    · exact .refl _
  all_goals exact .refl _

theorem thresholdExpires_log (s : State) : (thresholdExpires s).log = s.log := by
  unfold thresholdExpires
  split <;> rfl

theorem holdExpires_log (s : State) : (holdExpires s).log = s.log := by
  unfold holdExpires
  split <;> rfl

/-! ### The Local Port and the resets -/

theorem exec_transactionRow_log {c : Instr} {s t : State} (hc : transactionRow c = true) (h : exec c s = .next t) :
    t.log = s.log := by
  have hshape : TransactionShape s t := exec_transactionRow hc h
  unfold TransactionShape at hshape
  rw [hshape]

theorem writeData_log {b : Byte} {s t : State} (h : writeData b s = .ok t) : t.log = s.log := by
  rw [writeData_memShape h]

/-- A COMMAND that finds the command FIFO full posts its refusal (R147). -/
theorem enqueueCommand_postings (bytes : List Byte) (s : State) : Postings s.log (enqueueCommand bytes s).log := by
  unfold enqueueCommand
  repeat' split
  · exact .refl _
  · exact .refl _
  · exact .one rfl _

theorem commandRise_postings (bytes : List Byte) (s : State) : Postings s.log (commandRise bytes s).log := by
  unfold commandRise
  repeat' split
  · exact .refl _
  · exact .refl _
  · exact enqueueCommand_postings bytes (riseOfCs s)

/-- The end of a LOG_READ's copy removes the oldest record, where the log still holds it as it was copied (R168). -/
theorem finishLogRead_logStep (s : State) : LogStep s.log (finishLogRead s).log := by
  unfold finishLogRead removeCopied
  repeat' split
  · exact .removes rfl
  · exact .same rfl
  · exact .same rfl

/-- A soft reset posts SOFT_RESET_DONE in the log it has emptied (R171). -/
theorem softReset_logStep (s : State) :
    LogStep s.log (takeCommand (fun c => c = codeSoftReset) (fun _ t => softResetTaken t) s).log := by
  rcases takeCommand_cases (fun c => c = codeSoftReset) (fun _ t => softResetTaken t) s with
    h | ⟨_, rest, -, -, h⟩ <;> rw [h]
  · exact .same rfl
  · rw [softResetTaken_eq]; exact .restarts (.one rfl [])

theorem releaseReset_log (stn rsz : BitVec 4) (tcl : BitVec 2) (csLow : Bool) (s : State) :
    (releaseReset stn rsz tcl csLow s).log = s.log := by
  unfold releaseReset
  split <;> rfl

theorem takeInDown_log (sym : Symbol) (s : State) : (takeInDown sym s).log = s.log := by
  unfold takeInDown
  split <;> rfl

/-! ### Every step -/

/-- What a command does to the log. -/
theorem exec_logStep {c : Instr} {s t : State} (h : exec c s = .next t) : LogStep s.log t.log := by
  have guarded {p : Prop} [Decidable p] {u : State} (hu : LogStep s.log u.log)
      (h : (if p then .next u else .next s : Host.Outcome State Fault Refusal) = .next t) : LogStep s.log t.log := by
    split at h <;> cases h
    · exact hu
    · exact .same rfl
  by_cases hcore : coreCommand c = true
  · exact .posts (exec_coreStep hcore h).log
  by_cases htransaction : transactionRow c = true
  · exact .same (exec_transactionRow_log htransaction h)
  cases c <;> first | exact absurd rfl hcore | exact absurd rfl htransaction | skip
  case resetNAsserted => cases h; exact .restarts (.refl [])
  case resetNReleased => cases h; exact .same (releaseReset_log _ _ _ _ s)
  case startPeriodExpiry => cases h; exact .posts (startPeriodExpires_postings s)
  case symbolInDown sym => exact guarded (.same (takeInDown_log sym s)) h
  case symbolInAlign sym => exact guarded (.posts (takeInAlign_postings sym s)) h
  case symbolInUp => exact .posts (exec_symbolInUp_postings h)
  case quietTimerExpiry => exact .posts (exec_quietTimerExpiry_postings h)
  case headerDecision => cases h; exact .same (decidePending_log s)
  case forwardStart => cases h; exact .same (startForward_log s)
  case forwardEnd => cases h; exact .same (endForward_log s)
  case insertionStart => exact .same (exec_insertionStart_log h)
  case insertionEnd => cases h; exact .posts (endInsertion_postings s)
  case yieldThresholdExpiry => cases h; exact .same (thresholdExpires_log s)
  case yieldHoldExpiry => cases h; exact .same (holdExpires_log s)
  case softReset => cases h; exact softReset_logStep s
  case command bytes => cases h; exact .posts (commandRise_postings bytes s)
  case logReadDone => cases h; exact finishLogRead_logStep s
  case memWriteData => exact .same (writeData_log (outcome_eq_next.1 h))

/-- A REFCLK period posts nothing: records come with commands. -/
theorem tick_log (s : State) : (tick s).log = s.log := by
  obtain ⟨_, _, hbus, -⟩ := tickBus_spec (tickSymbol (tickTimers s))
  rw [tick, hbus, tickSymbol_shape]; rfl

/-- Settles O53: a REFCLK period leaves the log, and what a command does to it is a `LogStep`, which keeps R166. -/
theorem logStaysInOrder : Obligations.LogStaysInOrder :=
  fun _ _ => step_keeps (P := fun s => LogOk s.log) (fun _ _ h => h) (fun s h => by rw [tick_log]; exact h)
    fun _ _ _ h hexec => h.step (exec_logStep hexec)

end Sys2Proof.Machine
end

section
/-! The queue of commands (O1, O3). A step takes the command off the queue's front before it runs it, and no command
reaches the queue itself: the symbols sent and the pins put commands at its end, in a REFCLK period (log 1). The commands
of the engines and of the Command Unit are `CoreStep`s and the rows of the Local Port have the shape `LocalShape`, and
neither names the queue among what changes; what is left are the ring's rows and the resets. -/

namespace Sys2Proof.Machine

open Sys2Proof

/-! ### A step -/

/-- Settles O1: `step` looks at the front of the queue alone. -/
theorem stepRunsFrontCommand : Obligations.StepRunsFrontCommand := fun _ _ _ => rfl

/-! ### The symbols and what they leave to do -/

theorem takeInDown_pending (sym : Symbol) (s : State) : (takeInDown sym s).pending = s.pending := by
  unfold takeInDown
  split <;> rfl

theorem takeInAlign_pending (sym : Symbol) (s : State) : (takeInAlign sym s).pending = s.pending := by
  unfold takeInAlign
  dsimp only
  split
  · exact linkDown_pending s
  split <;> rfl

theorem decidePending_pending (s : State) : (decidePending s).pending = s.pending := by
  have hshape : DecisionShape s (decidePending s) := decidePending_shape s
  unfold DecisionShape at hshape
  rw [hshape]

theorem settle_pending (s : State) : (settle s).pending = s.pending :=
  (decidePending_pending _).trans (deliverPending_coreStep s).pending

theorem symbolToRau_pending {sym : Symbol} {s t : State} (h : symbolToRau sym s = .ok t) : t.pending = s.pending := by
  have hshape : SymbolShape s t := symbolToRau_shape h
  unfold SymbolShape at hshape
  rw [hshape]

theorem exec_symbolInUp_pending {sym : Symbol} {s t : State} (h : exec (.symbolInUp sym) s = .next t) :
    t.pending = s.pending := by
  rcases exec_symbolInUp_cases h with rfl | ⟨u, hu, rfl⟩
  · rfl
  · calc (countInUp sym u).pending = u.pending := countInUp_pending sym u
      _ = (settle s).pending := symbolToRau_pending hu
      _ = s.pending := settle_pending s

theorem exec_quietTimerExpiry_pending {s t : State} (h : exec .quietTimerExpiry s = .next t) :
    t.pending = s.pending := by
  rcases exec_quietTimerExpiry_cases h with rfl | rfl
  · rfl
  · exact (linkDown_pending _).trans (settle_pending s)

/-! ### What the station sends -/

theorem startForward_pending (s : State) : (startForward s).pending = s.pending := by
  unfold startForward
  repeat' split
  all_goals rfl

theorem endForward_pending (s : State) : (endForward s).pending = s.pending := by
  unfold endForward
  repeat' split
  all_goals rfl

theorem exec_insertionStart_pending {s t : State} (h : exec .insertionStart s = .next t) :
    t.pending = s.pending := by
  rcases exec_insertionStart_cases h with rfl | ⟨-, ⟨_, _, -, rfl⟩ | ⟨_, _, _, _, -, -, -, -, rfl⟩⟩ <;> rfl

/-- The end of a BLOCK's insertion may end its run, which is an operation of the Run Engine (R42). -/
theorem endInsertion_pending (s : State) : (endInsertion s).pending = s.pending := by
  unfold endInsertion
  split
  · dsimp only
    split
    · exact (blockInsertionEnds_runStep _ _).pending
    · rfl
  all_goals rfl

theorem thresholdExpires_pending (s : State) : (thresholdExpires s).pending = s.pending := by
  unfold thresholdExpires
  split <;> rfl

theorem holdExpires_pending (s : State) : (holdExpires s).pending = s.pending := by
  unfold holdExpires
  split <;> rfl

theorem startPeriodExpires_pending (s : State) : (startPeriodExpires s).pending = s.pending := by
  unfold startPeriodExpires
  split
  · exact (CoreStep.beginBeacons { s with tx := { state := .run, startTimer := none } }).pending
  · rfl

/-! ### The Local Port and the resets -/

theorem LocalShape.pending {s t : State} (h : LocalShape s t) : t.pending = s.pending := by
  unfold LocalShape at h
  rw [h]

theorem releaseReset_pending (stn rsz : BitVec 4) (tcl : BitVec 2) (csLow : Bool) (s : State) :
    (releaseReset stn rsz tcl csLow s).pending = s.pending := by
  unfold releaseReset
  split <;> rfl

theorem softReset_pending (s : State) :
    (takeCommand (fun c => c = codeSoftReset) (fun _ t => softResetTaken t) s).pending = s.pending := by
  rcases takeCommand_cases (fun c => c = codeSoftReset) (fun _ t => softResetTaken t) s with
    h | ⟨_, rest, -, -, h⟩ <;> rw [h]
  rw [softResetTaken_eq]

/-! ### Every command -/

/-- Settles O3: the engines and the Command Unit by `CoreStep`, the Local Port by `LocalShape`, and the ring's rows and
the resets one by one. A hardware reset leaves the queue standing (log 17). -/
theorem commandsKeepTheQueue : Obligations.CommandsKeepTheQueue := by
  intro c s t h
  have guarded {p : Prop} [Decidable p] {u : State} (hu : u.pending = s.pending)
      (h : (if p then .next u else .next s : Host.Outcome State Fault Refusal) = .next t) : t.pending = s.pending := by
    split at h <;> cases h
    · exact hu
    · rfl
  by_cases hcore : coreCommand c = true
  · exact (exec_coreStep hcore h).pending
  by_cases hlocal : localPortRow c = true
  · exact (exec_localPortRow hlocal h).pending
  cases c <;> first | exact absurd rfl hcore | exact absurd rfl hlocal | skip
  case resetNAsserted => cases h; rfl
  case resetNReleased stn rsz tcl csLow => cases h; exact releaseReset_pending stn rsz tcl csLow s
  case startPeriodExpiry => cases h; exact startPeriodExpires_pending s
  case symbolInDown sym => exact guarded (takeInDown_pending sym s) h
  case symbolInAlign sym => exact guarded (takeInAlign_pending sym s) h
  case symbolInUp => exact exec_symbolInUp_pending h
  case quietTimerExpiry => exact exec_quietTimerExpiry_pending h
  case headerDecision => cases h; exact decidePending_pending s
  case forwardStart => cases h; exact startForward_pending s
  case forwardEnd => cases h; exact endForward_pending s
  case insertionStart => exact exec_insertionStart_pending h
  case insertionEnd => cases h; exact endInsertion_pending s
  case yieldThresholdExpiry => cases h; exact thresholdExpires_pending s
  case yieldHoldExpiry => cases h; exact holdExpires_pending s
  case softReset => cases h; exact softReset_pending s

end Sys2Proof.Machine
end
